-- ==== Sys2Proof/Word.lean ====
section
/-! DEFINITION. The word types of the FL3296: window registers, bytes, bus addresses, and the small
numbers that index its tables. -/

namespace Sys2Proof

/-- A window register: 16 bits, bit 0 the least significant (00_scope.md 2.3). -/
abbrev Word := BitVec 16

/-- One byte lane, a generation or a command code. -/
abbrev Byte := BitVec 8

/-- A 24-bit byte address (00_scope.md 2.3). -/
abbrev Addr := BitVec 24

/-- A record number, 0..95 (R1). -/
abbrev RecNo := Fin 96

/-- A source number, 0..39: REQ0..REQ31, then G0..G7 (R53). -/
abbrev SourceNo := Fin 40

/-- A request line, REQ0..REQ31. -/
abbrev LineNo := Fin 32

/-- A generator, G0..G7 (R72). -/
abbrev GenNo := Fin 8

/-- An urgency level, 0 the most urgent (R10). -/
abbrev Urgency := Fin 8

/-- A service rank, 0 served first (R10). -/
abbrev Rank := Fin 4

end Sys2Proof
end

