-- ==== Sys2Proof/Syntax.lean ====
section
/-! DEFINITION. The commands and events of the part, one constructor for each row of
spec/opcode_table.json. A command takes its arguments from ARG0..ARG2, which are registers, so the
command constructors have no operand. -/

namespace Sys2Proof

/-- The byte lanes an access carries: `low` is LBE_n asserted, `high` is UBE_n asserted (R194). -/
structure Lanes where
  low : Bool
  high : Bool
  deriving DecidableEq, Repr

/-- A full 16-bit access. -/
def Lanes.both : Lanes := ⟨true, true⟩

/-- A read access of the window: the offset on A6:1 and the lane strobes (R194, R195). -/
structure ReadAccess where
  offset : BitVec 7
  lanes : Lanes
  deriving DecidableEq, Repr

/-- The strobes of an access that WR_n marks: its lanes, and whether RD_n too is sampled asserted at its first edge,
which makes it neither a read nor a write (R194, R195). -/
structure WriteStrobes where
  lanes : Lanes
  read : Bool
  deriving DecidableEq, Repr

/-- A level an input pin holds: at two successive rising edges of CLK when `held`, else at one (R202). -/
structure PinLevel where
  high : Bool
  held : Bool
  deriving DecidableEq, Repr

/-- The ten edit registers of the staging image, offsets 0x10 to 0x22 (R191). -/
inductive EditReg where
  | srcL | srcH | dstL | dstH | count | reload | quant | mode | succ | level
  deriving DecidableEq, Repr

/-- The steps of the part. -/
inductive Instr where
  /-- ALLOCATE, R26. -/
  | allocate
  /-- FETCH, R28. -/
  | fetch
  /-- STORE, R32. -/
  | store
  /-- ARM, R36. -/
  | arm
  /-- HOLD, R39. -/
  | hold
  /-- RETIRE, R42. -/
  | retire
  /-- WIPE, R50. -/
  | wipe
  /-- TRIGGER, R69. -/
  | trigger
  /-- BIND, R56. -/
  | bind
  /-- UNBIND, R60. -/
  | unbind
  /-- BIND_READ, R61. -/
  | bindRead
  /-- GEN_SET, R80. -/
  | genSet
  /-- GEN_START, R81. -/
  | genStart
  /-- GEN_STOP, R83. -/
  | genStop
  /-- GEN_READ, R84. -/
  | genRead
  /-- ENGINE_GO, R95. -/
  | engineGo
  /-- ENGINE_STOP, R96. -/
  | engineStop
  /-- CLOSE, R172. -/
  | close
  /-- SET_FLOOR, R175. -/
  | setFloor
  /-- UNKNOWN, R183: an unassigned code. -/
  | unknown (code : Byte)
  /-- COMMAND_REFUSED, R182: a CMD write of `code` on its own, apart from its owner's claim. -/
  | commandRefused (code : Byte)
  /-- EDIT_REGISTER_WRITE, R187. -/
  | editRegisterWrite (reg : EditReg) (lanes : Lanes) (value : Word)
  /-- REGISTER_WRITE, R185 and R189: a write at a window offset. With both strobes asserted it is the access of R195
that is neither a read nor a write, which has no row of its own (log 22). -/
  | registerWrite (offset : BitVec 7) (strobes : WriteStrobes) (value : Word)
  /-- TAKE, R165: a read access addressing NTAKE. At another offset it is the read of that register, which has no row
  of its own (R195, log 24). -/
  | take (access : ReadAccess)
  /-- NPEEK_READ, R167. -/
  | npeekRead
  /-- PIN_RESET, R193: RESET_n is asserted. -/
  | pinReset
  /-- RESET_NEGATION, R193: RESET_n is negated; the first samples of REQ31:0 and TICK (R70, R75). -/
  | resetNegation (lines : BitVec 32) (tick : Bool)
  /-- REQ_EDGE, R63, R202: request line `line` is sampled at a level, which becomes its sample once it has been seen
  at two successive edges of CLK. -/
  | reqEdge (line : LineNo) (level : PinLevel)
  /-- INTERNAL_TICK, R74. -/
  | internalTick
  /-- EXTERNAL_TICK, R75, R202: TICK is sampled at a level, as a request line is; a rise of its sample is a tick. -/
  | externalTick (level : PinLevel)
  /-- GENERATOR_EXPIRY, R76: the tick claim that brings generator `gen` to 0. -/
  | generatorExpiry (gen : GenNo)
  /-- HEAD_START, R90. -/
  | headStart
  /-- BUS_REQUEST, R197. -/
  | busRequest
  /-- GRANT_TAKEN, R197. -/
  | grantTaken
  /-- READ_COMPLETE, R198: RDY_n on the read, with D15:0 as the source drives it. -/
  | readComplete (data : Word)
  /-- WRITE_COMPLETE, R198. -/
  | writeComplete
  /-- BUS_ERROR, R200. -/
  | busError
  /-- WAIT_LIMIT_EXPIRY, R200. -/
  | waitLimitExpiry
  /-- WRITE_BACK, R114. -/
  | writeBack
  /-- FAULT_WRITE_BACK, R149. -/
  | faultWriteBack
  /-- LINK_RESOLUTION, R130. -/
  | linkResolution
  /-- APPLIED_AFRESH, R126. -/
  | appliedAfresh
  /-- SLAVE_STROBE_NEGATED, R195. -/
  | slaveStrobeNegated
  deriving DecidableEq, Repr

end Sys2Proof
end

