-- ==== Sys2Proof/Decode.lean ====
section
/-! DEFINITION. The words that spell commands: the CMD register of 10.7. No row of spec/opcode_table.json gives bits;
an event is named by what happens at a pin. -/

namespace Sys2Proof

/-- The command of a code written to CMD: the table of 10.7, and UNKNOWN for every other code (R183, R191). -/
def commandOfCode (code : Byte) : Instr :=
  match code.toNat with
  | 0x01 => .allocate
  | 0x02 => .fetch
  | 0x03 => .store
  | 0x04 => .arm
  | 0x05 => .hold
  | 0x06 => .retire
  | 0x07 => .trigger
  | 0x08 => .wipe
  | 0x10 => .bind
  | 0x11 => .unbind
  | 0x12 => .bindRead
  | 0x20 => .genSet
  | 0x21 => .genStart
  | 0x22 => .genStop
  | 0x23 => .genRead
  | 0x30 => .engineGo
  | 0x31 => .engineStop
  | 0x40 => .close
  | 0x41 => .setFloor
  | _ => .unknown code

/-- A word of CMD: bits 7:0 the code, bits 15:8 ignored (R181, R191). A word of one byte carries the low lane alone.
No other width spells a command (log 20). -/
def decodeTableWord (nbits w : Nat) : Option Instr :=
  if nbits = 16 ∨ nbits = 8 then some (commandOfCode (BitVec.ofNat 8 w)) else none

end Sys2Proof
end

