-- ==== Sys2Proof/Config.lean ====
section
/-! DEFINITION. The fixed figures of the part (00_scope.md 2.5). The spec leaves no value free after a step
that goes on, so there is no opaque constant here. -/

namespace Sys2Proof.Config

/-- The latch counts up to four waiting triggers (R11). -/
def latchDepth : Nat := 4

/-- Places of the notice queue (R162). -/
def queuePlaces : Nat := 32

/-- A service starts only with the queue holding this many notices or fewer (R91). -/
def queueRoom : Nat := 30

/-- No activation runs more services than this (R131). -/
def depthLimit : Nat := 12

/-- CLK periods of one internal tick (R74). -/
def tickDivide : Nat := 64

/-- Rising edges of CLK a master access waits for RDY_n (R200). -/
def waitLimit : Nat := 256

/-- Rising edges of CLK for which BREQ_n stays negated after a release (R197). -/
def spacingEdges : Nat := 2

/-- Rising edges of CLK after the negation of RESET_n at which an access first sampled gets no RDY_n (R193). -/
def holdOffEdges : Nat := 3

/-- What a read-back register holds for "none" (00_scope.md 2.3). -/
def noHandle : Word := 0xFFFF

end Sys2Proof.Config
end

