-- ==== Sys2Proof/Machine/State.lean ====
section
/-! DEFINITION. The state of the part, as plain data, block by block (00_scope.md 1.2), and its value
after pin reset. -/

namespace Sys2Proof.Machine

/-! ### The record store -/

/-- Lifecycle states (R16). -/
inductive RecState where
  | free | draft | armed | active | held | spent | faulted
  deriving DecidableEq, Repr

/-- How an address moves after a counted unit (R5). -/
inductive AddrStep where
  | fixed | ascend | descend | ascendReturn
  deriving DecidableEq, Repr

/-- Unit sizes (R5). -/
inductive UnitSize where
  | byte | word
  deriving DecidableEq, Repr

/-- The number of units one service moves (R6). -/
inductive Quantum where
  | drain
  | units (n : Word)
  deriving DecidableEq, Repr

/-- Exhaustion policies (R8). -/
inductive Policy where
  | park | retire | reload
  deriving DecidableEq, Repr

/-- Notice policies (R10). -/
inductive NoticePolicy where
  | none | onEnd | each
  deriving DecidableEq, Repr

/-- Successor conditions (R9). -/
inductive Condition where
  | always | onExhausted | onRemaining
  deriving DecidableEq, Repr

/-- One allocation of one record (R14). -/
structure Handle where
  num : RecNo
  gen : Byte
  deriving DecidableEq, Repr

/-- A present successor field (R9). -/
structure Successor where
  condition : Condition
  handle : Handle
  deriving DecidableEq, Repr

/-- Fault causes (R145). -/
inductive FaultCause where
  | busRead | busWrite | range
  deriving DecidableEq, Repr

/-- The fault part of a FAULTED record (R13). -/
structure FaultPart where
  cause : FaultCause
  addr : Addr
  deriving DecidableEq, Repr

/-- The edit fields (R3), less count, which is a progress field too. -/
structure EditFields where
  srcStart : Addr
  dstStart : Addr
  srcStep : AddrStep
  dstStep : AddrStep
  unit : UnitSize
  quantum : Quantum
  reload : Option Word
  policy : Policy
  successor : Option Successor
  notice : NoticePolicy
  urgency : Urgency
  rank : Rank
  deriving DecidableEq, Repr

/-- A transfer record (R3). -/
structure Record where
  state : RecState
  gen : Byte
  edit : EditFields
  srcCur : Addr
  dstCur : Addr
  count : Word
  latch : Nat
  overrun : Bool
  fault : Option FaultPart
  deriving DecidableEq, Repr

/-! ### Bindings and generators -/

/-- How a bound source is observed (R54). -/
inductive Sense where
  | rising | falling | high | low
  deriving DecidableEq, Repr

/-- An entry of the binding table that is not empty (R54). -/
structure Binding where
  handle : Handle
  sense : Sense
  deriving DecidableEq, Repr

/-- Generator modes (R72). -/
inductive GenMode where
  | once | periodic | alternate
  deriving DecidableEq, Repr

/-- Tick sources (R72). -/
inductive TickSource where
  | internal | external
  deriving DecidableEq, Repr

/-- Generator phases (R72). -/
inductive Phase where
  | a | b
  deriving DecidableEq, Repr

/-- A generator context (R72). -/
structure Generator where
  running : Bool
  mode : GenMode
  source : TickSource
  periodA : Word
  periodB : Word
  phase : Phase
  remaining : Word
  deriving DecidableEq, Repr

/-! ### The engine -/

/-- Why a service ended (R102, R110, R145). -/
inductive EndCause where
  | exhausted | quantum | cut
  | fault (cause : FaultCause) (addr : Addr)
  deriving DecidableEq, Repr

/-- The working copy of the running service (R102). -/
structure Working where
  handle : Handle
  edit : EditFields
  srcCur : Addr
  dstCur : Addr
  count : Word
  moved : Word
  endCause : Option EndCause
  deriving DecidableEq, Repr

/-- The commands that can be deferred (R45). -/
inductive DeferredKind where
  | hold | retire
  deriving DecidableEq, Repr

/-- The engine's reference to a deferred command (R45). -/
structure Deferred where
  kind : DeferredKind
  handle : Handle
  deriving DecidableEq, Repr

/-- Resolution stages of a link in hand (R128). -/
inductive Stage where
  | due | waiting
  deriving DecidableEq, Repr

/-- The link in hand (R128). -/
structure Link where
  pred : Handle
  urgency : Urgency
  succ : Handle
  stage : Stage
  deriving DecidableEq, Repr

/-- The activation context (R128), kept from the head start to the end of the activation. -/
structure Activation where
  depth : Nat
  work : Option Working
  deferred : Option Deferred
  link : Option Link
  deriving DecidableEq, Repr

/-- Engine activity (R87). -/
inductive Activity where
  | idle | running | stalled
  deriving DecidableEq, Repr

/-! ### The notice unit -/

/-- The fields of a notice that depend on its kind (R160). -/
inductive NoticeKind where
  | serviceDone (overrun : Bool) (moved : Word)
  | exhausted (overrun : Bool) (moved : Word)
  | fault (overrun : Bool) (moved : Word) (part : FaultPart)
  | linkBroken (succ : Handle)
  | chainLimit (succ : Handle)
  deriving DecidableEq, Repr

/-- A notice (R160). -/
structure Notice where
  handle : Handle
  urgency : Urgency
  kind : NoticeKind
  deriving DecidableEq, Repr

/-- The notice unit (chapter 9). -/
structure NoticeUnit where
  queue : List Notice
  inService : Byte
  floor : Fin 9
  note : Bool
  nhHandle : Word
  nhUnits : Word
  nhAux : Word
  nhAddrL : Word
  deriving DecidableEq, Repr

/-! ### The command port -/

/-- Port states (R180); `code` is the code of the command being served. -/
inductive PortState where
  | ready
  | busy (code : Byte)
  | waiting (code : Byte)
  deriving DecidableEq, Repr

/-- Three arguments: the registers ARG0..ARG2, or the argument latch (R185). -/
structure Args where
  a0 : Word
  a1 : Word
  a2 : Word
  deriving DecidableEq, Repr

/-- The command port (chapter 10). `stopHandle` is what a waiting ENGINE_STOP will report in RVAL1
(R96, R97). -/
structure Port where
  state : PortState
  refused : Bool
  args : Args
  latched : Args
  result : Word
  rval0 : Word
  rval1 : Word
  stopHandle : Option Word
  deriving DecidableEq, Repr

/-- The edit registers of the staging image, 0x10 to 0x22 (R187). -/
structure EditImage where
  srcL : Word
  srcH : Word
  dstL : Word
  dstH : Word
  count : Word
  reload : Word
  quant : Word
  mode : Word
  succ : Word
  level : Word
  deriving DecidableEq, Repr

/-- The read-back registers of the staging image, 0x24 to 0x32 (R188). -/
structure ReadBack where
  state : Word
  curSL : Word
  curSH : Word
  curDL : Word
  curDH : Word
  fault : Word
  faddrL : Word
  handle : Word
  deriving DecidableEq, Repr

/-! ### The bus interface -/

/-- Ownership of the local bus (R197). -/
inductive Ownership where
  | released | requesting | owner
  deriving DecidableEq, Repr

/-- A unit request of the engine (R107). -/
structure UnitRequest where
  unit : UnitSize
  src : Addr
  dst : Addr
  deriving DecidableEq, Repr

/-- The half of the unit pair whose access is in progress (R198). -/
inductive Half where
  | read | write
  deriving DecidableEq, Repr

/-- A slave access the part has answered with RDY_n: for a read, the word it drives on D15:0 (R195). -/
structure SlaveAccess where
  driven : Option Word
  deriving DecidableEq, Repr

/-- The bus interface (chapter 11). -/
structure Bus where
  ownership : Ownership
  request : Option UnitRequest
  access : Option Half
  timer : Nat
  spacing : Nat
  pair : Word
  slave : Option SlaveAccess
  deriving DecidableEq, Repr

/-! ### The whole part -/

/-- The state of the part, and the queue of steps waiting to be taken. -/
structure State where
  /-- RESET_n is asserted (R193). -/
  inReset : Bool
  /-- Rising edges of CLK left, after the negation of RESET_n, at which an access gets no RDY_n (R193). -/
  holdOff : Nat
  records : Vector Record 96
  bindings : Vector (Option Binding) 40
  /-- The sample of each of REQ31:0, 1 for high: the level last seen at two successive edges of CLK (R63, R202). -/
  lines : BitVec 32
  /-- The level of each of REQ31:0 at the last edge of CLK, not yet its sample where they differ (R202). -/
  levels : BitVec 32
  gens : Vector Generator 8
  /-- CLK periods counted since the last internal tick (R74). -/
  divider : Nat
  /-- The sample of TICK (R75, R202). -/
  tickLine : Bool
  /-- The level of TICK at the last edge of CLK (R202). -/
  tickLevel : Bool
  /-- The rotation pointers, one for each rank (R89). -/
  pointers : Vector RecNo 4
  /-- Engine enable, true for ON (R87). -/
  enable : Bool
  activity : Activity
  activation : Option Activation
  notices : NoticeUnit
  port : Port
  image : EditImage
  readBack : ReadBack
  bus : Bus
  /-- The steps waiting to be taken, first in, first out (the model's own; log 19). -/
  pending : List Instr
  deriving DecidableEq, Repr

/-- Why a step stops the machine. There is no such reason: the spec gives every step an effect in every
state, and a service fault is state of the part (log 1). Safe: nothing stops. -/
inductive Fault where
  deriving DecidableEq, Repr

/-- Why the model has no answer. -/
inductive Refusal where
  /-- Raised by an arm of `exec` whose step has no meaning yet; no arm raises it. Safe. -/
  | notModelled (mnemonic : String)
  deriving DecidableEq, Repr

/-! ### Reset -/

/-- Every field of a FREE record at its zero encoding (R22). -/
def EditFields.zero : EditFields where
  srcStart := 0
  dstStart := 0
  srcStep := .fixed
  dstStep := .fixed
  unit := .byte
  quantum := .drain
  reload := none
  policy := .park
  successor := none
  notice := .none
  urgency := 0
  rank := 0

/-- A FREE record of generation `gen`, all other fields at their zero encoding (R22, R23). -/
def Record.empty (gen : Byte) : Record where
  state := .free
  gen := gen
  edit := .zero
  srcCur := 0
  dstCur := 0
  count := 0
  latch := 0
  overrun := false
  fault := none

/-- A generator context after pin reset (R85). -/
def Generator.reset : Generator where
  running := false
  mode := .once
  source := .internal
  periodA := 0
  periodB := 0
  phase := .a
  remaining := 0

/-- The notice unit after pin reset (R178). -/
def NoticeUnit.reset : NoticeUnit where
  queue := []
  inService := 0
  floor := 8
  note := false
  nhHandle := 0
  nhUnits := 0
  nhAux := 0
  nhAddrL := 0

/-- The port after pin reset (R192). -/
def Port.reset : Port where
  state := .ready
  refused := false
  args := ⟨0, 0, 0⟩
  latched := ⟨0, 0, 0⟩
  result := 0
  rval0 := 0
  rval1 := 0
  stopHandle := none

/-- The edit registers after pin reset (R187). -/
def EditImage.reset : EditImage := ⟨0, 0, 0, 0, 0, 0, 0, 0, 0, 0⟩

/-- The read-back registers after pin reset (R188). -/
def ReadBack.reset : ReadBack := ⟨0, 0, 0, 0, 0, 0, 0, 0⟩

/-- The bus interface after pin reset (R193). The pair register's value is a DESIGN CHOICE (log 3). -/
def Bus.reset : Bus where
  ownership := .released
  request := none
  access := none
  timer := 0
  spacing := 0
  pair := 0
  slave := none

/-- The part after pin reset: RESET_n negated and the edges of R193 passed, so that it serves accesses, the first
samples of REQ31:0 and TICK low (DESIGN CHOICE, log 2), nothing pending. -/
def State.reset : State where
  inReset := false
  holdOff := 0
  records := Vector.replicate 96 (Record.empty 0)
  bindings := Vector.replicate 40 none
  lines := 0
  levels := 0
  gens := Vector.replicate 8 Generator.reset
  divider := 0
  tickLine := false
  tickLevel := false
  pointers := Vector.replicate 4 95
  enable := false
  activity := .idle
  activation := none
  notices := .reset
  port := .reset
  image := .reset
  readBack := .reset
  bus := .reset
  pending := []

end Sys2Proof.Machine
end

