-- ==== Sys2Proof/Machine/Operands.lean ====
section
/-! DEFINITION. The encodings of chapter 10.7: codes of every enumerated field, handles, the fields of the
staging image, and the arguments of the commands. -/

namespace Sys2Proof.Machine

/-! ### Bit fields -/

/-- The field of `w` that starts at bit `lo` and is `width` bits wide. -/
def bitField (w : Word) (lo width : Nat) : Nat := w.toNat / 2 ^ lo % 2 ^ width

/-- Bits 15:0 of an address, as its low register holds it (R191). -/
def addrLow (a : Addr) : Word := BitVec.ofNat 16 (a.toNat % 65536)

/-- Bits 23:16 of an address, in bits 7:0 of its high register (R191). -/
def addrHigh (a : Addr) : Word := BitVec.ofNat 16 (a.toNat / 65536)

/-- The address held by a low and a high register (R191). -/
def addrOf (low high : Word) : Addr := BitVec.ofNat 24 (high.toNat % 256 * 65536 + low.toNat)

/-- The bytes of `new` on the lanes an access carries, the rest from `old` (R185, R187). -/
def mergeLanes (old new : Word) (lanes : Lanes) : Word :=
  BitVec.ofNat 16
    ((if lanes.high then new.toNat / 256 else old.toNat / 256) * 256 +
     (if lanes.low then new.toNat % 256 else old.toNat % 256))

/-! ### Handles -/

/-- A handle as a register value: generation in bits 15:8, record number in bits 7:0 (R14). -/
def Handle.word (h : Handle) : Word := BitVec.ofNat 16 (h.gen.toNat * 256 + h.num.val)

/-- The handle a register value names, or `none` where the record number is above 95 (R15 step 1). -/
def Handle.ofWord (w : Word) : Option Handle :=
  if h : w.toNat % 256 < 96 then some ⟨⟨w.toNat % 256, h⟩, BitVec.ofNat 8 (w.toNat / 256)⟩ else none

/-! ### Codes -/

/-- State codes of IM_STATE and RVAL1 (R191). -/
def RecState.code : RecState → Nat
  | .free => 0
  | .draft => 1
  | .armed => 2
  | .active => 3
  | .held => 4
  | .spent => 5
  | .faulted => 6

/-- Step codes of IM_MODE (R191). -/
def AddrStep.code : AddrStep → Nat
  | .fixed => 0
  | .ascend => 1
  | .descend => 2
  | .ascendReturn => 3

/-- The step of a 2-bit code. -/
def AddrStep.ofCode : Nat → AddrStep
  | 0 => .fixed
  | 1 => .ascend
  | 2 => .descend
  | _ => .ascendReturn

/-- Unit codes of IM_MODE (R191). -/
def UnitSize.code : UnitSize → Nat
  | .byte => 0
  | .word => 1

/-- The unit of a 1-bit code. -/
def UnitSize.ofCode : Nat → UnitSize
  | 0 => .byte
  | _ => .word

/-- Bytes of one unit (R5). -/
def UnitSize.bytes : UnitSize → Nat
  | .byte => 1
  | .word => 2

/-- Policy codes of IM_MODE (R191). -/
def Policy.code : Policy → Nat
  | .park => 0
  | .retire => 1
  | .reload => 2

/-- The policy of a code, for the codes 0..2 that check POLICY lets through (R20). -/
def Policy.ofCode : Nat → Policy
  | 0 => .park
  | 1 => .retire
  | _ => .reload

/-- Notice policy codes of IM_MODE (R191). -/
def NoticePolicy.code : NoticePolicy → Nat
  | .none => 0
  | .onEnd => 1
  | .each => 2

/-- The notice policy of a code, for the codes 0..2 that check NOTICE lets through (R20). -/
def NoticePolicy.ofCode : Nat → NoticePolicy
  | 0 => .none
  | 1 => .onEnd
  | _ => .each

/-- Successor condition codes of IM_MODE; 0 is absent (R191). -/
def Condition.code : Condition → Nat
  | .always => 1
  | .onExhausted => 2
  | .onRemaining => 3

/-- The condition of a 2-bit code; 0 is absent. -/
def Condition.ofCode : Nat → Option Condition
  | 0 => none
  | 1 => some .always
  | 2 => some .onExhausted
  | _ => some .onRemaining

/-- The condition code of a successor field, 0 when it is absent. -/
def conditionCode : Option Successor → Nat
  | none => 0
  | some x => x.condition.code

/-- The quantum register, 0 for DRAIN (R6). -/
def Quantum.word : Quantum → Word
  | .drain => 0
  | .units n => n

/-- The quantum a register value encodes. -/
def Quantum.ofWord (w : Word) : Quantum := if w = 0 then .drain else .units w

/-- Fault cause codes of IM_FAULT and NH_AUX; 0 is none (R191). -/
def FaultCause.code : FaultCause → Nat
  | .busRead => 1
  | .busWrite => 2
  | .range => 3

/-- Sense codes of BIND ARG2 (R55). -/
def Sense.code : Sense → Nat
  | .rising => 0
  | .falling => 1
  | .high => 2
  | .low => 3

/-- The sense of a code, for the codes 0..3 that BIND lets through (R56). -/
def Sense.ofCode : Nat → Sense
  | 0 => .rising
  | 1 => .falling
  | 2 => .high
  | _ => .low

/-- Mode codes of GEN_SET (R78). -/
def GenMode.code : GenMode → Nat
  | .once => 0
  | .periodic => 1
  | .alternate => 2

/-- The mode of a code, for the codes 0..2 that GEN_SET lets through (R80). -/
def GenMode.ofCode : Nat → GenMode
  | 0 => .once
  | 1 => .periodic
  | _ => .alternate

/-- Tick source codes (R78). -/
def TickSource.code : TickSource → Nat
  | .internal => 0
  | .external => 1

/-- The tick source of a 1-bit code. -/
def TickSource.ofCode : Nat → TickSource
  | 0 => .internal
  | _ => .external

/-- Phase codes of the generator status word (R191). -/
def Phase.code : Phase → Nat
  | .a => 0
  | .b => 1

/-- Activity codes of PSTAT and ENGINE_STOP (R191). -/
def Activity.code : Activity → Nat
  | .idle => 0
  | .running => 1
  | .stalled => 2

/-- Port state codes of PSTAT (R191). -/
def PortState.code : PortState → Nat
  | .ready => 0
  | .busy _ => 1
  | .waiting _ => 2

/-- Result codes (R184). -/
inductive ResultCode where
  | ok | full | stale | state | invalid | bound | unbound | range | notInService | engineOn | unknown
  deriving DecidableEq, Repr

/-- The numeric result codes of 10.3 (R184). -/
def ResultCode.code : ResultCode → Nat
  | .ok => 0
  | .full => 1
  | .stale => 2
  | .state => 3
  | .invalid => 4
  | .bound => 5
  | .unbound => 6
  | .range => 7
  | .notInService => 8
  | .engineOn => 9
  | .unknown => 10

/-- The command codes of the CMD table (R191). -/
def codeAllocate : Byte := 0x01
def codeFetch : Byte := 0x02
def codeStore : Byte := 0x03
def codeArm : Byte := 0x04
def codeHold : Byte := 0x05
def codeRetire : Byte := 0x06
def codeTrigger : Byte := 0x07
def codeWipe : Byte := 0x08
def codeBind : Byte := 0x10
def codeUnbind : Byte := 0x11
def codeBindRead : Byte := 0x12
def codeGenSet : Byte := 0x20
def codeGenStart : Byte := 0x21
def codeGenStop : Byte := 0x22
def codeGenRead : Byte := 0x23
def codeEngineGo : Byte := 0x30
def codeEngineStop : Byte := 0x31
def codeClose : Byte := 0x40
def codeSetFloor : Byte := 0x41

/-- The codes above, all the CMD table assigns; any other is UNKNOWN (R183). -/
def codeAssigned (code : Byte) : Bool :=
  [codeAllocate, codeFetch, codeStore, codeArm, codeHold, codeRetire, codeTrigger, codeWipe,
   codeBind, codeUnbind, codeBindRead, codeGenSet, codeGenStart, codeGenStop, codeGenRead,
   codeEngineGo, codeEngineStop, codeClose, codeSetFloor].contains code

/-- The code of the command a deferred reference holds. -/
def DeferredKind.command : DeferredKind → Byte
  | .hold => codeHold
  | .retire => codeRetire

/-! ### Arguments -/

/-- A source argument, or `none` above 39 (R186). -/
def sourceArg (w : Word) : Option SourceNo := if h : w.toNat < 40 then some ⟨w.toNat, h⟩ else none

/-- A sense argument, or `none` above 3 (R186). -/
def senseArg (w : Word) : Option Sense := if w.toNat ≤ 3 then some (Sense.ofCode w.toNat) else none

/-- A generator argument, or `none` above 7 (R186). -/
def genArg (w : Word) : Option GenNo := if h : w.toNat < 8 then some ⟨w.toNat, h⟩ else none

/-- The generator field of GEN_SET's ARG0, bits 3:0 (R191). -/
def genField (w : Word) : Option GenNo :=
  if h : bitField w 0 4 < 8 then some ⟨bitField w 0 4, h⟩ else none

/-- A floor argument, or `none` above 8 (R186). -/
def floorArg (w : Word) : Option (Fin 9) := if h : w.toNat < 9 then some ⟨w.toNat, h⟩ else none

/-! ### The staging image -/

/-- IM_MODE of a record's edit fields; bits 15:12 read 0 (R29, R191). -/
def modeWord (e : EditFields) : Word :=
  BitVec.ofNat 16
    (e.srcStep.code + e.dstStep.code * 4 + e.unit.code * 16 + e.policy.code * 32 +
     e.notice.code * 128 + conditionCode e.successor * 512 + e.reload.isSome.toNat * 2048)

/-- IM_LEVEL of a record's edit fields (R29, R191). -/
def levelWord (e : EditFields) : Word := BitVec.ofNat 16 (e.urgency.val + e.rank.val * 16)

/-- The edit registers FETCH loads (R29). -/
def EditImage.ofRecord (r : Record) : EditImage where
  srcL := addrLow r.edit.srcStart
  srcH := addrHigh r.edit.srcStart
  dstL := addrLow r.edit.dstStart
  dstH := addrHigh r.edit.dstStart
  count := r.count
  reload := r.edit.reload.getD 0
  quant := r.edit.quantum.word
  mode := modeWord r.edit
  succ := (r.edit.successor.map (·.handle.word)).getD 0
  level := levelWord r.edit

/-- Whether the image marks the reload present, IM_MODE bit 11 (R191). -/
def EditImage.reloadPresent (m : EditImage) : Bool := bitField m.mode 11 1 == 1

/-- The reload field the image encodes (R8). -/
def EditImage.reloadField (m : EditImage) : Option Word :=
  if m.reloadPresent then some m.reload else none

/-- The successor field the image encodes (R9). -/
def EditImage.successorField (m : EditImage) : Option Successor :=
  match Condition.ofCode (bitField m.mode 9 2) with
  | none => none
  | some c => (Handle.ofWord m.succ).map (fun h => ⟨c, h⟩)

/-- The edit fields STORE copies from the image (R33). -/
def EditImage.fields (m : EditImage) : EditFields where
  srcStart := addrOf m.srcL m.srcH
  dstStart := addrOf m.dstL m.dstH
  srcStep := AddrStep.ofCode (bitField m.mode 0 2)
  dstStep := AddrStep.ofCode (bitField m.mode 2 2)
  unit := UnitSize.ofCode (bitField m.mode 4 1)
  quantum := Quantum.ofWord m.quant
  reload := m.reloadField
  policy := Policy.ofCode (bitField m.mode 5 2)
  successor := m.successorField
  notice := NoticePolicy.ofCode (bitField m.mode 7 2)
  urgency := ⟨bitField m.level 0 3, Nat.mod_lt _ (by decide)⟩
  rank := ⟨bitField m.level 4 2, Nat.mod_lt _ (by decide)⟩

/-- Whether an address is odd, for check ALIGN. -/
def addrOdd (a : Addr) : Bool := a.toNat % 2 == 1

/-- The first STORE check that the image fails, by its field code (R20). -/
def EditImage.failingCheck (m : EditImage) : Option Nat :=
  if bitField m.srcH 8 8 ≠ 0 ∨ bitField m.dstH 8 8 ≠ 0 then some 2
  else if 256 < m.quant.toNat then some 3
  else if bitField m.mode 4 1 = 1 ∧
      (addrOdd (addrOf m.srcL m.srcH) ∨ addrOdd (addrOf m.dstL m.dstH)) then some 4
  else if bitField m.mode 5 2 = 3 ∨ (bitField m.mode 5 2 = 2 ∧ m.reloadPresent = false) then some 5
  else if m.reloadPresent = true ∧ m.reload = 0 then some 6
  else if bitField m.mode 7 2 = 3 then some 7
  else if bitField m.mode 9 2 ≠ 0 ∧ (Handle.ofWord m.succ).isNone then some 8
  else if bitField m.level 3 1 ≠ 0 ∨ bitField m.level 6 10 ≠ 0 then some 9
  else none

/-- The first of ARM's checks that the stored record fails: 2 to 9, then 1 (R21). Checks 2, 7, 8 and 9 hold
of every value these fields can hold. -/
def Record.failingCheck (r : Record) : Option Nat :=
  if 256 < r.edit.quantum.word.toNat then some 3
  else if r.edit.unit = .word ∧ (addrOdd r.edit.srcStart ∨ addrOdd r.edit.dstStart) then some 4
  else if r.edit.policy = .reload ∧ r.edit.reload = none then some 5
  else if r.edit.reload = some 0 then some 6
  else if r.count = 0 then some 1
  else none

/-- The defaults ALLOCATE loads (R19). -/
def EditFields.default : EditFields where
  srcStart := 0
  dstStart := 0
  srcStep := .fixed
  dstStep := .fixed
  unit := .byte
  quantum := .units 1
  reload := none
  policy := .park
  successor := none
  notice := .onEnd
  urgency := 7
  rank := 3

/-- A newly allocated record of generation `gen` (R19). -/
def Record.allocated (gen : Byte) : Record where
  state := .draft
  gen := gen
  edit := .default
  srcCur := 0
  dstCur := 0
  count := 0
  latch := 0
  overrun := false
  fault := none

end Sys2Proof.Machine
end

