-- ==== Sys2Proof/Machine/Flags.lean ====
section
/-! DEFINITION. The conditions and status words the part computes from its state: eligibility, notice room,
NOTE_n, the level lines, ACTV, PSTAT, ISVC, the generator status word, the first notice word, and what a read of each
register returns. -/

namespace Sys2Proof.Machine

/-! ### The arbiter's and the engine's conditions -/

/-- A record is eligible when it is ARMED and its latch is 1 or more (R86). -/
def Record.eligible (r : Record) : Bool := r.state == .armed && 1 ≤ r.latch

/-- At least one record is eligible (R88 condition 3). -/
def State.anyEligible (s : State) : Bool := (List.finRange 96).any fun n => s.records[n].eligible

/-- The notice-room condition (R91). -/
def State.noticeRoom (s : State) : Bool := s.notices.queue.length ≤ Config.queueRoom

/-- The numbers that follow a rank's rotation pointer, the pointer's own number last (R89). -/
def rotation (pointer : RecNo) : List RecNo := (List.finRange 96).map fun k => pointer + 1 + k

/-- The first eligible record of rank `k` after that rank's pointer (R89 step 2). -/
def State.headOfRank (s : State) (k : Rank) : Option RecNo :=
  (rotation s.pointers[k]).find? fun n => s.records[n].eligible && s.records[n].edit.rank == k

/-- The head the arbiter chooses: the lowest rank first, then the rotation (R89). -/
def State.chosenHead (s : State) : Option RecNo := (List.finRange 4).findSome? s.headOfRank

/-- The lowest-numbered FREE record (R18). -/
def State.lowestFree (s : State) : Option RecNo :=
  (List.finRange 96).find? fun n => s.records[n].state == .free

/-! ### The binding unit -/

/-- Whether a level line with this sense stands at its active level; an edge sense has none (R65). -/
def Sense.levelActive (sense : Sense) (high : Bool) : Bool :=
  match sense with
  | .rising => false
  | .falling => false
  | .high => high
  | .low => !high

/-- The level last sampled on source `k`; a generator source has no line (R61). -/
def State.lineLevel (s : State) (k : SourceNo) : Bool := k.val < 32 && s.lines.getLsbD k.val

/-- Whether the entry of source `k` is a level line that stands at its active level. -/
def State.sourceActive (s : State) (k : SourceNo) : Bool :=
  match s.bindings[k] with
  | none => false
  | some b => k.val < 32 && b.sense.levelActive (s.lineLevel k)

/-- Whether the entry of source `k` names record `n` (R54). -/
def State.names (s : State) (k : SourceNo) (n : RecNo) : Bool :=
  match s.bindings[k] with
  | none => false
  | some b => b.handle.num == n

/-- The source whose entry names record `n`, if any (R54). -/
def State.sourceOf (s : State) (n : RecNo) : Option SourceNo :=
  (List.finRange 40).find? fun k => s.names k n

/-- Whether record `n` is bound to a level line that stands at its active level (R65). -/
def State.levelLineActive (s : State) (n : RecNo) : Bool :=
  match s.sourceOf n with
  | none => false
  | some k => s.sourceActive k

/-! ### The notice unit -/

/-- Whether a notice of this urgency is more urgent than every level in service (R176). -/
def moreUrgentThanAll (inService : Byte) (u : Urgency) : Bool :=
  (List.finRange 8).all fun l => !inService.getLsbD l.val || u < l

/-- The NOTE_n condition (R176): the head is below the floor and below every level in service. -/
def NoticeUnit.noteCondition (u : NoticeUnit) : Bool :=
  match u.queue with
  | [] => false
  | head :: _ => head.urgency.val < u.floor.val && moreUrgentThanAll u.inService head.urgency

/-- The lowest level number present in the in-service set (R173). -/
def lowestInService (inService : Byte) : Option Urgency :=
  (List.finRange 8).find? fun l => inService.getLsbD l.val

/-- The mask of one level of the in-service set. -/
def levelBit (l : Urgency) : Byte := BitVec.ofNat 8 (2 ^ l.val)

/-- The kind code of the first notice word (R191). -/
def NoticeKind.code : NoticeKind → Nat
  | .serviceDone _ _ => 1
  | .exhausted _ _ => 2
  | .fault _ _ _ => 3
  | .linkBroken _ => 4
  | .chainLimit _ => 5

/-- The overrun flag a notice carries; link kinds carry none and read 0 (R168). -/
def NoticeKind.overrun : NoticeKind → Bool
  | .serviceDone v _ => v
  | .exhausted v _ => v
  | .fault v _ _ => v
  | .linkBroken _ => false
  | .chainLimit _ => false

/-- The units moved a notice carries; link kinds read 0 (R168). -/
def NoticeKind.units : NoticeKind → Word
  | .serviceDone _ m => m
  | .exhausted _ m => m
  | .fault _ m _ => m
  | .linkBroken _ => 0
  | .chainLimit _ => 0

/-- A fault part as IM_FAULT and NH_AUX show it: cause in bits 1:0, address bits 23:16 in bits 15:8
(R191). -/
def FaultPart.word (f : FaultPart) : Word := BitVec.ofNat 16 (f.cause.code + f.addr.toNat / 65536 * 256)

/-- NH_AUX of a notice (R168). -/
def NoticeKind.aux : NoticeKind → Word
  | .serviceDone _ _ => 0
  | .exhausted _ _ => 0
  | .fault _ _ f => f.word
  | .linkBroken h => h.word
  | .chainLimit h => h.word

/-- NH_ADDRL of a notice (R168). -/
def NoticeKind.addrL : NoticeKind → Word
  | .serviceDone _ _ => 0
  | .exhausted _ _ => 0
  | .fault _ _ f => addrLow f.addr
  | .linkBroken _ => 0
  | .chainLimit _ => 0

/-- The first notice word of a notice (R191). -/
def Notice.firstWord (n : Notice) : Word :=
  BitVec.ofNat 16
    (n.kind.code + n.urgency.val * 8 + n.kind.overrun.toNat * 64 + n.handle.num.val * 128)

/-- The first notice word of the head, 0 for EMPTY (R166). -/
def NoticeUnit.headWord (u : NoticeUnit) : Word :=
  match u.queue with
  | [] => 0
  | n :: _ => n.firstWord

/-! ### Status words -/

/-- The working copy, present while a service is in flight (R102). -/
def State.working (s : State) : Option Working :=
  match s.activation with
  | none => none
  | some a => a.work

/-- ACTV: the handle of the record being served, or 0xFFFF (R103). -/
def State.actv (s : State) : Word :=
  match s.working with
  | none => Config.noHandle
  | some w => w.handle.word

/-- PSTAT (R190, R191). -/
def State.pstat (s : State) : Word :=
  BitVec.ofNat 16
    (s.port.state.code + s.port.refused.toNat * 4 + s.enable.toNat * 8 + s.activity.code * 16 +
     s.notices.note.toNat * 64 + s.notices.queue.length * 128)

/-- ISVC (R191). -/
def NoticeUnit.isvc (u : NoticeUnit) : Word := BitVec.ofNat 16 (u.inService.toNat + u.floor.val * 256)

/-- The status word of generator `g` (R79, R191). -/
def Generator.status (c : Generator) (g : GenNo) : Word :=
  BitVec.ofNat 16
    (g.val + c.running.toNat * 8 + c.mode.code * 16 + c.source.code * 64 + c.phase.code * 128)

/-- IM_STATE of record `n` (R30, R191). -/
def State.imState (s : State) (n : RecNo) : Word :=
  let r := s.records[n]
  let bound : Nat :=
    match s.sourceOf n with
    | none => 0
    | some k => 128 + k.val * 256
  BitVec.ofNat 16 (r.state.code + r.latch * 8 + r.overrun.toNat * 64 + bound)

/-- The read-back registers FETCH loads for record `n` (R30). -/
def State.readBackOf (s : State) (n : RecNo) : ReadBack :=
  let r := s.records[n]
  { state := s.imState n
    curSL := addrLow r.srcCur
    curSH := addrHigh r.srcCur
    curDL := addrLow r.dstCur
    curDH := addrHigh r.dstCur
    fault := (r.fault.map (·.word)).getD 0
    faddrL := (r.fault.map (addrLow ·.addr)).getD 0
    handle := (Handle.mk n r.gen).word }

/-! ### Register reads -/

/-- What a read of the window returns (R189 to R191). -/
def State.readWindow (s : State) (offset : BitVec 7) : Word :=
  match offset.toNat / 2 with
  | 1 => s.port.args.a0
  | 2 => s.port.args.a1
  | 3 => s.port.args.a2
  | 4 => s.port.result
  | 5 => s.port.rval0
  | 6 => s.port.rval1
  | 7 => s.pstat
  | 8 => s.image.srcL
  | 9 => s.image.srcH
  | 10 => s.image.dstL
  | 11 => s.image.dstH
  | 12 => s.image.count
  | 13 => s.image.reload
  | 14 => s.image.quant
  | 15 => s.image.mode
  | 16 => s.image.succ
  | 17 => s.image.level
  | 18 => s.readBack.state
  | 19 => s.readBack.curSL
  | 20 => s.readBack.curSH
  | 21 => s.readBack.curDL
  | 22 => s.readBack.curDH
  | 23 => s.readBack.fault
  | 24 => s.readBack.faddrL
  | 25 => s.readBack.handle
  | 26 => s.notices.headWord
  | 27 => s.notices.headWord
  | 28 => s.notices.nhHandle
  | 29 => s.notices.nhUnits
  | 30 => s.notices.nhAux
  | 31 => s.notices.nhAddrL
  | 32 => s.notices.isvc
  | 33 => s.actv
  | _ => 0

end Sys2Proof.Machine
end

