-- ==== Sys2Proof/Machine/Ops.lean ====
section
/-! DEFINITION. The named operations the steps share: changes of one record, triggers, the binding table,
notices, the activity, and the command port's acceptance, refusal and completion. -/

namespace Sys2Proof.Machine

/-- The answer of every step: the spec gives each an effect in every state (log 1). -/
def answer (s : State) : Host.Outcome State Fault Refusal := .next s

/-- While RESET_n is asserted the part serves nothing (R193). -/
def State.unlessReset (s : State) (f : State → State) : State := if s.inReset then s else f s

/-- A table with every entry passed through `f`. -/
def mapTable {α : Type} {n : Nat} (f : α → α) (v : Vector α n) : Vector α n :=
  ⟨⟨v.toArray.toList.map f⟩, by simp⟩

/-! ### Records -/

/-- Record `n` replaced. -/
def State.setRecord (s : State) (n : RecNo) (r : Record) : State :=
  { s with records := s.records.set n r }

/-- The entry that names record `n`, if any, emptied (R17, R62). -/
def State.emptyBindingOf (s : State) (n : RecNo) : State :=
  { s with bindings := mapTable (fun e => if e.any (fun b => b.handle.num == n) then none else e) s.bindings }

/-- A record that becomes FREE: latch 0, overrun clear, fault part absent, generation kept (R17). Its other
fields are not observable and are left as they stand (log 14). -/
def Record.freed (r : Record) : Record :=
  { r with state := .free, latch := 0, overrun := false, fault := none }

/-- Record `n` freed and its binding emptied, in one claim (R17, R43). -/
def State.freeRecord (s : State) (n : RecNo) : State :=
  (s.setRecord n s.records[n].freed).emptyBindingOf n

/-! ### Triggers -/

/-- Whether triggers latch in this state (R16, R64). -/
def RecState.latches : RecState → Bool
  | .armed | .active | .held => true
  | .free | .draft | .spent | .faulted => false

/-- One trigger delivered to a record: latch +1, or overrun at 4, or discarded (R64, R12). -/
def Record.triggered (r : Record) : Record :=
  if r.state.latches then
    if r.latch < Config.latchDepth then { r with latch := r.latch + 1 } else { r with overrun := true }
  else r

/-- One trigger delivered to record `n` (R64). -/
def State.deliverTrigger (s : State) (n : RecNo) : State := s.setRecord n s.records[n].triggered

/-- Whether a record takes a standing trigger: ARMED or HELD with latch 0 (R65). -/
def Record.awaitsStanding (r : Record) : Bool := (r.state == .armed || r.state == .held) && r.latch == 0

/-- The standing trigger of record `n`: latch 1 when its level line is active and it is ARMED or HELD with
latch 0 (R65, R66). -/
def State.standingTrigger (s : State) (n : RecNo) : State :=
  if s.records[n].awaitsStanding && s.levelLineActive n then
    s.setRecord n { s.records[n] with latch := 1 }
  else s

/-! ### Notices -/

/-- A notice placed after every queued notice of its urgency or a more urgent one (R163). -/
def insertNotice (n : Notice) : List Notice → List Notice
  | [] => [n]
  | q :: rest => if q.urgency ≤ n.urgency then q :: insertNotice n rest else n :: q :: rest

/-- NOTE_n evaluated (R177). -/
def NoticeUnit.evaluate (u : NoticeUnit) : NoticeUnit := { u with note := u.noteCondition }

/-- A notice posted: placed in the queue, and NOTE_n evaluated (R163). -/
def State.post (s : State) (n : Notice) : State :=
  { s with notices := { s.notices with queue := insertNotice n s.notices.queue }.evaluate }

/-- The holding registers loaded with the head, or 0 with the queue empty (R166, R168). -/
def NoticeUnit.loadHolding (u : NoticeUnit) : NoticeUnit :=
  match u.queue with
  | [] => { u with nhHandle := 0, nhUnits := 0, nhAux := 0, nhAddrL := 0 }
  | n :: _ =>
    { u with
      nhHandle := n.handle.word
      nhUnits := n.kind.units
      nhAux := n.kind.aux
      nhAddrL := n.kind.addrL }

/-! ### Activity -/

/-- The activity while no activation is open: STALLED in a head wait, else IDLE (R87, R92). Every claim that
can begin or end a head wait ends with this. While an activation is open it changes nothing. -/
def State.settleActivity (s : State) : State :=
  match s.activation with
  | some _ => s
  | none =>
    { s with activity := if s.enable && s.anyEligible && !s.noticeRoom then .stalled else .idle }

/-! ### Slave accesses -/

/-- The part serves slave accesses: RESET_n negated, its hold-off passed (R193), ownership not OWNER (R196). -/
def State.listens (s : State) : Bool := !s.inReset && s.holdOff == 0 && s.bus.ownership != .owner

/-- RDY_n asserted for an access; `driven` is the word a read drives on D15:0 (R195). -/
def State.answerAccess (s : State) (driven : Option Word) : State :=
  { s with bus := { s.bus with slave := some ⟨driven⟩ } }

/-- A slave access: taken as one claim and answered with RDY_n while the part listens; else it gets no RDY_n and
changes nothing (R193, R195, R196). -/
def State.slaveAccess (s : State) (driven : Option Word) (claim : State → State) : State :=
  if s.listens then claim (s.answerAccess driven) else s

/-- The host's strobe sampled negated: RDY_n is released and the access ends (R195). -/
def State.endSlaveAccess (s : State) : State := { s with bus := { s.bus with slave := none } }

/-! ### The command port -/

/-- What an owner answers: a result code, RVAL0 and RVAL1 (R184). -/
structure Reply where
  result : ResultCode
  rval0 : Word
  rval1 : Word
  deriving DecidableEq, Repr

/-- RVAL0 and RVAL1 at 0, for RANGE, STALE, FULL, ENGINE_ON, UNBOUND and UNKNOWN (R184). -/
def Reply.bare (result : ResultCode) : Reply := ⟨result, 0, 0⟩

/-- The completion of a command: the result registers loaded and the port READY, in one claim (R184). -/
def State.complete (s : State) (code : Byte) (a : Reply) : State :=
  { s with port := { s.port with
      state := .ready
      result := BitVec.ofNat 16 (a.result.code + code.toNat * 256)
      rval0 := a.rval0
      rval1 := a.rval1
      stopHandle := none } }

/-- An accepted CMD write: arguments latched, REFUSED cleared, port BUSY (R181). -/
def State.accept (s : State) (code : Byte) : State :=
  { s with port := { s.port with state := .busy code, refused := false, latched := s.port.args } }

/-- A refused CMD write or edit-register write: REFUSED set, nothing else (R182, R187). -/
def State.refuseWrite (s : State) : State := { s with port := { s.port with refused := true } }

/-- The port passes from BUSY to WAITING (R180). -/
def State.setWaiting (s : State) (code : Byte) : State :=
  { s with port := { s.port with state := .waiting code } }

/-- A CMD write by itself: accepted while READY, else refused (R181, R182). -/
def State.cmdWrite (s : State) (code : Byte) : State :=
  match s.port.state with
  | .ready => s.accept code
  | .busy _ | .waiting _ => s.refuseWrite

/-- A command's step. With the port READY it is the access that writes `code` to CMD, accepted, and its owner's claim
(log 4); with the port BUSY on that very code the claim alone, which no access carries and the bus does not hold up
(log 5); otherwise an access whose CMD write is refused. -/
def State.command (s : State) (code : Byte) (owner : State → State) : State :=
  s.unlessReset fun s =>
    match s.port.state with
    | .ready => s.slaveAccess none fun s => owner (s.accept code)
    | .busy c => if c = code then owner s else s.slaveAccess none State.refuseWrite
    | .waiting _ => s.slaveAccess none State.refuseWrite

/-- The latched arguments a command reads (R185). -/
def State.arg0 (s : State) : Word := s.port.latched.a0
def State.arg1 (s : State) : Word := s.port.latched.a1
def State.arg2 (s : State) : Word := s.port.latched.a2

/-! ### The handle check -/

/-- The outcome of the handle check (R15): refused, or the record's number. -/
inductive HandleCheck where
  | refused (result : ResultCode)
  | passed (h : Handle)
  deriving DecidableEq, Repr

/-- Steps 1 and 2 of the handle check (R15). -/
def State.checkHandle (s : State) (w : Word) : HandleCheck :=
  match Handle.ofWord w with
  | none => .refused .range
  | some h =>
    if s.records[h.num].state = .free ∨ s.records[h.num].gen ≠ h.gen then .refused .stale
    else .passed h

/-- A state code as RVAL1 holds it (R25). -/
def RecState.word (st : RecState) : Word := BitVec.ofNat 16 st.code

/-! ### The end of an activation -/

/-- The activation ends: its context is discarded, a waiting ENGINE_STOP completes, and activity becomes IDLE,
or STALLED when a head wait begins (R94, R97). -/
def State.endActivation (s : State) : State :=
  let s := { s with activation := none }
  let s :=
    match s.port.stopHandle with
    | none => s
    | some h => s.complete codeEngineStop ⟨.ok, BitVec.ofNat 16 Activity.running.code, h⟩
  s.settleActivity

end Sys2Proof.Machine
end

