-- ==== Sys2Proof/Machine/Bus.lean ====
section
/-! DEFINITION. The bus interface (chapter 11): the ownership handshake, and the unit pair. -/

namespace Sys2Proof.Machine

/-! ### Ownership -/

/-- A unit request handed to the bus interface: BREQ_n is asserted at once when the spacing has passed, else
the request is held (R197). -/
def Bus.handRequest (b : Bus) (q : UnitRequest) : Bus :=
  { b with
    request := some q
    ownership := if b.ownership = .released ∧ b.spacing = 0 then .requesting else b.ownership }

/-- BREQ_n asserted for a request held in RELEASED once the spacing has passed (R197). -/
def Bus.raiseRequest (b : Bus) : Bus :=
  if b.ownership = .released ∧ b.request ≠ none ∧ b.spacing = 0 then { b with ownership := .requesting } else b

/-- A cut at boundary (c): a held request is discarded; one in REQUESTING is withdrawn, BREQ_n negated, and
the spacing begins (R201, log 15). -/
def Bus.withdraw (b : Bus) : Bus :=
  match b.ownership with
  | .released => { b with request := none }
  | .requesting => { b with request := none, ownership := .released, spacing := Config.spacingEdges }
  | .owner => b

/-- The grant taken: the read of the pair begins (R197, R198). -/
def Bus.takeGrant (b : Bus) : Bus :=
  if b.ownership = .requesting ∧ b.slave = none then
    { b with ownership := .owner, access := some .read, timer := 0 }
  else b

/-- The release of the bus at the end of a pair (R197). -/
def Bus.release (b : Bus) : Bus :=
  { b with
    ownership := .released
    request := none
    access := none
    timer := 0
    spacing := Config.spacingEdges }

/-! ### The unit pair -/

/-- The datum a read captures from the lanes of its unit (R199): both lanes for WORD, else the lane of the
address, kept in bits 7:0. -/
def captureLanes (unit : UnitSize) (addr : Addr) (data : Word) : Word :=
  match unit with
  | .word => data
  | .byte => BitVec.ofNat 16 (if addrOdd addr then data.toNat / 256 else data.toNat % 256)

/-- RDY_n on the read: the unit is captured and the write half begins (R198). -/
def Bus.completeRead (b : Bus) (data : Word) : Bus :=
  match b.ownership, b.access, b.request with
  | .owner, some .read, some q =>
    { b with pair := captureLanes q.unit q.src data, access := some .write, timer := 0 }
  | _, _, _ => b

end Sys2Proof.Machine
end

