-- ==== Sys2Proof/Machine/Service.lean ====
section
/-! DEFINITION. The course of one service (chapters 6 and 8): the working copy, unit boundaries, the cut, the
count of a unit and its end checks, bus errors, and the write-back. -/

namespace Sys2Proof.Machine

/-! ### Start and boundaries -/

/-- The working copy a service start loads (R102). -/
def Working.load (n : RecNo) (r : Record) : Working where
  handle := ⟨n, r.gen⟩
  edit := r.edit
  srcCur := r.srcCur
  dstCur := r.dstCur
  count := r.count
  moved := 0
  endCause := none

/-- The unit request at a boundary (R107). -/
def Working.request (w : Working) : UnitRequest := ⟨w.edit.unit, w.srcCur, w.dstCur⟩

/-- The working copy `w` of activation `a` put into the state. -/
def State.setWorking (s : State) (a : Activation) (w : Working) : State :=
  { s with activation := some { a with work := some w } }

/-- A unit boundary (a) or (b) (R112): with a deferred command waiting the service ends by CUT, else the next
unit request is handed to the bus interface. -/
def State.unitBoundary (s : State) (a : Activation) (w : Working) : State :=
  match a.deferred with
  | some _ => s.setWorking a { w with endCause := some .cut }
  | none =>
    let s := s.setWorking a w
    { s with bus := s.bus.handRequest w.request }

/-- The boundary (c) of a service whose request waits for the grant, once a command has been deferred: the
service ends by CUT and the request is withdrawn (R112, R113). A pair under way, or a service that has
ended already, goes on (R120). -/
def State.cutWaitingRequest (s : State) (a : Activation) : State :=
  match a.work, s.bus.ownership with
  | some w, .released | some w, .requesting =>
    if w.endCause = none then
      let s := s.setWorking a { w with endCause := some .cut }
      { s with bus := s.bus.withdraw }
    else s
  | _, _ => s

/-- HOLD or RETIRE accepted against the ACTIVE record (R45): the port WAITING, the engine's reference taken,
the record unchanged. -/
def State.deferCommand (s : State) (kind : DeferredKind) (h : Handle) : State :=
  let s := s.setWaiting kind.command
  match s.activation with
  | none => s
  | some a =>
    let a := { a with deferred := some ⟨kind, h⟩ }
    let s := { s with activation := some a }
    s.cutWaitingRequest a

/-! ### One unit -/

/-- The address after a counted unit, or `none` where the step is refused (R109). -/
def stepAddr (step : AddrStep) (unit : UnitSize) (a : Addr) : Option Addr :=
  match step with
  | .fixed => some a
  | .ascend | .ascendReturn =>
    if a.toNat + unit.bytes ≤ 0xFFFFFF then some (BitVec.ofNat 24 (a.toNat + unit.bytes)) else none
  | .descend =>
    if unit.bytes ≤ a.toNat then some (BitVec.ofNat 24 (a.toNat - unit.bytes)) else none

/-- Where the source goes after a counted unit. -/
def Working.nextSrc (w : Working) : Option Addr := stepAddr w.edit.srcStep w.edit.unit w.srcCur

/-- Where the destination goes after a counted unit. -/
def Working.nextDst (w : Working) : Option Addr := stepAddr w.edit.dstStep w.edit.unit w.dstCur

/-- End checks 1 to 3 of a working copy that has counted its unit (R110): `w` before, with `count` and
`moved` after. Check 4, CUT, is the boundary's. -/
def Working.endCheck (w : Working) (count moved : Word) : Option EndCause :=
  if count = 0 then some .exhausted
  else if w.nextSrc = none then some (.fault .range w.srcCur)
  else if w.nextDst = none then some (.fault .range w.dstCur)
  else if w.edit.quantum = .units moved then some .quantum
  else none

/-- The working copy after a completed pair: the unit counted (R108), the addresses stepped (R109), the end
checks made (R110). -/
def Working.countUnit (w : Working) : Working :=
  { w with
    count := w.count - 1
    moved := w.moved + 1
    srcCur := w.nextSrc.getD w.srcCur
    dstCur := w.nextDst.getD w.dstCur
    endCause := w.endCheck (w.count - 1) (w.moved + 1) }

/-- "Pair completed" taken by the engine: the unit counted, and the next boundary passed unless the service
has ended (R108 to R112). -/
def State.pairCompleted (s : State) : State :=
  match s.activation with
  | none => s
  | some a =>
    match a.work with
    | none => s
    | some w =>
      match w.countUnit.endCause with
      | some _ => s.setWorking a w.countUnit
      | none => s.unitBoundary a w.countUnit

/-- A read or write error taken by the engine: the service ends by FAULT at the address of the failing half,
nothing counted or stepped (R146, R147). -/
def State.pairFailed (s : State) (half : Half) : State :=
  match s.activation with
  | none => s
  | some a =>
    match a.work with
    | none => s
    | some w =>
      s.setWorking a
        { w with endCause := some (match half with
            | .read => .fault .busRead w.srcCur
            | .write => .fault .busWrite w.dstCur) }

/-- An error in the access in progress ends the pair and releases the bus (R200). Without an access it is
disregarded. -/
def State.pairError (s : State) : State :=
  match s.bus.ownership, s.bus.access with
  | .owner, some half => ({ s with bus := s.bus.release }).pairFailed half
  | _, _ => s

/-! ### The write-back -/

/-- The outcome notice of a service end, by cause and notice policy (R121, R122, R150). -/
def outcomeNotice (w : Working) (cause : EndCause) (overrun : Bool) : Option Notice :=
  match cause, w.edit.notice with
  | .fault c addr, _ => some ⟨w.handle, w.edit.urgency, .fault overrun w.moved ⟨c, addr⟩⟩
  | .exhausted, .onEnd | .exhausted, .each => some ⟨w.handle, w.edit.urgency, .exhausted overrun w.moved⟩
  | .quantum, .each => some ⟨w.handle, w.edit.urgency, .serviceDone overrun w.moved⟩
  | .exhausted, .none | .quantum, .none | .quantum, .onEnd | .cut, _ => none

/-- A current address as stored: an ASCEND_RETURN address returns to its start (R119). -/
def returned (step : AddrStep) (start cur : Addr) : Addr := if step = .ascendReturn then start else cur

/-- The record a write-back stores, before any freeing or standing trigger (R115, R116, R118, R149): `r` as the
store holds it, its overrun flag already dealt with. Under RETIRE the freeing follows (R117). -/
def Record.writtenBack (r : Record) (w : Working) (cause : EndCause) : Record :=
  match cause with
  | .quantum | .cut =>
    { r with
      state := .armed
      count := w.count
      srcCur := returned w.edit.srcStep w.edit.srcStart w.srcCur
      dstCur := returned w.edit.dstStep w.edit.dstStart w.dstCur }
  | .exhausted =>
    match w.edit.policy with
    | .park =>
      { r with
        state := .spent
        count := w.count
        latch := 0
        srcCur := returned w.edit.srcStep w.edit.srcStart w.srcCur
        dstCur := returned w.edit.dstStep w.edit.dstStart w.dstCur }
    | .retire => r
    | .reload =>
      { r with
        state := .armed
        count := w.edit.reload.getD 0
        srcCur := w.edit.srcStart
        dstCur := w.edit.dstStart }
  | .fault c addr =>
    { r with
      state := .faulted
      count := w.count
      latch := 0
      srcCur := w.srcCur
      dstCur := w.dstCur
      fault := some ⟨c, addr⟩ }

/-- Whether this end under this policy frees the record (R117). -/
def Working.autoRetires (w : Working) (cause : EndCause) : Bool :=
  cause == .exhausted && w.edit.policy == .retire

/-- Whether a successor condition matches an end cause (R129). -/
def Condition.due (c : Condition) (cause : EndCause) : Bool :=
  match c, cause with
  | .always, .quantum | .always, .exhausted => true
  | .onExhausted, .exhausted => true
  | .onRemaining, .quantum => true
  | _, _ => false

/-- The successor due after this end, if any (R129). -/
def Working.dueSuccessor (w : Working) (cause : EndCause) : Option Handle :=
  match w.edit.successor with
  | none => none
  | some x => if x.condition.due cause then some x.handle else none

/-- What follows the write-back (R125): the deferred command waits to be applied afresh, or the successor is
due and becomes the link in hand (R128), or the activation ends. -/
def State.afterWriteBack (s : State) (a : Activation) (w : Working) (cause : EndCause) : State :=
  match a.deferred, w.dueSuccessor cause with
  | some _, _ => { s with activation := some { a with work := none } }
  | none, some h =>
    { s with activation := some { a with
        work := none
        link := some ⟨w.handle, w.edit.urgency, h, .due⟩ } }
  | none, none => s.endActivation

/-- The outcome notice posted, and the overrun flag it carries cleared (R121, R123). -/
def State.postOutcome (s : State) (w : Working) (cause : EndCause) : State :=
  let n := w.handle.num
  match outcomeNotice w cause s.records[n].overrun with
  | none => s
  | some m => (s.post m).setRecord n { s.records[n] with overrun := false }

/-- The record stored: with its standing trigger when it is left ARMED (R66), or freed under RETIRE (R117). -/
def State.storeProgress (s : State) (w : Working) (cause : EndCause) : State :=
  let n := w.handle.num
  if w.autoRetires cause then s.freeRecord n
  else
    let s := s.setRecord n (s.records[n].writtenBack w cause)
    if s.records[n].state = .armed then s.standingTrigger n else s

/-- The write-back claim (R114, R149). -/
def State.writeBackClaim (s : State) (a : Activation) (w : Working) (cause : EndCause) : State :=
  ((s.postOutcome w cause).storeProgress w cause).afterWriteBack a w cause

/-- The service that has ended and awaits its write-back, if any. -/
def State.endedService (s : State) : Option (Activation × Working × EndCause) :=
  match s.activation with
  | none => none
  | some a =>
    match a.work with
    | none => none
    | some w =>
      match w.endCause with
      | none => none
      | some c => some (a, w, c)

/-- Whether an end cause is FAULT. -/
def EndCause.isFault : EndCause → Bool
  | .fault _ _ => true
  | .exhausted | .quantum | .cut => false

end Sys2Proof.Machine
end

