-- ==== Sys2Proof/Machine/RecordCommands.lean ====
section
/-! DEFINITION. The record commands (chapter 2): ALLOCATE, FETCH, STORE, ARM, HOLD, RETIRE, WIPE. -/

namespace Sys2Proof.Machine

/-- A record command that found its record in a state it does not accept (R25). -/
def Reply.stateFound (st : RecState) : Reply := ⟨.state, 0, st.word⟩

/-- A record command carried out on handle `w`, found in state `st` (R25). -/
def Reply.done (w : Word) (st : RecState) : Reply := ⟨.ok, w, st.word⟩

/-! ### ALLOCATE -/

/-- ALLOCATE's claim (R26). -/
def State.allocateClaim (s : State) : State :=
  match s.lowestFree with
  | none => s.complete codeAllocate (.bare .full)
  | some n =>
    let gen := s.records[n].gen + 1
    (s.setRecord n (.allocated gen)).complete codeAllocate ⟨.ok, (Handle.mk n gen).word, RecState.free.word⟩

/-- ALLOCATE (R26). -/
def execAllocate (s : State) : Host.Outcome State Fault Refusal :=
  answer (s.command codeAllocate State.allocateClaim)

/-! ### FETCH -/

/-- FETCH's claim: the image loaded from the record as stored (R28 to R31). -/
def State.fetchClaim (s : State) : State :=
  match s.checkHandle s.arg0 with
  | .refused c => s.complete codeFetch (.bare c)
  | .passed h =>
    let r := s.records[h.num]
    ({ s with image := .ofRecord r, readBack := s.readBackOf h.num }).complete codeFetch (.done s.arg0 r.state)

/-- FETCH (R28). -/
def execFetch (s : State) : Host.Outcome State Fault Refusal :=
  answer (s.command codeFetch State.fetchClaim)

/-! ### STORE -/

/-- The record an accepted STORE leaves (R33): edit fields and count from the image, current addresses at the
new starts, all else kept. -/
def Record.stored (r : Record) (m : EditImage) : Record :=
  { r with edit := m.fields, count := m.count, srcCur := m.fields.srcStart, dstCur := m.fields.dstStart }

/-- Whether STORE and ARM accept a record in this state: DRAFT or HELD (R32, R36). -/
def RecState.editable (st : RecState) : Bool := st == .draft || st == .held

/-- STORE's claim (R32, R33). -/
def State.storeClaim (s : State) : State :=
  match s.checkHandle s.arg0 with
  | .refused c => s.complete codeStore (.bare c)
  | .passed h =>
    let r := s.records[h.num]
    if r.state.editable then
      match s.image.failingCheck with
      | some k => s.complete codeStore ⟨.invalid, BitVec.ofNat 16 k, r.state.word⟩
      | none => (s.setRecord h.num (r.stored s.image)).complete codeStore (.done s.arg0 r.state)
    else s.complete codeStore (.stateFound r.state)

/-- STORE (R32). -/
def execStore (s : State) : Host.Outcome State Fault Refusal :=
  answer (s.command codeStore State.storeClaim)

/-! ### ARM -/

/-- ARM's claim (R36 to R38). -/
def State.armClaim (s : State) : State :=
  match s.checkHandle s.arg0 with
  | .refused c => s.complete codeArm (.bare c)
  | .passed h =>
    let r := s.records[h.num]
    if r.state.editable then
      match r.failingCheck with
      | some k => s.complete codeArm ⟨.invalid, BitVec.ofNat 16 k, r.state.word⟩
      | none =>
        (((s.setRecord h.num { r with state := .armed }).standingTrigger h.num).settleActivity).complete codeArm
          (.done s.arg0 r.state)
    else s.complete codeArm (.stateFound r.state)

/-- ARM (R36). -/
def execArm (s : State) : Host.Outcome State Fault Refusal :=
  answer (s.command codeArm State.armClaim)

/-! ### HOLD -/

/-- HOLD applied to the state found, at once or afresh (R39, R41). ACTIVE is deferred before it comes here. -/
def State.applyHold (s : State) (w : Word) : State × Reply :=
  match s.checkHandle w with
  | .refused c => (s, .bare c)
  | .passed h =>
    let r := s.records[h.num]
    match r.state with
    | .armed => (s.setRecord h.num { r with state := .held }, .done w r.state)
    | .held => (s, .done w r.state)
    | .spent | .faulted =>
      ((s.setRecord h.num { r with state := .held, fault := none }).standingTrigger h.num, .done w r.state)
    | .draft | .active | .free => (s, .stateFound r.state)

/-- The handle of the ACTIVE record, when `w` passes the check and names it (R45). -/
def State.namesActive (s : State) (w : Word) : Option Handle :=
  match s.checkHandle w with
  | .refused _ => none
  | .passed h => if s.records[h.num].state = .active then some h else none

/-- HOLD's claim (R39, R45). -/
def State.holdClaim (s : State) : State :=
  match s.namesActive s.arg0 with
  | some h => s.deferCommand .hold h
  | none =>
    let p := s.applyHold s.arg0
    p.1.settleActivity.complete codeHold p.2

/-- HOLD (R39). -/
def execHold (s : State) : Host.Outcome State Fault Refusal :=
  answer (s.command codeHold State.holdClaim)

/-! ### RETIRE -/

/-- RETIRE applied to the state found, at once or afresh (R42, R43). -/
def State.applyRetire (s : State) (w : Word) : State × Reply :=
  match s.checkHandle w with
  | .refused c => (s, .bare c)
  | .passed h => (s.freeRecord h.num, .done w s.records[h.num].state)

/-- RETIRE's claim (R42, R45). -/
def State.retireClaim (s : State) : State :=
  match s.namesActive s.arg0 with
  | some h => s.deferCommand .retire h
  | none =>
    let p := s.applyRetire s.arg0
    p.1.settleActivity.complete codeRetire p.2

/-- RETIRE (R42). -/
def execRetire (s : State) : Host.Outcome State Fault Refusal :=
  answer (s.command codeRetire State.retireClaim)

/-! ### WIPE -/

/-- The changes an accepted WIPE makes in one claim (R51). -/
def State.wiped (s : State) : State :=
  { s with
    records := mapTable (fun r => Record.empty r.gen) s.records
    bindings := Vector.replicate 40 none
    pointers := Vector.replicate 4 95
    notices := { s.notices with queue := [], inService := 0 }.evaluate }

/-- WIPE's claim (R50). -/
def State.wipeClaim (s : State) : State :=
  if s.enable = false ∧ s.activity = .idle then s.wiped.complete codeWipe (.bare .ok)
  else s.complete codeWipe (.bare .engineOn)

/-- WIPE (R50). -/
def execWipe (s : State) : Host.Outcome State Fault Refusal :=
  answer (s.command codeWipe State.wipeClaim)

end Sys2Proof.Machine
end

