-- ==== Sys2Proof/Machine/BindingCommands.lean ====
section
/-! DEFINITION. The binding unit (chapter 3): TRIGGER, BIND, UNBIND, BIND_READ, and the edges of the request
lines. -/

namespace Sys2Proof.Machine

/-! ### TRIGGER -/

/-- TRIGGER's claim (R69). -/
def State.triggerClaim (s : State) : State :=
  match s.checkHandle s.arg0 with
  | .refused c => s.complete codeTrigger (.bare c)
  | .passed h =>
    let st := s.records[h.num].state
    if st.latches then
      ((s.deliverTrigger h.num).settleActivity).complete codeTrigger (.done s.arg0 st)
    else s.complete codeTrigger (.stateFound st)

/-- TRIGGER (R69). -/
def execTrigger (s : State) : Host.Outcome State Fault Refusal :=
  answer (s.command codeTrigger State.triggerClaim)

/-! ### BIND -/

/-- The entry of source `k` replaced. -/
def State.setBinding (s : State) (k : SourceNo) (e : Option Binding) : State :=
  { s with bindings := s.bindings.set k e }

/-- The handle in an entry as BIND and BIND_READ report it, 0xFFFF when empty (R58, R61). -/
def entryWord (e : Option Binding) : Word := (e.map (·.handle.word)).getD Config.noHandle

/-- A source number as BIND reports it, 0xFFFF for none (R58). -/
def sourceWord (k : Option SourceNo) : Word := (k.map (fun k => BitVec.ofNat 16 k.val)).getD Config.noHandle

/-- The sense BIND stores: RISING for the generator sources (R57). -/
def storedSense (k : SourceNo) (sense : Sense) : Sense := if k.val < 32 then sense else .rising

/-- BIND's steps 3 to 5 and the writing of the entry (R56 to R58). -/
def State.bindChecked (s : State) (k : SourceNo) (sense : Sense) : State :=
  match s.checkHandle s.arg1 with
  | .refused c => s.complete codeBind (.bare c)
  | .passed h =>
    if s.bindings[k] = none ∧ s.sourceOf h.num = none then
      let t := (s.setBinding k (some ⟨h, storedSense k sense⟩)).standingTrigger h.num
      t.settleActivity.complete codeBind ⟨.ok, s.arg1, BitVec.ofNat 16 k.val⟩
    else s.complete codeBind ⟨.bound, entryWord s.bindings[k], sourceWord (s.sourceOf h.num)⟩

/-- BIND's claim (R56). -/
def State.bindClaim (s : State) : State :=
  match sourceArg s.arg0, senseArg s.arg2 with
  | some k, some sense => s.bindChecked k sense
  | _, _ => s.complete codeBind (.bare .range)

/-- BIND (R56). -/
def execBind (s : State) : Host.Outcome State Fault Refusal :=
  answer (s.command codeBind State.bindClaim)

/-! ### UNBIND and BIND_READ -/

/-- UNBIND's claim (R60). -/
def State.unbindClaim (s : State) : State :=
  match sourceArg s.arg0 with
  | none => s.complete codeUnbind (.bare .range)
  | some k =>
    match s.bindings[k] with
    | none => s.complete codeUnbind (.bare .unbound)
    | some b =>
      (s.setBinding k none).complete codeUnbind ⟨.ok, b.handle.word, BitVec.ofNat 16 b.sense.code⟩

/-- UNBIND (R60). -/
def execUnbind (s : State) : Host.Outcome State Fault Refusal :=
  answer (s.command codeUnbind State.unbindClaim)

/-- RVAL1 of BIND_READ: sense in bits 1:0, line level in bit 8 (R61, R191). -/
def State.bindReadWord (s : State) (k : SourceNo) : Word :=
  BitVec.ofNat 16 ((s.bindings[k].map (·.sense.code)).getD 0 + (s.lineLevel k).toNat * 256)

/-- BIND_READ's claim (R61). -/
def State.bindReadClaim (s : State) : State :=
  match sourceArg s.arg0 with
  | none => s.complete codeBindRead (.bare .range)
  | some k => s.complete codeBindRead ⟨.ok, entryWord s.bindings[k], s.bindReadWord k⟩

/-- BIND_READ (R61). -/
def execBindRead (s : State) : Host.Outcome State Fault Refusal :=
  answer (s.command codeBindRead State.bindReadClaim)

/-! ### Events of the sources -/

/-- The level of request line `k` among 32, replaced. -/
def withLevel (levels : BitVec 32) (k : LineNo) (high : Bool) : BitVec 32 :=
  if high then levels ||| BitVec.twoPow 32 k.val else levels &&& ~~~(BitVec.twoPow 32 k.val)

/-- The last sample of request line `k` replaced. -/
def State.setLine (s : State) (k : LineNo) (high : Bool) : State := { s with lines := withLevel s.lines k high }

/-- The source of a request line (R53). -/
def LineNo.source (k : LineNo) : SourceNo := ⟨k.val, by omega⟩

/-- The source of a generator (R72). -/
def GenNo.source (g : GenNo) : SourceNo := ⟨32 + g.val, by omega⟩

/-- What an edge does for the record its line's entry names (R63): a trigger, a standing-trigger claim, or
nothing. -/
def State.edgeAction (s : State) (b : Binding) (high : Bool) : State :=
  match b.sense, high with
  | .rising, true | .falling, false => s.deliverTrigger b.handle.num
  | .high, true | .low, false => s.standingTrigger b.handle.num
  | .rising, false | .falling, true | .high, false | .low, true => s

/-- The sample of a request line becomes `high`; a change is an edge (R63). -/
def State.lineSampled (s : State) (k : LineNo) (high : Bool) : State :=
  if s.lines.getLsbD k.val = high then s
  else
    let s := s.setLine k high
    match s.bindings[LineNo.source k] with
    | none => s
    | some b => (s.edgeAction b high).settleActivity

/-- Request line `k` at level `high` at one rising edge of CLK: its sample changes when the edge before saw the same
level, else the level is kept (R202). -/
def State.lineSeen (s : State) (k : LineNo) (high : Bool) : State :=
  if s.levels.getLsbD k.val = high then s.lineSampled k high
  else { s with levels := withLevel s.levels k high }

/-- Request line `k` at a level, at two successive edges or at one (R202). -/
def State.lineHeld (s : State) (k : LineNo) (level : PinLevel) : State :=
  let t := s.lineSeen k level.high
  if level.held then t.lineSeen k level.high else t

/-- REQ_EDGE (R63). -/
def execReqEdge (line : LineNo) (level : PinLevel) (s : State) : Host.Outcome State Fault Refusal :=
  answer (s.unlessReset fun s => s.lineHeld line level)

/-- An expiry on a generator's source: one trigger to the bound record, or discarded (R68). -/
def State.expiryEvent (s : State) (g : GenNo) : State :=
  match s.bindings[GenNo.source g] with
  | none => s
  | some b => (s.deliverTrigger b.handle.num).settleActivity

end Sys2Proof.Machine
end

