-- ==== Sys2Proof/Machine/Generators.lean ====
section
/-! DEFINITION. The interval generators (chapter 4): the GEN_ commands, tick claims and expiries. -/

namespace Sys2Proof.Machine

/-- Generator `g`'s context replaced. -/
def State.setGen (s : State) (g : GenNo) (c : Generator) : State := { s with gens := s.gens.set g c }

/-! ### The commands -/

/-- The result values of an OK generator command, of the context after it (R79). -/
def Generator.reply (c : Generator) (g : GenNo) (result : ResultCode) : Reply := ⟨result, c.status g, c.remaining⟩

/-- A generator command that leaves context `c` and completes with OK. -/
def State.genDone (s : State) (code : Byte) (g : GenNo) (c : Generator) : State :=
  (s.setGen g c).complete code (c.reply g .ok)

/-- The context an accepted GEN_SET leaves: remaining stays 0 and phase stays A (R80). -/
def Generator.configured (c : Generator) (arg0 periodA periodB : Word) : Generator :=
  { c with
    mode := GenMode.ofCode (bitField arg0 4 2)
    source := TickSource.ofCode (bitField arg0 8 1)
    periodA := periodA
    periodB := periodB }

/-- GEN_SET's claim (R80). -/
def State.genSetClaim (s : State) : State :=
  match genField s.arg0 with
  | none => s.complete codeGenSet (.bare .range)
  | some g =>
    if bitField s.arg0 4 2 = 3 then s.complete codeGenSet (.bare .range)
    else if s.gens[g].running then s.complete codeGenSet (s.gens[g].reply g .state)
    else s.genDone codeGenSet g (s.gens[g].configured s.arg0 s.arg1 s.arg2)

/-- GEN_SET (R80). -/
def execGenSet (s : State) : Host.Outcome State Fault Refusal :=
  answer (s.command codeGenSet State.genSetClaim)

/-- The context at the start of phase A (R81, R82). -/
def Generator.started (c : Generator) : Generator := { c with running := true, phase := .a, remaining := c.periodA }

/-- Whether GEN_START's period checks fail (R81). -/
def Generator.periodsFail (c : Generator) : Bool := c.periodA == 0 || (c.mode == .alternate && c.periodB == 0)

/-- GEN_START's claim: a STOPPED generator checked and started (R81), a RUNNING one restarted (R82). -/
def State.genStartClaim (s : State) : State :=
  match genArg s.arg0 with
  | none => s.complete codeGenStart (.bare .range)
  | some g =>
    if s.gens[g].running = false ∧ s.gens[g].periodsFail then
      s.complete codeGenStart ⟨.invalid, 10, s.gens[g].status g⟩
    else s.genDone codeGenStart g s.gens[g].started

/-- GEN_START (R81). -/
def execGenStart (s : State) : Host.Outcome State Fault Refusal :=
  answer (s.command codeGenStart State.genStartClaim)

/-- A STOPPED context: remaining 0, phase A (R83). -/
def Generator.stopped (c : Generator) : Generator := { c with running := false, phase := .a, remaining := 0 }

/-- GEN_STOP's claim (R83). -/
def State.genStopClaim (s : State) : State :=
  match genArg s.arg0 with
  | none => s.complete codeGenStop (.bare .range)
  | some g => s.genDone codeGenStop g s.gens[g].stopped

/-- GEN_STOP (R83). -/
def execGenStop (s : State) : Host.Outcome State Fault Refusal :=
  answer (s.command codeGenStop State.genStopClaim)

/-- GEN_READ's claim (R84). -/
def State.genReadClaim (s : State) : State :=
  match genArg s.arg0 with
  | none => s.complete codeGenRead (.bare .range)
  | some g => s.complete codeGenRead (s.gens[g].reply g .ok)

/-- GEN_READ (R84). -/
def execGenRead (s : State) : Host.Outcome State Fault Refusal :=
  answer (s.command codeGenRead State.genReadClaim)

/-! ### Ticks -/

/-- The context after an expiry, by mode and phase (R76). -/
def Generator.expired (c : Generator) : Generator :=
  match c.mode, c.phase with
  | .once, _ => c.stopped
  | .periodic, _ => { c with phase := .a, remaining := c.periodA }
  | .alternate, .a => { c with phase := .b, remaining := c.periodB }
  | .alternate, .b => { c with phase := .a, remaining := c.periodA }

/-- A tick claim on generator `g` (R76): a STOPPED one does nothing; else remaining falls by 1, and at 0 the
expiry is handed on and the mode acts, in the same claim. -/
def State.tickClaim (s : State) (g : GenNo) : State :=
  let c := s.gens[g]
  if c.running then
    if c.remaining - 1 = 0 then (s.setGen g c.expired).expiryEvent g
    else s.setGen g { c with remaining := c.remaining - 1 }
  else s

/-- One tick of `source`: a tick claim on each RUNNING generator that counts it, taken in the order of their
numbers (R74, R75; no order between them is needed, R73, log 13). -/
def State.tick (s : State) (source : TickSource) : State :=
  (List.finRange 8).foldl
    (fun t g => if t.gens[g].running ∧ t.gens[g].source = source then t.tickClaim g else t) s

/-- INTERNAL_TICK's claim: the divider begins its next 64 periods and the tick is delivered (R74). -/
def State.internalTickClaim (s : State) : State := ({ s with divider := 0 }).tick .internal

/-- INTERNAL_TICK (R74). -/
def execInternalTick (s : State) : Host.Outcome State Fault Refusal :=
  answer (s.unlessReset State.internalTickClaim)

/-- The sample of TICK becomes `high`: a rise is an external tick, a fall delivers nothing (R75). -/
def State.tickSampled (s : State) (high : Bool) : State :=
  let t := { s with tickLine := high }
  if high && !s.tickLine then t.tick .external else t

/-- TICK at level `high` at one rising edge of CLK: its sample changes when the edge before saw the same level, else
the level is kept (R202). -/
def State.tickSeen (s : State) (high : Bool) : State :=
  if s.tickLevel = high then s.tickSampled high else { s with tickLevel := high }

/-- TICK at a level, at two successive edges or at one (R202). -/
def State.tickHeld (s : State) (level : PinLevel) : State :=
  let t := s.tickSeen level.high
  if level.held then t.tickSeen level.high else t

/-- EXTERNAL_TICK (R75). -/
def execExternalTick (level : PinLevel) (s : State) : Host.Outcome State Fault Refusal :=
  answer (s.unlessReset fun s => s.tickHeld level)

/-- The tick claim that expires generator `g`, by itself: it is due when `g` is RUNNING with remaining 1
(R76, log 12). -/
def State.expiryClaim (s : State) (g : GenNo) : State :=
  if s.gens[g].running ∧ s.gens[g].remaining = 1 then s.tickClaim g else s

/-- GENERATOR_EXPIRY (R76). -/
def execGeneratorExpiry (gen : GenNo) (s : State) : Host.Outcome State Fault Refusal :=
  answer (s.unlessReset fun s => s.expiryClaim gen)

end Sys2Proof.Machine
end

