-- ==== Sys2Proof/Machine/Engine.lean ====
section
/-! DEFINITION. Engine control, the arbiter's choice, and chains (chapters 5 and 7): ENGINE_GO, ENGINE_STOP,
HEAD_START, WRITE_BACK, FAULT_WRITE_BACK, LINK_RESOLUTION, APPLIED_AFRESH. -/

namespace Sys2Proof.Machine

/-! ### The head -/

/-- The start of record `n` as head (R90, R104). -/
def State.startHead (s : State) (n : RecNo) : State :=
  let r := s.records[n]
  let s := s.setRecord n { r with state := .active, latch := r.latch - 1 }
  let s := { s with pointers := s.pointers.set r.edit.rank n, activity := .running }
  s.unitBoundary ⟨1, none, none, none⟩ (.load n r)

/-- The arbiter's choice (R88 to R90): with conditions 1 to 4 the chosen head starts; with 1 to 3 only, activity
becomes STALLED; else nothing. -/
def State.headChoice (s : State) : State :=
  if s.enable = true ∧ s.activity = .idle then
    match s.chosenHead with
    | none => s
    | some n => if s.noticeRoom then s.startHead n else { s with activity := .stalled }
  else s

/-- HEAD_START (R90). -/
def execHeadStart (s : State) : Host.Outcome State Fault Refusal :=
  answer (s.unlessReset State.headChoice)

/-! ### The write-back rows -/

/-- The write-back of a service that ended by EXHAUSTED, QUANTUM or CUT (R114). -/
def State.writeBackStep (s : State) : State :=
  match s.endedService with
  | none => s
  | some (a, w, c) => if c.isFault then s else s.writeBackClaim a w c

/-- WRITE_BACK (R114). -/
def execWriteBack (s : State) : Host.Outcome State Fault Refusal :=
  answer (s.unlessReset State.writeBackStep)

/-- The write-back of a service that ended by FAULT (R149). -/
def State.faultWriteBackStep (s : State) : State :=
  match s.endedService with
  | none => s
  | some (a, w, c) => if c.isFault then s.writeBackClaim a w c else s

/-- FAULT_WRITE_BACK (R149). -/
def execFaultWriteBack (s : State) : Host.Outcome State Fault Refusal :=
  answer (s.unlessReset State.faultWriteBackStep)

/-! ### Links -/

/-- The link check: ARMED with the generation the successor handle names (R134). -/
def State.successorReady (s : State) (h : Handle) : Bool :=
  s.records[h.num].state == .armed && s.records[h.num].gen == h.gen

/-- A LINK_BROKEN notice built from the link in hand (R135). -/
def Link.broken (l : Link) : Notice := ⟨l.pred, l.urgency, .linkBroken l.succ⟩

/-- A CHAIN_LIMIT notice built from the link in hand (R136). -/
def Link.limit (l : Link) : Notice := ⟨l.pred, l.urgency, .chainLimit l.succ⟩

/-- The start of record `n` as a link at depth + 1: its latch, its overrun flag and the rotation pointers are
left as they are (R105, R134). -/
def State.startLink (s : State) (a : Activation) (n : RecNo) : State :=
  let r := s.records[n]
  (s.setRecord n { r with state := .active }).unitBoundary { a with depth := a.depth + 1, link := none } (.load n r)

/-- The enable-OFF course (R132). -/
def State.enableOffCourse (s : State) (l : Link) : State :=
  (if s.successorReady l.succ then s.deliverTrigger l.succ.num else s.post l.broken).endActivation

/-- The resolution of a link in hand, steps 1 to 4 (R130). -/
def State.resolve (s : State) (a : Activation) (l : Link) : State :=
  if a.depth = Config.depthLimit then (s.post l.limit).endActivation
  else if s.enable = false then s.enableOffCourse l
  else if s.noticeRoom = false then
    { s with activity := .stalled, activation := some { a with link := some { l with stage := .waiting } } }
  else if s.successorReady l.succ then s.startLink a l.succ.num
  else (s.post l.broken).endActivation

/-- The link in hand at stage `stage`, with its activation. -/
def State.linkAt (s : State) (stage : Stage) : Option (Activation × Link) :=
  match s.activation with
  | none => none
  | some a =>
    match a.link with
    | none => none
    | some l => if l.stage = stage then some (a, l) else none

/-- The resolution claim, taken while a link in hand is DUE (R130). -/
def State.resolutionStep (s : State) : State :=
  match s.linkAt .due with
  | none => s
  | some (a, l) => s.resolve a l

/-- LINK_RESOLUTION (R130). -/
def execLinkResolution (s : State) : Host.Outcome State Fault Refusal :=
  answer (s.unlessReset State.resolutionStep)

/-! ### The deferred command applied afresh -/

/-- A deferred command applied to the record as it now stands (R48, R126). -/
def State.applyDeferred (s : State) (d : Deferred) : State × Reply :=
  match d.kind with
  | .hold => s.applyHold d.handle.word
  | .retire => s.applyRetire d.handle.word

/-- The deferred command that awaits its applied-afresh step: its service has been written back. -/
def State.awaitingAfresh (s : State) : Option Deferred :=
  match s.activation with
  | none => none
  | some a =>
    match a.work with
    | none => a.deferred
    | some _ => none

/-- The applied-afresh step (R126): the command applied and completed, the activation ended. -/
def State.afreshStep (s : State) : State :=
  match s.awaitingAfresh with
  | none => s
  | some d =>
    let p := s.applyDeferred d
    (p.1.complete d.kind.command p.2).endActivation

/-- APPLIED_AFRESH (R126). -/
def execAppliedAfresh (s : State) : Host.Outcome State Fault Refusal :=
  answer (s.unlessReset State.afreshStep)

/-! ### ENGINE_GO and ENGINE_STOP -/

/-- ENGINE_GO's claim (R95). -/
def State.engineGoClaim (s : State) : State :=
  ({ s with enable := true }).settleActivity.complete codeEngineGo
    ⟨.ok, BitVec.ofNat 16 s.enable.toNat, 0⟩

/-- ENGINE_GO (R95). -/
def execEngineGo (s : State) : Host.Outcome State Fault Refusal :=
  answer (s.command codeEngineGo State.engineGoClaim)

/-- The reply of an ENGINE_STOP that completes at once (R96). -/
def State.stopReply (s : State) : Reply := ⟨.ok, BitVec.ofNat 16 s.activity.code, s.actv⟩

/-- An ENGINE_STOP left WAITING for the activation to end (R97); it will report the handle ACTIVE now. -/
def State.stopWaits (s : State) : State :=
  let s := s.setWaiting codeEngineStop
  { s with port := { s.port with stopHandle := some s.actv } }

/-- ENGINE_STOP's claim, by the activity it finds (R96 to R98). -/
def State.engineStopClaim (s : State) : State :=
  let off := { s with enable := false }
  match s.activity with
  | .running => off.stopWaits
  | .idle => off.complete codeEngineStop s.stopReply
  | .stalled =>
    match s.linkAt .waiting with
    | some (_, l) => (off.enableOffCourse l).complete codeEngineStop s.stopReply
    | none => off.settleActivity.complete codeEngineStop s.stopReply

/-- ENGINE_STOP (R96). -/
def execEngineStop (s : State) : Host.Outcome State Fault Refusal :=
  answer (s.command codeEngineStop State.engineStopClaim)

end Sys2Proof.Machine
end

