-- ==== Sys2Proof/Machine/NoticeCommands.lean ====
section
/-! DEFINITION. The notice unit towards the host (chapter 9): TAKE, NPEEK_READ, CLOSE, SET_FLOOR. -/

namespace Sys2Proof.Machine

/-! ### TAKE and NPEEK -/

/-- The head removed, its urgency added to the in-service set, NOTE_n evaluated (R165 steps 2 to 5). With the
queue empty only the holding registers change (R166). -/
def NoticeUnit.taken (u : NoticeUnit) : NoticeUnit :=
  match u.queue with
  | [] => u.loadHolding
  | n :: rest =>
    { u.loadHolding with queue := rest, inService := u.inService ||| levelBit n.urgency }.evaluate

/-- The end of a stall by a take that leaves room (R164): a link wait goes back to stage DUE and RUNNING (R133),
a head wait to IDLE (R92). -/
def State.endStall (s : State) : State :=
  match s.linkAt .waiting with
  | some (a, l) =>
    if s.noticeRoom then
      { s with activity := .running, activation := some { a with link := some { l with stage := .due } } }
    else s
  | none => s.settleActivity

/-- A take (R165, R166): an EMPTY read hands the engine nothing. -/
def State.takeClaim (s : State) : State :=
  let t := { s with notices := s.notices.taken }
  match s.notices.queue with
  | [] => t
  | _ :: _ => t.endStall

/-- A peek: the holding registers loaded, nothing else (R167). -/
def State.peekClaim (s : State) : State := { s with notices := s.notices.loadHolding }

/-- What a read access does beside its answer (R189, R195): at NTAKE a take, or with neither lane strobe a peek that
takes nothing (log 8); at NPEEK a peek; elsewhere nothing. A6:1 carry the offset, so bit 0 is not seen (R194). -/
def readClaim (access : ReadAccess) : State → State :=
  match access.offset.toNat / 2 with
  | 26 => if access.lanes.low || access.lanes.high then State.takeClaim else State.peekClaim
  | 27 => State.peekClaim
  | _ => id

/-- A read access: the word of its register as it stands, and its effect (R195). -/
def State.readAccess (s : State) (access : ReadAccess) : State :=
  s.slaveAccess (some (s.readWindow access.offset)) (readClaim access)

/-- TAKE (R165). -/
def execTake (access : ReadAccess) (s : State) : Host.Outcome State Fault Refusal :=
  answer (s.readAccess access)

/-- NPEEK_READ (R167). -/
def execNpeekRead (s : State) : Host.Outcome State Fault Refusal :=
  answer (s.readAccess ⟨0x36, .both⟩)

/-! ### CLOSE and SET_FLOOR -/

/-- The in-service set as eight flags in RVAL1 (R172). -/
def setWord (inService : Byte) : Word := BitVec.ofNat 16 inService.toNat

/-- A level made absent, and NOTE_n evaluated (R172). -/
def NoticeUnit.closed (u : NoticeUnit) (l : Urgency) : NoticeUnit :=
  { u with inService := u.inService &&& ~~~(levelBit l) }.evaluate

/-- The level an argument of CLOSE names, of those present: ARG0 0..7 that level, 8 the most urgent (R172,
R173). -/
def levelNamed (inService : Byte) (w : Word) : Option Urgency :=
  if w = 8 then lowestInService inService
  else (List.finRange 8).find? fun l => l.val == w.toNat && inService.getLsbD l.val

/-- CLOSE's claim (R172, R173). -/
def State.closeClaim (s : State) : State :=
  if 8 < s.arg0.toNat then s.complete codeClose (.bare .range)
  else
    match levelNamed s.notices.inService s.arg0 with
    | none => s.complete codeClose ⟨.notInService, 0, setWord s.notices.inService⟩
    | some l =>
      let u := s.notices.closed l
      ({ s with notices := u }).complete codeClose ⟨.ok, BitVec.ofNat 16 l.val, setWord u.inService⟩

/-- CLOSE (R172). -/
def execClose (s : State) : Host.Outcome State Fault Refusal :=
  answer (s.command codeClose State.closeClaim)

/-- SET_FLOOR's claim (R175). -/
def State.setFloorClaim (s : State) : State :=
  match floorArg s.arg0 with
  | none => s.complete codeSetFloor (.bare .range)
  | some f =>
    ({ s with notices := { s.notices with floor := f }.evaluate }).complete codeSetFloor
      ⟨.ok, BitVec.ofNat 16 s.notices.floor.val, BitVec.ofNat 16 f.val⟩

/-- SET_FLOOR (R175). -/
def execSetFloor (s : State) : Host.Outcome State Fault Refusal :=
  answer (s.command codeSetFloor State.setFloorClaim)

end Sys2Proof.Machine
end

