-- ==== Sys2Proof/Machine/PortAccesses.lean ====
section
/-! DEFINITION. The command port's own steps and the window (chapter 10): UNKNOWN, COMMAND_REFUSED,
EDIT_REGISTER_WRITE, REGISTER_WRITE, SLAVE_STROBE_NEGATED. -/

namespace Sys2Proof.Machine

/-! ### CMD writes -/

/-- UNKNOWN's claim: the port completes the command itself (R183). With an assigned code the port stays BUSY
for that code's owner. -/
def State.unknownClaim (code : Byte) (s : State) : State :=
  if codeAssigned code then s else s.complete code (.bare .unknown)

/-- UNKNOWN (R183). -/
def execUnknown (code : Byte) (s : State) : Host.Outcome State Fault Refusal :=
  answer (s.command code (State.unknownClaim code))

/-- COMMAND_REFUSED (R182): a CMD write by itself. BUSY or WAITING it sets REFUSED and does nothing else; READY
it is accepted ("completion first", log 6). -/
def execCommandRefused (code : Byte) (s : State) : Host.Outcome State Fault Refusal :=
  answer (s.slaveAccess none fun s => s.cmdWrite code)

/-! ### Register writes -/

/-- A write to one edit register of the image (R187). -/
def EditImage.write (m : EditImage) (reg : EditReg) (lanes : Lanes) (v : Word) : EditImage :=
  match reg with
  | .srcL => { m with srcL := mergeLanes m.srcL v lanes }
  | .srcH => { m with srcH := mergeLanes m.srcH v lanes }
  | .dstL => { m with dstL := mergeLanes m.dstL v lanes }
  | .dstH => { m with dstH := mergeLanes m.dstH v lanes }
  | .count => { m with count := mergeLanes m.count v lanes }
  | .reload => { m with reload := mergeLanes m.reload v lanes }
  | .quant => { m with quant := mergeLanes m.quant v lanes }
  | .mode => { m with mode := mergeLanes m.mode v lanes }
  | .succ => { m with succ := mergeLanes m.succ v lanes }
  | .level => { m with level := mergeLanes m.level v lanes }

/-- An edit-register write: stored while READY, else ignored with REFUSED set (R187). -/
def State.editWrite (s : State) (reg : EditReg) (lanes : Lanes) (v : Word) : State :=
  match s.port.state with
  | .ready => { s with image := s.image.write reg lanes v }
  | .busy _ | .waiting _ => s.refuseWrite

/-- EDIT_REGISTER_WRITE (R187). -/
def execEditRegisterWrite (reg : EditReg) (lanes : Lanes) (value : Word) (s : State) :
    Host.Outcome State Fault Refusal :=
  answer (s.slaveAccess none fun s => s.editWrite reg lanes value)

/-- What a window offset names for a write; `other` is every register that ignores writes (R189). -/
inductive WriteTarget where
  | cmd | arg0 | arg1 | arg2
  | edit (reg : EditReg)
  | other
  deriving DecidableEq, Repr

/-- The register at a window offset, for a write (R191). A6:1 carry the offset, so bit 0 is not seen (R194). -/
def writeTarget (offset : BitVec 7) : WriteTarget :=
  match offset.toNat / 2 with
  | 0 => .cmd
  | 1 => .arg0
  | 2 => .arg1
  | 3 => .arg2
  | 8 => .edit .srcL
  | 9 => .edit .srcH
  | 10 => .edit .dstL
  | 11 => .edit .dstH
  | 12 => .edit .count
  | 13 => .edit .reload
  | 14 => .edit .quant
  | 15 => .edit .mode
  | 16 => .edit .succ
  | 17 => .edit .level
  | _ => .other

/-- A write to the window (R181, R185, R187, R189). A CMD write needs the low lane. -/
def State.windowWrite (s : State) (offset : BitVec 7) (lanes : Lanes) (v : Word) : State :=
  match writeTarget offset with
  | .cmd => if lanes.low then s.cmdWrite (BitVec.ofNat 8 v.toNat) else s
  | .arg0 => { s with port.args.a0 := mergeLanes s.port.args.a0 v lanes }
  | .arg1 => { s with port.args.a1 := mergeLanes s.port.args.a1 v lanes }
  | .arg2 => { s with port.args.a2 := mergeLanes s.port.args.a2 v lanes }
  | .edit reg => s.editWrite reg lanes v
  | .other => s

/-- What an access that WR_n marks does beside its answer: with RD_n asserted too nothing at any offset, for it is
neither a read nor a write; else the write (R195). -/
def writeClaim (offset : BitVec 7) (strobes : WriteStrobes) (v : Word) : State → State :=
  if strobes.read then id else fun s => s.windowWrite offset strobes.lanes v

/-- REGISTER_WRITE (R185, R189, R195). -/
def execRegisterWrite (offset : BitVec 7) (strobes : WriteStrobes) (value : Word) (s : State) :
    Host.Outcome State Fault Refusal :=
  answer (s.slaveAccess none (writeClaim offset strobes value))

/-- SLAVE_STROBE_NEGATED (R195). -/
def execSlaveStrobeNegated (s : State) : Host.Outcome State Fault Refusal :=
  answer (s.unlessReset State.endSlaveAccess)

end Sys2Proof.Machine
end

