-- ==== Sys2Proof/Machine/BusEvents.lean ====
section
/-! DEFINITION. The bus interface's steps as master (R197 to R201), the pin reset, and an edge of CLK at which
nothing else happens. -/

namespace Sys2Proof.Machine

/-- BUS_REQUEST (R197): once the spacing has passed, BREQ_n is asserted for the request held. -/
def execBusRequest (s : State) : Host.Outcome State Fault Refusal :=
  answer (s.unlessReset fun s => { s with bus := s.bus.raiseRequest })

/-- GRANT_TAKEN (R197). -/
def execGrantTaken (s : State) : Host.Outcome State Fault Refusal :=
  answer (s.unlessReset fun s => { s with bus := s.bus.takeGrant })

/-- READ_COMPLETE (R198). -/
def execReadComplete (data : Word) (s : State) : Host.Outcome State Fault Refusal :=
  answer (s.unlessReset fun s => { s with bus := s.bus.completeRead data })

/-- RDY_n on the write: the bus released, "pair completed" returned to the engine (R198). Without a write in
progress it is disregarded. -/
def State.writeCompleted (s : State) : State :=
  match s.bus.ownership, s.bus.access with
  | .owner, some .write => ({ s with bus := s.bus.release }).pairCompleted
  | _, _ => s

/-- WRITE_COMPLETE (R198). -/
def execWriteComplete (s : State) : Host.Outcome State Fault Refusal :=
  answer (s.unlessReset State.writeCompleted)

/-- BUS_ERROR (R200): BERR_n sampled during a master access. -/
def execBusError (s : State) : Host.Outcome State Fault Refusal :=
  answer (s.unlessReset State.pairError)

/-- WAIT_LIMIT_EXPIRY (R200): the 256th edge with neither RDY_n nor BERR_n (log 10). -/
def execWaitLimitExpiry (s : State) : Host.Outcome State Fault Refusal :=
  answer (s.unlessReset State.pairError)

/-! ### Pin reset -/

/-- The part while RESET_n is asserted: every block at its pin reset values (R193). The steps pending stay
(log 19). -/
def State.pinReset (s : State) : State := { State.reset with inReset := true, pending := s.pending }

/-- PIN_RESET (R193). -/
def execPinReset (s : State) : Host.Outcome State Fault Refusal := answer s.pinReset

/-- RESET_n negated: the first samples of REQ31:0 and TICK, which are no edges (R70, R75), and the edges at which no
access is served yet (R193). -/
def State.negateReset (s : State) (lines : BitVec 32) (tick : Bool) : State :=
  if s.inReset then
    { s with
      inReset := false, holdOff := Config.holdOffEdges, lines := lines, levels := lines, tickLine := tick
      tickLevel := tick }
  else s

/-- RESET_NEGATION (R193). -/
def execResetNegation (lines : BitVec 32) (tick : Bool) (s : State) : Host.Outcome State Fault Refusal :=
  answer (s.negateReset lines tick)

/-! ### An edge of CLK -/

/-- The input lines at an edge of CLK at which they keep their levels: a level the edge before saw first is now the
line's sample (R202). The lines are taken in the order of their numbers, then TICK; no order is needed (log 13). -/
def State.clockInputs (s : State) : State :=
  let t := (List.finRange 32).foldl (fun t k => t.lineSeen k (t.levels.getLsbD k.val)) s
  t.tickSeen t.tickLevel

/-- The hold-off at an edge of CLK (R193). -/
def State.clockHoldOff (s : State) : State := { s with holdOff := s.holdOff - 1 }

/-- The divider at an edge of CLK: a tick every 64 periods (R74). -/
def State.clockDivider (s : State) : State :=
  if s.divider + 1 < Config.tickDivide then { s with divider := s.divider + 1 } else s.internalTickClaim

/-- The bus interface at an edge of CLK: a master access's wait (R200), the spacing, and BREQ_n for a request
held once the spacing has passed (R197). -/
def State.clockBus (s : State) : State :=
  match s.bus.ownership with
  | .owner =>
    if s.bus.timer + 1 < Config.waitLimit then { s with bus := { s.bus with timer := s.bus.timer + 1 } }
    else s.pairError
  | .requesting => s
  | .released =>
    if s.bus.spacing = 0 then { s with bus := s.bus.raiseRequest }
    else { s with bus := { s.bus with spacing := s.bus.spacing - 1 } }

/-- A rising edge of CLK at which no step is pending (log 9). -/
def State.clockEdge (s : State) : State :=
  s.unlessReset fun s => s.clockHoldOff.clockInputs.clockDivider.clockBus

end Sys2Proof.Machine
end

