-- ==== Sys2Proof/Machine/Pins.lean ====
section
/-! DEFINITION. What the part drives on its pins (R195, R197 to R199, R202), read off its state. Active-low
pins are given as asserted or not. -/

namespace Sys2Proof.Machine

/-- BREQ_n is asserted while REQUESTING and OWNER (R197). -/
def State.breqAsserted (s : State) : Bool := s.bus.ownership != .released

/-- NOTE_n (R176). -/
def State.noteAsserted (s : State) : Bool := s.notices.note

/-- RDY_n as the slave face drives it (R195). -/
def State.rdyAsserted (s : State) : Bool := s.bus.slave.isSome

/-- What the slave face drives on D15:0 (R195). -/
def State.slaveData (s : State) : Option Word := s.bus.slave.bind (·.driven)

/-- The lane strobes of one half of a pair (R199). -/
def unitLanes (unit : UnitSize) (addr : Addr) : Lanes :=
  match unit with
  | .word => ⟨true, true⟩
  | .byte => ⟨!addrOdd addr, addrOdd addr⟩

/-- What the master face drives during an access: A23:1, the lane strobes, RD_n, WR_n, and for a write the
bytes of D15:0 on the strobed lanes (R198, R199). -/
structure MasterPins where
  address : BitVec 23
  lanes : Lanes
  rd : Bool
  wr : Bool
  dataLow : Option Byte
  dataHigh : Option Byte
  deriving DecidableEq, Repr

/-- A23:1 of an address. -/
def addressLines (a : Addr) : BitVec 23 := BitVec.ofNat 23 (a.toNat / 2)

/-- The byte the pair register puts on the high lane: a BYTE unit's datum is moved to the lane of its
destination (R199). -/
def highByte (unit : UnitSize) (pair : Word) : Byte :=
  match unit with
  | .word => BitVec.ofNat 8 (pair.toNat / 256)
  | .byte => BitVec.ofNat 8 pair.toNat

/-- The master outputs, `none` while nothing is driven (R193, R197). -/
def State.masterPins (s : State) : Option MasterPins :=
  match s.bus.ownership, s.bus.access, s.bus.request with
  | .owner, some .read, some q =>
    some ⟨addressLines q.src, unitLanes q.unit q.src, true, false, none, none⟩
  | .owner, some .write, some q =>
    let lanes := unitLanes q.unit q.dst
    some ⟨addressLines q.dst, lanes, false, true,
      if lanes.low then some (BitVec.ofNat 8 s.bus.pair.toNat) else none,
      if lanes.high then some (highByte q.unit s.bus.pair) else none⟩
  | _, _, _ => none

end Sys2Proof.Machine
end

