-- ==== Sys2Proof/Machine/Dispatch.lean ====
section
/-! DEFINITION. The meaning of each command and event: one arm for each row of spec/opcode_table.json. -/

namespace Sys2Proof.Machine

def exec (i : Instr) (s : State) : Host.Outcome State Fault Refusal :=
  match i with
  | .allocate => Sys2Proof.Machine.execAllocate s
  | .fetch => Sys2Proof.Machine.execFetch s
  | .store => Sys2Proof.Machine.execStore s
  | .arm => Sys2Proof.Machine.execArm s
  | .hold => Sys2Proof.Machine.execHold s
  | .retire => Sys2Proof.Machine.execRetire s
  | .wipe => Sys2Proof.Machine.execWipe s
  | .trigger => Sys2Proof.Machine.execTrigger s
  | .bind => Sys2Proof.Machine.execBind s
  | .unbind => Sys2Proof.Machine.execUnbind s
  | .bindRead => Sys2Proof.Machine.execBindRead s
  | .genSet => Sys2Proof.Machine.execGenSet s
  | .genStart => Sys2Proof.Machine.execGenStart s
  | .genStop => Sys2Proof.Machine.execGenStop s
  | .genRead => Sys2Proof.Machine.execGenRead s
  | .engineGo => Sys2Proof.Machine.execEngineGo s
  | .engineStop => Sys2Proof.Machine.execEngineStop s
  | .close => Sys2Proof.Machine.execClose s
  | .setFloor => Sys2Proof.Machine.execSetFloor s
  | .unknown code => Sys2Proof.Machine.execUnknown code s
  | .commandRefused code => Sys2Proof.Machine.execCommandRefused code s
  | .editRegisterWrite reg lanes value => Sys2Proof.Machine.execEditRegisterWrite reg lanes value s
  | .registerWrite offset strobes value => Sys2Proof.Machine.execRegisterWrite offset strobes value s
  | .take access => Sys2Proof.Machine.execTake access s
  | .npeekRead => Sys2Proof.Machine.execNpeekRead s
  | .pinReset => Sys2Proof.Machine.execPinReset s
  | .resetNegation lines tick => Sys2Proof.Machine.execResetNegation lines tick s
  | .reqEdge line level => Sys2Proof.Machine.execReqEdge line level s
  | .internalTick => Sys2Proof.Machine.execInternalTick s
  | .externalTick level => Sys2Proof.Machine.execExternalTick level s
  | .generatorExpiry gen => Sys2Proof.Machine.execGeneratorExpiry gen s
  | .headStart => Sys2Proof.Machine.execHeadStart s
  | .busRequest => Sys2Proof.Machine.execBusRequest s
  | .grantTaken => Sys2Proof.Machine.execGrantTaken s
  | .readComplete data => Sys2Proof.Machine.execReadComplete data s
  | .writeComplete => Sys2Proof.Machine.execWriteComplete s
  | .busError => Sys2Proof.Machine.execBusError s
  | .waitLimitExpiry => Sys2Proof.Machine.execWaitLimitExpiry s
  | .writeBack => Sys2Proof.Machine.execWriteBack s
  | .faultWriteBack => Sys2Proof.Machine.execFaultWriteBack s
  | .linkResolution => Sys2Proof.Machine.execLinkResolution s
  | .appliedAfresh => Sys2Proof.Machine.execAppliedAfresh s
  | .slaveStrobeNegated => Sys2Proof.Machine.execSlaveStrobeNegated s

end Sys2Proof.Machine
end

