-- ==== Sys2Proof/Machine/Step.lean ====
section
/-! DEFINITION. One step of the part: the step at the front of the queue, or an edge of CLK with nothing
pending. -/

namespace Sys2Proof.Machine

/-- The step at the front of `pending` is taken with the queue's rest; with nothing pending one rising edge of
CLK passes (log 9). -/
def step (s : State) : Host.Outcome State Fault Refusal :=
  match s.pending with
  | [] => .next s.clockEdge
  | c :: rest => exec c { s with pending := rest }

/-- `s` with the command a word of CMD spells put at the front of its queue (log 20). -/
def State.withFetchWord (s : State) (nbits w : Nat) : State :=
  match decodeTableWord nbits w with
  | none => s
  | some c => { s with pending := c :: s.pending }

end Sys2Proof.Machine
end

