-- ==== Sys2Proof/Safety.lean ====
section
/-! DEFINITION. The terms claims are stated in: how the port answers, what a handle names, and what holds of
every state the part passes through. Every proposition here is decidable. -/

namespace Sys2Proof.Machine

/-! ### The command port -/

/-- The part serves the host's accesses of the window (R193, R196). -/
abbrev State.Listens (s : State) : Prop :=
  s.inReset = false ∧ s.holdOff = 0 ∧ s.bus.ownership ≠ .owner

/-- The part takes command `code` from this state: the port READY, and the access that writes the code to CMD
served; or the port BUSY on that command, its CMD write accepted before (R180, R181). -/
abbrev State.Serves (s : State) (code : Byte) : Prop :=
  (s.port.state = .ready ∧ s.Listens) ∨ (s.port.state = .busy code ∧ s.inReset = false)

/-- The bus interface after a command served from this state: the access that carried its CMD write holds RDY_n
(R195); a claim taken later, from BUSY, has no access. -/
def State.busAfter (s : State) : Bus :=
  match s.port.state with
  | .ready => { s.bus with slave := some ⟨none⟩ }
  | .busy _ | .waiting _ => s.bus

/-- The arguments a command served from this state has: the registers at its acceptance (R181), or the latch
once it has been accepted (R185). -/
def State.givenArgs (s : State) : Args :=
  match s.port.state with
  | .ready => s.port.args
  | .busy _ | .waiting _ => s.port.latched

/-- REFUSED after a command served from this state: an acceptance clears it, a completion leaves it (R189). -/
def State.refusedAfter (s : State) : Bool :=
  match s.port.state with
  | .ready => false
  | .busy _ | .waiting _ => s.port.refused

/-- The port once command `code`, served from `s`, has completed (R184). -/
def State.answered (s : State) (code : Byte) (result : ResultCode) (rval0 rval1 : Word) : Port where
  state := .ready
  refused := s.refusedAfter
  args := s.port.args
  latched := s.givenArgs
  result := BitVec.ofNat 16 (result.code + code.toNat * 256)
  rval0 := rval0
  rval1 := rval1
  stopHandle := none

/-- The state a command served from `s` leaves that changes nothing but what its completion loads (R184): the port, and
RDY_n of the access that carried it. -/
def State.replied (s : State) (code : Byte) (result : ResultCode) (rval0 rval1 : Word) : State :=
  { s with port := s.answered code result rval0 rval1, bus := s.busAfter }

/-- The port left WAITING by command `code`, served from `s` (R45, R97). -/
def State.waiting (s : State) (code : Byte) (stopHandle : Option Word) : Port :=
  { s.port with
    state := .waiting code
    refused := s.refusedAfter
    latched := s.givenArgs
    stopHandle := stopHandle }

/-! ### Handles -/

/-- A handle whose record number is above 95 (R15 step 1). -/
abbrev HandleOutOfRange (w : Word) : Prop := 96 ≤ w.toNat % 256

/-- A handle of record `n` that does not pass (R15 step 2). -/
abbrev State.StaleHandle (s : State) (w : Word) (n : RecNo) : Prop :=
  w.toNat % 256 = n.val ∧ (s.records[n].state = .free ∨ s.records[n].gen.toNat ≠ w.toNat / 256)

/-- A handle of the present allocation of record `n` (R15). -/
abbrev State.NamesRecord (s : State) (w : Word) (n : RecNo) : Prop :=
  w.toNat % 256 = n.val ∧ s.records[n].state ≠ .free ∧ s.records[n].gen.toNat = w.toNat / 256

/-- The host command rows and their codes in the CMD table of 10.7 (R191). -/
def commandRows : List (Instr × Byte) :=
  [(.allocate, 0x01), (.fetch, 0x02), (.store, 0x03), (.arm, 0x04), (.hold, 0x05), (.retire, 0x06),
   (.trigger, 0x07), (.wipe, 0x08), (.bind, 0x10), (.unbind, 0x11), (.bindRead, 0x12), (.genSet, 0x20),
   (.genStart, 0x21), (.genStop, 0x22), (.genRead, 0x23), (.engineGo, 0x30), (.engineStop, 0x31),
   (.close, 0x40), (.setFloor, 0x41)]

/-- The rows that are accesses of the window, taken under R195. -/
def isAccess : Instr → Bool
  | .commandRefused _ | .editRegisterWrite _ _ _ | .registerWrite _ _ _ | .take _ | .npeekRead => true
  | _ => false

/-- The window offset of an edit register (R191). -/
def editOffset : EditReg → BitVec 7
  | .srcL => 0x10
  | .srcH => 0x12
  | .dstL => 0x14
  | .dstH => 0x16
  | .count => 0x18
  | .reload => 0x1A
  | .quant => 0x1C
  | .mode => 0x1E
  | .succ => 0x20
  | .level => 0x22

/-- The window offsets of the registers that read what is stored in them (R185, R187, R188), and what stands there. -/
def storedRegisters (s : State) : List (BitVec 7 × Word) :=
  [(0x02, s.port.args.a0), (0x04, s.port.args.a1), (0x06, s.port.args.a2), (0x08, s.port.result),
   (0x0A, s.port.rval0), (0x0C, s.port.rval1),
   (0x10, s.image.srcL), (0x12, s.image.srcH), (0x14, s.image.dstL), (0x16, s.image.dstH), (0x18, s.image.count),
   (0x1A, s.image.reload), (0x1C, s.image.quant), (0x1E, s.image.mode), (0x20, s.image.succ), (0x22, s.image.level),
   (0x24, s.readBack.state), (0x26, s.readBack.curSL), (0x28, s.readBack.curSH), (0x2A, s.readBack.curDL),
   (0x2C, s.readBack.curDH), (0x2E, s.readBack.fault), (0x30, s.readBack.faddrL), (0x32, s.readBack.handle),
   (0x38, s.notices.nhHandle), (0x3A, s.notices.nhUnits), (0x3C, s.notices.nhAux), (0x3E, s.notices.nhAddrL)]

/-! ### The staging image -/

/-- The image encodes these edit fields, register by register (R33, R191). -/
abbrev EditImage.Encodes (m : EditImage) (e : EditFields) : Prop :=
  e.srcStart.toNat = m.srcH.toNat % 256 * 65536 + m.srcL.toNat ∧
  e.dstStart.toNat = m.dstH.toNat % 256 * 65536 + m.dstL.toNat ∧
  e.srcStep.code = bitField m.mode 0 2 ∧ e.dstStep.code = bitField m.mode 2 2 ∧
  e.unit.code = bitField m.mode 4 1 ∧ e.policy.code = bitField m.mode 5 2 ∧
  e.notice.code = bitField m.mode 7 2 ∧ conditionCode e.successor = bitField m.mode 9 2 ∧
  (∀ x ∈ e.successor, x.handle.word = m.succ) ∧
  (bitField m.mode 11 1 = 0 → e.reload = none) ∧ (bitField m.mode 11 1 = 1 → e.reload = some m.reload) ∧
  (m.quant = 0 → e.quantum = .drain) ∧ (m.quant ≠ 0 → e.quantum = .units m.quant) ∧
  e.urgency.val = bitField m.level 0 3 ∧ e.rank.val = bitField m.level 4 2

/-- STORE's check of field code `k` fails on this image: the table of R20. -/
def EditImage.checkFails (m : EditImage) (k : Nat) : Bool :=
  match k with
  | 2 => m.srcH.toNat / 256 != 0 || m.dstH.toNat / 256 != 0
  | 3 => decide (256 < m.quant.toNat)
  | 4 => bitField m.mode 4 1 == 1 && (m.srcL.toNat % 2 == 1 || m.dstL.toNat % 2 == 1)
  | 5 => bitField m.mode 5 2 == 3 || (bitField m.mode 5 2 == 2 && bitField m.mode 11 1 == 0)
  | 6 => bitField m.mode 11 1 == 1 && m.reload == 0
  | 7 => bitField m.mode 7 2 == 3
  | 8 => bitField m.mode 9 2 != 0 && decide (96 ≤ m.succ.toNat % 256)
  | 9 => bitField m.level 3 1 != 0 || bitField m.level 6 10 != 0
  | _ => false

/-! ### Heads and the head wait -/

/-- A record is eligible (R86). -/
abbrev Record.IsEligible (r : Record) : Prop := r.state = .armed ∧ 1 ≤ r.latch

/-- Conditions 1 and 3 of R88 hold and condition 4 does not. -/
abbrev State.HeadWaitCondition (s : State) : Prop :=
  s.enable = true ∧ (∃ n : RecNo, s.records[n].IsEligible) ∧ 30 < s.notices.queue.length

/-- With no activation open, activity is STALLED exactly in a head wait, else IDLE (R87, R92). -/
abbrev State.HeadWaitExact (s : State) : Prop :=
  s.activation = none →
    (s.HeadWaitCondition → s.activity = .stalled) ∧ (¬s.HeadWaitCondition → s.activity = .idle)

/-- The activity of `t` after a claim that opens and ends no activation. -/
abbrev State.ActivitySettles (s t : State) : Prop :=
  (s.activation ≠ none → t.activity = s.activity) ∧ t.HeadWaitExact

/-- How far record `n` lies after a rotation pointer: 0 for the next number, 95 for the pointer's own (R89). -/
def rotationDistance (pointer n : RecNo) : Nat := (n.val + 95 - pointer.val) % 96

/-- Record `n` is the head R89 chooses: of the lowest rank of the eligible records, and of those the first after
the rank's pointer. -/
abbrev State.IsChosenHead (s : State) (n : RecNo) : Prop :=
  s.records[n].IsEligible ∧
  ∀ m : RecNo, s.records[m].IsEligible →
    s.records[n].edit.rank ≤ s.records[m].edit.rank ∧
    (s.records[m].edit.rank = s.records[n].edit.rank →
      rotationDistance s.pointers[s.records[n].edit.rank] n ≤
        rotationDistance s.pointers[s.records[n].edit.rank] m)

/-! ### Bindings and standing triggers -/

/-- A level binding of record `n` whose line stands at its active level. -/
def Binding.activeFor (b : Binding) (n : RecNo) (high : Bool) : Bool :=
  b.handle.num == n &&
    match b.sense with
    | .high => high
    | .low => !high
    | .rising | .falling => false

/-- Record `n` is bound to a level line that stands at its active level (R65). -/
abbrev State.OnActiveLevelLine (s : State) (n : RecNo) : Prop :=
  ∃ k : LineNo, s.bindings[LineNo.source k].any (fun b => b.activeFor n (s.lines.getLsbD k.val)) = true

/-- The latch of `r` once a standing trigger of record `n` has been set where R65 asks for one. -/
abbrev State.StandingLatch (s : State) (n : RecNo) (r : Record) (latch : Nat) : Prop :=
  if (r.state = .armed ∨ r.state = .held) ∧ r.latch = 0 ∧ s.OnActiveLevelLine n then latch = 1 else latch = r.latch

/-- The table is a one-to-one map between sources and records that are not FREE, each entry names its record's
present allocation, and the sense of a generator source is RISING (R54). -/
abbrev State.BindingMap (s : State) : Prop :=
  (∀ k : SourceNo, ∀ b ∈ s.bindings[k],
    s.records[b.handle.num].state ≠ .free ∧ s.records[b.handle.num].gen = b.handle.gen ∧
      (32 ≤ k.val → b.sense = .rising)) ∧
  (∀ k l : SourceNo, ∀ b ∈ s.bindings[k], ∀ c ∈ s.bindings[l], b.handle.num = c.handle.num → k = l)

/-- Whenever the condition of R65 holds, the latch has been set. -/
abbrev State.StandingTriggersSet (s : State) : Prop :=
  ∀ n : RecNo, s.records[n].state = .armed ∨ s.records[n].state = .held → s.records[n].latch = 0 →
    ¬s.OnActiveLevelLine n

/-- While RESET_n is asserted every block holds its pin reset values (R193). What the spec gives no value for is left
out: the samples and levels of REQ31:0 and TICK, the pair register, and the hold-off, which begins at the negation
(logs 2 and 3). -/
abbrev State.ResetHeld (s : State) : Prop :=
  s.inReset = true → s = { State.reset with
    inReset := true
    holdOff := s.holdOff
    lines := s.lines
    levels := s.levels
    tickLine := s.tickLine
    tickLevel := s.tickLevel
    bus := { State.reset.bus with pair := s.bus.pair }
    pending := s.pending }

/-- What one trigger does to a record (R64). -/
abbrev TriggerTaken (r r' : Record) : Prop :=
  if r.state = .armed ∨ r.state = .active ∨ r.state = .held then
    if r.latch < 4 then r' = { r with latch := r.latch + 1 } else r' = { r with overrun := true }
  else r' = r

/-- What a sample of a line of this sense, `was` the sample before, does to the record bound to it: a sample that is no
change nothing, an edge what R63 to R65 give its sense. -/
abbrev SampleTaken (sense : Sense) (was high : Bool) (r r' : Record) : Prop :=
  if was = high then r' = r
  else if (sense = .rising ∧ high = true) ∨ (sense = .falling ∧ high = false) then TriggerTaken r r'
  else if (sense = .high ∧ high = true) ∨ (sense = .low ∧ high = false) then
    r' = if (r.state = .armed ∨ r.state = .held) ∧ r.latch = 0 then { r with latch := 1 } else r
  else r' = r

/-- What freeing record `n` leaves (R17, R62): the record FREE with its generation kept, its entry emptied. -/
abbrev State.Freed (s t : State) (n : RecNo) : Prop :=
  t.records[n].state = .free ∧ t.records[n].gen = s.records[n].gen ∧ t.records[n].latch = 0 ∧
  t.records[n].overrun = false ∧ t.records[n].fault = none ∧
  (∀ m : RecNo, m ≠ n → t.records[m] = s.records[m]) ∧
  ∀ k : SourceNo, t.bindings[k] = if s.bindings[k].any (fun b => b.handle.num == n) then none else s.bindings[k]

/-! ### Generators -/

/-- The period of a generator's present phase (R72). -/
def Generator.period (c : Generator) : Word :=
  match c.phase with
  | .a => c.periodA
  | .b => c.periodB

/-- How the fields of a context are tied together (R72). -/
abbrev Generator.Sound (c : Generator) : Prop :=
  (c.running = false → c.remaining = 0 ∧ c.phase = .a) ∧
  (c.running = true → 1 ≤ c.remaining.toNat ∧ c.remaining.toNat ≤ c.period.toNat) ∧
  (c.mode ≠ .alternate → c.phase = .a) ∧
  (c.running = true → c.periodA ≠ 0 ∧ (c.mode = .alternate → c.periodB ≠ 0))

/-- A generator status word (R191). -/
abbrev StatusWordOf (w : Word) (g : GenNo) (c : Generator) : Prop :=
  bitField w 0 3 = g.val ∧ bitField w 3 1 = c.running.toNat ∧ bitField w 4 2 = c.mode.code ∧
  bitField w 6 1 = c.source.code ∧ bitField w 7 1 = c.phase.code ∧ bitField w 8 8 = 0

/-- A context after a tick claim, and whether the tick is an expiry (R76). -/
def Generator.ticked (c : Generator) : Generator × Bool :=
  if c.running = false then (c, false)
  else if c.remaining ≠ 1 then ({ c with remaining := c.remaining - 1 }, false)
  else
    match c.mode, c.phase with
    | .once, _ => ({ c with running := false, remaining := 0, phase := .a }, true)
    | .periodic, _ => ({ c with remaining := c.periodA, phase := .a }, true)
    | .alternate, .a => ({ c with remaining := c.periodB, phase := .b }, true)
    | .alternate, .b => ({ c with remaining := c.periodA, phase := .a }, true)

/-- Generator `g` expires on a tick of `source`, and its source is bound to record `n`. -/
def State.expiryReaches (s : State) (source : TickSource) (g : GenNo) (n : RecNo) : Bool :=
  s.gens[g].source == source && s.gens[g].ticked.2 &&
    s.bindings[GenNo.source g].any (fun b => b.handle.num == n)

/-- One tick of `source`: a tick claim on each generator that counts it, and one trigger for each record an
expiry reaches, whatever the order of the claims (R73 to R76). -/
abbrev State.Ticked (s t : State) (source : TickSource) : Prop :=
  (∀ g : GenNo, t.gens[g] = if s.gens[g].source = source then s.gens[g].ticked.1 else s.gens[g]) ∧
  ∀ n : RecNo,
    if (∃ g : GenNo, s.expiryReaches source g n = true) then TriggerTaken s.records[n] t.records[n]
    else t.records[n] = s.records[n]

/-- One rising edge of CLK at the input pins, at which every line keeps the level it had at the edge before: that
level becomes each line's sample (R202), a rise of TICK's sample a tick (R75), and the hold-off has one edge fewer to
go (R193). -/
abbrev State.InputsSampled (s t : State) : Prop :=
  t = { s with
    holdOff := s.holdOff - 1, lines := s.levels, tickLine := s.tickLevel
    gens := t.gens, records := t.records, activity := t.activity } ∧
  s.ActivitySettles t ∧
  (∀ g : GenNo, t.gens[g] =
    if s.tickLine = false ∧ s.tickLevel = true ∧ s.gens[g].source = .external then s.gens[g].ticked.1
    else s.gens[g]) ∧
  (∀ k : LineNo, ∀ b ∈ s.bindings[LineNo.source k],
    SampleTaken b.sense (s.lines.getLsbD k.val) (s.levels.getLsbD k.val) s.records[b.handle.num]
      t.records[b.handle.num]) ∧
  (∀ g : GenNo, ∀ b ∈ s.bindings[GenNo.source g],
    if s.tickLine = false ∧ s.tickLevel = true ∧ s.gens[g].source = .external ∧ s.gens[g].ticked.2 = true then
      TriggerTaken s.records[b.handle.num] t.records[b.handle.num]
    else t.records[b.handle.num] = s.records[b.handle.num]) ∧
  ∀ n : RecNo, (∀ k : SourceNo, s.bindings[k].any (fun b => b.handle.num == n) = false) →
    t.records[n] = s.records[n]

/-! ### Notices -/

/-- A queue in urgency order (R162). -/
abbrev SortedQueue (queue : List Notice) : Prop := queue.Pairwise fun a b => a.urgency ≤ b.urgency

/-- The condition of NOTE_n (R176). -/
abbrev NoticeUnit.Asserts (u : NoticeUnit) : Prop :=
  ∃ n ∈ u.queue, n.urgency.val < u.floor.val ∧ ∀ l : Urgency, u.inService.getLsbD l.val = true → n.urgency < l

/-- The queue is in order, and NOTE_n shows its condition (R162, R176). -/
abbrev NoticeUnit.Exact (u : NoticeUnit) : Prop := SortedQueue u.queue ∧ (u.note = true ↔ u.Asserts)

/-- A post of `n` takes the notice unit from `u` to `v` (R163). -/
def NoticePosted (n : Notice) (u v : NoticeUnit) : Prop :=
  v = { u with queue := v.queue, note := v.note } ∧ v.Exact ∧
  ∃ before after : List Notice, u.queue = before ++ after ∧ v.queue = before ++ n :: after ∧
    (∀ x ∈ before, x.urgency ≤ n.urgency) ∧ ∀ x ∈ after, n.urgency < x.urgency

/-- A first notice word (R191). -/
abbrev FirstWordOf (w : Word) (n : Notice) : Prop :=
  bitField w 0 3 = n.kind.code ∧ bitField w 3 3 = n.urgency.val ∧ bitField w 6 1 = n.kind.overrun.toNat ∧
  bitField w 7 7 = n.handle.num.val ∧ bitField w 14 2 = 0

/-- The holding registers of `u` hold notice `n` (R168). -/
def NoticeUnit.Holds (u : NoticeUnit) (n : Notice) : Prop :=
  u.nhHandle = n.handle.word ∧
  match n.kind with
  | .serviceDone _ m | .exhausted _ m => u.nhUnits = m ∧ u.nhAux = 0 ∧ u.nhAddrL = 0
  | .fault _ m f =>
    u.nhUnits = m ∧ bitField u.nhAux 0 2 = f.cause.code ∧ bitField u.nhAux 2 6 = 0 ∧
      bitField u.nhAux 8 8 = f.addr.toNat / 65536 ∧ u.nhAddrL.toNat = f.addr.toNat % 65536
  | .linkBroken h | .chainLimit h => u.nhUnits = 0 ∧ u.nhAux = h.word ∧ u.nhAddrL = 0

/-- The most notices the queue holds at this point of an activation: the places reserved are still free (R91,
R137, R162). -/
def State.queueLimit (s : State) : Nat :=
  match s.activation with
  | none => 32
  | some a =>
    match a.work with
    | some _ => 30
    | none => 31

/-- Every notice due from the engine finds a place (R137). -/
abbrev State.QueueRoomKept (s : State) : Prop := s.notices.queue.length ≤ s.queueLimit

/-! ### Records -/

/-- Stored edit fields pass checks 2 to 9 of R20 (R21). -/
abbrev EditFields.Sound (e : EditFields) : Prop :=
  e.quantum ≠ .units 0 ∧ e.quantum.word.toNat ≤ 256 ∧
  (e.unit = .word → e.srcStart.toNat % 2 = 0 ∧ e.dstStart.toNat % 2 = 0) ∧
  (e.policy = .reload → e.reload ≠ none) ∧ e.reload ≠ some 0

/-- What ties the fields of one record together (R5, R7, R11, R13, R21, R155). -/
abbrev Record.Sound (r : Record) : Prop :=
  r.latch ≤ 4 ∧
  (r.state = .free ∨ r.state = .draft ∨ r.state = .spent ∨ r.state = .faulted → r.latch = 0) ∧
  (r.fault ≠ none ↔ r.state = .faulted) ∧
  (r.state = .armed ∨ r.state = .active ∨ r.state = .faulted → r.count ≠ 0) ∧
  (r.state = .spent → r.count = 0) ∧
  (r.state = .free ∨ r.state = .draft ∨ r.state = .faulted → r.overrun = false) ∧
  (r.state ≠ .free → r.edit.Sound) ∧
  (r.state ≠ .free → r.edit.unit = .word → r.srcCur.toNat % 2 = 0 ∧ r.dstCur.toNat % 2 = 0)

/-! ### The bus lanes -/

/-- The lane strobes of a unit at an address: the table of R199. -/
abbrev LanesOf (lanes : Lanes) (unit : UnitSize) (a : Addr) : Prop :=
  (lanes.low = true ↔ unit = .word ∨ a.toNat % 2 = 0) ∧ (lanes.high = true ↔ unit = .word ∨ a.toNat % 2 = 1)

/-! ### The engine -/

/-- A record is ACTIVE exactly while the engine runs a service for it, and the working copy names its present
allocation (R1, R102). -/
abbrev State.ActiveExact (s : State) : Prop :=
  (∀ n : RecNo, s.records[n].state = .active ↔ s.working.any (fun w => w.handle.num == n) = true) ∧
  ∀ w ∈ s.working, s.records[w.handle.num].gen = w.handle.gen

/-- An activation is in one of three conditions: a service in flight, a link in hand, or a deferred command about
to be applied (R128). Its depth is 1 to 12. -/
def Activation.shape (a : Activation) : Bool :=
  1 ≤ a.depth && a.depth ≤ 12 &&
    match a.work, a.link, a.deferred with
    | some _, none, _ => true
    | none, some _, none => true
    | none, none, some _ => true
    | _, _, _ => false

/-- Whether the engine waits for notice room with a link in hand (R133). -/
def Activation.inLinkWait (a : Activation) : Bool := a.link.any (fun l => l.stage == .waiting)

/-- Activity and the activation agree (R87, R133). -/
abbrev State.ActivityCoherent (s : State) : Prop :=
  (s.activation = none → s.activity ≠ .running) ∧
  ∀ a ∈ s.activation, a.shape = true ∧
    (a.inLinkWait = true → s.activity = .stalled ∧ s.enable = true) ∧
    (a.inLinkWait = false → s.activity = .running)

/-- The port waits exactly for what the engine holds for it: a deferred HOLD or RETIRE (R45), or an ENGINE_STOP
that found an activation open (R97). Enable is OFF with an activation open only in the second case (R87). -/
abbrev State.WaitingCoherent (s : State) : Prop :=
  (s.port.stopHandle ≠ none ↔ s.port.state = .waiting codeEngineStop) ∧
  (s.port.stopHandle ≠ none → s.activation ≠ none ∧ s.enable = false) ∧
  (s.activation ≠ none → s.enable = true ∨ s.port.stopHandle ≠ none) ∧
  (∀ a ∈ s.activation, ∀ d ∈ a.deferred, s.port.state = .waiting d.kind.command ∧
    ∀ w ∈ a.work, d.handle = w.handle) ∧
  (∀ kind : Byte, s.port.state = .waiting kind →
    kind = codeEngineStop ∨ s.activation.any (fun a => a.deferred.any (fun d => d.kind.command == kind)) = true)

/-- The unit request the engine has outstanding (R107). -/
def State.outstandingRequest (s : State) : Option UnitRequest :=
  match s.working with
  | none => none
  | some w => if w.endCause = none then some w.request else none

/-- The bus interface holds exactly the engine's request, and its parts agree (R197, R198, R200). A deferred
command lets a service go on only while a pair is under way (R112). -/
abbrev State.BusCoherent (s : State) : Prop :=
  s.bus.request = s.outstandingRequest ∧
  (s.bus.ownership = .owner ↔ s.bus.access ≠ none) ∧
  (s.bus.ownership ≠ .released → s.bus.request ≠ none ∧ s.bus.spacing = 0) ∧
  s.bus.spacing ≤ 2 ∧ s.bus.timer < 256 ∧
  (s.bus.access = none → s.bus.timer = 0) ∧
  (s.bus.ownership = .owner → s.bus.slave = none) ∧
  (s.outstandingRequest ≠ none → s.activation.any (fun a => a.deferred.isSome) = true → s.bus.ownership = .owner)

/-- The engine, the record store, the port and the bus interface agree about the activation. -/
abbrev State.EngineCoherent (s : State) : Prop :=
  s.ActiveExact ∧ s.ActivityCoherent ∧ s.WaitingCoherent ∧ s.BusCoherent

/-- An activation of `s` ends in `t`: the context discarded, a waiting ENGINE_STOP completed with OK, RVAL0 RUNNING
and the handle it noted (R94, R97), the activity IDLE, or STALLED in a head wait. -/
abbrev State.ActivationEnds (s t : State) : Prop :=
  t.activation = none ∧ t.HeadWaitExact ∧
  (s.port.stopHandle = none → t.port = s.port) ∧
  ∀ h ∈ s.port.stopHandle, t.port =
    { s.port with state := .ready, result := 0x3100, rval0 := 1, rval1 := h, stopHandle := none }

/-- An address after a counted unit, and whether its step was refused (R109). -/
def addressStepped (step : AddrStep) (unit : UnitSize) (a : Addr) : Addr × Bool :=
  let size := match unit with
    | .byte => 1
    | .word => 2
  match step with
  | .fixed => (a, false)
  | .ascend | .ascendReturn => if a.toNat + size < 2 ^ 24 then (a + BitVec.ofNat 24 size, false) else (a, true)
  | .descend => if size ≤ a.toNat then (a - BitVec.ofNat 24 size, false) else (a, true)

/-- A successor condition matches an end cause: the table of R129. -/
def conditionMatches (c : Condition) (cause : EndCause) : Bool :=
  match cause, c with
  | .quantum, .always | .quantum, .onRemaining | .exhausted, .always | .exhausted, .onExhausted => true
  | .quantum, .onExhausted | .exhausted, .onRemaining | .cut, _ | .fault _ _, _ => false

/-- What the end cause says of the working count and units moved (R110). -/
def Working.endCauseTrue (w : Working) : Bool :=
  match w.endCause with
  | none => w.count != 0 && (w.edit.quantum == .drain || decide (w.moved.toNat < w.edit.quantum.word.toNat))
  | some .exhausted => w.count == 0
  | some .quantum => w.count != 0 && w.edit.quantum == .units w.moved
  | some .cut => w.count != 0
  | some (.fault _ _) => w.count != 0

/-- The working copy of the service in flight against the stored record (R102, R108, R111). -/
abbrev State.WorkingSound (s : State) : Prop :=
  ∀ w ∈ s.working,
    s.records[w.handle.num].edit = w.edit ∧
    w.count.toNat + w.moved.toNat = s.records[w.handle.num].count.toNat ∧
    w.endCauseTrue = true ∧
    (w.edit.quantum ≠ .drain → w.moved.toNat ≤ w.edit.quantum.word.toNat) ∧
    (w.edit.unit = .word → w.srcCur.toNat % 2 = 0 ∧ w.dstCur.toNat % 2 = 0)

/-- A CUT is made only for a deferred command (R125). -/
abbrev State.CutDeferred (s : State) : Prop :=
  ∀ a ∈ s.activation, ∀ w ∈ a.work, w.endCause = some .cut → a.deferred ≠ none

/-- Every record is sound, and so is the progress of the service in flight. -/
abbrev State.ServiceSound (s : State) : Prop :=
  s.EngineCoherent ∧ (∀ n : RecNo, s.records[n].Sound) ∧ s.WorkingSound ∧ s.CutDeferred

end Sys2Proof.Machine
end

