-- ==== Sys2Proof/WellFormed.lean ====
section
/-! DEFINITION. The operands a row of the table can have. `exec` is total, so an ill-formed step is not
refused: it is one that belongs to another row. -/

namespace Sys2Proof

/-- The codes the CMD table of 10.7 assigns (R191). -/
def assignedCodes : List Byte :=
  [0x01, 0x02, 0x03, 0x04, 0x05, 0x06, 0x07, 0x08, 0x10, 0x11, 0x12,
   0x20, 0x21, 0x22, 0x23, 0x30, 0x31, 0x40, 0x41]

/-- Registers are at even offsets (R191). -/
def offsetEven (offset : BitVec 7) : Bool := offset.toNat % 2 == 0

/-- The edit registers, whose writes have a row of their own (R187). -/
def offsetIsEdit (offset : BitVec 7) : Bool := 0x10 ≤ offset.toNat && offset.toNat ≤ 0x23

/-- UNKNOWN takes an unassigned code (R183); REGISTER_WRITE an even offset, which is no edit register's
unless both strobes are asserted (R195); a read an even offset other than that of NPEEK, whose reads are NPEEK_READ
(R167). -/
def WellFormed : Instr → Bool
  | .unknown code => !assignedCodes.contains code
  | .registerWrite offset strobes _ => offsetEven offset && (strobes.read || !offsetIsEdit offset)
  | .take access => offsetEven access.offset && access.offset != 0x36
  | .allocate | .fetch | .store | .arm | .hold | .retire | .wipe | .trigger | .bind | .unbind
  | .bindRead | .genSet | .genStart | .genStop | .genRead | .engineGo | .engineStop | .close
  | .setFloor | .commandRefused _ | .editRegisterWrite _ _ _ | .npeekRead | .pinReset
  | .resetNegation _ _ | .reqEdge _ _ | .internalTick | .externalTick _ | .generatorExpiry _
  | .headStart | .busRequest | .grantTaken | .readComplete _ | .writeComplete | .busError
  | .waitLimitExpiry | .writeBack | .faultWriteBack | .linkResolution | .appliedAfresh
  | .slaveStrobeNegated => true

end Sys2Proof
end

