-- ==== Sys2Proof/Certificates/Slice0/Obligations.lean ====
section
/-! DEFINITION. The statements for the provers. -/

section
open Sys2Proof Sys2Proof.Machine

/-! ### The queue, the clock and reset -/

/-- 95_what_each_step_holds.md: the steps are taken one at a time. Log 19. -/
def Obligations.StepRunsFrontCommand : Prop :=
  ∀ (c : Instr) (rest : List Instr) (s : State),
    step { s with pending := c :: rest } = exec c { s with pending := rest }

/-- No step stops the part, and each takes exactly the front of the queue. Log 1. -/
def Obligations.EveryStepAnswersNext : Prop :=
  ∀ s : State, ∃ t, step s = .next t ∧ t.pending = s.pending.tail

/-- The model's choice for an empty queue (log 9): one rising edge of CLK. The input pins are sampled (R202) and the
hold-off of R193 counts it; the divider of R74 counts it, its 64th giving the internal tick; and the bus interface does
what R197 and R200 give an edge. That the inputs come first, then the divider, then the bus, is the model's order
(log 13). -/
def Obligations.IdleStepIsAClockEdge : Prop :=
  ∀ s : State, s.pending = [] →
    (s.inReset = true → step s = .next s) ∧
    (s.inReset = false → s.BindingMap → s.HeadWaitExact → ∃ u v t, step s = .next t ∧ s.InputsSampled u ∧
      (s.divider < 63 → v = { u with divider := s.divider + 1 }) ∧
      (63 ≤ s.divider → exec .internalTick u = .next v) ∧
      t = { v with bus := t.bus, activation := t.activation } ∧
      (s.bus.ownership = .requesting → t.bus = s.bus) ∧
      (s.bus.ownership = .released → s.bus.spacing ≠ 0 →
        t.bus = { s.bus with spacing := s.bus.spacing - 1 }) ∧
      (s.bus.ownership = .released → s.bus.spacing = 0 → s.bus.request = none → t.bus = s.bus) ∧
      (s.bus.ownership = .released → s.bus.spacing = 0 → s.bus.request ≠ none →
        t.bus = { s.bus with ownership := .requesting }) ∧
      (s.bus.ownership ≠ .owner → t.activation = s.activation) ∧
      (s.bus.ownership = .owner → s.bus.timer < 255 →
        t.bus = { s.bus with timer := s.bus.timer + 1 } ∧ t.activation = s.activation) ∧
      (s.bus.ownership = .owner → 255 ≤ s.bus.timer → s.bus.access ≠ none →
        exec .waitLimitExpiry v = .next t))

/-- R22, R70, R74, R85, R100, R178, R192, R193: what an assertion of RESET_n leaves, and what the queue keeps
(log 19). The pair register's value is the model's choice (log 3), and so are the samples and levels of the lines
while RESET_n is asserted (log 2); none is stated. -/
def Obligations.PinResetLeavesResetValues : Prop :=
  ∀ s : State, ∃ t, exec .pinReset s = .next t ∧ t.inReset = true ∧ t.pending = s.pending ∧
    (∀ n : RecNo, t.records[n] =
      { state := .free, gen := 0, srcCur := 0, dstCur := 0, count := 0, latch := 0, overrun := false, fault := none
        edit := { srcStart := 0, dstStart := 0, srcStep := .fixed, dstStep := .fixed, unit := .byte
                  quantum := .drain, reload := none, policy := .park, successor := none, notice := .none
                  urgency := 0, rank := 0 } }) ∧
    (∀ k : SourceNo, t.bindings[k] = none) ∧
    (∀ g : GenNo, t.gens[g] =
      { running := false, mode := .once, source := .internal, periodA := 0, periodB := 0, phase := .a
        remaining := 0 }) ∧
    (∀ k : Rank, t.pointers[k] = 95) ∧
    t.enable = false ∧ t.activity = .idle ∧ t.activation = none ∧ t.actv = 0xFFFF ∧
    t.notices =
      { queue := [], inService := 0, floor := 8, note := false, nhHandle := 0, nhUnits := 0, nhAux := 0
        nhAddrL := 0 } ∧
    t.port =
      { state := .ready, refused := false, args := ⟨0, 0, 0⟩, latched := ⟨0, 0, 0⟩, result := 0, rval0 := 0
        rval1 := 0, stopHandle := none } ∧
    t.image = ⟨0, 0, 0, 0, 0, 0, 0, 0, 0, 0⟩ ∧ t.readBack = ⟨0, 0, 0, 0, 0, 0, 0, 0⟩ ∧ t.pstat = 0 ∧
    t.bus.ownership = .released ∧ t.bus.request = none ∧ t.bus.access = none ∧ t.bus.timer = 0 ∧
    t.bus.spacing = 0 ∧ t.bus.slave = none ∧ t.divider = 0

/-- R193: the part serves nothing while RESET_n is asserted, and its negation takes the first samples (R70, R75) and
begins the three edges at which no access is served. That no other step acts while RESET_n is asserted is deduced
(log 18); that each such step goes on and changes nothing, and that a negation has no effect with RESET_n negated, is
the model's choice (log 1); that the first samples are levels already seen too is log 2. -/
def Obligations.OnlyNegationActsInReset : Prop :=
  (∀ (s : State) (i : Instr), s.inReset = true → i ≠ .pinReset → (∀ lines tick, i ≠ .resetNegation lines tick) →
    exec i s = .next s) ∧
  (∀ (s : State) (lines : BitVec 32) (tick : Bool), s.inReset = true →
    exec (.resetNegation lines tick) s = .next { s with
      inReset := false, holdOff := 3, lines := lines, levels := lines, tickLine := tick, tickLevel := tick }) ∧
  ∀ (s : State) (lines : BitVec 32) (tick : Bool), s.inReset = false →
    exec (.resetNegation lines tick) s = .next s

/-! ### The command port -/

/-- R181, R182, R191, R195: a CMD write, served while the part listens. Its word spells the command of its low byte
by the CMD table, bits 15:8 ignored, and the host's question runs that command next (log 20). By itself it is
accepted from READY: the arguments latched, REFUSED cleared, the port BUSY (that it stops there is the model's division,
log 6); from BUSY or WAITING it sets REFUSED and nothing else. A command's row written while another command is
served is such a refusal. A row that finds the port BUSY on its own code is that command's claim and no write
(log 4), and an access made while the part does not listen is none (log 5); both stand in other statements. -/
def Obligations.CmdWriteAcceptedOrRefused : Prop :=
  (∀ (s : State) (w : Word),
    (∀ p ∈ commandRows, p.2.toNat = w.toNat % 256 → decodeTableWord 16 w.toNat = some p.1 ∧
      step (s.withFetchWord 16 w.toNat) = exec p.1 s) ∧
    ((∀ p ∈ commandRows, p.2.toNat ≠ w.toNat % 256) →
      decodeTableWord 16 w.toNat = some (.unknown (BitVec.ofNat 8 w.toNat)) ∧
      step (s.withFetchWord 16 w.toNat) = exec (.unknown (BitVec.ofNat 8 w.toNat)) s)) ∧
  ∀ s : State, s.Listens →
    (∀ code : Byte,
      (s.port.state = .ready → exec (.commandRefused code) s = .next { s with
        port := { s.port with state := .busy code, refused := false, latched := s.port.args }
        bus.slave := some ⟨none⟩ }) ∧
      (s.port.state ≠ .ready → exec (.commandRefused code) s = .next { s with
        port.refused := true
        bus.slave := some ⟨none⟩ })) ∧
    (∀ p ∈ commandRows, (∃ c, s.port.state = .waiting c) ∨ (∃ c, s.port.state = .busy c ∧ c ≠ p.2) →
      exec p.1 s = .next { s with port.refused := true, bus.slave := some ⟨none⟩ }) ∧
    ∀ code : Byte, (∃ c, s.port.state = .waiting c) ∨ (∃ c, s.port.state = .busy c ∧ c ≠ code) →
      exec (.unknown code) s = .next { s with port.refused := true, bus.slave := some ⟨none⟩ }

/-- R183: an unassigned code completes with UNKNOWN, the code in RESULT bits 15:8, RVAL0 and RVAL1 0, and nothing
outside the port changes but RDY_n of the access that carried it (R195). Accepted from READY it has cleared
REFUSED. Code 0x00 is unassigned, as is every code but the nineteen of the CMD table. -/
def Obligations.UnknownCodeCompletesItself : Prop :=
  WellFormed (.unknown 0x00) = true ∧
  (∀ code : Byte, WellFormed (.unknown code) = true ↔ ∀ p ∈ commandRows, p.2 ≠ code) ∧
  ∀ (s : State) (code : Byte), WellFormed (.unknown code) = true → s.Serves code →
    ∃ t, exec (.unknown code) s = .next t ∧
      t = s.replied code .unknown 0 0 ∧
      t.port.result.toNat % 256 = 10 ∧ t.port.result.toNat / 256 = code.toNat ∧
      (s.port.state = .ready → t.port.refused = false)

/-- R190, R191, R195: what a read of each register of the window returns, in every state with at most 32 notices
(R162), and that a read drives it and asserts RDY_n and else changes nothing, NTAKE and NPEEK apart. That such a read is
taken by TAKE's row with another offset is the model's choice (log 24). -/
def Obligations.WindowReadsReturnRegisters : Prop :=
  ∀ s : State,
    (∀ p ∈ storedRegisters s, s.readWindow p.1 = p.2) ∧
    s.readWindow 0x00 = 0 ∧ (∀ offset : BitVec 7, 0x44 ≤ offset.toNat → s.readWindow offset = 0) ∧
    (s.notices.queue.length ≤ 32 →
      bitField (s.readWindow 0x0E) 0 2 =
        (match s.port.state with | .ready => 0 | .busy _ => 1 | .waiting _ => 2) ∧
      bitField (s.readWindow 0x0E) 2 1 = s.port.refused.toNat ∧
      bitField (s.readWindow 0x0E) 3 1 = s.enable.toNat ∧
      bitField (s.readWindow 0x0E) 4 2 =
        (match s.activity with | .idle => 0 | .running => 1 | .stalled => 2) ∧
      bitField (s.readWindow 0x0E) 6 1 = s.notices.note.toNat ∧
      bitField (s.readWindow 0x0E) 7 6 = s.notices.queue.length ∧
      bitField (s.readWindow 0x0E) 13 3 = 0) ∧
    (∀ l : Urgency, (s.readWindow 0x40).getLsbD l.val = s.notices.inService.getLsbD l.val) ∧
    bitField (s.readWindow 0x40) 8 4 = s.notices.floor.val ∧ bitField (s.readWindow 0x40) 12 4 = 0 ∧
    (s.working = none → s.readWindow 0x42 = 0xFFFF) ∧
    (∀ w ∈ s.working, (s.readWindow 0x42).toNat = w.handle.gen.toNat * 256 + w.handle.num.val) ∧
    s.readWindow 0x36 = s.readWindow 0x34 ∧ (s.notices.queue = [] → s.readWindow 0x34 = 0) ∧
    (∀ (n : Notice) (rest : List Notice), s.notices.queue = n :: rest → FirstWordOf (s.readWindow 0x34) n) ∧
    ∀ access : ReadAccess, WellFormed (.take access) = true → access.offset ≠ 0x34 → s.Listens →
      ∃ t, exec (.take access) s = .next t ∧
        t = { s with bus.slave := some ⟨some (s.readWindow access.offset)⟩ } ∧
        t.rdyAsserted = true ∧ t.slaveData = some (s.readWindow access.offset)

/-- R187: an edit register takes the bytes of the lanes carried while the port is READY; else it keeps its value
and REFUSED is set. -/
def Obligations.EditRegisterWriteNeedsReady : Prop :=
  ∀ (s : State) (reg : EditReg) (lanes : Lanes) (v : Word), s.Listens →
    ∃ t, exec (.editRegisterWrite reg lanes v) s = .next t ∧
      (s.port.state ≠ .ready → t = { s with port.refused := true, bus.slave := some ⟨none⟩ }) ∧
      (s.port.state = .ready → t = { s with image := t.image, bus.slave := some ⟨none⟩ } ∧
        ∀ (other : EditReg) (bit : Nat), bit < 16 →
          (t.readWindow (editOffset other)).getLsbD bit =
            if other = reg ∧ ((lanes.low = true ∧ bit < 8) ∨ (lanes.high = true ∧ 8 ≤ bit)) then v.getLsbD bit
            else (s.readWindow (editOffset other)).getLsbD bit)

/-- R185, R189: ARG0 to ARG2 take the bytes of the lanes carried in every port state; a write at any other offset
without a row of its own, CMD apart, is ignored and leaves REFUSED. A CMD write without the low lane is none
(R181). With both strobes asserted the access is answered and does nothing at any offset, the edit registers, CMD and
NTAKE among them (R195); that it is this row's is the model's choice (log 22). -/
def Obligations.RegisterWriteStoresArguments : Prop :=
  ∀ (s : State) (offset : BitVec 7) (lanes : Lanes) (v : Word), s.Listens →
    exec (.registerWrite offset ⟨lanes, true⟩ v) s = .next { s with bus.slave := some ⟨none⟩ } ∧
    (WellFormed (.registerWrite offset ⟨lanes, false⟩ v) = true → offset = 0x00 → lanes.low = true →
      exec (.registerWrite offset ⟨lanes, false⟩ v) s = exec (.commandRefused (BitVec.ofNat 8 v.toNat)) s) ∧
    (WellFormed (.registerWrite offset ⟨lanes, false⟩ v) = true → offset ≠ 0x00 ∨ lanes.low = false →
      ∃ t, exec (.registerWrite offset ⟨lanes, false⟩ v) s = .next t ∧
        t = { s with port.args := t.port.args, bus.slave := some ⟨none⟩ } ∧
        ∀ r ∈ [(0x02 : BitVec 7), 0x04, 0x06], ∀ bit : Nat, bit < 16 →
          (t.readWindow r).getLsbD bit =
            if r = offset ∧ ((lanes.low = true ∧ bit < 8) ∨ (lanes.high = true ∧ 8 ≤ bit)) then v.getLsbD bit
            else (s.readWindow r).getLsbD bit)

/-- R15 steps 1 and 2, for the six commands that name a record in ARG0: RANGE, then STALE, RVAL0 and RVAL1 0, and
nothing else changes. -/
def Obligations.HandleCheckRefusesInOrder : Prop :=
  ∀ p ∈ [(Instr.fetch, (0x02 : Byte)), (.store, 0x03), (.arm, 0x04), (.hold, 0x05), (.retire, 0x06), (.trigger, 0x07)],
  ∀ s : State, s.Serves p.2 → s.HeadWaitExact →
    (HandleOutOfRange s.givenArgs.a0 → exec p.1 s = .next (s.replied p.2 .range 0 0)) ∧
    ∀ n : RecNo, s.StaleHandle s.givenArgs.a0 n → exec p.1 s = .next (s.replied p.2 .stale 0 0)

/-! ### The record commands -/

/-- R18, R19, R26: ALLOCATE. -/
def Obligations.AllocateTakesLowestFree : Prop :=
  ∀ s : State, s.Serves 0x01 →
    (∀ n : RecNo, s.records[n].state = .free → (∀ m : RecNo, m < n → s.records[m].state ≠ .free) →
      ∃ t, exec .allocate s = .next t ∧
        t = { s with
          records := s.records.set n
            { state := .draft, gen := s.records[n].gen + 1, srcCur := 0, dstCur := 0, count := 0, latch := 0
              overrun := false, fault := none
              edit := { srcStart := 0, dstStart := 0, srcStep := .fixed, dstStep := .fixed, unit := .byte
                        quantum := .units 1, reload := none, policy := .park, successor := none, notice := .onEnd
                        urgency := 7, rank := 3 } }
          bus := s.busAfter
          port := s.answered 0x01 .ok t.port.rval0 0 } ∧
        t.port.rval0.toNat = (s.records[n].gen + 1).toNat * 256 + n.val) ∧
    ((∀ n : RecNo, s.records[n].state ≠ .free) →
      exec .allocate s = .next (s.replied 0x01 .full 0 0))

/-- R28 to R31: FETCH loads the edit registers with the stored edit fields, the absent fields and unused bits 0,
and the read-back registers with the state and progress as stored, and the binding. -/
def Obligations.FetchLoadsTheImage : Prop :=
  ∀ (s : State) (n : RecNo), s.Serves 0x02 → s.NamesRecord s.givenArgs.a0 n → s.records[n].edit.Sound →
    s.BindingMap → s.records[n].latch ≤ 4 →
    ∃ t, exec .fetch s = .next t ∧
      t = { s with
        image := t.image
        readBack := t.readBack
        bus := s.busAfter
        port := s.answered 0x02 .ok s.givenArgs.a0 (BitVec.ofNat 16 s.records[n].state.code) } ∧
      t.image.Encodes s.records[n].edit ∧ t.image.count = s.records[n].count ∧
      t.image.srcH.toNat < 256 ∧ t.image.dstH.toNat < 256 ∧ bitField t.image.mode 12 4 = 0 ∧
      bitField t.image.level 3 1 = 0 ∧ bitField t.image.level 6 10 = 0 ∧
      (s.records[n].edit.reload = none → t.image.reload = 0) ∧
      (s.records[n].edit.successor = none → t.image.succ = 0) ∧
      bitField t.readBack.state 0 3 = s.records[n].state.code ∧
      bitField t.readBack.state 3 3 = s.records[n].latch ∧
      bitField t.readBack.state 6 1 = s.records[n].overrun.toNat ∧ bitField t.readBack.state 14 2 = 0 ∧
      (∀ k : SourceNo, s.bindings[k].any (fun b => b.handle.num == n) = true →
        bitField t.readBack.state 7 1 = 1 ∧ bitField t.readBack.state 8 6 = k.val) ∧
      ((∀ k : SourceNo, s.bindings[k].any (fun b => b.handle.num == n) = false) →
        bitField t.readBack.state 7 1 = 0 ∧ bitField t.readBack.state 8 6 = 0) ∧
      t.readBack.curSH.toNat * 65536 + t.readBack.curSL.toNat = s.records[n].srcCur.toNat ∧
      t.readBack.curDH.toNat * 65536 + t.readBack.curDL.toNat = s.records[n].dstCur.toNat ∧
      (s.records[n].fault = none → t.readBack.fault = 0 ∧ t.readBack.faddrL = 0) ∧
      (∀ f ∈ s.records[n].fault, bitField t.readBack.fault 0 2 = f.cause.code ∧
        bitField t.readBack.fault 2 6 = 0 ∧
        bitField t.readBack.fault 8 8 * 65536 + t.readBack.faddrL.toNat = f.addr.toNat) ∧
      t.readBack.handle = s.givenArgs.a0

/-- R20, R32, R33: STORE of a DRAFT or HELD record: the first failing check, or the fields copied; of another,
STATE. -/
def Obligations.StoreChecksThenCopies : Prop :=
  ∀ (s : State) (n : RecNo), s.Serves 0x03 → s.NamesRecord s.givenArgs.a0 n →
    (s.records[n].state ≠ .draft → s.records[n].state ≠ .held →
      exec .store s = .next (s.replied 0x03 .state 0 (BitVec.ofNat 16 s.records[n].state.code))) ∧
    (s.records[n].state = .draft ∨ s.records[n].state = .held →
      (∀ k : Nat, s.image.checkFails k = true → (∀ j : Nat, j < k → s.image.checkFails j = false) →
        exec .store s = .next (s.replied 0x03 .invalid (BitVec.ofNat 16 k) (BitVec.ofNat 16 s.records[n].state.code))) ∧
      ((∀ k : Nat, s.image.checkFails k = false) → ∃ (e : EditFields) (t : State), exec .store s = .next t ∧
        s.image.Encodes e ∧
        t = { s with
          records := s.records.set n { s.records[n] with
            edit := e, count := s.image.count, srcCur := e.srcStart, dstCur := e.dstStart }
          bus := s.busAfter
          port := s.answered 0x03 .ok s.givenArgs.a0 (BitVec.ofNat 16 s.records[n].state.code) }))

/-- R29: a FETCH followed by a STORE of the same handle stores the same fields again. -/
def Obligations.FetchThenStoreKeepsFields : Prop :=
  ∀ (s : State) (n : RecNo), s.Listens → s.port.state = .ready → s.NamesRecord s.port.args.a0 n →
    s.records[n].state = .draft ∨ s.records[n].state = .held → s.records[n].edit.Sound →
    ∃ t u, exec .fetch s = .next t ∧ exec .store t = .next u ∧
      u.records[n].edit = s.records[n].edit ∧ u.records[n].count = s.records[n].count ∧
      u.port.result = 0x0300

/-- R21, R36 to R38: ARM of a DRAFT or HELD record, whose stored fields have passed STORE's checks: INVALID with
COUNT, or ARMED with its latch kept or given a standing trigger; of another, STATE. -/
def Obligations.ArmTakesRecordToArmed : Prop :=
  ∀ (s : State) (n : RecNo), s.Serves 0x04 → s.NamesRecord s.givenArgs.a0 n → s.records[n].edit.Sound →
    s.BindingMap →
    (s.records[n].state ≠ .draft → s.records[n].state ≠ .held →
      exec .arm s = .next (s.replied 0x04 .state 0 (BitVec.ofNat 16 s.records[n].state.code))) ∧
    (s.records[n].state = .draft ∨ s.records[n].state = .held →
      (s.records[n].count = 0 →
        exec .arm s = .next (s.replied 0x04 .invalid 1 (BitVec.ofNat 16 s.records[n].state.code))) ∧
      (s.records[n].count ≠ 0 → ∃ t, exec .arm s = .next t ∧
        t = { s with
          records := s.records.set n { s.records[n] with state := .armed, latch := t.records[n].latch }
          activity := t.activity
          bus := s.busAfter
          port := s.answered 0x04 .ok s.givenArgs.a0 (BitVec.ofNat 16 s.records[n].state.code) } ∧
        s.StandingLatch n { s.records[n] with state := .armed } t.records[n].latch ∧ s.ActivitySettles t))

/-- R39, R41: HOLD of a record that is not ACTIVE. -/
def Obligations.HoldPausesRecord : Prop :=
  ∀ (s : State) (n : RecNo), s.Serves 0x05 → s.NamesRecord s.givenArgs.a0 n → s.records[n].state ≠ .active →
    s.BindingMap → s.HeadWaitExact →
    ∃ t, exec .hold s = .next t ∧ s.ActivitySettles t ∧
      t = { s with
        records := s.records.set n t.records[n]
        activity := t.activity
        bus := s.busAfter
        port := if s.records[n].state = .draft then s.answered 0x05 .state 0 1
          else s.answered 0x05 .ok s.givenArgs.a0 (BitVec.ofNat 16 s.records[n].state.code) } ∧
      (s.records[n].state = .draft ∨ s.records[n].state = .held → t.records[n] = s.records[n]) ∧
      (s.records[n].state = .armed → t.records[n] = { s.records[n] with state := .held }) ∧
      (s.records[n].state = .spent ∨ s.records[n].state = .faulted →
        t.records[n] = { s.records[n] with state := .held, fault := none, latch := t.records[n].latch } ∧
        s.StandingLatch n { s.records[n] with state := .held } t.records[n].latch)

/-- R42, R43: RETIRE of a record that is not ACTIVE frees it and empties its entry. -/
def Obligations.RetireFreesRecord : Prop :=
  ∀ (s : State) (n : RecNo), s.Serves 0x06 → s.NamesRecord s.givenArgs.a0 n → s.records[n].state ≠ .active →
    ∃ t, exec .retire s = .next t ∧ s.Freed t n ∧ s.ActivitySettles t ∧
      t = { s with
        records := t.records
        bindings := t.bindings
        activity := t.activity
        bus := s.busAfter
        port := s.answered 0x06 .ok s.givenArgs.a0 (BitVec.ofNat 16 s.records[n].state.code) }

/-- R45, R112, R113, R201: HOLD or RETIRE of the ACTIVE record is deferred: the port WAITING, the record
unchanged; a service that waits for the grant is cut and its request withdrawn, any other goes on. That the
withdrawal of a raised request begins the spacing is the model's reading (log 15). -/
def Obligations.ActiveRecordDefersCommand : Prop :=
  ∀ p ∈ [(Instr.hold, (0x05 : Byte), DeferredKind.hold), (.retire, 0x06, .retire)],
  ∀ (s : State) (n : RecNo) (a : Activation), s.Serves p.2.1 → s.NamesRecord s.givenArgs.a0 n →
    s.records[n].state = .active → s.activation = some a →
    ∃ t, exec p.1 s = .next t ∧
      t = { s with port := s.waiting p.2.1 s.port.stopHandle, activation := t.activation, bus := t.bus } ∧
      (∀ w : Working, a.work = some w → w.endCause = none → s.bus.ownership ≠ .owner →
        t.activation = some { a with
          deferred := some ⟨p.2.2, n, s.records[n].gen⟩
          work := some { w with endCause := some .cut } } ∧
        t.bus = { s.busAfter with
          request := none
          ownership := .released
          spacing := if s.bus.ownership = .requesting then 2 else s.bus.spacing }) ∧
      ((∀ w : Working, a.work = some w → w.endCause ≠ none) ∨ s.bus.ownership = .owner →
        t.activation = some { a with deferred := some ⟨p.2.2, n, s.records[n].gen⟩ } ∧ t.bus = s.busAfter)

/-- R50, R51, R23, R179: WIPE with enable OFF and activity IDLE, else ENGINE_ON. -/
def Obligations.WipeEmptiesTheStore : Prop :=
  ∀ s : State, s.Serves 0x08 →
    (s.enable = true ∨ s.activity ≠ .idle →
      exec .wipe s = .next (s.replied 0x08 .engineOn 0 0)) ∧
    (s.enable = false → s.activity = .idle → ∃ t, exec .wipe s = .next t ∧
      t = { s with
        records := t.records
        bindings := t.bindings
        pointers := t.pointers
        notices := { s.notices with queue := [], inService := 0, note := false }
        bus := s.busAfter
        port := s.answered 0x08 .ok 0 0 } ∧
      (∀ n : RecNo, t.records[n] =
        { state := .free, gen := s.records[n].gen, srcCur := 0, dstCur := 0, count := 0, latch := 0
          overrun := false, fault := none
          edit := { srcStart := 0, dstStart := 0, srcStep := .fixed, dstStep := .fixed, unit := .byte
                    quantum := .drain, reload := none, policy := .park, successor := none, notice := .none
                    urgency := 0, rank := 0 } }) ∧
      (∀ k : SourceNo, t.bindings[k] = none) ∧ ∀ k : Rank, t.pointers[k] = 95)

/-! ### Triggers and bindings -/

/-- R64, R69: TRIGGER. -/
def Obligations.TriggerCommandLatches : Prop :=
  ∀ (s : State) (n : RecNo), s.Serves 0x07 → s.NamesRecord s.givenArgs.a0 n →
    (s.records[n].state = .draft ∨ s.records[n].state = .spent ∨ s.records[n].state = .faulted →
      exec .trigger s = .next (s.replied 0x07 .state 0 (BitVec.ofNat 16 s.records[n].state.code))) ∧
    (s.records[n].state = .armed ∨ s.records[n].state = .active ∨ s.records[n].state = .held →
      ∃ t, exec .trigger s = .next t ∧ s.ActivitySettles t ∧ TriggerTaken s.records[n] t.records[n] ∧
        t = { s with
          records := s.records.set n t.records[n]
          activity := t.activity
          bus := s.busAfter
          port := s.answered 0x07 .ok s.givenArgs.a0 (BitVec.ofNat 16 s.records[n].state.code) })

/-- R56, R58: BIND's checks in their order, and what BOUND reports. -/
def Obligations.BindRefusals : Prop :=
  ∀ s : State, s.Serves 0x10 → s.BindingMap →
    (40 ≤ s.givenArgs.a0.toNat ∨ 4 ≤ s.givenArgs.a2.toNat ∨ HandleOutOfRange s.givenArgs.a1 →
      exec .bind s = .next (s.replied 0x10 .range 0 0)) ∧
    (s.givenArgs.a0.toNat < 40 → s.givenArgs.a2.toNat < 4 → ∀ n : RecNo,
      (s.StaleHandle s.givenArgs.a1 n → exec .bind s = .next (s.replied 0x10 .stale 0 0)) ∧
      (s.NamesRecord s.givenArgs.a1 n → ∀ k : SourceNo, k.val = s.givenArgs.a0.toNat →
        s.bindings[k] ≠ none ∨ (∃ l : SourceNo, s.bindings[l].any (fun b => b.handle.num == n) = true) →
        ∃ t, exec .bind s = .next t ∧
          t = s.replied 0x10 .bound t.port.rval0 t.port.rval1 ∧
          (s.bindings[k] = none → t.port.rval0 = 0xFFFF) ∧
          (∀ b ∈ s.bindings[k], t.port.rval0 = b.handle.word) ∧
          ((∀ l : SourceNo, s.bindings[l].any (fun b => b.handle.num == n) = false) → t.port.rval1 = 0xFFFF) ∧
          ∀ l : SourceNo, s.bindings[l].any (fun b => b.handle.num == n) = true → t.port.rval1.toNat = l.val))

/-- R57: a BIND that passes its checks. -/
def Obligations.BindWritesTheEntry : Prop :=
  ∀ (s : State) (k : SourceNo) (sense : Sense) (n : RecNo), s.Serves 0x10 → s.BindingMap →
    s.givenArgs.a0.toNat = k.val → s.givenArgs.a2.toNat = sense.code → s.NamesRecord s.givenArgs.a1 n →
    s.bindings[k] = none → (∀ l : SourceNo, s.bindings[l].any (fun b => b.handle.num == n) = false) →
    ∃ t, exec .bind s = .next t ∧
      t = { s with
        bindings := s.bindings.set k
          (some ⟨⟨n, s.records[n].gen⟩, if k.val < 32 then sense else .rising⟩)
        records := s.records.set n { s.records[n] with latch := t.records[n].latch }
        activity := t.activity
        bus := s.busAfter
        port := s.answered 0x10 .ok s.givenArgs.a1 (BitVec.ofNat 16 k.val) } ∧
      t.StandingLatch n s.records[n] t.records[n].latch ∧ s.ActivitySettles t

/-- R60, R61: UNBIND and BIND_READ. -/
def Obligations.UnbindAndBindRead : Prop :=
  (∀ s : State, s.Serves 0x11 →
    (40 ≤ s.givenArgs.a0.toNat → exec .unbind s = .next (s.replied 0x11 .range 0 0)) ∧
    ∀ k : SourceNo, s.givenArgs.a0.toNat = k.val →
      (s.bindings[k] = none → exec .unbind s = .next (s.replied 0x11 .unbound 0 0)) ∧
      ∀ b ∈ s.bindings[k], exec .unbind s = .next { s with
        bindings := s.bindings.set k none
        bus := s.busAfter
        port := s.answered 0x11 .ok b.handle.word (BitVec.ofNat 16 b.sense.code) }) ∧
  ∀ s : State, s.Serves 0x12 →
    (40 ≤ s.givenArgs.a0.toNat → exec .bindRead s = .next (s.replied 0x12 .range 0 0)) ∧
    ∀ k : SourceNo, s.givenArgs.a0.toNat = k.val → ∃ t, exec .bindRead s = .next t ∧
      t = s.replied 0x12 .ok t.port.rval0 t.port.rval1 ∧
      (s.bindings[k] = none → t.port.rval0 = 0xFFFF ∧ bitField t.port.rval1 0 2 = 0) ∧
      (∀ b ∈ s.bindings[k], t.port.rval0 = b.handle.word ∧ bitField t.port.rval1 0 2 = b.sense.code) ∧
      bitField t.port.rval1 2 6 = 0 ∧ bitField t.port.rval1 9 7 = 0 ∧
      bitField t.port.rval1 8 1 = if k.val < 32 then (s.lines.getLsbD k.val).toNat else 0

/-- R63 to R66, R202: a request line sampled at a level, at two successive edges of CLK (`held`) or at one. The level is
kept; it becomes the line's sample once two successive edges have seen it; and a change of the sample is an edge, which
acts by the entry of its source. That the row stands for the line's own next edges is the model's choice (log 11). -/
def Obligations.RequestLineEdge : Prop :=
  ∀ (s : State) (k : LineNo) (level : PinLevel), s.inReset = false → s.BindingMap → s.HeadWaitExact →
    ∃ t, exec (.reqEdge k level) s = .next t ∧
      t = { s with lines := t.lines, levels := t.levels, records := t.records, activity := t.activity } ∧
      s.ActivitySettles t ∧
      (∀ j : LineNo, t.levels.getLsbD j.val = if j = k then level.high else s.levels.getLsbD j.val) ∧
      (∀ j : LineNo, t.lines.getLsbD j.val =
        if j = k ∧ (level.held = true ∨ s.levels.getLsbD k.val = level.high) then level.high
        else s.lines.getLsbD j.val) ∧
      (∀ m : RecNo, s.bindings[LineNo.source k].any (fun b => b.handle.num == m) = false →
        t.records[m] = s.records[m]) ∧
      ∀ b ∈ s.bindings[LineNo.source k], SampleTaken b.sense (s.lines.getLsbD k.val) (t.lines.getLsbD k.val)
        s.records[b.handle.num] t.records[b.handle.num]

/-! ### Generators -/

/-- R79, R80: GEN_SET. -/
def Obligations.GenSetConfiguresStopped : Prop :=
  ∀ s : State, s.Serves 0x20 →
    (8 ≤ bitField s.givenArgs.a0 0 4 ∨ bitField s.givenArgs.a0 4 2 = 3 →
      exec .genSet s = .next (s.replied 0x20 .range 0 0)) ∧
    ∀ g : GenNo, bitField s.givenArgs.a0 0 4 = g.val → bitField s.givenArgs.a0 4 2 ≠ 3 →
      ∃ t, exec .genSet s = .next t ∧ StatusWordOf t.port.rval0 g t.gens[g] ∧
        (s.gens[g].running = true → t = s.replied 0x20 .state t.port.rval0 s.gens[g].remaining) ∧
        (s.gens[g].running = false → t = { s with
          gens := s.gens.set g t.gens[g]
          bus := s.busAfter
          port := s.answered 0x20 .ok t.port.rval0 s.gens[g].remaining } ∧
          t.gens[g] = { s.gens[g] with
            mode := t.gens[g].mode, source := t.gens[g].source
            periodA := s.givenArgs.a1, periodB := s.givenArgs.a2 } ∧
          t.gens[g].mode.code = bitField s.givenArgs.a0 4 2 ∧
          t.gens[g].source.code = bitField s.givenArgs.a0 8 1)

/-- R79, R81, R82: GEN_START checks and starts a STOPPED generator, and restarts a RUNNING one. -/
def Obligations.GenStartStartsPhaseA : Prop :=
  ∀ s : State, s.Serves 0x21 →
    (8 ≤ s.givenArgs.a0.toNat → exec .genStart s = .next (s.replied 0x21 .range 0 0)) ∧
    ∀ g : GenNo, s.givenArgs.a0.toNat = g.val →
      (s.gens[g].running = false →
        s.gens[g].periodA = 0 ∨ (s.gens[g].mode = .alternate ∧ s.gens[g].periodB = 0) →
        ∃ t, exec .genStart s = .next t ∧ StatusWordOf t.port.rval1 g s.gens[g] ∧
          t = s.replied 0x21 .invalid 10 t.port.rval1) ∧
      (s.gens[g].running = true ∨
          (s.gens[g].periodA ≠ 0 ∧ (s.gens[g].mode = .alternate → s.gens[g].periodB ≠ 0)) →
        ∃ t, exec .genStart s = .next t ∧ StatusWordOf t.port.rval0 g t.gens[g] ∧
          t = { s with
            gens := s.gens.set g
              { s.gens[g] with running := true, phase := .a, remaining := s.gens[g].periodA }
            bus := s.busAfter
            port := s.answered 0x21 .ok t.port.rval0 s.gens[g].periodA })

/-- R79, R83, R84: GEN_STOP and GEN_READ. -/
def Obligations.GenStopAndGenRead : Prop :=
  (∀ s : State, s.Serves 0x22 →
    (8 ≤ s.givenArgs.a0.toNat → exec .genStop s = .next (s.replied 0x22 .range 0 0)) ∧
    ∀ g : GenNo, s.givenArgs.a0.toNat = g.val →
      ∃ t, exec .genStop s = .next t ∧ StatusWordOf t.port.rval0 g t.gens[g] ∧
        t = { s with
          gens := s.gens.set g { s.gens[g] with running := false, phase := .a, remaining := 0 }
          bus := s.busAfter
          port := s.answered 0x22 .ok t.port.rval0 0 }) ∧
  ∀ s : State, s.Serves 0x23 →
    (8 ≤ s.givenArgs.a0.toNat → exec .genRead s = .next (s.replied 0x23 .range 0 0)) ∧
    ∀ g : GenNo, s.givenArgs.a0.toNat = g.val →
      ∃ t, exec .genRead s = .next t ∧ StatusWordOf t.port.rval0 g s.gens[g] ∧
        t = s.replied 0x23 .ok t.port.rval0 s.gens[g].remaining

/-- R68, R73 to R76, R202: an internal tick, and a rise of TICK's sample, reach every generator that counts them, and
every expiry the record bound to it; a sample of TICK that does not rise is no tick, and a level seen at one edge is no
sample. The tick claim that expires one generator has its row too. The model's choices: INTERNAL_TICK leaves the divider
at 0 whatever it had counted (log 10); the row of TICK stands for the pin's own next edges (log 11); the expiry's row is
due only with remaining 1, and is else of no effect (log 12). -/
def Obligations.TicksReachGenerators : Prop :=
  ∀ s : State, s.inReset = false → s.BindingMap → s.HeadWaitExact →
    (∃ t, exec .internalTick s = .next t ∧ s.Ticked t .internal ∧ s.ActivitySettles t ∧
      t = { s with divider := 0, gens := t.gens, records := t.records, activity := t.activity }) ∧
    (∀ held : Bool, s.tickLine = false → held = true ∨ s.tickLevel = true →
      ∃ t, exec (.externalTick ⟨true, held⟩) s = .next t ∧ s.Ticked t .external ∧ s.ActivitySettles t ∧
        t = { s with
          tickLine := true, tickLevel := true, gens := t.gens, records := t.records, activity := t.activity }) ∧
    (∀ level : PinLevel,
      level.high = false ∨ s.tickLine = true ∨ (level.held = false ∧ s.tickLevel = false) →
      exec (.externalTick level) s = .next { s with
        tickLevel := level.high
        tickLine := if level.held = true ∨ s.tickLevel = level.high then level.high else s.tickLine }) ∧
    ∀ g : GenNo,
      (s.gens[g].running = false ∨ s.gens[g].remaining ≠ 1 → exec (.generatorExpiry g) s = .next s) ∧
      (s.gens[g].running = true → s.gens[g].remaining = 1 → ∃ t, exec (.generatorExpiry g) s = .next t ∧
        t = { s with gens := s.gens.set g s.gens[g].ticked.1, records := t.records, activity := t.activity } ∧
        s.ActivitySettles t ∧
        ∀ n : RecNo, if s.bindings[GenNo.source g].any (fun b => b.handle.num == n) = true then
          TriggerTaken s.records[n] t.records[n] else t.records[n] = s.records[n])

/-! ### The arbiter and the engine -/

/-- R95 to R97: ENGINE_GO; and ENGINE_STOP, which clears enable in the claim that takes it. Found IDLE or in a head
wait it completes at once; found RUNNING its completion waits, noting the handle ACTIVE now (what the end of the
activation then answers is `State.ActivationEnds`, in the statements that end one). -/
def Obligations.EngineGoAndEngineStop : Prop :=
  (∀ s : State, s.Serves 0x30 → ∃ t, exec .engineGo s = .next t ∧
    t = { s with
      enable := true
      activity := t.activity
      bus := s.busAfter
      port := s.answered 0x30 .ok (if s.enable then 1 else 0) 0 } ∧
    s.ActivitySettles t) ∧
  ∀ s : State, s.Serves 0x31 →
    (s.activity = .idle → exec .engineStop s = .next { s with
      enable := false, bus := s.busAfter, port := s.answered 0x31 .ok 0 s.actv }) ∧
    (s.activity = .stalled → s.activation = none → exec .engineStop s = .next { s with
      enable := false, activity := .idle, bus := s.busAfter, port := s.answered 0x31 .ok 2 0xFFFF }) ∧
    (s.activity = .running → exec .engineStop s = .next { s with
      enable := false, bus := s.busAfter, port := s.waiting 0x31 (some s.actv) })

/-- R98, R132: ENGINE_STOP in a link wait takes the enable-OFF course in its own claim. -/
def Obligations.EngineStopEndsLinkWait : Prop :=
  ∀ (s : State) (a : Activation) (l : Link), s.Serves 0x31 → s.activity = .stalled → s.activation = some a →
    a.work = none → a.link = some l → l.stage = .waiting → SortedQueue s.notices.queue →
    ∃ t, exec .engineStop s = .next t ∧
      t = { s with
        enable := false
        activity := .idle
        activation := none
        records := s.records.set l.succ.num t.records[l.succ.num]
        notices := t.notices
        bus := s.busAfter
        port := s.answered 0x31 .ok 2 0xFFFF } ∧
      (s.records[l.succ.num].state = .armed ∧ s.records[l.succ.num].gen = l.succ.gen →
        t.notices = s.notices ∧ TriggerTaken s.records[l.succ.num] t.records[l.succ.num]) ∧
      (¬(s.records[l.succ.num].state = .armed ∧ s.records[l.succ.num].gen = l.succ.gen) →
        t.records[l.succ.num] = s.records[l.succ.num] ∧
        NoticePosted ⟨l.pred, l.urgency, .linkBroken l.succ⟩ s.notices t.notices)

/-- R88 to R92, R104, R107: the head R89 chooses starts, and its first unit request is handed over; with the queue
at 31 or 32 a head wait begins; with enable OFF, activity other than IDLE or nothing eligible there is no choice. -/
def Obligations.HeadStartOfChosenRecord : Prop :=
  (∀ (s : State) (n : RecNo), s.inReset = false → s.enable = true → s.activity = .idle → s.IsChosenHead n →
    s.notices.queue.length ≤ 30 →
    exec .headStart s = .next { s with
      records := s.records.set n { s.records[n] with state := .active, latch := s.records[n].latch - 1 }
      pointers := s.pointers.set s.records[n].edit.rank n
      activity := .running
      activation := some
        { depth := 1, deferred := none, link := none
          work := some
            { handle := ⟨n, s.records[n].gen⟩, edit := s.records[n].edit, srcCur := s.records[n].srcCur
              dstCur := s.records[n].dstCur, count := s.records[n].count, moved := 0, endCause := none } }
      bus := { s.bus with
        request := some ⟨s.records[n].edit.unit, s.records[n].srcCur, s.records[n].dstCur⟩
        ownership := if s.bus.ownership = .released ∧ s.bus.spacing = 0 then .requesting else s.bus.ownership } }) ∧
  ∀ s : State, s.inReset = false →
    (s.enable = false ∨ s.activity ≠ .idle ∨ (∀ n : RecNo, ¬s.records[n].IsEligible) →
      exec .headStart s = .next s) ∧
    (s.enable = true → s.activity = .idle → (∃ n : RecNo, s.records[n].IsEligible) →
      30 < s.notices.queue.length → exec .headStart s = .next { s with activity := .stalled })

/-- R130 to R136, steps 1 to 3: at depth 12 CHAIN_LIMIT; with enable OFF one latched trigger or LINK_BROKEN; with
fewer than 2 places free a link wait. -/
def Obligations.LinkResolutionBeforeTheCheck : Prop :=
  ∀ (s : State) (a : Activation) (l : Link), s.inReset = false → s.activation = some a → a.link = some l →
    l.stage = .due → SortedQueue s.notices.queue →
    (a.depth = 12 → ∃ t, exec .linkResolution s = .next t ∧ s.ActivationEnds t ∧
      t = { s with activation := none, notices := t.notices, activity := t.activity, port := t.port } ∧
      NoticePosted ⟨l.pred, l.urgency, .chainLimit l.succ⟩ s.notices t.notices) ∧
    (a.depth ≠ 12 → s.enable = false → ∃ t, exec .linkResolution s = .next t ∧ s.ActivationEnds t ∧
      t = { s with
        activation := none
        activity := .idle
        records := s.records.set l.succ.num t.records[l.succ.num]
        notices := t.notices
        port := t.port } ∧
      (s.records[l.succ.num].state = .armed ∧ s.records[l.succ.num].gen = l.succ.gen →
        t.notices = s.notices ∧ TriggerTaken s.records[l.succ.num] t.records[l.succ.num]) ∧
      (¬(s.records[l.succ.num].state = .armed ∧ s.records[l.succ.num].gen = l.succ.gen) →
        t.records[l.succ.num] = s.records[l.succ.num] ∧
        NoticePosted ⟨l.pred, l.urgency, .linkBroken l.succ⟩ s.notices t.notices)) ∧
    (a.depth ≠ 12 → s.enable = true → 30 < s.notices.queue.length →
      exec .linkResolution s = .next { s with
        activity := .stalled, activation := some { a with link := some { l with stage := .waiting } } })

/-- R105, R134, step 4: the link starts, its latch and the pointers left, or LINK_BROKEN ends the activation. -/
def Obligations.LinkResolutionChecksSuccessor : Prop :=
  ∀ (s : State) (a : Activation) (l : Link), s.inReset = false → s.activation = some a → a.link = some l →
    a.deferred = none → l.stage = .due → SortedQueue s.notices.queue → a.depth ≠ 12 → s.enable = true →
    s.notices.queue.length ≤ 30 →
    (s.records[l.succ.num].state = .armed → s.records[l.succ.num].gen = l.succ.gen →
      exec .linkResolution s = .next { s with
        records := s.records.set l.succ.num { s.records[l.succ.num] with state := .active }
        activation := some
          { depth := a.depth + 1, deferred := none, link := none
            work := some
              { handle := l.succ, edit := s.records[l.succ.num].edit, srcCur := s.records[l.succ.num].srcCur
                dstCur := s.records[l.succ.num].dstCur, count := s.records[l.succ.num].count, moved := 0
                endCause := none } }
        bus := { s.bus with
          request := some ⟨s.records[l.succ.num].edit.unit, s.records[l.succ.num].srcCur,
            s.records[l.succ.num].dstCur⟩
          ownership := if s.bus.ownership = .released ∧ s.bus.spacing = 0 then .requesting
            else s.bus.ownership } }) ∧
    (s.records[l.succ.num].state ≠ .armed ∨ s.records[l.succ.num].gen ≠ l.succ.gen →
      ∃ t, exec .linkResolution s = .next t ∧ s.ActivationEnds t ∧
        t = { s with activation := none, notices := t.notices, activity := t.activity, port := t.port } ∧
        NoticePosted ⟨l.pred, l.urgency, .linkBroken l.succ⟩ s.notices t.notices)

/-- R48, R126: the deferred command applied to the record its write-back left, by the table of R48; the command
completes and the activation ends. -/
def Obligations.DeferredCommandAppliedAfresh : Prop :=
  ∀ (s : State) (a : Activation) (d : Deferred), s.inReset = false → s.activation = some a → a.work = none →
    a.deferred = some d → s.port.stopHandle = none → s.BindingMap →
    ∃ t, exec .appliedAfresh s = .next t ∧ t.activation = none ∧ t.HeadWaitExact ∧
      t = { s with
        activation := none
        records := t.records
        bindings := t.bindings
        activity := t.activity
        port := { s.port with
          state := .ready, result := t.port.result, rval0 := t.port.rval0, rval1 := t.port.rval1 } } ∧
      (s.StaleHandle d.handle.word d.handle.num →
        t.records = s.records ∧ t.bindings = s.bindings ∧
        t.port.result = BitVec.ofNat 16 (2 + d.kind.command.toNat * 256) ∧ t.port.rval0 = 0 ∧ t.port.rval1 = 0) ∧
      (s.NamesRecord d.handle.word d.handle.num →
        s.records[d.handle.num].state = .armed ∨ s.records[d.handle.num].state = .spent ∨
          s.records[d.handle.num].state = .faulted →
        t.port.result = BitVec.ofNat 16 (d.kind.command.toNat * 256) ∧ t.port.rval0 = d.handle.word ∧
        t.port.rval1.toNat = s.records[d.handle.num].state.code ∧
        (d.kind = .retire → s.Freed t d.handle.num) ∧
        (d.kind = .hold → t.bindings = s.bindings ∧
          t.records = s.records.set d.handle.num { s.records[d.handle.num] with
            state := .held, fault := t.records[d.handle.num].fault, latch := t.records[d.handle.num].latch } ∧
          (s.records[d.handle.num].state = .armed →
            t.records[d.handle.num].latch = s.records[d.handle.num].latch ∧
            t.records[d.handle.num].fault = s.records[d.handle.num].fault) ∧
          (s.records[d.handle.num].state ≠ .armed → t.records[d.handle.num].fault = none ∧
            s.StandingLatch d.handle.num { s.records[d.handle.num] with state := .held }
              t.records[d.handle.num].latch)))

/-! ### Units and the bus -/

/-- R195, R197 to R199: BREQ_n is asserted for a request held in RELEASED once the spacing has passed; a grant is taken
in REQUESTING with no slave access in progress, and the read of the pair begins, with the source address and its lanes
driven; in any other case neither has an effect. The negation of the host's strobe ends the slave access, so that a
grant may then be taken. -/
def Obligations.RequestRaisedAndGrantTaken : Prop :=
  ∀ s : State, s.inReset = false →
    (s.bus.ownership = .released → s.bus.request ≠ none → s.bus.spacing = 0 →
      exec .busRequest s = .next { s with bus.ownership := .requesting }) ∧
    (s.bus.ownership ≠ .released ∨ s.bus.request = none ∨ s.bus.spacing ≠ 0 → exec .busRequest s = .next s) ∧
    (s.bus.ownership = .requesting → s.bus.slave = none → ∃ t, exec .grantTaken s = .next t ∧
      t = { s with bus := { s.bus with ownership := .owner, access := some .read, timer := 0 } } ∧
      ∀ q ∈ s.bus.request, ∃ pins, t.masterPins = some pins ∧ pins.address.toNat = q.src.toNat / 2 ∧
        LanesOf pins.lanes q.unit q.src ∧ pins.rd = true ∧ pins.wr = false ∧
        pins.dataLow = none ∧ pins.dataHigh = none) ∧
    (s.bus.ownership ≠ .requesting ∨ s.bus.slave ≠ none → exec .grantTaken s = .next s) ∧
    exec .slaveStrobeNegated s = .next { s with bus.slave := none }

/-- R198, R199: RDY_n on the read captures the lanes of the unit and begins the write. A BYTE is captured from the
lane of its address; where the pair register keeps it is the model's choice (log 3). R198 asserts WR_n at the next
edge: that the write and its wait begin in this step is the model's choice (log 10). -/
def Obligations.ReadCompleteCapturesTheUnit : Prop :=
  ∀ (s : State) (q : UnitRequest) (data : Word), s.inReset = false → s.bus.ownership = .owner →
    s.bus.access = some .read → s.bus.request = some q →
    ∃ t, exec (.readComplete data) s = .next t ∧
      t = { s with bus := { s.bus with access := some .write, timer := 0, pair := t.bus.pair } } ∧
      (q.unit = .word → t.bus.pair = data) ∧
      (q.unit = .byte → q.src.toNat % 2 = 0 → t.bus.pair.toNat = data.toNat % 256) ∧
      (q.unit = .byte → q.src.toNat % 2 = 1 → t.bus.pair.toNat = data.toNat / 256) ∧
      ∃ pins, t.masterPins = some pins ∧ pins.address.toNat = q.dst.toNat / 2 ∧
        LanesOf pins.lanes q.unit q.dst ∧ pins.wr = true ∧ pins.rd = false ∧
        (q.unit = .word → pins.dataLow = some (BitVec.ofNat 8 data.toNat) ∧
          pins.dataHigh = some (BitVec.ofNat 8 (data.toNat / 256))) ∧
        (q.unit = .byte →
          let datum : Byte := BitVec.ofNat 8 (if q.src.toNat % 2 = 0 then data.toNat else data.toNat / 256)
          (q.dst.toNat % 2 = 0 → pins.dataLow = some datum ∧ pins.dataHigh = none) ∧
          (q.dst.toNat % 2 = 1 → pins.dataHigh = some datum ∧ pins.dataLow = none))

/-- R108 to R112, R148, R197, R198: RDY_n on the write releases the bus; the unit is counted, the addresses are
stepped, the end checks are made in order, and the next unit is requested unless the service has ended. -/
def Obligations.WriteCompleteCountsTheUnit : Prop :=
  ∀ (s : State) (a : Activation) (w : Working), s.inReset = false → s.bus.ownership = .owner →
    s.bus.access = some .write → s.activation = some a → a.work = some w → w.endCause = none →
    ∃ (t : State) (v : Working), exec .writeComplete s = .next t ∧
      t = { s with
        activation := some { a with work := some v }
        bus := { s.bus with
          ownership := .released, access := none, timer := 0, spacing := 2
          request := if v.endCause = none then some ⟨v.edit.unit, v.srcCur, v.dstCur⟩ else none } } ∧
      v = { w with
        count := w.count - 1
        moved := w.moved + 1
        srcCur := (addressStepped w.edit.srcStep w.edit.unit w.srcCur).1
        dstCur := (addressStepped w.edit.dstStep w.edit.unit w.dstCur).1
        endCause := v.endCause } ∧
      v.endCause =
        if v.count = 0 then some .exhausted
        else if (addressStepped w.edit.srcStep w.edit.unit w.srcCur).2 = true then some (.fault .range w.srcCur)
        else if (addressStepped w.edit.dstStep w.edit.unit w.dstCur).2 = true then some (.fault .range w.dstCur)
        else if w.edit.quantum = .units v.moved then some .quantum
        else if a.deferred ≠ none then some .cut
        else none

/-- R146, R147, R200: BERR_n, or the end of the wait, in the read ends the service with BUS_READ at the source
address, and in the write with BUS_WRITE at the destination address; the bus is released with its spacing (R197), and
nothing is counted or stepped. That WAIT_LIMIT_EXPIRY ends the access whatever the wait timer reads is the model's
choice (log 10). -/
def Obligations.AccessErrorEndsTheService : Prop :=
  ∀ i ∈ [Instr.busError, .waitLimitExpiry],
  ∀ (s : State) (half : Half) (a : Activation) (w : Working), s.inReset = false → s.bus.ownership = .owner →
    s.bus.access = some half → s.activation = some a → a.work = some w →
    exec i s = .next { s with
      activation := some { a with work := some { w with endCause := some (match half with
        | .read => .fault .busRead w.srcCur
        | .write => .fault .busWrite w.dstCur) } }
      bus := { s.bus with ownership := .released, request := none, access := none, timer := 0, spacing := 2 } }

/-! ### The write-back -/

/-- R114 to R119, R66: what a write-back that is no fault stores in the record, by end cause and policy. -/
def Obligations.WriteBackStoresProgress : Prop :=
  ∀ (s : State) (a : Activation) (w : Working) (c : EndCause), s.inReset = false → s.activation = some a →
    a.work = some w → w.endCause = some c → c.isFault = false → s.BindingMap →
    ∃ t, exec .writeBack s = .next t ∧
      t = { s with
        records := t.records
        bindings := t.bindings
        notices := t.notices
        activation := t.activation
        activity := t.activity
        port := t.port } ∧
      (∀ m : RecNo, m ≠ w.handle.num → t.records[m] = s.records[m]) ∧
      (c = .exhausted ∧ w.edit.policy = .retire → s.Freed t w.handle.num) ∧
      (¬(c = .exhausted ∧ w.edit.policy = .retire) → t.bindings = s.bindings ∧
        t.records[w.handle.num] = { s.records[w.handle.num] with
          state := t.records[w.handle.num].state
          count := t.records[w.handle.num].count
          latch := t.records[w.handle.num].latch
          overrun := t.records[w.handle.num].overrun
          srcCur := if w.edit.srcStep = .ascendReturn ∨ (c = .exhausted ∧ w.edit.policy = .reload) then
            w.edit.srcStart else w.srcCur
          dstCur := if w.edit.dstStep = .ascendReturn ∨ (c = .exhausted ∧ w.edit.policy = .reload) then
            w.edit.dstStart else w.dstCur }) ∧
      (c = .exhausted ∧ w.edit.policy = .park → t.records[w.handle.num].state = .spent ∧
        t.records[w.handle.num].count = w.count ∧ t.records[w.handle.num].latch = 0) ∧
      (c ≠ .exhausted ∨ w.edit.policy = .reload → t.records[w.handle.num].state = .armed ∧
        s.StandingLatch w.handle.num { s.records[w.handle.num] with state := .armed }
          t.records[w.handle.num].latch) ∧
      (c ≠ .exhausted → t.records[w.handle.num].count = w.count) ∧
      (c = .exhausted ∧ w.edit.policy = .reload → ∀ v ∈ w.edit.reload, t.records[w.handle.num].count = v)

/-- R121 to R124: the outcome notice of a write-back that is no fault, and the overrun flag it carries and
clears. -/
def Obligations.WriteBackPostsOutcome : Prop :=
  ∀ (s : State) (a : Activation) (w : Working) (c : EndCause), s.inReset = false → s.activation = some a →
    a.work = some w → w.endCause = some c → c.isFault = false → SortedQueue s.notices.queue →
    ∃ t, exec .writeBack s = .next t ∧
      (c = .exhausted ∧ w.edit.notice ≠ .none →
        NoticePosted ⟨w.handle, w.edit.urgency, .exhausted s.records[w.handle.num].overrun w.moved⟩
          s.notices t.notices ∧
        t.records[w.handle.num].overrun = false) ∧
      (c = .quantum ∧ w.edit.notice = .each →
        NoticePosted ⟨w.handle, w.edit.urgency, .serviceDone s.records[w.handle.num].overrun w.moved⟩
          s.notices t.notices ∧
        t.records[w.handle.num].overrun = false) ∧
      (¬(c = .exhausted ∧ w.edit.notice ≠ .none) → ¬(c = .quantum ∧ w.edit.notice = .each) →
        t.notices = s.notices ∧
        (¬(c = .exhausted ∧ w.edit.policy = .retire) →
          t.records[w.handle.num].overrun = s.records[w.handle.num].overrun))

/-- R125, R128, R129: what follows a write-back that is no fault. -/
def Obligations.WriteBackContinues : Prop :=
  ∀ (s : State) (a : Activation) (w : Working) (c : EndCause), s.inReset = false → s.activation = some a →
    a.work = some w → w.endCause = some c → c.isFault = false →
    ∃ t, exec .writeBack s = .next t ∧
      (a.deferred ≠ none → t.activation = some { a with work := none } ∧ t.activity = s.activity ∧
        t.port = s.port) ∧
      (a.deferred = none → ∀ x ∈ w.edit.successor, conditionMatches x.condition c = true →
        t.activation = some { a with
          work := none
          link := some { pred := w.handle, urgency := w.edit.urgency, succ := x.handle, stage := .due } } ∧
        t.activity = s.activity ∧ t.port = s.port) ∧
      (a.deferred = none → (∀ x ∈ w.edit.successor, conditionMatches x.condition c = false) →
        s.ActivationEnds t)

/-- R149 to R151: the fault write-back. -/
def Obligations.FaultWriteBackLeavesFaulted : Prop :=
  ∀ (s : State) (a : Activation) (w : Working) (cause : FaultCause) (addr : Addr), s.inReset = false →
    s.activation = some a → a.work = some w → w.endCause = some (.fault cause addr) →
    SortedQueue s.notices.queue →
    ∃ t, exec .faultWriteBack s = .next t ∧
      t = { s with
        records := s.records.set w.handle.num { s.records[w.handle.num] with
          state := .faulted, count := w.count, srcCur := w.srcCur, dstCur := w.dstCur, latch := 0
          overrun := false, fault := some ⟨cause, addr⟩ }
        notices := t.notices
        activation := t.activation
        activity := t.activity
        port := t.port } ∧
      NoticePosted
        ⟨w.handle, w.edit.urgency, .fault s.records[w.handle.num].overrun w.moved ⟨cause, addr⟩⟩
        s.notices t.notices ∧
      (a.deferred ≠ none → t.activation = some { a with work := none } ∧ t.activity = s.activity ∧
        t.port = s.port) ∧
      (a.deferred = none → s.ActivationEnds t)

/-- A step whose condition does not hold changes nothing (log 1): an access in the hold-off or while the part is OWNER
(R193, R196), a command's CMD write among them (log 5; the claim of a command accepted before is no access), an answer
or an error that belongs to no access of the part (R198, R200), a write-back with no service ended or of the other
row's cause (R114, R149), a resolution with no link due (R130), an applied-afresh step with no command awaiting it
(R126). -/
def Obligations.StepsWithoutConditionDoNothing : Prop :=
  (∀ s : State, ¬s.Listens →
    (∀ i : Instr, isAccess i = true → exec i s = .next s) ∧
    (∀ p ∈ commandRows, s.port.state ≠ .busy p.2 → exec p.1 s = .next s) ∧
    ∀ code : Byte, s.port.state ≠ .busy code → exec (.unknown code) s = .next s) ∧
  ∀ s : State, s.inReset = false →
    (s.bus.ownership ≠ .owner → ∀ data : Word,
      exec (.readComplete data) s = .next s ∧ exec .writeComplete s = .next s ∧ exec .busError s = .next s ∧
      exec .waitLimitExpiry s = .next s) ∧
    ((∀ w ∈ s.working, w.endCause = none) → exec .writeBack s = .next s ∧ exec .faultWriteBack s = .next s) ∧
    (∀ w ∈ s.working, ∀ c ∈ w.endCause,
      (c.isFault = true → exec .writeBack s = .next s) ∧ (c.isFault = false → exec .faultWriteBack s = .next s)) ∧
    ((∀ a ∈ s.activation, ∀ l ∈ a.link, l.stage = .waiting) → exec .linkResolution s = .next s) ∧
    ((∀ a ∈ s.activation, a.work ≠ none ∨ a.deferred = none) → exec .appliedAfresh s = .next s)

/-! ### Notices -/

/-- R165, R168, R177: a take. -/
def Obligations.TakeRemovesTheHead : Prop :=
  ∀ (s : State) (lanes : Lanes) (n : Notice) (rest : List Notice), s.Listens →
    lanes.low = true ∨ lanes.high = true → s.notices.queue = n :: rest →
    SortedQueue s.notices.queue →
    ∃ (t : State) (w : Word), exec (.take ⟨0x34, lanes⟩) s = .next t ∧ FirstWordOf w n ∧ t.notices.Holds n ∧
      t.notices.queue = rest ∧ t.notices.floor = s.notices.floor ∧ t.notices.note = false ∧
      (∀ l : Urgency, t.notices.inService.getLsbD l.val = (s.notices.inService.getLsbD l.val || l == n.urgency)) ∧
      t = { s with
        notices := t.notices, activity := t.activity, activation := t.activation
        bus.slave := some ⟨some w⟩ }

/-- R92, R133, R164: a take that leaves 30 notices or fewer ends a head wait or a link wait; one that leaves 31
ends neither, and without a link wait the activation is untouched. -/
def Obligations.TakeEndsAStall : Prop :=
  ∀ (s : State) (lanes : Lanes) (n : Notice) (rest : List Notice), s.Listens →
    lanes.low = true ∨ lanes.high = true → s.notices.queue = n :: rest →
    ∃ t, exec (.take ⟨0x34, lanes⟩) s = .next t ∧
      (∀ a ∈ s.activation, a.inLinkWait = false → t.activity = s.activity ∧ t.activation = s.activation) ∧
      (∀ a ∈ s.activation, ∀ l ∈ a.link, l.stage = .waiting →
        (rest.length ≤ 30 → t.activity = .running ∧
          t.activation = some { a with link := some { l with stage := .due } }) ∧
        (30 < rest.length → t.activity = s.activity ∧ t.activation = s.activation)) ∧
      (s.activation = none → t.activation = none ∧ (rest.length ≤ 30 → t.activity = .idle) ∧
        (s.HeadWaitExact → s.activity = .stalled → 30 < rest.length → t.activity = .stalled))

/-- R166: a read of NTAKE with the queue empty returns 0 and zeroes the holding registers; nothing else of the part
changes, whatever else the word of a notice can be. -/
def Obligations.EmptyTakeReadsZero : Prop :=
  (∀ (s : State) (lanes : Lanes), s.Listens → s.notices.queue = [] →
    exec (.take ⟨0x34, lanes⟩) s = .next { s with
      notices := { s.notices with nhHandle := 0, nhUnits := 0, nhAux := 0, nhAddrL := 0 }
      bus.slave := some ⟨some 0⟩ }) ∧
  ∀ (n : Notice) (w : Word), FirstWordOf w n → 1 ≤ bitField w 0 3

/-- R167, R195: a peek returns the head's word and loads the holding registers; the queue, the set, the floor and
NOTE_n stay. So does a read of NTAKE with neither lane strobe, which returns the word and takes nothing; that it loads
the holding registers is the model's choice (log 8). -/
def Obligations.PeekLoadsHoldingRegisters : Prop :=
  ∀ i ∈ [Instr.npeekRead, .take ⟨0x34, ⟨false, false⟩⟩], ∀ s : State, s.Listens →
    (s.notices.queue = [] → exec i s = .next { s with
      notices := { s.notices with nhHandle := 0, nhUnits := 0, nhAux := 0, nhAddrL := 0 }
      bus.slave := some ⟨some 0⟩ }) ∧
    ∀ (n : Notice) (rest : List Notice), s.notices.queue = n :: rest →
      ∃ (t : State) (w : Word), exec i s = .next t ∧ FirstWordOf w n ∧ t.notices.Holds n ∧
        t = { s with
          notices := { s.notices with
            nhHandle := t.notices.nhHandle, nhUnits := t.notices.nhUnits, nhAux := t.notices.nhAux
            nhAddrL := t.notices.nhAddrL }
          bus.slave := some ⟨some w⟩ }

/-- R172, R173, R175: CLOSE of a level and of the most urgent level in service, and SET_FLOOR. -/
def Obligations.CloseAndSetFloor : Prop :=
  (∀ s : State, s.Serves 0x40 → SortedQueue s.notices.queue →
    (9 ≤ s.givenArgs.a0.toNat → exec .close s = .next (s.replied 0x40 .range 0 0)) ∧
    (∀ l : Urgency, s.notices.inService.getLsbD l.val = true →
      s.givenArgs.a0.toNat = l.val ∨
        (s.givenArgs.a0.toNat = 8 ∧ ∀ m : Urgency, s.notices.inService.getLsbD m.val = true → l ≤ m) →
      ∃ t, exec .close s = .next t ∧ t.notices.Exact ∧
        t = { s with
          notices := { s.notices with inService := t.notices.inService, note := t.notices.note }
          bus := s.busAfter
          port := s.answered 0x40 .ok (BitVec.ofNat 16 l.val) (BitVec.ofNat 16 t.notices.inService.toNat) } ∧
        ∀ m : Urgency, t.notices.inService.getLsbD m.val = (s.notices.inService.getLsbD m.val && m != l)) ∧
    ((∀ l : Urgency, s.givenArgs.a0.toNat = l.val ∨ s.givenArgs.a0.toNat = 8 →
        s.notices.inService.getLsbD l.val = false) → s.givenArgs.a0.toNat ≤ 8 →
      exec .close s = .next (s.replied 0x40 .notInService 0 (BitVec.ofNat 16 s.notices.inService.toNat)))) ∧
  ∀ s : State, s.Serves 0x41 → SortedQueue s.notices.queue →
    (9 ≤ s.givenArgs.a0.toNat → exec .setFloor s = .next (s.replied 0x41 .range 0 0)) ∧
    ∀ f : Fin 9, s.givenArgs.a0.toNat = f.val → ∃ t, exec .setFloor s = .next t ∧ t.notices.Exact ∧
      t = { s with
        notices := { s.notices with floor := f, note := t.notices.note }
        bus := s.busAfter
        port := s.answered 0x41 .ok (BitVec.ofNat 16 s.notices.floor.val) (BitVec.ofNat 16 f.val) }

/-! ### Rules of the whole part -/

/-- R3, R31: while a record stays ACTIVE its stored fields keep their values; its latch only rises and its overrun
flag is only set. -/
def Obligations.ActiveRecordKeepsStoredFields : Prop :=
  ∀ (i : Instr) (s t : State) (n : RecNo), exec i s = .next t → s.records[n].state = .active →
    t.records[n].state = .active →
    t.records[n] = { s.records[n] with latch := t.records[n].latch, overrun := t.records[n].overrun } ∧
    s.records[n].latch ≤ t.records[n].latch ∧ (s.records[n].overrun = true → t.records[n].overrun = true)

/-- R14, R73, R106, R171, R175, R185, R187, R188, R195: which steps can change the generations, the generators,
enable, the floor, the in-service set, the argument registers and the staging image. -/
def Obligations.StateChangesByItsOwnSteps : Prop :=
  ∀ (i : Instr) (s t : State), exec i s = .next t → i ≠ .pinReset →
    (∀ n : RecNo, t.records[n].gen ≠ s.records[n].gen → i = .allocate) ∧
    (t.gens ≠ s.gens → i ∈ [Instr.genSet, .genStart, .genStop, .internalTick] ∨
      (∃ held, i = .externalTick ⟨true, held⟩) ∨ ∃ g, i = .generatorExpiry g) ∧
    (t.enable ≠ s.enable → i = .engineGo ∨ i = .engineStop) ∧
    (t.notices.floor ≠ s.notices.floor → i = .setFloor) ∧
    (t.notices.inService ≠ s.notices.inService → i = .close ∨ i = .wipe ∨
      ∃ access, i = .take access ∧ access.offset.toNat / 2 = 26) ∧
    (t.port.args ≠ s.port.args → ∃ offset lanes v, i = .registerWrite offset ⟨lanes, false⟩ v) ∧
    (t.image ≠ s.image → i = .fetch ∨ (∃ reg lanes v, i = .editRegisterWrite reg lanes v) ∨
      ∃ offset lanes v, i = .registerWrite offset ⟨lanes, false⟩ v) ∧
    (t.readBack ≠ s.readBack → i = .fetch)

/-! ### Invariants -/

/-- Each invariant below holds after pin reset. -/
def Obligations.InvariantsHoldAtReset : Prop :=
  State.reset.notices.Exact ∧ State.reset.QueueRoomKept ∧ State.reset.BindingMap ∧
  State.reset.StandingTriggersSet ∧ State.reset.ResetHeld ∧ (∀ g : GenNo, State.reset.gens[g].Sound) ∧
  State.reset.HeadWaitExact ∧ State.reset.ServiceSound

/-- R162, R176, R177: the queue stays in urgency order, and NOTE_n is asserted exactly while its condition holds. -/
def Obligations.NoteExactInEveryStep : Prop :=
  ∀ s t : State, s.notices.Exact → step s = .next t → t.notices.Exact

/-- R91, R124, R137, R162: the places reserved stay free, and the queue never holds more than 32 notices. -/
def Obligations.QueueNeverOverflows : Prop :=
  ∀ s t : State, s.QueueRoomKept → step s = .next t → t.QueueRoomKept ∧ t.notices.queue.length ≤ 32

/-- R54: the binding table stays a one-to-one map of sources and records that are not FREE. -/
def Obligations.BindingMapInEveryStep : Prop :=
  ∀ s t : State, s.BindingMap → step s = .next t → t.BindingMap

/-- R65, R66, R193: whenever its condition holds the standing trigger has been set; and while RESET_n is asserted
every block holds its pin reset values, what the spec gives no value for left out (logs 2, 3 and 18). -/
def Obligations.StandingTriggersInEveryStep : Prop :=
  ∀ s t : State, s.BindingMap → s.StandingTriggersSet → s.ResetHeld → step s = .next t →
    t.StandingTriggersSet ∧ t.ResetHeld

/-- R72, R84: how the fields of a generator context are tied together. -/
def Obligations.GeneratorsSoundInEveryStep : Prop :=
  ∀ s t : State, (∀ g : GenNo, s.gens[g].Sound) → step s = .next t → ∀ g : GenNo, t.gens[g].Sound

/-- R87, R92: with no activation open, activity is STALLED exactly in a head wait, else IDLE. -/
def Obligations.HeadWaitExactInEveryStep : Prop :=
  ∀ s t : State, s.HeadWaitExact → step s = .next t → t.HeadWaitExact

/-- R1, R87, R97, R107, R128, R133, R197: the engine, the store, the port and the bus interface stay in agreement:
at most one record ACTIVE and exactly while its service runs, depth 1 to 12, the port WAITING exactly for what
the engine holds, one unit request outstanding. -/
def Obligations.EngineCoherentInEveryStep : Prop :=
  ∀ s t : State, s.EngineCoherent → step s = .next t → t.EngineCoherent

/-- R5, R7, R11, R13, R21, R102, R108, R111: with the engine coherent, every record and the progress of the service
in flight stay sound. -/
def Obligations.ServiceSoundInEveryStep : Prop :=
  ∀ s t : State, s.ServiceSound → step s = .next t → t.ServiceSound

end
end

