-- ==== Sys2Proof/Laws/State.lean ====
section
/-! SUPPORT. One lemma for each field of the state under each named update, so that no proof unfolds a record
update. -/

namespace Sys2Proof.Machine

variable (s : State)


/-! ### setRecord -/

@[simp] theorem State.setRecord_inReset (n : RecNo) (r : Record) : (s.setRecord n r).inReset = s.inReset := rfl
@[simp] theorem State.setRecord_holdOff (n : RecNo) (r : Record) : (s.setRecord n r).holdOff = s.holdOff := rfl
@[simp] theorem State.setRecord_records (n : RecNo) (r : Record) : (s.setRecord n r).records = s.records.set n r := rfl
@[simp] theorem State.setRecord_bindings (n : RecNo) (r : Record) : (s.setRecord n r).bindings = s.bindings := rfl
@[simp] theorem State.setRecord_lines (n : RecNo) (r : Record) : (s.setRecord n r).lines = s.lines := rfl
@[simp] theorem State.setRecord_gens (n : RecNo) (r : Record) : (s.setRecord n r).gens = s.gens := rfl
@[simp] theorem State.setRecord_divider (n : RecNo) (r : Record) : (s.setRecord n r).divider = s.divider := rfl
@[simp] theorem State.setRecord_levels (n : RecNo) (r : Record) : (s.setRecord n r).levels = s.levels := rfl
@[simp] theorem State.setRecord_tickLine (n : RecNo) (r : Record) : (s.setRecord n r).tickLine = s.tickLine := rfl
@[simp] theorem State.setRecord_tickLevel (n : RecNo) (r : Record) : (s.setRecord n r).tickLevel = s.tickLevel := rfl
@[simp] theorem State.setRecord_pointers (n : RecNo) (r : Record) : (s.setRecord n r).pointers = s.pointers := rfl
@[simp] theorem State.setRecord_enable (n : RecNo) (r : Record) : (s.setRecord n r).enable = s.enable := rfl
@[simp] theorem State.setRecord_activity (n : RecNo) (r : Record) : (s.setRecord n r).activity = s.activity := rfl
@[simp] theorem State.setRecord_activation (n : RecNo) (r : Record) : (s.setRecord n r).activation = s.activation := rfl
@[simp] theorem State.setRecord_notices (n : RecNo) (r : Record) : (s.setRecord n r).notices = s.notices := rfl
@[simp] theorem State.setRecord_port (n : RecNo) (r : Record) : (s.setRecord n r).port = s.port := rfl
@[simp] theorem State.setRecord_image (n : RecNo) (r : Record) : (s.setRecord n r).image = s.image := rfl
@[simp] theorem State.setRecord_readBack (n : RecNo) (r : Record) : (s.setRecord n r).readBack = s.readBack := rfl
@[simp] theorem State.setRecord_bus (n : RecNo) (r : Record) : (s.setRecord n r).bus = s.bus := rfl
@[simp] theorem State.setRecord_pending (n : RecNo) (r : Record) : (s.setRecord n r).pending = s.pending := rfl

/-! ### emptyBindingOf -/

@[simp] theorem State.emptyBindingOf_inReset (n : RecNo) : (s.emptyBindingOf n).inReset = s.inReset := rfl
@[simp] theorem State.emptyBindingOf_holdOff (n : RecNo) : (s.emptyBindingOf n).holdOff = s.holdOff := rfl
@[simp] theorem State.emptyBindingOf_records (n : RecNo) : (s.emptyBindingOf n).records = s.records := rfl
@[simp] theorem State.emptyBindingOf_lines (n : RecNo) : (s.emptyBindingOf n).lines = s.lines := rfl
@[simp] theorem State.emptyBindingOf_gens (n : RecNo) : (s.emptyBindingOf n).gens = s.gens := rfl
@[simp] theorem State.emptyBindingOf_divider (n : RecNo) : (s.emptyBindingOf n).divider = s.divider := rfl
@[simp] theorem State.emptyBindingOf_levels (n : RecNo) : (s.emptyBindingOf n).levels = s.levels := rfl
@[simp] theorem State.emptyBindingOf_tickLine (n : RecNo) : (s.emptyBindingOf n).tickLine = s.tickLine := rfl
@[simp] theorem State.emptyBindingOf_tickLevel (n : RecNo) : (s.emptyBindingOf n).tickLevel = s.tickLevel := rfl
@[simp] theorem State.emptyBindingOf_pointers (n : RecNo) : (s.emptyBindingOf n).pointers = s.pointers := rfl
@[simp] theorem State.emptyBindingOf_enable (n : RecNo) : (s.emptyBindingOf n).enable = s.enable := rfl
@[simp] theorem State.emptyBindingOf_activity (n : RecNo) : (s.emptyBindingOf n).activity = s.activity := rfl
@[simp] theorem State.emptyBindingOf_activation (n : RecNo) : (s.emptyBindingOf n).activation = s.activation := rfl
@[simp] theorem State.emptyBindingOf_notices (n : RecNo) : (s.emptyBindingOf n).notices = s.notices := rfl
@[simp] theorem State.emptyBindingOf_port (n : RecNo) : (s.emptyBindingOf n).port = s.port := rfl
@[simp] theorem State.emptyBindingOf_image (n : RecNo) : (s.emptyBindingOf n).image = s.image := rfl
@[simp] theorem State.emptyBindingOf_readBack (n : RecNo) : (s.emptyBindingOf n).readBack = s.readBack := rfl
@[simp] theorem State.emptyBindingOf_bus (n : RecNo) : (s.emptyBindingOf n).bus = s.bus := rfl
@[simp] theorem State.emptyBindingOf_pending (n : RecNo) : (s.emptyBindingOf n).pending = s.pending := rfl

/-! ### freeRecord -/

@[simp] theorem State.freeRecord_inReset (n : RecNo) : (s.freeRecord n).inReset = s.inReset := rfl
@[simp] theorem State.freeRecord_holdOff (n : RecNo) : (s.freeRecord n).holdOff = s.holdOff := rfl
@[simp] theorem State.freeRecord_records (n : RecNo) : (s.freeRecord n).records = s.records.set n s.records[n].freed := rfl
@[simp] theorem State.freeRecord_bindings (n : RecNo) : (s.freeRecord n).bindings = (s.emptyBindingOf n).bindings := rfl
@[simp] theorem State.freeRecord_lines (n : RecNo) : (s.freeRecord n).lines = s.lines := rfl
@[simp] theorem State.freeRecord_gens (n : RecNo) : (s.freeRecord n).gens = s.gens := rfl
@[simp] theorem State.freeRecord_divider (n : RecNo) : (s.freeRecord n).divider = s.divider := rfl
@[simp] theorem State.freeRecord_levels (n : RecNo) : (s.freeRecord n).levels = s.levels := rfl
@[simp] theorem State.freeRecord_tickLine (n : RecNo) : (s.freeRecord n).tickLine = s.tickLine := rfl
@[simp] theorem State.freeRecord_tickLevel (n : RecNo) : (s.freeRecord n).tickLevel = s.tickLevel := rfl
@[simp] theorem State.freeRecord_pointers (n : RecNo) : (s.freeRecord n).pointers = s.pointers := rfl
@[simp] theorem State.freeRecord_enable (n : RecNo) : (s.freeRecord n).enable = s.enable := rfl
@[simp] theorem State.freeRecord_activity (n : RecNo) : (s.freeRecord n).activity = s.activity := rfl
@[simp] theorem State.freeRecord_activation (n : RecNo) : (s.freeRecord n).activation = s.activation := rfl
@[simp] theorem State.freeRecord_notices (n : RecNo) : (s.freeRecord n).notices = s.notices := rfl
@[simp] theorem State.freeRecord_port (n : RecNo) : (s.freeRecord n).port = s.port := rfl
@[simp] theorem State.freeRecord_image (n : RecNo) : (s.freeRecord n).image = s.image := rfl
@[simp] theorem State.freeRecord_readBack (n : RecNo) : (s.freeRecord n).readBack = s.readBack := rfl
@[simp] theorem State.freeRecord_bus (n : RecNo) : (s.freeRecord n).bus = s.bus := rfl
@[simp] theorem State.freeRecord_pending (n : RecNo) : (s.freeRecord n).pending = s.pending := rfl

/-! ### deliverTrigger -/

@[simp] theorem State.deliverTrigger_inReset (n : RecNo) : (s.deliverTrigger n).inReset = s.inReset := rfl
@[simp] theorem State.deliverTrigger_holdOff (n : RecNo) : (s.deliverTrigger n).holdOff = s.holdOff := rfl
@[simp] theorem State.deliverTrigger_records (n : RecNo) : (s.deliverTrigger n).records = s.records.set n s.records[n].triggered := rfl
@[simp] theorem State.deliverTrigger_bindings (n : RecNo) : (s.deliverTrigger n).bindings = s.bindings := rfl
@[simp] theorem State.deliverTrigger_lines (n : RecNo) : (s.deliverTrigger n).lines = s.lines := rfl
@[simp] theorem State.deliverTrigger_gens (n : RecNo) : (s.deliverTrigger n).gens = s.gens := rfl
@[simp] theorem State.deliverTrigger_divider (n : RecNo) : (s.deliverTrigger n).divider = s.divider := rfl
@[simp] theorem State.deliverTrigger_levels (n : RecNo) : (s.deliverTrigger n).levels = s.levels := rfl
@[simp] theorem State.deliverTrigger_tickLine (n : RecNo) : (s.deliverTrigger n).tickLine = s.tickLine := rfl
@[simp] theorem State.deliverTrigger_tickLevel (n : RecNo) : (s.deliverTrigger n).tickLevel = s.tickLevel := rfl
@[simp] theorem State.deliverTrigger_pointers (n : RecNo) : (s.deliverTrigger n).pointers = s.pointers := rfl
@[simp] theorem State.deliverTrigger_enable (n : RecNo) : (s.deliverTrigger n).enable = s.enable := rfl
@[simp] theorem State.deliverTrigger_activity (n : RecNo) : (s.deliverTrigger n).activity = s.activity := rfl
@[simp] theorem State.deliverTrigger_activation (n : RecNo) : (s.deliverTrigger n).activation = s.activation := rfl
@[simp] theorem State.deliverTrigger_notices (n : RecNo) : (s.deliverTrigger n).notices = s.notices := rfl
@[simp] theorem State.deliverTrigger_port (n : RecNo) : (s.deliverTrigger n).port = s.port := rfl
@[simp] theorem State.deliverTrigger_image (n : RecNo) : (s.deliverTrigger n).image = s.image := rfl
@[simp] theorem State.deliverTrigger_readBack (n : RecNo) : (s.deliverTrigger n).readBack = s.readBack := rfl
@[simp] theorem State.deliverTrigger_bus (n : RecNo) : (s.deliverTrigger n).bus = s.bus := rfl
@[simp] theorem State.deliverTrigger_pending (n : RecNo) : (s.deliverTrigger n).pending = s.pending := rfl

/-! ### post -/

@[simp] theorem State.post_inReset (n : Notice) : (s.post n).inReset = s.inReset := rfl
@[simp] theorem State.post_holdOff (n : Notice) : (s.post n).holdOff = s.holdOff := rfl
@[simp] theorem State.post_records (n : Notice) : (s.post n).records = s.records := rfl
@[simp] theorem State.post_bindings (n : Notice) : (s.post n).bindings = s.bindings := rfl
@[simp] theorem State.post_lines (n : Notice) : (s.post n).lines = s.lines := rfl
@[simp] theorem State.post_gens (n : Notice) : (s.post n).gens = s.gens := rfl
@[simp] theorem State.post_divider (n : Notice) : (s.post n).divider = s.divider := rfl
@[simp] theorem State.post_levels (n : Notice) : (s.post n).levels = s.levels := rfl
@[simp] theorem State.post_tickLine (n : Notice) : (s.post n).tickLine = s.tickLine := rfl
@[simp] theorem State.post_tickLevel (n : Notice) : (s.post n).tickLevel = s.tickLevel := rfl
@[simp] theorem State.post_pointers (n : Notice) : (s.post n).pointers = s.pointers := rfl
@[simp] theorem State.post_enable (n : Notice) : (s.post n).enable = s.enable := rfl
@[simp] theorem State.post_activity (n : Notice) : (s.post n).activity = s.activity := rfl
@[simp] theorem State.post_activation (n : Notice) : (s.post n).activation = s.activation := rfl
@[simp] theorem State.post_notices (n : Notice) : (s.post n).notices = NoticeUnit.evaluate { s.notices with queue := insertNotice n s.notices.queue } := rfl
@[simp] theorem State.post_port (n : Notice) : (s.post n).port = s.port := rfl
@[simp] theorem State.post_image (n : Notice) : (s.post n).image = s.image := rfl
@[simp] theorem State.post_readBack (n : Notice) : (s.post n).readBack = s.readBack := rfl
@[simp] theorem State.post_bus (n : Notice) : (s.post n).bus = s.bus := rfl
@[simp] theorem State.post_pending (n : Notice) : (s.post n).pending = s.pending := rfl

/-! ### complete -/

@[simp] theorem State.complete_inReset (code : Byte) (a : Reply) : (s.complete code a).inReset = s.inReset := rfl
@[simp] theorem State.complete_holdOff (code : Byte) (a : Reply) : (s.complete code a).holdOff = s.holdOff := rfl
@[simp] theorem State.complete_records (code : Byte) (a : Reply) : (s.complete code a).records = s.records := rfl
@[simp] theorem State.complete_bindings (code : Byte) (a : Reply) : (s.complete code a).bindings = s.bindings := rfl
@[simp] theorem State.complete_lines (code : Byte) (a : Reply) : (s.complete code a).lines = s.lines := rfl
@[simp] theorem State.complete_gens (code : Byte) (a : Reply) : (s.complete code a).gens = s.gens := rfl
@[simp] theorem State.complete_divider (code : Byte) (a : Reply) : (s.complete code a).divider = s.divider := rfl
@[simp] theorem State.complete_levels (code : Byte) (a : Reply) : (s.complete code a).levels = s.levels := rfl
@[simp] theorem State.complete_tickLine (code : Byte) (a : Reply) : (s.complete code a).tickLine = s.tickLine := rfl
@[simp] theorem State.complete_tickLevel (code : Byte) (a : Reply) : (s.complete code a).tickLevel = s.tickLevel := rfl
@[simp] theorem State.complete_pointers (code : Byte) (a : Reply) : (s.complete code a).pointers = s.pointers := rfl
@[simp] theorem State.complete_enable (code : Byte) (a : Reply) : (s.complete code a).enable = s.enable := rfl
@[simp] theorem State.complete_activity (code : Byte) (a : Reply) : (s.complete code a).activity = s.activity := rfl
@[simp] theorem State.complete_activation (code : Byte) (a : Reply) : (s.complete code a).activation = s.activation := rfl
@[simp] theorem State.complete_notices (code : Byte) (a : Reply) : (s.complete code a).notices = s.notices := rfl
@[simp] theorem State.complete_image (code : Byte) (a : Reply) : (s.complete code a).image = s.image := rfl
@[simp] theorem State.complete_readBack (code : Byte) (a : Reply) : (s.complete code a).readBack = s.readBack := rfl
@[simp] theorem State.complete_bus (code : Byte) (a : Reply) : (s.complete code a).bus = s.bus := rfl
@[simp] theorem State.complete_pending (code : Byte) (a : Reply) : (s.complete code a).pending = s.pending := rfl

/-! ### accept -/

@[simp] theorem State.accept_inReset (code : Byte) : (s.accept code).inReset = s.inReset := rfl
@[simp] theorem State.accept_holdOff (code : Byte) : (s.accept code).holdOff = s.holdOff := rfl
@[simp] theorem State.accept_records (code : Byte) : (s.accept code).records = s.records := rfl
@[simp] theorem State.accept_bindings (code : Byte) : (s.accept code).bindings = s.bindings := rfl
@[simp] theorem State.accept_lines (code : Byte) : (s.accept code).lines = s.lines := rfl
@[simp] theorem State.accept_gens (code : Byte) : (s.accept code).gens = s.gens := rfl
@[simp] theorem State.accept_divider (code : Byte) : (s.accept code).divider = s.divider := rfl
@[simp] theorem State.accept_levels (code : Byte) : (s.accept code).levels = s.levels := rfl
@[simp] theorem State.accept_tickLine (code : Byte) : (s.accept code).tickLine = s.tickLine := rfl
@[simp] theorem State.accept_tickLevel (code : Byte) : (s.accept code).tickLevel = s.tickLevel := rfl
@[simp] theorem State.accept_pointers (code : Byte) : (s.accept code).pointers = s.pointers := rfl
@[simp] theorem State.accept_enable (code : Byte) : (s.accept code).enable = s.enable := rfl
@[simp] theorem State.accept_activity (code : Byte) : (s.accept code).activity = s.activity := rfl
@[simp] theorem State.accept_activation (code : Byte) : (s.accept code).activation = s.activation := rfl
@[simp] theorem State.accept_notices (code : Byte) : (s.accept code).notices = s.notices := rfl
@[simp] theorem State.accept_port (code : Byte) : (s.accept code).port = { s.port with state := .busy code, refused := false, latched := s.port.args } := rfl
@[simp] theorem State.accept_image (code : Byte) : (s.accept code).image = s.image := rfl
@[simp] theorem State.accept_readBack (code : Byte) : (s.accept code).readBack = s.readBack := rfl
@[simp] theorem State.accept_bus (code : Byte) : (s.accept code).bus = s.bus := rfl
@[simp] theorem State.accept_pending (code : Byte) : (s.accept code).pending = s.pending := rfl

/-! ### refuseWrite -/

@[simp] theorem State.refuseWrite_inReset : (s.refuseWrite).inReset = s.inReset := rfl
@[simp] theorem State.refuseWrite_holdOff : (s.refuseWrite).holdOff = s.holdOff := rfl
@[simp] theorem State.refuseWrite_records : (s.refuseWrite).records = s.records := rfl
@[simp] theorem State.refuseWrite_bindings : (s.refuseWrite).bindings = s.bindings := rfl
@[simp] theorem State.refuseWrite_lines : (s.refuseWrite).lines = s.lines := rfl
@[simp] theorem State.refuseWrite_gens : (s.refuseWrite).gens = s.gens := rfl
@[simp] theorem State.refuseWrite_divider : (s.refuseWrite).divider = s.divider := rfl
@[simp] theorem State.refuseWrite_levels : (s.refuseWrite).levels = s.levels := rfl
@[simp] theorem State.refuseWrite_tickLine : (s.refuseWrite).tickLine = s.tickLine := rfl
@[simp] theorem State.refuseWrite_tickLevel : (s.refuseWrite).tickLevel = s.tickLevel := rfl
@[simp] theorem State.refuseWrite_pointers : (s.refuseWrite).pointers = s.pointers := rfl
@[simp] theorem State.refuseWrite_enable : (s.refuseWrite).enable = s.enable := rfl
@[simp] theorem State.refuseWrite_activity : (s.refuseWrite).activity = s.activity := rfl
@[simp] theorem State.refuseWrite_activation : (s.refuseWrite).activation = s.activation := rfl
@[simp] theorem State.refuseWrite_notices : (s.refuseWrite).notices = s.notices := rfl
@[simp] theorem State.refuseWrite_port : (s.refuseWrite).port = { s.port with refused := true } := rfl
@[simp] theorem State.refuseWrite_image : (s.refuseWrite).image = s.image := rfl
@[simp] theorem State.refuseWrite_readBack : (s.refuseWrite).readBack = s.readBack := rfl
@[simp] theorem State.refuseWrite_bus : (s.refuseWrite).bus = s.bus := rfl
@[simp] theorem State.refuseWrite_pending : (s.refuseWrite).pending = s.pending := rfl

/-! ### setWaiting -/

@[simp] theorem State.setWaiting_inReset (code : Byte) : (s.setWaiting code).inReset = s.inReset := rfl
@[simp] theorem State.setWaiting_holdOff (code : Byte) : (s.setWaiting code).holdOff = s.holdOff := rfl
@[simp] theorem State.setWaiting_records (code : Byte) : (s.setWaiting code).records = s.records := rfl
@[simp] theorem State.setWaiting_bindings (code : Byte) : (s.setWaiting code).bindings = s.bindings := rfl
@[simp] theorem State.setWaiting_lines (code : Byte) : (s.setWaiting code).lines = s.lines := rfl
@[simp] theorem State.setWaiting_gens (code : Byte) : (s.setWaiting code).gens = s.gens := rfl
@[simp] theorem State.setWaiting_divider (code : Byte) : (s.setWaiting code).divider = s.divider := rfl
@[simp] theorem State.setWaiting_levels (code : Byte) : (s.setWaiting code).levels = s.levels := rfl
@[simp] theorem State.setWaiting_tickLine (code : Byte) : (s.setWaiting code).tickLine = s.tickLine := rfl
@[simp] theorem State.setWaiting_tickLevel (code : Byte) : (s.setWaiting code).tickLevel = s.tickLevel := rfl
@[simp] theorem State.setWaiting_pointers (code : Byte) : (s.setWaiting code).pointers = s.pointers := rfl
@[simp] theorem State.setWaiting_enable (code : Byte) : (s.setWaiting code).enable = s.enable := rfl
@[simp] theorem State.setWaiting_activity (code : Byte) : (s.setWaiting code).activity = s.activity := rfl
@[simp] theorem State.setWaiting_activation (code : Byte) : (s.setWaiting code).activation = s.activation := rfl
@[simp] theorem State.setWaiting_notices (code : Byte) : (s.setWaiting code).notices = s.notices := rfl
@[simp] theorem State.setWaiting_port (code : Byte) : (s.setWaiting code).port = { s.port with state := .waiting code } := rfl
@[simp] theorem State.setWaiting_image (code : Byte) : (s.setWaiting code).image = s.image := rfl
@[simp] theorem State.setWaiting_readBack (code : Byte) : (s.setWaiting code).readBack = s.readBack := rfl
@[simp] theorem State.setWaiting_bus (code : Byte) : (s.setWaiting code).bus = s.bus := rfl
@[simp] theorem State.setWaiting_pending (code : Byte) : (s.setWaiting code).pending = s.pending := rfl

/-! ### answerAccess -/

@[simp] theorem State.answerAccess_inReset (driven : Option Word) : (s.answerAccess driven).inReset = s.inReset := rfl
@[simp] theorem State.answerAccess_holdOff (driven : Option Word) : (s.answerAccess driven).holdOff = s.holdOff := rfl
@[simp] theorem State.answerAccess_records (driven : Option Word) : (s.answerAccess driven).records = s.records := rfl
@[simp] theorem State.answerAccess_bindings (driven : Option Word) : (s.answerAccess driven).bindings = s.bindings := rfl
@[simp] theorem State.answerAccess_lines (driven : Option Word) : (s.answerAccess driven).lines = s.lines := rfl
@[simp] theorem State.answerAccess_gens (driven : Option Word) : (s.answerAccess driven).gens = s.gens := rfl
@[simp] theorem State.answerAccess_divider (driven : Option Word) : (s.answerAccess driven).divider = s.divider := rfl
@[simp] theorem State.answerAccess_levels (driven : Option Word) : (s.answerAccess driven).levels = s.levels := rfl
@[simp] theorem State.answerAccess_tickLine (driven : Option Word) : (s.answerAccess driven).tickLine = s.tickLine := rfl
@[simp] theorem State.answerAccess_tickLevel (driven : Option Word) : (s.answerAccess driven).tickLevel = s.tickLevel := rfl
@[simp] theorem State.answerAccess_pointers (driven : Option Word) : (s.answerAccess driven).pointers = s.pointers := rfl
@[simp] theorem State.answerAccess_enable (driven : Option Word) : (s.answerAccess driven).enable = s.enable := rfl
@[simp] theorem State.answerAccess_activity (driven : Option Word) : (s.answerAccess driven).activity = s.activity := rfl
@[simp] theorem State.answerAccess_activation (driven : Option Word) : (s.answerAccess driven).activation = s.activation := rfl
@[simp] theorem State.answerAccess_notices (driven : Option Word) : (s.answerAccess driven).notices = s.notices := rfl
@[simp] theorem State.answerAccess_port (driven : Option Word) : (s.answerAccess driven).port = s.port := rfl
@[simp] theorem State.answerAccess_image (driven : Option Word) : (s.answerAccess driven).image = s.image := rfl
@[simp] theorem State.answerAccess_readBack (driven : Option Word) : (s.answerAccess driven).readBack = s.readBack := rfl
@[simp] theorem State.answerAccess_bus (driven : Option Word) : (s.answerAccess driven).bus = { s.bus with slave := some ⟨driven⟩ } := rfl
@[simp] theorem State.answerAccess_pending (driven : Option Word) : (s.answerAccess driven).pending = s.pending := rfl

/-! ### endSlaveAccess -/

@[simp] theorem State.endSlaveAccess_inReset : (s.endSlaveAccess).inReset = s.inReset := rfl
@[simp] theorem State.endSlaveAccess_holdOff : (s.endSlaveAccess).holdOff = s.holdOff := rfl
@[simp] theorem State.endSlaveAccess_records : (s.endSlaveAccess).records = s.records := rfl
@[simp] theorem State.endSlaveAccess_bindings : (s.endSlaveAccess).bindings = s.bindings := rfl
@[simp] theorem State.endSlaveAccess_lines : (s.endSlaveAccess).lines = s.lines := rfl
@[simp] theorem State.endSlaveAccess_gens : (s.endSlaveAccess).gens = s.gens := rfl
@[simp] theorem State.endSlaveAccess_divider : (s.endSlaveAccess).divider = s.divider := rfl
@[simp] theorem State.endSlaveAccess_levels : (s.endSlaveAccess).levels = s.levels := rfl
@[simp] theorem State.endSlaveAccess_tickLine : (s.endSlaveAccess).tickLine = s.tickLine := rfl
@[simp] theorem State.endSlaveAccess_tickLevel : (s.endSlaveAccess).tickLevel = s.tickLevel := rfl
@[simp] theorem State.endSlaveAccess_pointers : (s.endSlaveAccess).pointers = s.pointers := rfl
@[simp] theorem State.endSlaveAccess_enable : (s.endSlaveAccess).enable = s.enable := rfl
@[simp] theorem State.endSlaveAccess_activity : (s.endSlaveAccess).activity = s.activity := rfl
@[simp] theorem State.endSlaveAccess_activation : (s.endSlaveAccess).activation = s.activation := rfl
@[simp] theorem State.endSlaveAccess_notices : (s.endSlaveAccess).notices = s.notices := rfl
@[simp] theorem State.endSlaveAccess_port : (s.endSlaveAccess).port = s.port := rfl
@[simp] theorem State.endSlaveAccess_image : (s.endSlaveAccess).image = s.image := rfl
@[simp] theorem State.endSlaveAccess_readBack : (s.endSlaveAccess).readBack = s.readBack := rfl
@[simp] theorem State.endSlaveAccess_bus : (s.endSlaveAccess).bus = { s.bus with slave := none } := rfl
@[simp] theorem State.endSlaveAccess_pending : (s.endSlaveAccess).pending = s.pending := rfl

/-! ### setWorking -/

@[simp] theorem State.setWorking_inReset (a : Activation) (w : Working) : (s.setWorking a w).inReset = s.inReset := rfl
@[simp] theorem State.setWorking_holdOff (a : Activation) (w : Working) : (s.setWorking a w).holdOff = s.holdOff := rfl
@[simp] theorem State.setWorking_records (a : Activation) (w : Working) : (s.setWorking a w).records = s.records := rfl
@[simp] theorem State.setWorking_bindings (a : Activation) (w : Working) : (s.setWorking a w).bindings = s.bindings := rfl
@[simp] theorem State.setWorking_lines (a : Activation) (w : Working) : (s.setWorking a w).lines = s.lines := rfl
@[simp] theorem State.setWorking_gens (a : Activation) (w : Working) : (s.setWorking a w).gens = s.gens := rfl
@[simp] theorem State.setWorking_divider (a : Activation) (w : Working) : (s.setWorking a w).divider = s.divider := rfl
@[simp] theorem State.setWorking_levels (a : Activation) (w : Working) : (s.setWorking a w).levels = s.levels := rfl
@[simp] theorem State.setWorking_tickLine (a : Activation) (w : Working) : (s.setWorking a w).tickLine = s.tickLine := rfl
@[simp] theorem State.setWorking_tickLevel (a : Activation) (w : Working) : (s.setWorking a w).tickLevel = s.tickLevel := rfl
@[simp] theorem State.setWorking_pointers (a : Activation) (w : Working) : (s.setWorking a w).pointers = s.pointers := rfl
@[simp] theorem State.setWorking_enable (a : Activation) (w : Working) : (s.setWorking a w).enable = s.enable := rfl
@[simp] theorem State.setWorking_activity (a : Activation) (w : Working) : (s.setWorking a w).activity = s.activity := rfl
@[simp] theorem State.setWorking_activation (a : Activation) (w : Working) : (s.setWorking a w).activation = some { a with work := some w } := rfl
@[simp] theorem State.setWorking_notices (a : Activation) (w : Working) : (s.setWorking a w).notices = s.notices := rfl
@[simp] theorem State.setWorking_port (a : Activation) (w : Working) : (s.setWorking a w).port = s.port := rfl
@[simp] theorem State.setWorking_image (a : Activation) (w : Working) : (s.setWorking a w).image = s.image := rfl
@[simp] theorem State.setWorking_readBack (a : Activation) (w : Working) : (s.setWorking a w).readBack = s.readBack := rfl
@[simp] theorem State.setWorking_bus (a : Activation) (w : Working) : (s.setWorking a w).bus = s.bus := rfl
@[simp] theorem State.setWorking_pending (a : Activation) (w : Working) : (s.setWorking a w).pending = s.pending := rfl

/-! ### setBinding -/

@[simp] theorem State.setBinding_inReset (k : SourceNo) (e : Option Binding) : (s.setBinding k e).inReset = s.inReset := rfl
@[simp] theorem State.setBinding_holdOff (k : SourceNo) (e : Option Binding) : (s.setBinding k e).holdOff = s.holdOff := rfl
@[simp] theorem State.setBinding_records (k : SourceNo) (e : Option Binding) : (s.setBinding k e).records = s.records := rfl
@[simp] theorem State.setBinding_bindings (k : SourceNo) (e : Option Binding) : (s.setBinding k e).bindings = s.bindings.set k e := rfl
@[simp] theorem State.setBinding_lines (k : SourceNo) (e : Option Binding) : (s.setBinding k e).lines = s.lines := rfl
@[simp] theorem State.setBinding_gens (k : SourceNo) (e : Option Binding) : (s.setBinding k e).gens = s.gens := rfl
@[simp] theorem State.setBinding_divider (k : SourceNo) (e : Option Binding) : (s.setBinding k e).divider = s.divider := rfl
@[simp] theorem State.setBinding_levels (k : SourceNo) (e : Option Binding) : (s.setBinding k e).levels = s.levels := rfl
@[simp] theorem State.setBinding_tickLine (k : SourceNo) (e : Option Binding) : (s.setBinding k e).tickLine = s.tickLine := rfl
@[simp] theorem State.setBinding_tickLevel (k : SourceNo) (e : Option Binding) : (s.setBinding k e).tickLevel = s.tickLevel := rfl
@[simp] theorem State.setBinding_pointers (k : SourceNo) (e : Option Binding) : (s.setBinding k e).pointers = s.pointers := rfl
@[simp] theorem State.setBinding_enable (k : SourceNo) (e : Option Binding) : (s.setBinding k e).enable = s.enable := rfl
@[simp] theorem State.setBinding_activity (k : SourceNo) (e : Option Binding) : (s.setBinding k e).activity = s.activity := rfl
@[simp] theorem State.setBinding_activation (k : SourceNo) (e : Option Binding) : (s.setBinding k e).activation = s.activation := rfl
@[simp] theorem State.setBinding_notices (k : SourceNo) (e : Option Binding) : (s.setBinding k e).notices = s.notices := rfl
@[simp] theorem State.setBinding_port (k : SourceNo) (e : Option Binding) : (s.setBinding k e).port = s.port := rfl
@[simp] theorem State.setBinding_image (k : SourceNo) (e : Option Binding) : (s.setBinding k e).image = s.image := rfl
@[simp] theorem State.setBinding_readBack (k : SourceNo) (e : Option Binding) : (s.setBinding k e).readBack = s.readBack := rfl
@[simp] theorem State.setBinding_bus (k : SourceNo) (e : Option Binding) : (s.setBinding k e).bus = s.bus := rfl
@[simp] theorem State.setBinding_pending (k : SourceNo) (e : Option Binding) : (s.setBinding k e).pending = s.pending := rfl

/-! ### setLine -/

@[simp] theorem State.setLine_inReset (k : LineNo) (high : Bool) : (s.setLine k high).inReset = s.inReset := rfl
@[simp] theorem State.setLine_holdOff (k : LineNo) (high : Bool) : (s.setLine k high).holdOff = s.holdOff := rfl
@[simp] theorem State.setLine_records (k : LineNo) (high : Bool) : (s.setLine k high).records = s.records := rfl
@[simp] theorem State.setLine_bindings (k : LineNo) (high : Bool) : (s.setLine k high).bindings = s.bindings := rfl
@[simp] theorem State.setLine_gens (k : LineNo) (high : Bool) : (s.setLine k high).gens = s.gens := rfl
@[simp] theorem State.setLine_divider (k : LineNo) (high : Bool) : (s.setLine k high).divider = s.divider := rfl
@[simp] theorem State.setLine_levels (k : LineNo) (high : Bool) : (s.setLine k high).levels = s.levels := rfl
@[simp] theorem State.setLine_tickLine (k : LineNo) (high : Bool) : (s.setLine k high).tickLine = s.tickLine := rfl
@[simp] theorem State.setLine_tickLevel (k : LineNo) (high : Bool) : (s.setLine k high).tickLevel = s.tickLevel := rfl
@[simp] theorem State.setLine_pointers (k : LineNo) (high : Bool) : (s.setLine k high).pointers = s.pointers := rfl
@[simp] theorem State.setLine_enable (k : LineNo) (high : Bool) : (s.setLine k high).enable = s.enable := rfl
@[simp] theorem State.setLine_activity (k : LineNo) (high : Bool) : (s.setLine k high).activity = s.activity := rfl
@[simp] theorem State.setLine_activation (k : LineNo) (high : Bool) : (s.setLine k high).activation = s.activation := rfl
@[simp] theorem State.setLine_notices (k : LineNo) (high : Bool) : (s.setLine k high).notices = s.notices := rfl
@[simp] theorem State.setLine_port (k : LineNo) (high : Bool) : (s.setLine k high).port = s.port := rfl
@[simp] theorem State.setLine_image (k : LineNo) (high : Bool) : (s.setLine k high).image = s.image := rfl
@[simp] theorem State.setLine_readBack (k : LineNo) (high : Bool) : (s.setLine k high).readBack = s.readBack := rfl
@[simp] theorem State.setLine_bus (k : LineNo) (high : Bool) : (s.setLine k high).bus = s.bus := rfl
@[simp] theorem State.setLine_pending (k : LineNo) (high : Bool) : (s.setLine k high).pending = s.pending := rfl

/-! ### setGen -/

@[simp] theorem State.setGen_inReset (g : GenNo) (c : Generator) : (s.setGen g c).inReset = s.inReset := rfl
@[simp] theorem State.setGen_holdOff (g : GenNo) (c : Generator) : (s.setGen g c).holdOff = s.holdOff := rfl
@[simp] theorem State.setGen_records (g : GenNo) (c : Generator) : (s.setGen g c).records = s.records := rfl
@[simp] theorem State.setGen_bindings (g : GenNo) (c : Generator) : (s.setGen g c).bindings = s.bindings := rfl
@[simp] theorem State.setGen_lines (g : GenNo) (c : Generator) : (s.setGen g c).lines = s.lines := rfl
@[simp] theorem State.setGen_gens (g : GenNo) (c : Generator) : (s.setGen g c).gens = s.gens.set g c := rfl
@[simp] theorem State.setGen_divider (g : GenNo) (c : Generator) : (s.setGen g c).divider = s.divider := rfl
@[simp] theorem State.setGen_levels (g : GenNo) (c : Generator) : (s.setGen g c).levels = s.levels := rfl
@[simp] theorem State.setGen_tickLine (g : GenNo) (c : Generator) : (s.setGen g c).tickLine = s.tickLine := rfl
@[simp] theorem State.setGen_tickLevel (g : GenNo) (c : Generator) : (s.setGen g c).tickLevel = s.tickLevel := rfl
@[simp] theorem State.setGen_pointers (g : GenNo) (c : Generator) : (s.setGen g c).pointers = s.pointers := rfl
@[simp] theorem State.setGen_enable (g : GenNo) (c : Generator) : (s.setGen g c).enable = s.enable := rfl
@[simp] theorem State.setGen_activity (g : GenNo) (c : Generator) : (s.setGen g c).activity = s.activity := rfl
@[simp] theorem State.setGen_activation (g : GenNo) (c : Generator) : (s.setGen g c).activation = s.activation := rfl
@[simp] theorem State.setGen_notices (g : GenNo) (c : Generator) : (s.setGen g c).notices = s.notices := rfl
@[simp] theorem State.setGen_port (g : GenNo) (c : Generator) : (s.setGen g c).port = s.port := rfl
@[simp] theorem State.setGen_image (g : GenNo) (c : Generator) : (s.setGen g c).image = s.image := rfl
@[simp] theorem State.setGen_readBack (g : GenNo) (c : Generator) : (s.setGen g c).readBack = s.readBack := rfl
@[simp] theorem State.setGen_bus (g : GenNo) (c : Generator) : (s.setGen g c).bus = s.bus := rfl
@[simp] theorem State.setGen_pending (g : GenNo) (c : Generator) : (s.setGen g c).pending = s.pending := rfl

@[simp] theorem State.complete_port (code : Byte) (a : Reply) :
    (s.complete code a).port =
      { s.port with
        state := .ready
        result := BitVec.ofNat 16 (a.result.code + code.toNat * 256)
        rval0 := a.rval0
        rval1 := a.rval1
        stopHandle := none } := rfl


/-! ### settleActivity -/

@[simp] theorem State.settleActivity_inReset : (s.settleActivity).inReset = s.inReset := by
  unfold State.settleActivity; split <;> rfl
@[simp] theorem State.settleActivity_holdOff : (s.settleActivity).holdOff = s.holdOff := by
  unfold State.settleActivity; split <;> rfl
@[simp] theorem State.settleActivity_records : (s.settleActivity).records = s.records := by
  unfold State.settleActivity; split <;> rfl
@[simp] theorem State.settleActivity_bindings : (s.settleActivity).bindings = s.bindings := by
  unfold State.settleActivity; split <;> rfl
@[simp] theorem State.settleActivity_lines : (s.settleActivity).lines = s.lines := by
  unfold State.settleActivity; split <;> rfl
@[simp] theorem State.settleActivity_gens : (s.settleActivity).gens = s.gens := by
  unfold State.settleActivity; split <;> rfl
@[simp] theorem State.settleActivity_divider : (s.settleActivity).divider = s.divider := by
  unfold State.settleActivity; split <;> rfl
@[simp] theorem State.settleActivity_levels : (s.settleActivity).levels = s.levels := by
  unfold State.settleActivity; split <;> rfl
@[simp] theorem State.settleActivity_tickLine : (s.settleActivity).tickLine = s.tickLine := by
  unfold State.settleActivity; split <;> rfl
@[simp] theorem State.settleActivity_tickLevel : (s.settleActivity).tickLevel = s.tickLevel := by
  unfold State.settleActivity; split <;> rfl
@[simp] theorem State.settleActivity_pointers : (s.settleActivity).pointers = s.pointers := by
  unfold State.settleActivity; split <;> rfl
@[simp] theorem State.settleActivity_enable : (s.settleActivity).enable = s.enable := by
  unfold State.settleActivity; split <;> rfl
@[simp] theorem State.settleActivity_activation : (s.settleActivity).activation = s.activation := by
  unfold State.settleActivity; split <;> rfl
@[simp] theorem State.settleActivity_notices : (s.settleActivity).notices = s.notices := by
  unfold State.settleActivity; split <;> rfl
@[simp] theorem State.settleActivity_port : (s.settleActivity).port = s.port := by
  unfold State.settleActivity; split <;> rfl
@[simp] theorem State.settleActivity_image : (s.settleActivity).image = s.image := by
  unfold State.settleActivity; split <;> rfl
@[simp] theorem State.settleActivity_readBack : (s.settleActivity).readBack = s.readBack := by
  unfold State.settleActivity; split <;> rfl
@[simp] theorem State.settleActivity_bus : (s.settleActivity).bus = s.bus := by
  unfold State.settleActivity; split <;> rfl
@[simp] theorem State.settleActivity_pending : (s.settleActivity).pending = s.pending := by
  unfold State.settleActivity; split <;> rfl

/-! ### standingTrigger -/

@[simp] theorem State.standingTrigger_inReset (n : RecNo) : (s.standingTrigger n).inReset = s.inReset := by
  unfold State.standingTrigger; split <;> rfl
@[simp] theorem State.standingTrigger_holdOff (n : RecNo) : (s.standingTrigger n).holdOff = s.holdOff := by
  unfold State.standingTrigger; split <;> rfl
@[simp] theorem State.standingTrigger_bindings (n : RecNo) : (s.standingTrigger n).bindings = s.bindings := by
  unfold State.standingTrigger; split <;> rfl
@[simp] theorem State.standingTrigger_lines (n : RecNo) : (s.standingTrigger n).lines = s.lines := by
  unfold State.standingTrigger; split <;> rfl
@[simp] theorem State.standingTrigger_gens (n : RecNo) : (s.standingTrigger n).gens = s.gens := by
  unfold State.standingTrigger; split <;> rfl
@[simp] theorem State.standingTrigger_divider (n : RecNo) : (s.standingTrigger n).divider = s.divider := by
  unfold State.standingTrigger; split <;> rfl
@[simp] theorem State.standingTrigger_levels (n : RecNo) : (s.standingTrigger n).levels = s.levels := by
  unfold State.standingTrigger; split <;> rfl
@[simp] theorem State.standingTrigger_tickLine (n : RecNo) : (s.standingTrigger n).tickLine = s.tickLine := by
  unfold State.standingTrigger; split <;> rfl
@[simp] theorem State.standingTrigger_tickLevel (n : RecNo) : (s.standingTrigger n).tickLevel = s.tickLevel := by
  unfold State.standingTrigger; split <;> rfl
@[simp] theorem State.standingTrigger_pointers (n : RecNo) : (s.standingTrigger n).pointers = s.pointers := by
  unfold State.standingTrigger; split <;> rfl
@[simp] theorem State.standingTrigger_enable (n : RecNo) : (s.standingTrigger n).enable = s.enable := by
  unfold State.standingTrigger; split <;> rfl
@[simp] theorem State.standingTrigger_activity (n : RecNo) : (s.standingTrigger n).activity = s.activity := by
  unfold State.standingTrigger; split <;> rfl
@[simp] theorem State.standingTrigger_activation (n : RecNo) : (s.standingTrigger n).activation = s.activation := by
  unfold State.standingTrigger; split <;> rfl
@[simp] theorem State.standingTrigger_notices (n : RecNo) : (s.standingTrigger n).notices = s.notices := by
  unfold State.standingTrigger; split <;> rfl
@[simp] theorem State.standingTrigger_port (n : RecNo) : (s.standingTrigger n).port = s.port := by
  unfold State.standingTrigger; split <;> rfl
@[simp] theorem State.standingTrigger_image (n : RecNo) : (s.standingTrigger n).image = s.image := by
  unfold State.standingTrigger; split <;> rfl
@[simp] theorem State.standingTrigger_readBack (n : RecNo) : (s.standingTrigger n).readBack = s.readBack := by
  unfold State.standingTrigger; split <;> rfl
@[simp] theorem State.standingTrigger_bus (n : RecNo) : (s.standingTrigger n).bus = s.bus := by
  unfold State.standingTrigger; split <;> rfl
@[simp] theorem State.standingTrigger_pending (n : RecNo) : (s.standingTrigger n).pending = s.pending := by
  unfold State.standingTrigger; split <;> rfl

end Sys2Proof.Machine
end

