-- ==== Sys2Proof/Laws/Ops.lean ====
section
/-! SUPPORT. One lemma for each shared operation, saying what it does, in the terms of Safety.lean. -/

namespace Sys2Proof.Machine

/-! ### Tables -/

@[simp] theorem mapTable_getElem {α : Type} {n : Nat} (f : α → α) (v : Vector α n) (i : Nat) (h : i < n) :
    (mapTable f v)[i] = f v[i] := by
  simp [mapTable]

/-- Storing in an entry what it holds changes nothing. -/
theorem vector_set_self {α : Type} {n : Nat} (v : Vector α n) (k : Fin n) : v.set k v[k] = v := by
  ext i hi
  simp only [Vector.getElem_set]
  split
  · next h => subst h; rfl
  · rfl

/-- An entry of a table with entry `k` replaced. -/
theorem vector_set_get {α : Type} {n : Nat} (v : Vector α n) (k j : Fin n) (x : α) :
    (v.set k x)[j] = if j = k then x else v[j] := by
  simp [Vector.getElem_set, Fin.ext_iff, eq_comm]

/-! ### Reset and the port -/

/-- With RESET_n negated a step is its own claim. -/
@[simp] theorem State.unlessReset_of_negated {s : State} (h : s.inReset = false) (f : State → State) :
    s.unlessReset f = f s := by
  simp [State.unlessReset, h]

/-- With RESET_n asserted a step changes nothing (R193). -/
@[simp] theorem State.unlessReset_of_asserted {s : State} (h : s.inReset = true) (f : State → State) :
    s.unlessReset f = s := by
  simp [State.unlessReset, h]

/-- What `listens` tests. -/
theorem State.listens_iff (s : State) : s.listens = true ↔ s.Listens := by
  simp [State.listens, and_assoc]

/-- An access the part serves is answered with RDY_n and is its claim (R195). -/
theorem State.slaveAccess_served {s : State} (h : s.Listens) (driven : Option Word) (claim : State → State) :
    s.slaveAccess driven claim = claim (s.answerAccess driven) := by
  rw [State.slaveAccess, if_pos (s.listens_iff.mpr h)]

/-- An access the part does not serve changes nothing (R193, R196). -/
theorem State.slaveAccess_unanswered {s : State} (h : ¬s.Listens) (driven : Option Word) (claim : State → State) :
    s.slaveAccess driven claim = s := by
  rw [State.slaveAccess, if_neg (fun e => h (s.listens_iff.mp e))]

/-- With both strobes asserted an access is neither a read nor a write (R195). -/
@[simp] theorem writeClaim_bothStrobes (offset : BitVec 7) (lanes : Lanes) (v : Word) :
    writeClaim offset ⟨lanes, true⟩ v = id := rfl

/-- With WR_n alone it is the write (R195). -/
@[simp] theorem writeClaim_write (offset : BitVec 7) (lanes : Lanes) (v : Word) :
    writeClaim offset ⟨lanes, false⟩ v = fun s => s.windowWrite offset lanes v := rfl

/-! ### Commands -/

@[simp] theorem State.busAfter_ownership (s : State) : s.busAfter.ownership = s.bus.ownership := by
  unfold State.busAfter; split <;> rfl
@[simp] theorem State.busAfter_request (s : State) : s.busAfter.request = s.bus.request := by
  unfold State.busAfter; split <;> rfl
@[simp] theorem State.busAfter_access (s : State) : s.busAfter.access = s.bus.access := by
  unfold State.busAfter; split <;> rfl
@[simp] theorem State.busAfter_timer (s : State) : s.busAfter.timer = s.bus.timer := by
  unfold State.busAfter; split <;> rfl
@[simp] theorem State.busAfter_spacing (s : State) : s.busAfter.spacing = s.bus.spacing := by
  unfold State.busAfter; split <;> rfl
@[simp] theorem State.busAfter_pair (s : State) : s.busAfter.pair = s.bus.pair := by
  unfold State.busAfter; split <;> rfl

/-- The state a command's owner takes it in: the access answered, the port BUSY, the arguments latched. -/
def State.served (s : State) (code : Byte) : State :=
  { s with
    port := { s.port with state := .busy code, refused := s.refusedAfter, latched := s.givenArgs }
    bus := s.busAfter }

/-- A command the part takes is its owner's claim on `State.served`. -/
theorem State.command_of_serves {s : State} {code : Byte} (h : s.Serves code) (owner : State → State) :
    s.command code owner = owner (s.served code) := by
  obtain ⟨ready, listens⟩ | ⟨busy, negated⟩ := h
  · simp only [State.command, State.unlessReset_of_negated listens.1, ready, State.slaveAccess_served listens,
      State.answerAccess, State.accept, State.served, State.refusedAfter, State.givenArgs, State.busAfter]
  · have same : s.served code = s := by
      simp only [State.served, State.refusedAfter, State.givenArgs, State.busAfter, busy]
      rw [← busy]
    rw [same]
    simp [State.command, negated, busy]

/-- A command written while another is served sets REFUSED and does nothing else but answer the access (R182). -/
theorem State.command_of_occupied {s : State} {code : Byte} (listens : s.Listens)
    (h : (∃ c, s.port.state = .waiting c) ∨ ∃ c, s.port.state = .busy c ∧ c ≠ code) (owner : State → State) :
    s.command code owner = (s.answerAccess none).refuseWrite := by
  obtain ⟨c, waiting⟩ | ⟨c, busy, other⟩ := h
  · simp [State.command, listens.1, waiting, State.slaveAccess_served listens]
  · simp [State.command, listens.1, busy, other, State.slaveAccess_served listens]

/-- An access that is not served carries no command: with the port BUSY on another command, WAITING, or READY, the
step changes nothing (R193, R196). -/
theorem State.command_unanswered {s : State} {code : Byte} (deaf : ¬s.Listens) (h : s.port.state ≠ .busy code)
    (owner : State → State) : s.command code owner = s := by
  unfold State.command State.unlessReset
  split
  · rfl
  · dsimp only
    split
    · exact State.slaveAccess_unanswered deaf _ _
    · next c busy =>
      rw [if_neg (fun e => h (by rw [busy, e]))]
      exact State.slaveAccess_unanswered deaf _ _
    · exact State.slaveAccess_unanswered deaf _ _

/-- With RESET_n asserted no command is taken. -/
theorem State.command_of_asserted {s : State} (h : s.inReset = true) (code : Byte) (owner : State → State) :
    s.command code owner = s := by
  simp [State.command, h]

/-- The completion of a command served from `s` gives the port `State.answered` describes (R184). -/
theorem State.complete_served_port (s : State) (code : Byte) (a : Reply) :
    ((s.served code).complete code a).port = s.answered code a.result a.rval0 a.rval1 := rfl

@[simp] theorem State.served_arg0 (s : State) (code : Byte) : (s.served code).arg0 = s.givenArgs.a0 := rfl
@[simp] theorem State.served_arg1 (s : State) (code : Byte) : (s.served code).arg1 = s.givenArgs.a1 := rfl
@[simp] theorem State.served_arg2 (s : State) (code : Byte) : (s.served code).arg2 = s.givenArgs.a2 := rfl

@[simp] theorem State.served_inReset (s : State) (code : Byte) : (s.served code).inReset = s.inReset := rfl
@[simp] theorem State.served_records (s : State) (code : Byte) : (s.served code).records = s.records := rfl
@[simp] theorem State.served_bindings (s : State) (code : Byte) : (s.served code).bindings = s.bindings := rfl
@[simp] theorem State.served_holdOff (s : State) (code : Byte) : (s.served code).holdOff = s.holdOff := rfl
@[simp] theorem State.served_levels (s : State) (code : Byte) : (s.served code).levels = s.levels := rfl
@[simp] theorem State.served_tickLevel (s : State) (code : Byte) : (s.served code).tickLevel = s.tickLevel := rfl
@[simp] theorem State.served_lines (s : State) (code : Byte) : (s.served code).lines = s.lines := rfl
@[simp] theorem State.served_gens (s : State) (code : Byte) : (s.served code).gens = s.gens := rfl
@[simp] theorem State.served_divider (s : State) (code : Byte) : (s.served code).divider = s.divider := rfl
@[simp] theorem State.served_tickLine (s : State) (code : Byte) : (s.served code).tickLine = s.tickLine := rfl
@[simp] theorem State.served_pointers (s : State) (code : Byte) : (s.served code).pointers = s.pointers := rfl
@[simp] theorem State.served_enable (s : State) (code : Byte) : (s.served code).enable = s.enable := rfl
@[simp] theorem State.served_activity (s : State) (code : Byte) : (s.served code).activity = s.activity := rfl
@[simp] theorem State.served_activation (s : State) (code : Byte) : (s.served code).activation = s.activation := rfl
@[simp] theorem State.served_notices (s : State) (code : Byte) : (s.served code).notices = s.notices := rfl
@[simp] theorem State.served_image (s : State) (code : Byte) : (s.served code).image = s.image := rfl
@[simp] theorem State.served_readBack (s : State) (code : Byte) : (s.served code).readBack = s.readBack := rfl
@[simp] theorem State.served_bus (s : State) (code : Byte) : (s.served code).bus = s.busAfter := rfl
@[simp] theorem State.served_pending (s : State) (code : Byte) : (s.served code).pending = s.pending := rfl

/-- A completion, of a state whose port is still as the command found it. -/
theorem State.complete_eq {s t : State} {code : Byte} (a : Reply) (h : t.port = (s.served code).port) :
    t.complete code a = { t with port := s.answered code a.result a.rval0 a.rval1 } := by
  rw [State.complete, h]; rfl

/-! ### Handles -/

/-- A register value whose record number is above 95 names no handle. -/
theorem Handle.ofWord_outOfRange {w : Word} (h : HandleOutOfRange w) : Handle.ofWord w = none := by
  simp [Handle.ofWord]; omega

/-- The handle a register value names. -/
theorem Handle.ofWord_of_num {w : Word} {n : RecNo} (h : w.toNat % 256 = n.val) :
    Handle.ofWord w = some ⟨n, BitVec.ofNat 8 (w.toNat / 256)⟩ := by
  have lt := n.isLt
  simp only [Handle.ofWord]
  rw [dif_pos (by omega)]
  simp [h]

/-- The upper byte of a register value, as a generation. -/
theorem gen_eq_iff (w : Word) (gen : Byte) : gen = BitVec.ofNat 8 (w.toNat / 256) ↔ gen.toNat = w.toNat / 256 := by
  have lt := w.isLt
  constructor
  · intro h; rw [h]; simp; omega
  · intro h; apply BitVec.eq_of_toNat_eq; simp; omega

/-- Step 1 of the handle check (R15). -/
theorem State.checkHandle_outOfRange {s : State} {w : Word} (h : HandleOutOfRange w) :
    s.checkHandle w = .refused .range := by
  simp [State.checkHandle, Handle.ofWord_outOfRange h]

/-- Step 2 of the handle check (R15). -/
theorem State.checkHandle_stale {s : State} {w : Word} {n : RecNo} (h : s.StaleHandle w n) :
    s.checkHandle w = .refused .stale := by
  obtain ⟨num, stale⟩ := h
  simp only [State.checkHandle, Handle.ofWord_of_num num, ne_eq, gen_eq_iff]
  rw [if_pos stale]

/-- A handle that passes (R15). -/
theorem State.checkHandle_passed {s : State} {w : Word} {n : RecNo} (h : s.NamesRecord w n) :
    s.checkHandle w = .passed ⟨n, s.records[n].gen⟩ := by
  obtain ⟨num, used, gen⟩ := h
  simp only [State.checkHandle, Handle.ofWord_of_num num, ne_eq, gen_eq_iff]
  rw [if_neg (fun h => h.elim used (fun h => h gen)), ← (gen_eq_iff w _).mpr gen]

/-! ### Triggers -/

/-- One trigger does to a record what R64 says. -/
theorem Record.triggered_taken (r : Record) : TriggerTaken r r.triggered := by
  unfold TriggerTaken Record.triggered
  by_cases h : r.latch < 4 <;> cases hs : r.state <;> simp [RecState.latches, Config.latchDepth, h]

/-! ### Activity -/

/-- Some record is eligible. -/
theorem State.anyEligible_iff (s : State) : s.anyEligible = true ↔ ∃ n : RecNo, s.records[n].IsEligible := by
  simp [State.anyEligible, Record.eligible, List.any_eq_true, -Fin.getElem_fin]

/-- The notice-room condition (R91). -/
theorem State.noticeRoom_iff (s : State) : s.noticeRoom = true ↔ s.notices.queue.length ≤ 30 :=
  decide_eq_true_iff

/-- Fewer than 2 places free (R92, R133). -/
theorem State.noticeRoom_false_iff (s : State) : s.noticeRoom = false ↔ 30 < s.notices.queue.length := by
  rw [← Bool.not_eq_true, s.noticeRoom_iff, Nat.not_le]

/-- The test `settleActivity` makes is the condition of a head wait (R92). -/
theorem State.headWaitCondition_iff (s : State) :
    s.HeadWaitCondition ↔ (s.enable && s.anyEligible && !s.noticeRoom) = true := by
  have eligible := s.anyEligible_iff
  simp only [State.HeadWaitCondition, Bool.and_eq_true, eligible, Bool.not_eq_true', s.noticeRoom_false_iff, and_assoc]

/-- Every claim that ends with `settleActivity` leaves the head wait exact (R87, R92). -/
theorem State.settleActivity_settles (s : State) : s.ActivitySettles s.settleActivity := by
  refine ⟨fun open_ => ?_, fun closed => ?_⟩
  · unfold State.settleActivity
    split
    · rfl
    · contradiction
  · simp only [State.settleActivity_activation] at closed
    have wait : s.settleActivity.HeadWaitCondition ↔ (s.enable && s.anyEligible && !s.noticeRoom) = true := by
      rw [← s.headWaitCondition_iff]
      simp only [State.HeadWaitCondition, State.settleActivity_enable, State.settleActivity_records,
        State.settleActivity_notices]
    have act : s.settleActivity.activity =
        if s.enable && s.anyEligible && !s.noticeRoom then .stalled else .idle := by
      simp [State.settleActivity, closed]
    rw [act]
    constructor
    · intro h; rw [if_pos (wait.mp h)]
    · intro h; rw [if_neg (fun e => h (wait.mpr e))]

/-- A settled state is left as it is. -/
theorem State.settleActivity_of_exact {s : State} (h : s.HeadWaitExact) : s.settleActivity = s := by
  cases closed : s.activation with
  | some a => simp [State.settleActivity, closed]
  | none =>
    have wait := s.headWaitCondition_iff
    have ⟨stalled, idle⟩ := h closed
    simp only [State.settleActivity, closed]
    by_cases c : s.HeadWaitCondition
    · rw [if_pos (wait.mp c), ← stalled c, ← closed]
    · rw [if_neg (fun e => c (wait.mpr e)), ← idle c, ← closed]

/-- Settling changes nothing but the activity. -/
theorem State.settleActivity_eq (s : State) :
    s.settleActivity = { s with activity := s.settleActivity.activity } := by
  unfold State.settleActivity; split <;> rfl

/-- A claim that ends by settling, from a state of the same activity and activation. -/
theorem State.settleActivity_settles_from {s u : State} (activation : u.activation = s.activation)
    (activity : u.activity = s.activity) : s.ActivitySettles u.settleActivity := by
  have settles := u.settleActivity_settles
  rw [State.ActivitySettles, activation, activity] at settles
  exact settles

/-! ### The end of an activation -/

/-- The end of an activation changes nothing but the activation, the activity and the port. -/
theorem State.endActivation_eq (s : State) : s.endActivation = { s with
    activation := none, activity := s.endActivation.activity, port := s.endActivation.port } := by
  unfold State.endActivation
  rw [State.settleActivity_eq]
  cases s.port.stopHandle <;> simp [State.complete]

/-- The end of an activation does what R94 and R97 say. -/
theorem State.endActivation_ends (s : State) : s.ActivationEnds s.endActivation := by
  refine ⟨?_, ?_, fun h => ?_, fun h waits => ?_⟩
  · rw [State.endActivation_eq]
  · unfold State.endActivation; exact (State.settleActivity_settles _).2
  · unfold State.endActivation; simp [h]
  · have waits : s.port.stopHandle = some h := waits
    unfold State.endActivation
    simp [waits, State.complete, ResultCode.code, Activity.code, codeEngineStop]

end Sys2Proof.Machine
end

