-- ==== Sys2Proof/Laws/Arbiter.lean ====
section
/-! SUPPORT. The arbiter's choice (R89). -/

namespace Sys2Proof.Machine

/-- A record's place in the rotation after a pointer is its distance from it. -/
theorem rotation_split (pointer n : RecNo) : ∃ before after : List RecNo,
    rotation pointer = before ++ n :: after ∧
      ∀ m ∈ before, rotationDistance pointer m < rotationDistance pointer n := by
  have lt : rotationDistance pointer n < 96 := Nat.mod_lt _ (by decide)
  have place : ∀ k : Fin 96, rotationDistance pointer (pointer + 1 + k) = k.val := by
    intro k
    have p := pointer.isLt
    have h := k.isLt
    simp only [rotationDistance, Fin.val_add, Fin.val_one]
    omega
  have here : pointer + 1 + ⟨rotationDistance pointer n, lt⟩ = n := by
    have p := pointer.isLt
    have h := n.isLt
    apply Fin.ext
    simp only [rotationDistance, Fin.val_add, Fin.val_one]
    omega
  have entry : (rotation pointer)[rotationDistance pointer n]'(by simpa [rotation] using lt) = n := by
    simpa [rotation] using here
  refine ⟨(rotation pointer).take (rotationDistance pointer n),
    (rotation pointer).drop (rotationDistance pointer n + 1), ?_, ?_⟩
  · conv_lhs => rw [← List.take_append_drop (rotationDistance pointer n) (rotation pointer)]
    rw [List.drop_eq_getElem_cons (by simpa [rotation] using lt), entry]
  · intro m mem
    obtain ⟨i, hi, rfl⟩ := List.mem_iff_getElem.mp mem
    simp only [List.length_take] at hi
    simp only [List.getElem_take, rotation, List.getElem_map, List.getElem_finRange, place]
    simp; omega

/-- The head the arbiter chooses is the one R89 describes. -/
theorem State.chosenHead_of_isChosen {s : State} {n : RecNo} (chosen : s.IsChosenHead n) :
    s.chosenHead = some n := by
  obtain ⟨eligible, first⟩ := chosen
  have test : ∀ (m : RecNo) (k : Rank), (s.records[m].eligible && s.records[m].edit.rank == k) = true ↔
      s.records[m].IsEligible ∧ s.records[m].edit.rank = k := by
    intro m k; simp [Record.eligible, -Fin.getElem_fin]
  have lower : ∀ k : Rank, k < s.records[n].edit.rank → s.headOfRank k = none := by
    intro k below
    unfold State.headOfRank
    rw [List.find?_eq_none]
    intro m _ holds
    obtain ⟨e, rfl⟩ := (test m k).mp holds
    exact absurd below (not_lt.mpr (first m e).1)
  have own : s.headOfRank s.records[n].edit.rank = some n := by
    unfold State.headOfRank
    obtain ⟨before, after, split, near⟩ := rotation_split s.pointers[s.records[n].edit.rank] n
    rw [split, List.find?_append, List.find?_eq_none.mpr, List.find?_cons]
    · simp only [(test n _).mpr ⟨eligible, rfl⟩]; rfl
    · intro m mem holds
      obtain ⟨e, same⟩ := (test m _).mp holds
      exact absurd (near m mem) (not_lt.mpr ((first m e).2 same))
  unfold State.chosenHead
  rw [show List.finRange 4 = [0, 1, 2, 3] from rfl]
  have cases : s.records[n].edit.rank = 0 ∨ s.records[n].edit.rank = 1 ∨ s.records[n].edit.rank = 2 ∨
      s.records[n].edit.rank = 3 := by
    generalize s.records[n].edit.rank = k
    revert k; decide
  rcases cases with h | h | h | h <;> rw [h] at own lower
  · simp [List.findSome?, own]
  · simp [List.findSome?, own, lower 0 (by decide)]
  · simp [List.findSome?, own, lower 0 (by decide), lower 1 (by decide)]
  · simp [List.findSome?, own, lower 0 (by decide), lower 1 (by decide), lower 2 (by decide)]

/-- With nothing eligible there is no choice (R88). -/
theorem State.chosenHead_none {s : State} (idle : ∀ n : RecNo, ¬s.records[n].IsEligible) : s.chosenHead = none := by
  unfold State.chosenHead
  rw [List.findSome?_eq_none_iff]
  intro k _
  unfold State.headOfRank
  rw [List.find?_eq_none]
  intro m _ holds
  simp only [Bool.and_eq_true, Record.eligible, beq_iff_eq, decide_eq_true_eq] at holds
  exact idle m holds.1

/-- With a record eligible there is a choice. -/
theorem State.chosenHead_ne_none {s : State} {n : RecNo} (eligible : s.records[n].IsEligible) :
    s.chosenHead ≠ none := by
  intro h
  unfold State.chosenHead at h
  rw [List.findSome?_eq_none_iff] at h
  have none_ := h s.records[n].edit.rank (List.mem_finRange _)
  unfold State.headOfRank at none_
  rw [List.find?_eq_none] at none_
  obtain ⟨before, after, split, _⟩ := rotation_split s.pointers[s.records[n].edit.rank] n
  have no := none_ n (by rw [split]; simp)
  simp only [Bool.and_eq_true, Record.eligible, beq_iff_eq, decide_eq_true_eq, and_true] at no
  exact no eligible

end Sys2Proof.Machine
end

