-- ==== Sys2Proof/Laws/Bindings.lean ====
section
/-! SUPPORT. The binding table and standing triggers (chapter 3), and freeing a record (R17). -/

namespace Sys2Proof.Machine

/-- An entry names record `n`. -/
theorem binding_any_iff {e : Option Binding} {n : RecNo} :
    e.any (fun b => b.handle.num == n) = true ↔ ∃ b ∈ e, b.handle.num = n := by
  cases e <;> simp

/-- A record is not bound. -/
theorem State.sourceOf_eq_none {s : State} {n : RecNo} : s.sourceOf n = none ↔
    ∀ k : SourceNo, s.bindings[k].any (fun b => b.handle.num == n) = false := by
  unfold State.sourceOf State.names
  rw [List.find?_eq_none]
  constructor
  · intro h k; have := h k (by simp); cases e : s.bindings[k] <;> simp_all
  · intro h k _; have := h k; cases e : s.bindings[k] <;> simp_all

/-- The source a record is bound to, in a one-to-one table. -/
theorem State.sourceOf_eq_some {s : State} (map : s.BindingMap) {n : RecNo} {k : SourceNo} :
    s.sourceOf n = some k ↔ s.bindings[k].any (fun b => b.handle.num == n) = true := by
  have names : ∀ k, s.names k n = s.bindings[k].any (fun b => b.handle.num == n) := by
    intro k; unfold State.names; cases s.bindings[k] <;> rfl
  constructor
  · intro h; have := List.find?_some h; rwa [names] at this
  · intro h
    cases e : s.sourceOf n with
    | none => rw [State.sourceOf_eq_none] at e; rw [e k] at h; contradiction
    | some l =>
      have hl := List.find?_some e
      rw [names] at hl
      obtain ⟨b, hb, eb⟩ := binding_any_iff.mp h
      obtain ⟨c, hc, ec⟩ := binding_any_iff.mp hl
      rw [map.2 k l b hb c hc (eb.trans ec.symm)]

/-- The test of the standing trigger, in a one-to-one table (R65). -/
theorem State.levelLineActive_iff {s : State} (map : s.BindingMap) (n : RecNo) :
    s.levelLineActive n = true ↔ s.OnActiveLevelLine n := by
  unfold State.levelLineActive State.OnActiveLevelLine
  constructor
  · intro h
    split at h
    · simp at h
    · next k e =>
      rw [State.sourceOf_eq_some map] at e
      unfold State.sourceActive at h
      split at h
      · simp at h
      · next b eb =>
        simp at h
        refine ⟨⟨k.val, h.1⟩, ?_⟩
        rw [eb] at e
        have : s.bindings[LineNo.source ⟨k.val, h.1⟩] = some b := eb
        rw [this]
        simp at e
        have h2 := h.2
        simp [Binding.activeFor, e]
        unfold Sense.levelActive State.lineLevel at h2
        cases hs : b.sense <;> simp_all
  · rintro ⟨k, h⟩
    cases eb : s.bindings[LineNo.source k] with
    | none => simp [eb] at h
    | some b =>
      rw [eb] at h
      simp [Binding.activeFor] at h
      have e : s.sourceOf n = some (LineNo.source k) := by
        rw [State.sourceOf_eq_some map, eb]; simp [h.1]
      rw [e]
      simp only [State.sourceActive, eb, State.lineLevel]
      have := h.2
      have lt := k.isLt
      cases hs : b.sense <;> simp_all [Sense.levelActive, LineNo.source]

/-- A standing trigger changes nothing but the latch of its record. -/
theorem State.standingTrigger_eq (s : State) (n : RecNo) : s.standingTrigger n =
    { s with records := s.records.set n { s.records[n] with latch := (s.standingTrigger n).records[n].latch } } := by
  unfold State.standingTrigger
  split
  · simp [State.setRecord]
  · have : s.records.set n s.records[n] = s.records := vector_set_self _ _
    simp only [this]

/-- A standing trigger leaves every other record. -/
theorem State.standingTrigger_other (s : State) {n m : RecNo} (h : m ≠ n) :
    (s.standingTrigger n).records[m] = s.records[m] := by
  rw [State.standingTrigger_eq]; simp only [vector_set_get, if_neg h]

/-- A standing trigger does what R65 and R66 say. -/
theorem State.standingTrigger_latch {s : State} (map : s.BindingMap) (n : RecNo) :
    s.StandingLatch n s.records[n] (s.standingTrigger n).records[n].latch := by
  unfold State.StandingLatch State.standingTrigger
  have := s.levelLineActive_iff map n
  by_cases a : s.records[n].awaitsStanding && s.levelLineActive n
  · rw [if_pos a]
    simp [Record.awaitsStanding, this] at a
    rw [if_pos ⟨by simpa using a.1.1, by simpa using a.1.2, a.2⟩]
    simp [State.setRecord]
  · rw [if_neg a]
    simp [Record.awaitsStanding, this] at a
    rw [if_neg (fun ⟨x, y, k, z⟩ => by
      have := a (by simpa using x) (by simpa using y) k; simp_all)]

/-- A trigger leaves the lifecycle state and the generation. -/
theorem TriggerTaken.keeps {r r' : Record} (h : TriggerTaken r r') : r'.state = r.state ∧ r'.gen = r.gen := by
  unfold TriggerTaken at h
  split at h
  · split at h <;> rw [h] <;> exact ⟨rfl, rfl⟩
  · rw [h]; exact ⟨rfl, rfl⟩

/-- A sample leaves the lifecycle state and the generation of the record its line is bound to. -/
theorem SampleTaken.keeps {sense : Sense} {was high : Bool} {r r' : Record} (h : SampleTaken sense was high r r') :
    r'.state = r.state ∧ r'.gen = r.gen := by
  unfold SampleTaken at h
  split at h
  · rw [h]; exact ⟨rfl, rfl⟩
  · split at h
    · exact h.keeps
    · split at h
      · rw [h]; split <;> exact ⟨rfl, rfl⟩
      · rw [h]; exact ⟨rfl, rfl⟩

/-- The binding map holds on while the table, the lifecycle states and the generations do. -/
theorem State.BindingMap.of_keeps {s t : State} (map : s.BindingMap) (bindings : t.bindings = s.bindings)
    (keeps : ∀ n : RecNo, t.records[n].state = s.records[n].state ∧ t.records[n].gen = s.records[n].gen) :
    t.BindingMap := by
  unfold State.BindingMap
  rw [bindings]
  refine ⟨fun k b mem => ?_, map.2⟩
  rw [(keeps b.handle.num).1, (keeps b.handle.num).2]
  exact map.1 k b mem

/-! ### Request lines -/

/-- A level put among 32, read back. -/
theorem withLevel_getLsbD (levels : BitVec 32) (k j : LineNo) (high : Bool) :
    (withLevel levels k high).getLsbD j.val = if j = k then high else levels.getLsbD j.val := by
  have place : ∀ i : LineNo, (i.val = j.val) = (j = i) := fun i => propext ⟨fun h => Fin.ext h.symm, fun h => by rw [h]⟩
  have hj := j.isLt
  cases high <;> by_cases e : j = k <;>
    simp only [withLevel, Bool.false_eq_true, if_false, if_true, BitVec.getLsbD_and, BitVec.getLsbD_or,
      BitVec.getLsbD_not, BitVec.getLsbD_twoPow, place, e, hj] <;>
    simp

/-- A level that stands already, put there again. -/
theorem withLevel_self {levels : BitVec 32} {k : LineNo} {high : Bool} (h : levels.getLsbD k.val = high) :
    withLevel levels k high = levels := by
  apply BitVec.eq_of_getLsbD_eq
  intro i hi
  have at_ := withLevel_getLsbD levels k ⟨i, hi⟩ high
  simp only at at_
  rw [at_]
  split
  · next e => subst e; exact h.symm
  · rfl

/-- A sample of a request line does what R63 to R65 say. -/
theorem State.lineSampled_spec {s : State} (map : s.BindingMap) (exact_ : s.HeadWaitExact) (k : LineNo)
    (high : Bool) :
    s.lineSampled k high = { s with
      lines := withLevel s.lines k high
      records := (s.lineSampled k high).records
      activity := (s.lineSampled k high).activity } ∧
    s.ActivitySettles (s.lineSampled k high) ∧
    (∀ b ∈ s.bindings[LineNo.source k], SampleTaken b.sense (s.lines.getLsbD k.val) high
      s.records[b.handle.num] (s.lineSampled k high).records[b.handle.num]) ∧
    ∀ m : RecNo, s.bindings[LineNo.source k].any (fun b => b.handle.num == m) = false →
      (s.lineSampled k high).records[m] = s.records[m] := by
  unfold State.lineSampled
  by_cases same : s.lines.getLsbD k.val = high
  · rw [if_pos same]
    refine ⟨by rw [withLevel_self same], ⟨fun _ => rfl, exact_⟩, fun b _ => ?_, fun m _ => rfl⟩
    rw [SampleTaken, if_pos same]
  · rw [if_neg same]
    simp only [State.setLine_bindings]
    have entry : s.bindings[LineNo.source k] = none ∨ ∃ b, s.bindings[LineNo.source k] = some b := by
      cases s.bindings[LineNo.source k] <;> simp
    rcases entry with e | ⟨b, e⟩
    · simp only [e]
      exact ⟨rfl, ⟨fun _ => rfl, exact_⟩, by simp, fun m _ => rfl⟩
    · simp only [e]
      have shape : ∀ u : State, u = s.setLine k high ∨ u = (s.setLine k high).deliverTrigger b.handle.num ∨
          u = (s.setLine k high).standingTrigger b.handle.num →
          u.settleActivity = { s with
            lines := withLevel s.lines k high
            records := u.settleActivity.records
            activity := u.settleActivity.activity } ∧
          s.ActivitySettles u.settleActivity ∧
          ∀ m : RecNo, m ≠ b.handle.num → u.settleActivity.records[m] = s.records[m] := by
        rintro u (rfl | rfl | rfl)
        · refine ⟨?_, State.settleActivity_settles_from (by simp) (by simp), fun m h => by simp⟩
          conv_lhs => rw [State.settleActivity_eq]
          simp [State.setLine]
        · refine ⟨?_, State.settleActivity_settles_from (by simp) (by simp), fun m h => ?_⟩
          · conv_lhs => rw [State.settleActivity_eq]
            simp [State.setLine, State.deliverTrigger, State.setRecord]
          · simp only [State.settleActivity_records, State.deliverTrigger_records, vector_set_get, if_neg h]
            rfl
        · refine ⟨?_, State.settleActivity_settles_from (by simp) (by simp), fun m h => ?_⟩
          · conv_lhs => rw [State.settleActivity_eq]
            rw [State.standingTrigger_eq]
            simp [State.setLine]
          · simp only [State.settleActivity_records]
            rw [State.standingTrigger_other _ h]
            rfl
      have latch : (s.setLine k high).StandingLatch b.handle.num s.records[b.handle.num]
          ((s.setLine k high).standingTrigger b.handle.num).records[b.handle.num].latch :=
        State.standingTrigger_latch (s := s.setLine k high) map b.handle.num
      have stands : ((b.sense = .high ∧ high = true) ∨ (b.sense = .low ∧ high = false)) →
          ((s.setLine k high).standingTrigger b.handle.num).records[b.handle.num] =
            if (s.records[b.handle.num].state = .armed ∨ s.records[b.handle.num].state = .held) ∧
                s.records[b.handle.num].latch = 0 then { s.records[b.handle.num] with latch := 1 }
            else s.records[b.handle.num] := by
        intro active
        have on_ : (s.setLine k high).OnActiveLevelLine b.handle.num := by
          refine ⟨k, ?_⟩
          have now : (s.setLine k high).lines.getLsbD k.val = high := by
            exact (withLevel_getLsbD s.lines k k high).trans (if_pos rfl)
          rw [State.setLine_bindings, e, now]
          rcases active with ⟨hs, rfl⟩ | ⟨hs, rfl⟩ <;> simp [Binding.activeFor, hs]
        rw [State.standingTrigger_eq]
        simp only [vector_set_get, if_true]
        rw [State.StandingLatch] at latch
        split
        · next c => rw [if_pos ⟨c.1, c.2, on_⟩] at latch; rw [latch]; rfl
        · next c => rw [if_neg (fun x => c ⟨x.1, x.2.1⟩)] at latch; rw [latch]; rfl
      have picked : ∀ u : State, (s.setLine k high).edgeAction b high = u →
          (u = s.setLine k high ∨ u = (s.setLine k high).deliverTrigger b.handle.num ∨
            u = (s.setLine k high).standingTrigger b.handle.num) ∧
          SampleTaken b.sense (s.lines.getLsbD k.val) high s.records[b.handle.num]
            u.settleActivity.records[b.handle.num] := by
        rintro u rfl
        rw [SampleTaken, if_neg same, State.settleActivity_records]
        have triggered := Record.triggered_taken s.records[b.handle.num]
        unfold State.edgeAction
        cases hs : b.sense <;> cases high <;>
          simp [vector_set_get, -Fin.getElem_fin] <;> first
            | exact triggered
            | exact stands (by simp [hs])
      obtain ⟨which, taken⟩ := picked _ rfl
      obtain ⟨eq, settles, others⟩ := shape _ which
      refine ⟨eq, settles, ?_, fun m h => others m ?_⟩
      · intro c hc
        obtain rfl : b = c := by simpa using hc
        exact taken
      · intro h'; subst h'; simp at h

/-- A request line at a level, at one edge or at two, does what R202 says: the level is kept, and it is the line's
sample once two successive edges have seen it. -/
theorem State.lineHeld_eq (s : State) (k : LineNo) (level : PinLevel) : s.lineHeld k level =
    if level.held = true ∨ s.levels.getLsbD k.val = level.high then
      ({ s with levels := withLevel s.levels k level.high }).lineSampled k level.high
    else { s with levels := withLevel s.levels k level.high } := by
  have again : ∀ t : State, t.lines.getLsbD k.val = level.high → t.lineSampled k level.high = t := by
    intro t h; unfold State.lineSampled; rw [if_pos h]
  have seen : ∀ t : State, t.levels.getLsbD k.val = level.high → t.lineSeen k level.high = t.lineSampled k level.high := by
    intro t h; unfold State.lineSeen; rw [if_pos h]
  have sampled : (s.lineSampled k level.high).lines.getLsbD k.val = level.high := by
    unfold State.lineSampled
    split
    · assumption
    · have now : (s.setLine k level.high).lines.getLsbD k.val = level.high := by
        exact (withLevel_getLsbD s.lines k k level.high).trans (if_pos rfl)
      dsimp only
      split
      · exact now
      · rw [State.settleActivity_lines]
        unfold State.edgeAction
        split <;> simpa only [State.deliverTrigger_lines, State.standingTrigger_lines] using now
  by_cases h : s.levels.getLsbD k.val = level.high
  · rw [if_pos (Or.inr h), withLevel_self h]
    have kept : (s.lineSampled k level.high).levels = s.levels := by
      unfold State.lineSampled State.edgeAction
      split
      · rfl
      · dsimp only; split
        · rfl
        · rw [State.settleActivity_levels]; split <;> simp
    simp only [State.lineHeld, seen s h]
    rw [seen _ (by rw [kept]; exact h), again _ sampled, ite_self]
  · have put : s.lineSeen k level.high = { s with levels := withLevel s.levels k level.high } := by
      unfold State.lineSeen; rw [if_neg h]
    simp only [State.lineHeld, put, h, or_false]
    rw [seen _ ((withLevel_getLsbD s.levels k k level.high).trans (if_pos rfl))]

/-- Freeing a record does what R17 and R62 say. -/
theorem State.freeRecord_freed (s : State) (n : RecNo) : s.Freed (s.freeRecord n) n := by
  unfold State.Freed State.freeRecord
  and_intros
  any_goals simp [State.emptyBindingOf, Record.freed]
  · intro m hm; rw [Vector.getElem_set_ne]; simpa [Fin.ext_iff] using fun h => hm (Fin.ext h.symm)

end Sys2Proof.Machine
end

