-- ==== Sys2Proof/Laws/Bus.lean ====
section
/-! SUPPORT. The bus interface (chapter 11): requests, the grant and the read. -/

namespace Sys2Proof.Machine

/-- BREQ_n is asserted for a request held once the spacing has passed (R197). -/
theorem Bus.raiseRequest_due {b : Bus} (released : b.ownership = .released) (held : b.request ≠ none)
    (passed : b.spacing = 0) : b.raiseRequest = { b with ownership := .requesting } := by
  rw [Bus.raiseRequest, if_pos ⟨released, held, passed⟩]

/-- Without a request, or within the spacing, BREQ_n stays as it is (R197). -/
theorem Bus.raiseRequest_notDue {b : Bus} (h : b.ownership ≠ .released ∨ b.request = none ∨ b.spacing ≠ 0) :
    b.raiseRequest = b := by
  rw [Bus.raiseRequest, if_neg (by tauto)]

/-- A request handed over (R107, R197): held, or raised at once. -/
theorem Bus.handRequest_eq (b : Bus) (q : UnitRequest) : b.handRequest q =
    if b.ownership = .released ∧ b.spacing = 0 then { b with request := some q, ownership := .requesting }
    else { b with request := some q } := by
  unfold Bus.handRequest
  split <;> rfl

/-- A grant that is not due changes nothing (R197). -/
theorem Bus.takeGrant_notDue {b : Bus} (h : b.ownership ≠ .requesting ∨ b.slave ≠ none) : b.takeGrant = b := by
  unfold Bus.takeGrant
  rw [if_neg (by tauto)]

/-- A strobe that is not due to be answered changes nothing (R198). -/
theorem Bus.completeRead_notDue {b : Bus} (h : b.ownership ≠ .owner) (data : Word) : b.completeRead data = b := by
  unfold Bus.completeRead
  split
  · contradiction
  · rfl

end Sys2Proof.Machine
end

