-- ==== Sys2Proof/Laws/Generators.lean ====
section
/-! SUPPORT. Tick claims and expiries (chapter 4). -/

namespace Sys2Proof.Machine

/-- An expiry gives one trigger to the record bound to the generator's source, and settles (R68). -/
theorem State.expiryEvent_spec {s : State} (exact_ : s.HeadWaitExact) (g : GenNo) :
    (∀ n : RecNo, if s.bindings[GenNo.source g].any (fun b => b.handle.num == n) = true then
      TriggerTaken s.records[n] (s.expiryEvent g).records[n]
      else (s.expiryEvent g).records[n] = s.records[n]) ∧
    s.expiryEvent g = { s with
      records := (s.expiryEvent g).records, activity := (s.expiryEvent g).activity } ∧
    s.ActivitySettles (s.expiryEvent g) := by
  unfold State.expiryEvent
  cases s.bindings[GenNo.source g] with
  | none => exact ⟨fun n => rfl, rfl, fun _ => rfl, exact_⟩
  | some b =>
    refine ⟨fun n => ?_, ?_, ?_⟩
    · simp only [Option.any_some, beq_iff_eq, State.settleActivity_records, State.deliverTrigger,
        State.setRecord_records, vector_set_get]
      split
      · next h => subst h; rw [if_pos rfl]; exact Record.triggered_taken _
      · next h => rw [if_neg (fun e => h e.symm)]
    · show (s.deliverTrigger b.handle.num).settleActivity = _
      rw [State.settleActivity_eq]
      simp [State.deliverTrigger, State.setRecord]
    · exact State.settleActivity_settles_from (u := _) (by simp) (by simp)

/-- A tick claim does what R76 says. -/
theorem State.tickClaim_spec {s : State} (exact_ : s.HeadWaitExact) (g : GenNo) :
    (∀ n : RecNo,
      if s.gens[g].ticked.2 = true ∧ s.bindings[GenNo.source g].any (fun b => b.handle.num == n) = true then
        TriggerTaken s.records[n] (s.tickClaim g).records[n]
      else (s.tickClaim g).records[n] = s.records[n]) ∧
    s.tickClaim g = { s with
      gens := s.gens.set g s.gens[g].ticked.1
      records := (s.tickClaim g).records
      activity := (s.tickClaim g).activity } ∧
    s.ActivitySettles (s.tickClaim g) := by
  have last : ∀ w : Word, w - 1 = 0 ↔ w = 1 := by intro w; constructor <;> intro h <;> bv_omega
  unfold State.tickClaim
  rcases Bool.eq_false_or_eq_true s.gens[g].running with running | stopped
  · by_cases expires : s.gens[g].remaining = 1
    · simp only [running, if_true, last, expires]
      have event := State.expiryEvent_spec (s := s.setGen g s.gens[g].expired) exact_ g
      have ticked : s.gens[g].ticked = (s.gens[g].expired, true) := by
        unfold Generator.ticked Generator.expired Generator.stopped
        simp only [running, expires, Bool.true_eq_false, if_false, ne_eq, not_true_eq_false]
        cases s.gens[g].mode <;> cases s.gens[g].phase <;> rfl
      simp only [ticked]
      refine ⟨fun n => ?_, ?_, event.2.2⟩
      · have taken := event.1 n
        simp only [true_and]; exact taken
      · rw [event.2.1]; simp [State.setGen]
    · simp only [running, if_true, last, expires, if_false]
      have ticked : s.gens[g].ticked = ({ s.gens[g] with remaining := s.gens[g].remaining - 1 }, false) := by
        unfold Generator.ticked
        rw [if_neg (by rw [running]; decide), if_pos expires]
      simp only [ticked]
      exact ⟨fun n => by simp, by simp [State.setGen, ← running, -Fin.getElem_fin], fun _ => rfl, exact_⟩
  · have ticked : s.gens[g].ticked = (s.gens[g], false) := by simp only [Generator.ticked, stopped, if_true]
    simp only [stopped, ticked, Bool.false_eq_true, if_false]
    refine ⟨fun n => by simp, ?_, fun _ => rfl, exact_⟩
    simp only [vector_set_self]

/-- A STOPPED generator's tick claim does nothing (R76). -/
theorem Generator.ticked_stopped {c : Generator} (h : c.running = false) : c.ticked = (c, false) := by
  simp only [Generator.ticked, h, if_true]

/-- The tick claims of the generators in a list, each taken at most once, in the order of the list (R74 to R76). -/
theorem State.tickClaims_spec (source : TickSource) (l : List GenNo) : ∀ s : State, l.Nodup → s.BindingMap →
    s.HeadWaitExact → ∀ t, t = l.foldl
      (fun t g => if t.gens[g].running ∧ t.gens[g].source = source then t.tickClaim g else t) s →
    t = { s with gens := t.gens, records := t.records, activity := t.activity } ∧ s.ActivitySettles t ∧
    (∀ g : GenNo, t.gens[g] =
      if g ∈ l ∧ s.gens[g].source = source then s.gens[g].ticked.1 else s.gens[g]) ∧
    ∀ n : RecNo, if (∃ g ∈ l, s.expiryReaches source g n = true) then TriggerTaken s.records[n] t.records[n]
      else t.records[n] = s.records[n] := by
  induction l with
  | nil =>
    rintro s _ _ exact_ t rfl
    exact ⟨rfl, ⟨fun _ => rfl, exact_⟩, fun g => by simp, fun n => by simp⟩
  | cons g l ih =>
    rintro s nodup map exact_ t ht
    obtain ⟨notIn, nodup⟩ := List.nodup_cons.mp nodup
    rw [List.foldl_cons] at ht
    by_cases counts : s.gens[g].running = true ∧ s.gens[g].source = source
    · rw [if_pos counts] at ht
      obtain ⟨taken, shape, settles⟩ := State.tickClaim_spec exact_ g
      generalize s.tickClaim g = u at *
      have gens : ∀ j, u.gens[j] = if j = g then s.gens[g].ticked.1 else s.gens[j] := by
        intro j; rw [shape]; simp only [vector_set_get]
      have bindings : u.bindings = s.bindings := by rw [shape]
      have keeps : ∀ n : RecNo, u.records[n].state = s.records[n].state ∧ u.records[n].gen = s.records[n].gen := by
        intro n
        have changed := taken n
        split at changed
        · exact changed.keeps
        · rw [changed]; exact ⟨rfl, rfl⟩
      obtain ⟨shape', settles', gens', taken'⟩ := ih u nodup (map.of_keeps bindings keeps) settles.2 t ht
      have reach : ∀ j ∈ l, ∀ n, u.expiryReaches source j n = s.expiryReaches source j n := by
        intro j mem n
        have ne : j ≠ g := fun h => notIn (h ▸ mem)
        unfold State.expiryReaches
        rw [gens, if_neg ne, bindings]
      have reachHere : ∀ n, s.expiryReaches source g n = true ↔
          s.gens[g].ticked.2 = true ∧ s.bindings[GenNo.source g].any (fun b => b.handle.num == n) = true := by
        intro n; simp only [State.expiryReaches, counts.2, beq_self_eq_true, Bool.true_and, Bool.and_eq_true]
      have once : ∀ n, s.expiryReaches source g n = true → ∀ j ∈ l, s.expiryReaches source j n = true → False := by
        intro n here j mem there
        simp only [State.expiryReaches, Bool.and_eq_true] at here there
        obtain ⟨b, hb, eb⟩ := binding_any_iff.mp here.2
        obtain ⟨c, hc, ec⟩ := binding_any_iff.mp there.2
        have same := congrArg Fin.val (map.2 _ _ b hb c hc (eb.trans ec.symm))
        simp only [GenNo.source] at same
        exact notIn ((Fin.ext (by omega) : g = j) ▸ mem)
      refine ⟨by rw [shape', shape], ⟨fun open_ => ?_, settles'.2⟩, fun j => ?_, fun n => ?_⟩
      · rw [settles'.1 (by rw [shape]; exact open_), settles.1 open_]
      · rw [gens' j, gens j]
        by_cases here : j = g
        · subst here
          rw [if_neg fun h => notIn h.1, if_pos rfl, if_pos ⟨by simp, counts.2⟩]
        · simp only [List.mem_cons, here, false_or, if_false]
      · have before := taken n
        have after := taken' n
        by_cases here : s.expiryReaches source g n = true
        · rw [if_pos ⟨g, by simp, here⟩]
          rw [if_pos ((reachHere n).mp here)] at before
          rw [if_neg (by rintro ⟨j, mem, h⟩; rw [reach j mem] at h; exact once n here j mem h)] at after
          rw [after]; exact before
        · rw [if_neg (fun h => here ((reachHere n).mpr h))] at before
          by_cases there : ∃ j ∈ l, u.expiryReaches source j n = true
          · rw [if_pos there] at after
            obtain ⟨j, mem, h⟩ := there
            rw [if_pos ⟨j, by simp [mem], by rw [← reach j mem]; exact h⟩, ← before]
            exact after
          · rw [if_neg there] at after
            rw [if_neg, after, before]
            rintro ⟨j, mem, h⟩
            rcases List.mem_cons.mp mem with rfl | mem
            · exact here h
            · exact there ⟨j, mem, by rw [reach j mem]; exact h⟩
    · rw [if_neg counts] at ht
      obtain ⟨shape, settles, gens, taken⟩ := ih s nodup map exact_ t ht
      have stopped : s.gens[g].source = source → s.gens[g].ticked = (s.gens[g], false) :=
        fun same => Generator.ticked_stopped (by rw [← Bool.not_eq_true]; exact fun h => counts ⟨h, same⟩)
      have none_ : ∀ n, s.expiryReaches source g n = false := by
        intro n
        rw [← Bool.not_eq_true]
        intro h
        simp only [State.expiryReaches, Bool.and_eq_true, beq_iff_eq] at h
        rw [stopped h.1.1] at h
        simp at h
      refine ⟨shape, settles, fun j => ?_, fun n => ?_⟩
      · rw [gens j]
        by_cases here : j = g
        · subst here
          simp only [notIn, false_and, if_false, List.mem_cons, true_or, true_and]
          split
          · next h => rw [stopped h]
          · rfl
        · simp [here]
      · simpa [none_] using taken n

/-- One tick does what R74 to R76 say. -/
theorem State.tick_spec {s : State} (map : s.BindingMap) (exact_ : s.HeadWaitExact) (source : TickSource) :
    s.tick source = { s with
      gens := (s.tick source).gens, records := (s.tick source).records, activity := (s.tick source).activity } ∧
    s.ActivitySettles (s.tick source) ∧ s.Ticked (s.tick source) source := by
  obtain ⟨shape, settles, gens, taken⟩ :=
    State.tickClaims_spec source (List.finRange 8) s (List.nodup_finRange 8) map exact_ (s.tick source) rfl
  refine ⟨shape, settles, fun g => ?_, fun n => ?_⟩
  · simpa only [List.mem_finRange, true_and] using gens g
  · simpa only [List.mem_finRange, true_and] using taken n

end Sys2Proof.Machine
end

