-- ==== Sys2Proof/Laws/Clock.lean ====
section
/-! SUPPORT. The input lines at an edge of CLK (R202). -/

namespace Sys2Proof.Machine

/-- The request lines in a list, each at most once, sampled in the order of the list at the levels the edge before
saw. -/
theorem State.linesSampled_spec (l : List LineNo) : ∀ s : State, l.Nodup → s.BindingMap → s.HeadWaitExact →
    ∀ t, t = l.foldl (fun t k => t.lineSeen k (t.levels.getLsbD k.val)) s →
    t = { s with lines := t.lines, records := t.records, activity := t.activity } ∧ s.ActivitySettles t ∧
    (∀ j : LineNo, t.lines.getLsbD j.val = if j ∈ l then s.levels.getLsbD j.val else s.lines.getLsbD j.val) ∧
    (∀ k ∈ l, ∀ b ∈ s.bindings[LineNo.source k], SampleTaken b.sense (s.lines.getLsbD k.val) (s.levels.getLsbD k.val)
      s.records[b.handle.num] t.records[b.handle.num]) ∧
    ∀ n : RecNo, (∀ k ∈ l, s.bindings[LineNo.source k].any (fun b => b.handle.num == n) = false) →
      t.records[n] = s.records[n] := by
  induction l with
  | nil =>
    rintro s _ _ exact_ t rfl
    exact ⟨rfl, ⟨fun _ => rfl, exact_⟩, fun j => by simp, by simp, fun n _ => rfl⟩
  | cons k l ih =>
    rintro s nodup map exact_ t ht
    obtain ⟨notIn, nodup⟩ := List.nodup_cons.mp nodup
    have seen : s.lineSeen k (s.levels.getLsbD k.val) = s.lineSampled k (s.levels.getLsbD k.val) := by
      unfold State.lineSeen; rw [if_pos rfl]
    rw [List.foldl_cons, seen] at ht
    obtain ⟨shape, settles, taken, others⟩ := State.lineSampled_spec map exact_ k (s.levels.getLsbD k.val)
    generalize s.lineSampled k (s.levels.getLsbD k.val) = u at *
    have bindings : u.bindings = s.bindings := by rw [shape]
    have levels : u.levels = s.levels := by rw [shape]
    have lines : ∀ j : LineNo, u.lines.getLsbD j.val =
        if j = k then s.levels.getLsbD k.val else s.lines.getLsbD j.val := by
      intro j; rw [shape]; exact withLevel_getLsbD _ _ _ _
    have apart : ∀ j ∈ l, ∀ n : RecNo, s.bindings[LineNo.source k].any (fun b => b.handle.num == n) = true →
        s.bindings[LineNo.source j].any (fun b => b.handle.num == n) = false := by
      intro j mem n here
      rw [← Bool.not_eq_true]
      intro there
      obtain ⟨b, hb, eb⟩ := binding_any_iff.mp here
      obtain ⟨c, hc, ec⟩ := binding_any_iff.mp there
      have same := congrArg Fin.val (map.2 _ _ b hb c hc (eb.trans ec.symm))
      exact notIn ((Fin.ext same : k = j) ▸ mem)
    have keeps : ∀ n : RecNo, u.records[n].state = s.records[n].state ∧ u.records[n].gen = s.records[n].gen := by
      intro n
      by_cases here : s.bindings[LineNo.source k].any (fun b => b.handle.num == n) = true
      · obtain ⟨b, hb, rfl⟩ := binding_any_iff.mp here
        exact (taken b hb).keeps
      · rw [others n (Bool.not_eq_true _ ▸ here)]; exact ⟨rfl, rfl⟩
    obtain ⟨shape', settles', lines', taken', others'⟩ := ih u nodup (map.of_keeps bindings keeps) settles.2 t ht
    rw [bindings] at taken' others'
    rw [levels] at taken' lines'
    refine ⟨by rw [shape', shape], ⟨fun open_ => ?_, settles'.2⟩, fun j => ?_, fun j mem b hb => ?_, fun n none_ => ?_⟩
    · rw [settles'.1 (by rw [shape]; exact open_), settles.1 open_]
    · rw [lines' j, lines j]
      by_cases here : j = k
      · subst here; simp [notIn]
      · simp [here]
    · rcases List.mem_cons.mp mem with rfl | mem
      · rw [others' b.handle.num fun i hi => apart i hi _ (binding_any_iff.mpr ⟨b, hb, rfl⟩)]
        exact taken b hb
      · have ne : j ≠ k := fun h => notIn (h ▸ mem)
        have same : u.records[b.handle.num] = s.records[b.handle.num] := by
          apply others
          rw [← Bool.not_eq_true]
          intro here
          have none_ := apart j mem _ here
          rw [binding_any_iff.mpr ⟨b, hb, rfl⟩] at none_
          contradiction
        have sample := taken' j mem b hb
        rw [lines j, if_neg ne, same] at sample
        exact sample
    · rw [others' n fun j mem => none_ j (by simp [mem]), others n (none_ k (by simp))]

/-- An edge of CLK at the input lines, their levels kept, does what R202, R63 to R65 and R75 say. -/
theorem State.clockInputs_sampled {s : State} (map : s.BindingMap) (exact_ : s.HeadWaitExact) :
    s.InputsSampled (s.clockHoldOff.clockInputs) := by
  obtain ⟨u, hu⟩ : ∃ u, u = (List.finRange 32).foldl (fun t k => t.lineSeen k (t.levels.getLsbD k.val)) s.clockHoldOff :=
    ⟨_, rfl⟩
  obtain ⟨shape, settles, lines, taken, others⟩ :=
    State.linesSampled_spec (List.finRange 32) s.clockHoldOff (List.nodup_finRange 32) map exact_ u hu
  have edge : s.clockHoldOff.clockInputs = u.tickSampled s.tickLevel := by
    have level : u.tickLevel = s.tickLevel := by rw [shape]; rfl
    unfold State.clockInputs
    rw [← hu]
    simp only [State.tickSeen, level, if_true]
  have sampled : u.lines = s.levels := by
    apply BitVec.eq_of_getLsbD_eq
    intro i hi
    have at_ := lines ⟨i, hi⟩
    rw [if_pos (List.mem_finRange _)] at at_
    exact at_
  have gens : u.gens = s.gens := by rw [shape]; rfl
  have bindings : u.bindings = s.bindings := by rw [shape]; rfl
  have keeps : ∀ n : RecNo, u.records[n].state = s.records[n].state ∧ u.records[n].gen = s.records[n].gen := by
    intro n
    by_cases bound : ∃ k : LineNo, s.bindings[LineNo.source k].any (fun b => b.handle.num == n) = true
    · obtain ⟨k, here⟩ := bound
      obtain ⟨b, hb, rfl⟩ := binding_any_iff.mp here
      exact (taken k (List.mem_finRange k) b hb).keeps
    · rw [others n fun k _ => Bool.not_eq_true _ ▸ fun here => bound ⟨k, here⟩]; exact ⟨rfl, rfl⟩
  -- A record bound to a generator is bound to no line, and the other way round.
  have genRecord : ∀ (g : GenNo), ∀ b ∈ s.bindings[GenNo.source g], u.records[b.handle.num] = s.records[b.handle.num] := by
    intro g b hb
    refine others _ fun k _ => ?_
    rw [← Bool.not_eq_true]
    intro here
    obtain ⟨c, hc, ec⟩ := binding_any_iff.mp here
    have same := congrArg Fin.val (map.2 _ _ c hc b hb ec)
    have below := k.isLt
    simp only [LineNo.source, GenNo.source] at same
    omega
  rw [edge]
  unfold State.tickSampled
  by_cases rises : s.tickLine = false ∧ s.tickLevel = true
  · have line : u.tickLine = false := by rw [shape]; exact rises.1
    simp only [rises.2, line, Bool.not_false, Bool.and_self, if_true]
    obtain ⟨shape', settles', gens', taken'⟩ := State.tick_spec (s := { u with tickLine := true })
      (map.of_keeps bindings keeps) settles.2 .external
    generalize ({ u with tickLine := true } : State).tick .external = t at *
    have reach : ∀ (n : RecNo), (∃ g : GenNo, ({ u with tickLine := true } : State).expiryReaches .external g n = true) ↔
        ∃ g : GenNo, s.expiryReaches .external g n = true := by
      intro n; simp only [State.expiryReaches, gens, bindings]
    have lineRecord : ∀ n : RecNo, (∀ g : GenNo, s.bindings[GenNo.source g].any (fun b => b.handle.num == n) = false) →
        t.records[n] = u.records[n] := by
      intro n none_
      have change := taken' n
      rw [if_neg] at change
      · exact change
      · rw [reach n]; rintro ⟨g, h⟩; simp only [State.expiryReaches, none_ g, Bool.and_false] at h; contradiction
    refine ⟨?_, ⟨fun open_ => ?_, settles'.2⟩, fun g => ?_, fun k b hb => ?_, fun g b hb => ?_, fun n none_ => ?_⟩
    · rw [shape', shape]; simp [sampled, State.clockHoldOff, rises.2]
    · rw [settles'.1 (by rw [shape]; exact open_)]; exact settles.1 open_
    · rw [gens' g]; simp [gens, rises]
    · rw [lineRecord]
      · exact taken k (List.mem_finRange k) b hb
      · intro g
        rw [← Bool.not_eq_true]
        intro here
        obtain ⟨c, hc, ec⟩ := binding_any_iff.mp here
        have same := congrArg Fin.val (map.2 _ _ c hc b hb ec)
        have below := k.isLt
        simp only [LineNo.source, GenNo.source] at same
        omega
    · have change := taken' b.handle.num
      have only : (∃ j : GenNo, s.expiryReaches .external j b.handle.num = true) ↔
          s.gens[g].source = .external ∧ s.gens[g].ticked.2 = true := by
        constructor
        · rintro ⟨j, h⟩
          simp only [State.expiryReaches, Bool.and_eq_true, beq_iff_eq] at h
          obtain ⟨c, hc, ec⟩ := binding_any_iff.mp h.2
          have same := congrArg Fin.val (map.2 _ _ c hc b hb ec)
          simp only [GenNo.source] at same
          obtain rfl : j = g := Fin.ext (by omega)
          exact ⟨h.1.1, h.1.2⟩
        · rintro ⟨h, h'⟩
          refine ⟨g, ?_⟩
          simp only [State.expiryReaches, Bool.and_eq_true, beq_iff_eq]
          exact ⟨⟨h, h'⟩, binding_any_iff.mpr ⟨b, hb, rfl⟩⟩
      have before : ({ u with tickLine := true } : State).records[b.handle.num] = s.records[b.handle.num] :=
        genRecord g b hb
      rw [before] at change
      by_cases expires : s.gens[g].source = .external ∧ s.gens[g].ticked.2 = true
      · rw [if_pos ((reach _).mpr (only.mpr expires))] at change
        rw [if_pos ⟨rises.1, rises.2, expires⟩]
        exact change
      · rw [if_neg fun h => expires (only.mp ((reach _).mp h))] at change
        rw [if_neg fun h => expires h.2.2]
        exact change
    · rw [lineRecord n fun g => none_ _]
      exact others n fun k _ => none_ _
  · have still : (s.tickLevel && !u.tickLine) = false := by
      have line : u.tickLine = s.tickLine := by rw [shape]; rfl
      rw [line]
      revert rises
      cases s.tickLine <;> cases s.tickLevel <;> simp
    simp only [still, Bool.false_eq_true, if_false]
    have noRise : ∀ p : Prop, ¬(s.tickLine = false ∧ s.tickLevel = true ∧ p) := fun p h => rises ⟨h.1, h.2.1⟩
    refine ⟨?_, settles, fun g => ?_, fun k b hb => ?_, fun g b hb => ?_, fun n none_ => ?_⟩
    · conv_lhs => rw [shape]
      simp [sampled, State.clockHoldOff, gens]
    · rw [if_neg (noRise _)]; simp only [gens]
    · exact taken k (List.mem_finRange k) b hb
    · rw [if_neg (noRise _)]; exact genRecord g b hb
    · exact others n fun k _ => none_ _

end Sys2Proof.Machine
end

