-- ==== Sys2Proof/Laws/Notices.lean ====
section
/-! SUPPORT. The notice queue and NOTE_n (chapter 9): what a post and an evaluation do. -/

namespace Sys2Proof.Machine

/-- A notice goes after every notice of its urgency or a more urgent one, and before the rest (R163). -/
theorem insertNotice_split (n : Notice) (queue : List Notice) (sorted : SortedQueue queue) :
    ∃ before after : List Notice, queue = before ++ after ∧ insertNotice n queue = before ++ n :: after ∧
      (∀ x ∈ before, x.urgency ≤ n.urgency) ∧ ∀ x ∈ after, n.urgency < x.urgency := by
  induction queue with
  | nil => exact ⟨[], [], rfl, rfl, by simp, by simp⟩
  | cons q rest ih =>
    by_cases h : q.urgency ≤ n.urgency
    · obtain ⟨before, after, e, e', lo, hi⟩ := ih sorted.of_cons
      exact ⟨q :: before, after, by rw [e]; rfl, by simp [insertNotice, h, e'], by simpa [h] using lo, hi⟩
    · refine ⟨[], q :: rest, rfl, by simp [insertNotice, h], by simp, ?_⟩
      intro x hx
      rcases List.mem_cons.mp hx with rfl | hx
      · exact not_le.mp h
      · exact lt_of_lt_of_le (not_le.mp h) (List.rel_of_pairwise_cons sorted hx)

/-- A post raises the queue's count by one. -/
theorem insertNotice_length (n : Notice) (queue : List Notice) : (insertNotice n queue).length = queue.length + 1 := by
  induction queue with
  | nil => rfl
  | cons q rest ih => simp only [insertNotice]; split <;> simp [ih]

/-- A post keeps the queue in urgency order (R162). -/
theorem insertNotice_sorted (n : Notice) {queue : List Notice} (sorted : SortedQueue queue) :
    SortedQueue (insertNotice n queue) := by
  obtain ⟨before, after, e, e', lo, hi⟩ := insertNotice_split n queue sorted
  rw [e', SortedQueue]
  rw [e, SortedQueue, List.pairwise_append] at sorted
  rw [List.pairwise_append, List.pairwise_cons]
  refine ⟨sorted.1, ⟨fun x hx => (hi x hx).le, sorted.2.1⟩, fun x hx y hy => ?_⟩
  rcases List.mem_cons.mp hy with rfl | hy
  · exact lo x hx
  · exact sorted.2.2 x hx y hy

/-- Below every level in service (R176). -/
theorem moreUrgentThanAll_iff (inService : Byte) (u : Urgency) :
    moreUrgentThanAll inService u = true ↔ ∀ l : Urgency, inService.getLsbD l.val = true → u < l := by
  simp only [moreUrgentThanAll, List.all_eq_true, List.mem_finRange, forall_const]
  exact forall_congr' fun l => by cases inService.getLsbD l.val <;> simp

/-- In a queue in order, the head decides the condition of NOTE_n (R176). -/
theorem NoticeUnit.noteCondition_iff {u : NoticeUnit} (sorted : SortedQueue u.queue) :
    u.noteCondition = true ↔ u.Asserts := by
  unfold NoticeUnit.noteCondition NoticeUnit.Asserts
  cases q : u.queue with
  | nil => simp
  | cons head rest =>
    rw [q] at sorted
    simp only [Bool.and_eq_true, decide_eq_true_eq, moreUrgentThanAll_iff]
    constructor
    · intro h; exact ⟨head, by simp, h⟩
    · rintro ⟨n, mem, below, urgent⟩
      have le : head.urgency ≤ n.urgency := by
        rcases List.mem_cons.mp mem with rfl | mem
        · exact le_refl _
        · exact List.rel_of_pairwise_cons sorted mem
      exact ⟨lt_of_le_of_lt (Fin.le_def.mp le) below, fun l hl => lt_of_le_of_lt le (urgent l hl)⟩

/-- An evaluation makes NOTE_n exact (R177). -/
theorem NoticeUnit.evaluate_exact {u : NoticeUnit} (sorted : SortedQueue u.queue) : u.evaluate.Exact :=
  ⟨sorted, NoticeUnit.noteCondition_iff sorted⟩

/-- A post does what R163 says. -/
theorem State.post_posted (s : State) (n : Notice) (sorted : SortedQueue s.notices.queue) :
    NoticePosted n s.notices (s.post n).notices :=
  ⟨rfl, NoticeUnit.evaluate_exact (u := { s.notices with queue := insertNotice n s.notices.queue })
    (insertNotice_sorted n sorted), insertNotice_split n _ sorted⟩

end Sys2Proof.Machine
end

