-- ==== Sys2Proof/Laws/Operands.lean ====
section
/-! SUPPORT. The encodings of 10.7: lanes, the staging image and its checks, and the status words. -/

namespace Sys2Proof.Machine

/-- A field is below its width's power of two. -/
theorem bitField_lt (w : Word) (lo width : Nat) : bitField w lo width < 2 ^ width := Nat.mod_lt _ (by positivity)

/-- A write takes the bytes of the lanes it carries (R185, R187). -/
theorem mergeLanes_getLsbD (old new : Word) (lanes : Lanes) {bit : Nat} (lt : bit < 16) :
    (mergeLanes old new lanes).getLsbD bit =
      if (lanes.low = true ∧ bit < 8) ∨ (lanes.high = true ∧ 8 ≤ bit) then new.getLsbD bit
      else old.getLsbD bit := by
  have o := old.isLt
  have n := new.isLt
  have bytes : ∀ (x : Word) (hi lo : Nat), lo < 256 → x.toNat = hi * 256 + lo →
      x.getLsbD bit = if bit < 8 then lo.testBit bit else hi.testBit (bit - 8) := by
    intro x hi lo h e
    rw [BitVec.getLsbD, e, show hi * 256 = 2 ^ 8 * hi by ring, Nat.testBit_two_pow_mul_add _ h]
  rw [bytes new (new.toNat / 256) (new.toNat % 256) (by omega) (by omega),
    bytes old (old.toNat / 256) (old.toNat % 256) (by omega) (by omega),
    bytes (mergeLanes old new lanes) (if lanes.high then new.toNat / 256 else old.toNat / 256)
      (if lanes.low then new.toNat % 256 else old.toNat % 256) (by split <;> omega) (by
        simp only [mergeLanes, BitVec.toNat_ofNat]; apply Nat.mod_eq_of_lt; split <;> split <;> omega)]
  by_cases h : bit < 8
  · cases lanes.low <;> simp [h]
  · cases lanes.high <;> simp [h, show 8 ≤ bit by omega]

/-! ### The staging image -/

/-- The field codes below their widths. -/
theorem EditFields.codes_lt (e : EditFields) :
    e.srcStep.code < 4 ∧ e.dstStep.code < 4 ∧ e.unit.code < 2 ∧ e.policy.code < 3 ∧ e.notice.code < 3 ∧
      conditionCode e.successor < 4 ∧ e.reload.isSome.toNat < 2 := by
  have cond : conditionCode e.successor < 4 := by
    rcases e.successor with _ | ⟨c, h⟩
    · decide
    · cases c <;> simp [conditionCode, Condition.code]
  exact ⟨by cases e.srcStep <;> decide, by cases e.dstStep <;> decide, by cases e.unit <;> decide,
    by cases e.policy <;> decide, by cases e.notice <;> decide, cond, by cases e.reload <;> simp⟩

/-- A field of IM_MODE as FETCH loads it. -/
theorem bitField_modeWord (e : EditFields) (lo width : Nat) : bitField (modeWord e) lo width =
    (e.srcStep.code + e.dstStep.code * 4 + e.unit.code * 16 + e.policy.code * 32 + e.notice.code * 128 +
      conditionCode e.successor * 512 + e.reload.isSome.toNat * 2048) / 2 ^ lo % 2 ^ width := by
  have lt := e.codes_lt
  have small : (e.srcStep.code + e.dstStep.code * 4 + e.unit.code * 16 + e.policy.code * 32 + e.notice.code * 128 +
      conditionCode e.successor * 512 + e.reload.isSome.toNat * 2048) % 2 ^ 16 = _ := Nat.mod_eq_of_lt (by omega)
  simp only [bitField, modeWord, BitVec.toNat_ofNat, small]

/-- The IM_MODE word FETCH loads holds each field's code at the field's place (R29, R191). -/
theorem modeWord_codes (e : EditFields) :
    (bitField (modeWord e) 0 2 = e.srcStep.code ∧ bitField (modeWord e) 2 2 = e.dstStep.code) ∧
    (bitField (modeWord e) 4 1 = e.unit.code ∧ bitField (modeWord e) 5 2 = e.policy.code) ∧
    (bitField (modeWord e) 7 2 = e.notice.code ∧ bitField (modeWord e) 9 2 = conditionCode e.successor) ∧
    bitField (modeWord e) 11 1 = e.reload.isSome.toNat := by
  have lt := e.codes_lt
  simp only [bitField_modeWord]
  omega

/-- An address is held whole by the two registers it is loaded into (R191). -/
theorem addrHalves (a : Addr) : a.toNat = (addrHigh a).toNat % 256 * 65536 + (addrLow a).toNat := by
  have lt := a.isLt
  simp [addrHigh, addrLow]; omega

/-- The image FETCH loads encodes the record's edit fields (R29). -/
theorem EditImage.ofRecord_encodes {r : Record} (sound : r.edit.Sound) : (EditImage.ofRecord r).Encodes r.edit := by
  obtain ⟨⟨srcStep, dstStep⟩, ⟨unit, policy⟩, ⟨notice, cond⟩, present⟩ := modeWord_codes r.edit
  have urgency := r.edit.urgency.isLt
  have rank := r.edit.rank.isLt
  have handle : ∀ x ∈ r.edit.successor, x.handle.word = (EditImage.ofRecord r).succ := by
    intro x named; simp at named; simp [EditImage.ofRecord, named]
  have absent : bitField (modeWord r.edit) 11 1 = 0 → r.edit.reload = none := by
    rw [present]; cases r.edit.reload <;> simp
  have reload : bitField (modeWord r.edit) 11 1 = 1 → r.edit.reload = some (r.edit.reload.getD 0) := by
    rw [present]; cases r.edit.reload <;> simp
  have drain : r.edit.quantum.word = 0 → r.edit.quantum = .drain := by
    cases e : r.edit.quantum with
    | drain => exact fun _ => rfl
    | units n => exact fun zero => absurd (e.trans (congrArg Quantum.units zero)) sound.1
  have units : r.edit.quantum.word ≠ 0 → r.edit.quantum = .units r.edit.quantum.word := by
    cases r.edit.quantum with
    | drain => exact fun h => absurd rfl h
    | units n => exact fun _ => rfl
  exact ⟨addrHalves _, addrHalves _, srcStep.symm, dstStep.symm, unit.symm, policy.symm, notice.symm, cond.symm, handle,
    absent, reload, drain, units, by simp [EditImage.ofRecord, levelWord, bitField]; omega,
    by simp [EditImage.ofRecord, levelWord, bitField]; omega⟩

/-- The checks as STORE makes them are the checks of the table, in its order (R20). -/
theorem EditImage.failingCheck_eq (m : EditImage) : m.failingCheck =
    if m.checkFails 2 then some 2 else if m.checkFails 3 then some 3 else if m.checkFails 4 then some 4
    else if m.checkFails 5 then some 5 else if m.checkFails 6 then some 6 else if m.checkFails 7 then some 7
    else if m.checkFails 8 then some 8 else if m.checkFails 9 then some 9 else none := by
  have reload := bitField_lt m.mode 11 1
  have f2 : m.checkFails 2 = true ↔ (bitField m.srcH 8 8 ≠ 0 ∨ bitField m.dstH 8 8 ≠ 0) := by
    have src := m.srcH.isLt
    have dst := m.dstH.isLt
    simp [checkFails, bitField]; omega
  have f3 : m.checkFails 3 = true ↔ 256 < m.quant.toNat := by simp [checkFails]
  have f4 : m.checkFails 4 = true ↔ bitField m.mode 4 1 = 1 ∧
      (addrOdd (addrOf m.srcL m.srcH) ∨ addrOdd (addrOf m.dstL m.dstH)) := by
    simp [checkFails, addrOdd, addrOf]; intro; omega
  have f5 : m.checkFails 5 = true ↔
      bitField m.mode 5 2 = 3 ∨ (bitField m.mode 5 2 = 2 ∧ m.reloadPresent = false) := by
    simp [checkFails, reloadPresent]; omega
  have f6 : m.checkFails 6 = true ↔ m.reloadPresent = true ∧ m.reload = 0 := by
    simp [checkFails, reloadPresent]
  have f7 : m.checkFails 7 = true ↔ bitField m.mode 7 2 = 3 := by simp [checkFails]
  have f8 : m.checkFails 8 = true ↔ bitField m.mode 9 2 ≠ 0 ∧ (Handle.ofWord m.succ).isNone := by
    simp [checkFails, Handle.ofWord]
  have f9 : m.checkFails 9 = true ↔ bitField m.level 3 1 ≠ 0 ∨ bitField m.level 6 10 ≠ 0 := by simp [checkFails]
  simp only [failingCheck, f2, f3, f4, f5, f6, f7, f8, f9]

/-- An image that fails no check. -/
theorem EditImage.failingCheck_none {m : EditImage} (passes : ∀ k, m.checkFails k = false) :
    m.failingCheck = none := by
  simp [m.failingCheck_eq, passes]

/-- A step field's meaning has the field's value as its code (R191). -/
theorem AddrStep.code_ofCode {k : Nat} (lt : k < 4) : (AddrStep.ofCode k).code = k := by
  interval_cases k <;> rfl

/-- The unit bit's meaning has the bit's value as its code (R191). -/
theorem UnitSize.code_ofCode {k : Nat} (lt : k < 2) : (UnitSize.ofCode k).code = k := by
  interval_cases k <;> rfl

/-- A policy field that check POLICY passes has its value as its meaning's code (R20, R191). -/
theorem Policy.code_ofCode {k : Nat} (lt : k < 3) : (Policy.ofCode k).code = k := by
  interval_cases k <;> rfl

/-- A notice field that STORE's check passes has its value as its meaning's code (R20, R191). -/
theorem NoticePolicy.code_ofCode {k : Nat} (lt : k < 3) : (NoticePolicy.ofCode k).code = k := by
  interval_cases k <;> rfl

/-- The successor STORE copies from an image whose handle check passes: its condition and its handle (R20, R33). -/
theorem EditImage.successorField_encodes {m : EditImage} (passes : m.checkFails 8 = false) :
    conditionCode m.successorField = bitField m.mode 9 2 ∧ ∀ x ∈ m.successorField, x.handle.word = m.succ := by
  simp [checkFails] at passes
  have lt := bitField_lt m.mode 9 2
  have word := m.succ.isLt
  simp only [EditImage.successorField]
  generalize bitField m.mode 9 2 = x at *
  by_cases absent : x = 0
  · subst absent; exact ⟨rfl, nofun⟩
  · have handle : Handle.ofWord m.succ =
        some ⟨⟨m.succ.toNat % 256, passes absent⟩, BitVec.ofNat 8 (m.succ.toNat / 256)⟩ := by
      simp [Handle.ofWord]; exact passes absent
    have whole : (⟨⟨m.succ.toNat % 256, passes absent⟩, BitVec.ofNat 8 (m.succ.toNat / 256)⟩ : Handle).word = m.succ := by
      apply BitVec.eq_of_toNat_eq; simp [Handle.word]; omega
    rw [handle]
    interval_cases x <;> simp_all [Condition.ofCode, conditionCode, Condition.code]

/-- An image that fails no check encodes the fields STORE copies (R33). -/
theorem EditImage.fields_encodes {m : EditImage} (passes : ∀ k, m.checkFails k = false) : m.Encodes m.fields := by
  have policy := passes 5
  have notice := passes 7
  simp [checkFails] at policy notice
  have policyBits := bitField_lt m.mode 5 2
  have noticeBits := bitField_lt m.mode 7 2
  have srcL := m.srcL.isLt
  have dstL := m.dstL.isLt
  obtain ⟨cond, handle⟩ := m.successorField_encodes (passes 8)
  exact ⟨by simp [fields, addrOf]; omega, by simp [fields, addrOf]; omega, AddrStep.code_ofCode (bitField_lt ..),
    AddrStep.code_ofCode (bitField_lt ..), UnitSize.code_ofCode (bitField_lt ..), Policy.code_ofCode (by omega),
    NoticePolicy.code_ofCode (by omega), cond, handle, fun h => by simp [fields, reloadField, reloadPresent, h],
    fun h => by simp [fields, reloadField, reloadPresent, h], fun h => by simp [fields, Quantum.ofWord, h],
    fun h => if_neg h, rfl, rfl⟩

/-- ARM's checks of a record whose stored fields passed STORE's: only COUNT is left (R21). -/
theorem Record.failingCheck_of_sound {r : Record} (sound : r.edit.Sound) :
    r.failingCheck = if r.count = 0 then some 1 else none := by
  obtain ⟨_, quantum, aligned, reload, nonzero⟩ := sound
  unfold Record.failingCheck
  rw [if_neg (by omega), if_neg, if_neg (by tauto), if_neg nonzero]
  simp [addrOdd]; intro word; have even := aligned word; omega

/-! ### Words -/

/-- The status word of a generator (R191). -/
theorem Generator.status_word (c : Generator) (g : GenNo) : StatusWordOf (c.status g) g c := by
  have num := g.isLt
  have running : c.running.toNat < 2 := by cases c.running <;> decide
  have mode : c.mode.code < 3 := by cases c.mode <;> decide
  have source : c.source.code < 2 := by cases c.source <;> decide
  have phase : c.phase.code < 2 := by cases c.phase <;> decide
  refine ⟨?_, ?_, ?_, ?_, ?_, ?_⟩ <;> simp [bitField, Generator.status] <;> omega

/-- The first word of a notice (R191). -/
theorem Notice.firstWord_word (n : Notice) : FirstWordOf n.firstWord n := by
  have kind : n.kind.code < 6 := by cases n.kind <;> simp [NoticeKind.code]
  have urgency := n.urgency.isLt
  have overrun : n.kind.overrun.toNat < 2 := by cases n.kind.overrun <;> decide
  have num := n.handle.num.isLt
  refine ⟨?_, ?_, ?_, ?_, ?_⟩ <;> simp [bitField, Notice.firstWord] <;> omega

/-- The holding registers after a take or a peek hold the head (R168). -/
theorem NoticeUnit.loadHolding_holds {u : NoticeUnit} {n : Notice} {rest : List Notice} (h : u.queue = n :: rest) :
    u.loadHolding.Holds n := by
  unfold NoticeUnit.loadHolding
  simp only [h]
  refine ⟨rfl, ?_⟩
  obtain ⟨_, _, kind⟩ := n
  cases kind with
  | fault v m f =>
    have addr := f.addr.isLt
    have cause : f.cause.code < 4 := by cases f.cause <;> decide
    refine ⟨rfl, ?_, ?_, ?_, ?_⟩ <;>
      simp [NoticeKind.aux, FaultPart.word, bitField, NoticeKind.addrL, addrLow] <;> omega
  | serviceDone v m => exact ⟨rfl, rfl, rfl⟩
  | exhausted v m => exact ⟨rfl, rfl, rfl⟩
  | linkBroken h => exact ⟨rfl, rfl, rfl⟩
  | chainLimit h => exact ⟨rfl, rfl, rfl⟩

end Sys2Proof.Machine
end

