-- ==== Sys2Proof/Laws/Service.lean ====
section
/-! SUPPORT. One service (chapter 6): the address step, the count of a unit, and the parts of a write-back. -/

namespace Sys2Proof.Machine

/-! ### One unit -/

/-- A refused step leaves the address (R109). -/
theorem addressStepped_refused {step : AddrStep} {unit : UnitSize} {a : Addr}
    (h : (addressStepped step unit a).2 = true) : (addressStepped step unit a).1 = a := by
  revert h
  cases step <;> cases unit <;> simp [addressStepped] <;> split <;> simp

/-- The step the engine makes is the one R109 describes. -/
theorem stepAddr_eq (step : AddrStep) (unit : UnitSize) (a : Addr) : stepAddr step unit a =
    if (addressStepped step unit a).2 = true then none else some (addressStepped step unit a).1 := by
  have up : ∀ k : Nat, (if a.toNat + k ≤ 0xFFFFFF then some (BitVec.ofNat 24 (a.toNat + k)) else none) =
      if (if a.toNat + k < 2 ^ 24 then (a + BitVec.ofNat 24 k, false) else (a, true)).2 = true then none
      else some (if a.toNat + k < 2 ^ 24 then (a + BitVec.ofNat 24 k, false) else (a, true)).1 := by
    intro k
    by_cases h : a.toNat + k < 2 ^ 24
    · have sum : BitVec.ofNat 24 (a.toNat + k) = a + BitVec.ofNat 24 k := by
        apply BitVec.eq_of_toNat_eq; simp
      rw [if_pos (by omega), if_pos h, sum, if_neg Bool.false_ne_true]
    · rw [if_neg (by omega), if_neg h, if_pos rfl]
  have down : ∀ k : Nat, (if k ≤ a.toNat then some (BitVec.ofNat 24 (a.toNat - k)) else none) =
      if (if k ≤ a.toNat then (a - BitVec.ofNat 24 k, false) else (a, true)).2 = true then none
      else some (if k ≤ a.toNat then (a - BitVec.ofNat 24 k, false) else (a, true)).1 := by
    intro k
    by_cases h : k ≤ a.toNat
    · have lt := a.isLt
      have difference : BitVec.ofNat 24 (a.toNat - k) = a - BitVec.ofNat 24 k := by
        apply BitVec.eq_of_toNat_eq; simp; omega
      rw [if_pos h, if_pos h, difference, if_neg Bool.false_ne_true]
    · rw [if_neg h, if_neg h, if_pos rfl]
  cases step with
  | fixed => rfl
  | ascend => cases unit <;> exact up _
  | descend => cases unit <;> exact down _
  | ascendReturn => cases unit <;> exact up _

/-- The working copy after a counted unit, by field (R108, R109). -/
theorem Working.countUnit_addresses (w : Working) :
    w.countUnit.srcCur = (addressStepped w.edit.srcStep w.edit.unit w.srcCur).1 ∧
      w.countUnit.dstCur = (addressStepped w.edit.dstStep w.edit.unit w.dstCur).1 := by
  have after : ∀ (step : AddrStep) (a : Addr),
      (stepAddr step w.edit.unit a).getD a = (addressStepped step w.edit.unit a).1 := by
    intro step a
    rw [stepAddr_eq]
    split
    · next h => rw [addressStepped_refused h]; rfl
    · rfl
  exact ⟨after _ _, after _ _⟩

/-- End checks 1 to 3 after a counted unit (R110). -/
theorem Working.countUnit_endCause (w : Working) : w.countUnit.endCause =
    if w.count - 1 = 0 then some .exhausted
    else if (addressStepped w.edit.srcStep w.edit.unit w.srcCur).2 = true then some (.fault .range w.srcCur)
    else if (addressStepped w.edit.dstStep w.edit.unit w.dstCur).2 = true then some (.fault .range w.dstCur)
    else if w.edit.quantum = .units (w.moved + 1) then some .quantum else none := by
  have refused : ∀ (step : AddrStep) (a : Addr),
      stepAddr step w.edit.unit a = none ↔ (addressStepped step w.edit.unit a).2 = true := by
    intro step a; rw [stepAddr_eq]; split <;> simp_all
  simp only [Working.countUnit, Working.endCheck, Working.nextSrc, Working.nextDst, refused]

/-! ### The write-back -/

/-- The ended service of an open activation. -/
theorem State.endedService_eq {s : State} {a : Activation} {w : Working} {c : EndCause}
    (open_ : s.activation = some a) (work : a.work = some w) (ended : w.endCause = some c) :
    s.endedService = some (a, w, c) := by
  simp [State.endedService, open_, work, ended]

/-- The row of a write-back that is no fault is the write-back claim (R114). -/
theorem State.writeBackStep_eq {s : State} {a : Activation} {w : Working} {c : EndCause}
    (open_ : s.activation = some a) (work : a.work = some w) (ended : w.endCause = some c)
    (sound : c.isFault = false) :
    s.writeBackStep = ((s.postOutcome w c).storeProgress w c).afterWriteBack a w c := by
  simp only [State.writeBackStep, State.endedService_eq open_ work ended, sound]; rfl

/-- The row of a fault write-back is the write-back claim (R149). -/
theorem State.faultWriteBackStep_eq {s : State} {a : Activation} {w : Working} {c : EndCause}
    (open_ : s.activation = some a) (work : a.work = some w) (ended : w.endCause = some c)
    (fault : c.isFault = true) :
    s.faultWriteBackStep = ((s.postOutcome w c).storeProgress w c).afterWriteBack a w c := by
  simp only [State.faultWriteBackStep, State.endedService_eq open_ work ended, fault]; rfl

/-- The outcome notice changes the notices and the overrun flag of the record it names. -/
theorem State.postOutcome_eq (s : State) (w : Working) (c : EndCause) : s.postOutcome w c = { s with
    notices := (s.postOutcome w c).notices
    records := s.records.set w.handle.num { s.records[w.handle.num] with
      overrun := (s.postOutcome w c).records[w.handle.num].overrun } } := by
  cases h : outcomeNotice w c s.records[w.handle.num].overrun with
  | none =>
    have same : s.postOutcome w c = s := by simp only [State.postOutcome, h]
    rw [same]
    have self : s.records.set w.handle.num s.records[w.handle.num] = s.records := vector_set_self _ _
    simp only [self]
  | some m =>
    have posted : s.postOutcome w c = (s.post m).setRecord w.handle.num
        { s.records[w.handle.num] with overrun := false } := by simp only [State.postOutcome, h]
    rw [posted]
    simp only [State.setRecord, vector_set_get, if_true]
    rfl

/-- Storing the progress changes the records, and the binding table where it frees the record. -/
theorem State.storeProgress_eq (s : State) (w : Working) (c : EndCause) : s.storeProgress w c = { s with
    records := (s.storeProgress w c).records, bindings := (s.storeProgress w c).bindings } := by
  unfold State.storeProgress
  simp only []
  split
  · simp [State.freeRecord, State.setRecord, State.emptyBindingOf]
  · split
    · rw [State.standingTrigger_eq]; rfl
    · rfl

/-- What follows the write-back changes the activation, the activity and the port. -/
theorem State.afterWriteBack_eq (s : State) (a : Activation) (w : Working) (c : EndCause) :
    s.afterWriteBack a w c = { s with
      activation := (s.afterWriteBack a w c).activation
      activity := (s.afterWriteBack a w c).activity
      port := (s.afterWriteBack a w c).port } := by
  unfold State.afterWriteBack
  split
  · rfl
  · rfl
  · rw [State.endActivation_eq]

/-- The test of a successor condition is the table of R129. -/
theorem Condition.due_eq (x : Condition) (c : EndCause) : x.due c = conditionMatches x c := by
  cases x <;> cases c <;> rfl

end Sys2Proof.Machine
end

