-- ==== Sys2Proof/Tests/Slice0.lean ====
section
/-! SUPPORT. Tests of the model: the check of operands, at most two small tests for each row, with results taken
from the spec's worked examples and tables, and a witness for every statement that has hypotheses. -/

namespace Sys2Proof.Tests

open Sys2Proof.Machine

-- One proof at a time: each runs on a thread of its own otherwise, and many at once exceed the memory given.
set_option Elab.async false

/-! ### The check of operands -/

theorem test_unknown_needs_unassigned_code : WellFormed (.unknown 0x01) = false := by decide

theorem test_register_write_needs_even_offset : WellFormed (.registerWrite 0x03 ⟨⟨true, true⟩, false⟩ 0) = false := by decide

theorem test_register_write_leaves_edit_registers : WellFormed (.registerWrite 0x10 ⟨⟨true, true⟩, false⟩ 0) = false := by
  decide

theorem test_read_of_npeek_has_its_own_row : WellFormed (.take ⟨0x36, ⟨true, true⟩⟩) = false := by decide

theorem test_read_needs_even_offset : WellFormed (.take ⟨0x35, ⟨true, true⟩⟩) = false := by decide

theorem test_wellFormed_accepts : WellFormed (.unknown 0x09) = true ∧
    WellFormed (.registerWrite 0x24 ⟨⟨true, true⟩, false⟩ 0) = true ∧ WellFormed .allocate = true ∧
    WellFormed (.registerWrite 0x10 ⟨⟨true, true⟩, true⟩ 0) = true ∧
    WellFormed (.take ⟨0x34, ⟨true, true⟩⟩) = true ∧ WellFormed (.take ⟨0x0E, ⟨true, true⟩⟩) = true := by decide

/-- 10.7: the low byte of a CMD word is the command's code; the rest is ignored. -/
theorem test_cmd_words : decodeTableWord 16 0x0001 = some .allocate ∧ decodeTableWord 16 0xFF31 = some .engineStop ∧
    decodeTableWord 16 0x0112 = some .bindRead ∧ decodeTableWord 16 0x0100 = some (.unknown 0x00) ∧
    decodeTableWord 16 0x0042 = some (.unknown 0x42) ∧ decodeTableWord 32 0x0001 = none := by decide +kernel

/-! ### Small states -/

/-- The state a step leaves. -/
def after (i : Instr) (s : State) : State :=
  match exec i s with
  | .next t => t
  | .fault _ => s
  | .refused _ => s

/-- A record of generation 1 at its start addresses. -/
def record (state : RecState) (e : EditFields) (count : Word) (latch : Nat) : Record where
  state := state
  gen := 1
  edit := e
  srcCur := e.srcStart
  dstCur := e.dstStart
  count := count
  latch := latch
  overrun := false
  fault := none

/-- The reset state with records put in. -/
def holding (l : List (RecNo × Record)) : State := l.foldl (fun s p => s.setRecord p.1 p.2) State.reset

/-- The state with the three argument registers loaded. -/
def given (s : State) (a0 a1 a2 : Word) : State := { s with port.args := ⟨a0, a1, a2⟩ }

/-- A notice of record `n`, generation 1. -/
def notice (n : RecNo) (urgency : Urgency) (kind : NoticeKind) : Notice := ⟨⟨n, 1⟩, urgency, kind⟩

/-- The state with a notice queue, NOTE_n evaluated. -/
def queued (s : State) (queue : List Notice) : State := { s with notices := { s.notices with queue := queue }.evaluate }

/-- A queue of `k` notices of urgency 5. -/
def crowd (k : Nat) : List Notice := List.replicate k (notice 4 5 (.exhausted false 16))

/-- 6.8: record 14 reads a converter window in quanta of 4 words. -/
def window : EditFields := { EditFields.default with
  srcStart := 0x300000, srcStep := .ascendReturn, dstStart := 0x020100, dstStep := .ascend, unit := .word
  quantum := .units 4, notice := .each, urgency := 3, rank := 2 }

/-- 12.9: record 21 copies 8 words from a peripheral. -/
def retry : EditFields := { EditFields.default with
  srcStart := 0x460000, dstStart := 0x024000, dstStep := .ascend, unit := .word, quantum := .units 8
  urgency := 1 }

/-- 12.11: record 30 drains a FIFO. -/
def drain : EditFields := { EditFields.default with
  srcStart := 0x470000, dstStart := 0x030000, dstStep := .ascend, quantum := .drain
  successor := some ⟨.always, ⟨31, 1⟩⟩ }

/-- 12.7: record 10 fills a ring under RELOAD. -/
def ring : EditFields := { EditFields.default with
  srcStart := 0x480000, dstStart := 0x021000, dstStep := .ascend, quantum := .units 4, reload := some 8
  policy := .reload, urgency := 3 }

/-- A service of `r` as record `n`, with `moved` units counted and the working copy at `src` and `dst`, between
units: its next request held. -/
def serving (n : RecNo) (r : Record) (src dst : Addr) (moved : Word) : State :=
  let s := holding [(n, { r with state := .active })]
  let w : Working :=
    { handle := ⟨n, 1⟩, edit := r.edit, srcCur := src, dstCur := dst, count := r.count - moved, moved := moved
      endCause := none }
  { s with
    enable := true
    activity := .running
    activation := some ⟨1, some w, none, none⟩
    bus.request := some w.request }

/-- The same service with its pair under way at one half. -/
def underWay (s : State) (half : Half) : State := { s with bus.ownership := .owner, bus.access := some half }

/-- The same service ended. -/
def ended (s : State) (c : EndCause) : State :=
  match s.activation with
  | none => s
  | some a => { s with
      activation := some { a with work := a.work.map fun w => { w with endCause := some c } }
      bus.request := none }

/-- 7.9: record 2, freed by its RETIRE policy, has handed record 5 on, which is still HELD. -/
def linked (stage : Stage) (queue : List Notice) : State :=
  queued { holding [(5, record .held { EditFields.default with quantum := .units 4 } 12 0)] with
    enable := true
    activity := if stage = .due then .running else .stalled
    activation := some ⟨1, none, none, some ⟨⟨2, 1⟩, 2, ⟨5, 1⟩, stage⟩⟩ } queue

/-- 4.10: G2 in ALTERNATE, periods 3 and 2, paces record 30. -/
def alternating (phase : Phase) (remaining : Word) : State :=
  let s := holding [(30, record .armed EditFields.default 10 0)]
  { s with
    bindings := s.bindings.set 34 (some ⟨⟨30, 1⟩, .rising⟩)
    gens := s.gens.set 2 ⟨true, .alternate, .internal, 3, 2, phase, remaining⟩ }

/-- 3.12 and 3.13: a record bound to a line. -/
def bound (n : RecNo) (k : SourceNo) (sense : Sense) (r : Record) : State :=
  let s := holding [(n, r)]
  { s with bindings := s.bindings.set k (some ⟨⟨n, 1⟩, sense⟩) }

/-! ### The record commands -/

/-- R14, R19: the first allocation of record 0 returns generation 1, found FREE. -/
theorem test_allocate_first : (after .allocate State.reset).port.result = 0x0100 ∧
    (after .allocate State.reset).port.rval0 = 0x0100 ∧ (after .allocate State.reset).port.rval1 = 0 ∧
    (after .allocate State.reset).records[(0 : RecNo)].state = .draft := by decide +kernel

/-- 6.8 and R191: FETCH of record 14: WORD, ASCEND_RETURN and ASCEND, EACH in IM_MODE, urgency 3 and rank 2 in
IM_LEVEL. -/
theorem test_fetch_window :
    let t := after .fetch (given (holding [(14, record .armed window 10 3)]) 0x010E 0 0)
    t.port.result = 0x0200 ∧ t.image.srcH = 0x0030 ∧ t.image.mode = 0x0117 ∧ t.image.level = 0x0023 ∧
      t.readBack.state = 0x001A := by decide +kernel

/-- R31: FETCH of the ACTIVE record shows the snapshot at its start (2.11). -/
theorem test_fetch_active :
    let t := after .fetch (given (serving 14 (record .armed window 10 2) 0x300006 0x020106 3) 0x010E 0 0)
    t.image.count = 10 ∧ t.readBack.curDL = 0x0100 ∧ t.port.rval1 = 3 := by decide +kernel

/-- R20: the first failing check is reported: ADDRESS before QUANTUM. -/
theorem test_store_first_failing_check :
    let s := given (holding [(0, record .draft EditFields.default 0 0)]) 0x0100 0 0
    let t := after .store { s with image.srcH := 0x0100, image.quant := 257 }
    t.port.result = 0x0304 ∧ t.port.rval0 = 2 ∧ t.port.rval1 = 1 := by decide +kernel

/-- 2.11: STORE of a HELD record returns the current addresses to the starts and keeps the latch. -/
theorem test_store_held :
    let s := given (holding [(14, { record .held window 6 1 with dstCur := 0x020108 })]) 0x010E 0 0
    let t := after .store { s with image := .ofRecord (record .held window 6 1) }
    t.port.result = 0x0300 ∧ t.port.rval1 = 4 ∧ t.records[(14 : RecNo)].dstCur = 0x020100 ∧
      t.records[(14 : RecNo)].latch = 1 ∧ t.records[(14 : RecNo)].state = .held := by decide +kernel

/-- R37, R66: ARM on an active level line sets the standing trigger. -/
theorem test_arm_on_active_line :
    let s := given { bound 20 9 .high (record .held EditFields.default 10 0) with lines := 0x200 } 0x0114 0 0
    (after .arm s).records[(20 : RecNo)].state = .armed ∧ (after .arm s).records[(20 : RecNo)].latch = 1 ∧
      (after .arm s).port.rval1 = 4 := by decide +kernel

/-- R21: ARM with count 0 gives INVALID with COUNT. -/
theorem test_arm_count_zero :
    let t := after .arm (given (holding [(20, record .draft EditFields.default 0 0)]) 0x0114 0 0)
    t.port.result = 0x0404 ∧ t.port.rval0 = 1 ∧ t.records[(20 : RecNo)].state = .draft := by decide +kernel

/-- 3.13: HOLD of the SPENT record with its line still high sets latch 1. -/
theorem test_hold_spent_on_active_line :
    let s := given { bound 20 9 .high (record .spent EditFields.default 0 0) with lines := 0x200 } 0x0114 0 0
    (after .hold s).records[(20 : RecNo)].state = .held ∧ (after .hold s).records[(20 : RecNo)].latch = 1 := by
  decide +kernel

/-- 6.9 case A: HOLD while the engine waits for the first grant cuts the service and withdraws the request. -/
theorem test_hold_cuts_waiting_request :
    let s := { serving 14 (record .armed window 10 0) 0x300000 0x020100 0 with bus.ownership := .requesting }
    let t := after .hold (given s 0x010E 0 0)
    t.port.state = .waiting 0x05 ∧ t.bus.ownership = .released ∧ t.bus.request = none ∧
      t.working.any (fun w => w.endCause == some .cut && w.moved == 0) = true := by decide +kernel

/-- 12.11: RETIRE, its CMD write accepted before the grant, is deferred by its claim during the pair, and the pair
goes on; and R196: a CMD write made while the part is OWNER changes nothing. -/
theorem test_retire_during_pair :
    let s := given (underWay (serving 30 (record .armed drain 500 1) 0x470000 0x030078 120) .write) 0x011E 0 0
    let t := after .retire { s with port := { s.port with state := .busy 0x06, latched := s.port.args } }
    t.port.state = .waiting 0x06 ∧ t.records[(30 : RecNo)].state = .active ∧ t.bus = s.bus ∧
      after .retire s = s := by decide +kernel

/-- R43: RETIRE frees the record and empties its entry. -/
theorem test_retire_bound :
    let t := after .retire (given (bound 12 4 .rising (record .armed EditFields.default 100 4)) 0x010C 0 0)
    t.records[(12 : RecNo)].state = .free ∧ t.records[(12 : RecNo)].gen = 1 ∧ t.bindings[(4 : SourceNo)] = none ∧
      t.port.rval1 = 2 := by decide +kernel

/-- R50: WIPE with enable ON completes with ENGINE_ON. -/
theorem test_wipe_engine_on : (after .wipe { State.reset with enable := true }).port.result = 0x0809 := by
  decide +kernel

/-- R51: WIPE keeps the generation and empties the store, the table and the queue. -/
theorem test_wipe :
    let t := after .wipe (queued (bound 12 4 .rising (record .armed EditFields.default 100 4)) (crowd 2))
    t.records[(12 : RecNo)] = Record.empty 1 ∧ t.bindings[(4 : SourceNo)] = none ∧ t.pstat = 0 := by decide +kernel

/-! ### Triggers and bindings -/

/-- 3.12: TRIGGER at latch 4 is lost and sets overrun. -/
theorem test_trigger_overrun :
    let t := after .trigger (given (holding [(12, record .armed EditFields.default 100 4)]) 0x010C 0 0)
    t.records[(12 : RecNo)].latch = 4 ∧ t.records[(12 : RecNo)].overrun = true ∧ t.port.result = 0x0700 ∧
      t.port.rval0 = 0x010C ∧ t.port.rval1 = 2 := by decide +kernel

/-- R57: BIND LOW to a line that stands low sets the latch of an ARMED record. -/
theorem test_bind_low_line :
    let t := after .bind (given (holding [(20, record .armed EditFields.default 10 0)]) 9 0x0114 3)
    t.records[(20 : RecNo)].latch = 1 ∧ t.bindings[(9 : SourceNo)] = some ⟨⟨20, 1⟩, .low⟩ ∧ t.port.rval1 = 9 := by
  decide +kernel

/-- R58: BOUND reports the occupant of the source and the record's present source. -/
theorem test_bind_bound :
    let t := after .bind (given (bound 12 4 .rising (record .armed EditFields.default 100 0)) 5 0x010C 0)
    t.port.result = 0x1005 ∧ t.port.rval0 = 0xFFFF ∧ t.port.rval1 = 4 := by decide +kernel

/-- R60: UNBIND returns the handle and the sense. -/
theorem test_unbind :
    let t := after .unbind (given (bound 12 4 .falling (record .armed EditFields.default 100 0)) 4 0 0)
    t.port.result = 0x1100 ∧ t.port.rval0 = 0x010C ∧ t.port.rval1 = 1 ∧ t.bindings[(4 : SourceNo)] = none := by
  decide +kernel

/-- R61: BIND_READ gives the sense in bits 1:0 and the sampled level in bit 8. -/
theorem test_bind_read :
    let s := { bound 12 4 .high (record .armed EditFields.default 100 1) with lines := 0x10 }
    (after .bindRead (given s 4 0 0)).port.rval0 = 0x010C ∧
      (after .bindRead (given s 4 0 0)).port.rval1 = 0x0102 := by decide +kernel

/-- 12.11: an empty entry reads 0xFFFF. -/
theorem test_bind_read_empty : (after .bindRead (given State.reset 7 0 0)).port.rval0 = 0xFFFF := by decide +kernel

/-- 3.13: a rise on a HIGH line sets the standing trigger. -/
theorem test_req_edge_level :
    let t := after (.reqEdge 9 ⟨true, true⟩) (bound 20 9 .high (record .armed EditFields.default 10 0))
    t.records[(20 : RecNo)].latch = 1 ∧ t.lines = 0x200 := by decide +kernel

/-- 3.12: the fifth rise on an edge line is lost and sets overrun; and R202: a level seen at one edge is no sample. -/
theorem test_req_edge_overrun :
    let s := bound 12 4 .rising (record .armed EditFields.default 100 4)
    let t := after (.reqEdge 4 ⟨true, true⟩) s
    t.records[(12 : RecNo)].overrun = true ∧ t.records[(12 : RecNo)].latch = 4 ∧
      (after (.reqEdge 4 ⟨true, false⟩) s).records = s.records ∧
      (after (.reqEdge 4 ⟨true, false⟩) s).lines = 0 ∧ (after (.reqEdge 4 ⟨true, false⟩) s).levels = 0x10 := by
  decide +kernel

/-! ### Generators -/

/-- 4.10: GEN_SET of G2 with ALTERNATE, INTERNAL, periods 3 and 2. -/
theorem test_gen_set :
    let t := after .genSet (given State.reset 0x0022 3 2)
    t.gens[(2 : GenNo)] = ⟨false, .alternate, .internal, 3, 2, .a, 0⟩ ∧ t.port.result = 0x2000 := by decide +kernel

/-- 4.10: GEN_START of G2: RUNNING, phase A, RVAL1 3. -/
theorem test_gen_start :
    let t := after .genStart (given (after .genSet (given State.reset 0x0022 3 2)) 2 0 0)
    t.gens[(2 : GenNo)].running = true ∧ t.port.rval1 = 3 ∧ t.port.rval0 = 0x002A := by decide +kernel

/-- R81: GEN_START with period A 0 gives INVALID with field code 10. -/
theorem test_gen_start_invalid :
    let t := after .genStart (given State.reset 2 0 0)
    t.port.result = 0x2104 ∧ t.port.rval0 = 10 ∧ t.port.rval1 = 2 := by decide +kernel

/-- 4.10: GEN_STOP: STOPPED, phase A, remaining 0, RVAL1 0. -/
theorem test_gen_stop :
    let t := after .genStop (given (alternating .b 2) 2 0 0)
    t.gens[(2 : GenNo)] = ⟨false, .alternate, .internal, 3, 2, .a, 0⟩ ∧ t.port.rval1 = 0 := by decide +kernel

/-- 4.10: GEN_READ after tick 5. -/
theorem test_gen_read : (after .genRead (given (alternating .a 3) 2 0 0)).port.rval1 = 3 := by decide +kernel

/-- 4.10: tick 3 expires phase A, begins phase B with 2, and triggers record 30. -/
theorem test_internal_tick :
    let t := after .internalTick (alternating .a 1)
    t.gens[(2 : GenNo)].phase = .b ∧ t.gens[(2 : GenNo)].remaining = 2 ∧ t.records[(30 : RecNo)].latch = 1 := by
  decide +kernel

/-- R75: an external tick does not reach a generator that counts internal ticks; and R202: TICK high at one edge is no
sample yet. -/
theorem test_external_tick :
    (after (.externalTick ⟨true, true⟩) (alternating .a 1)).gens = (alternating .a 1).gens ∧
      (after (.externalTick ⟨true, true⟩) (alternating .a 1)).tickLine = true ∧
      (after (.externalTick ⟨true, false⟩) (alternating .a 1)).tickLine = false := by decide +kernel

/-- 4.11: the expiry reloads and delivers one trigger. -/
theorem test_generator_expiry :
    let t := after (.generatorExpiry 2) (alternating .b 1)
    t.gens[(2 : GenNo)].remaining = 3 ∧ t.gens[(2 : GenNo)].phase = .a ∧ t.records[(30 : RecNo)].latch = 1 := by
  decide +kernel

/-! ### The engine -/

/-- 5.9: ENGINE_GO with 31 notices queued and a record eligible begins a head wait. -/
theorem test_engine_go_head_wait :
    let t := after .engineGo (queued (holding [(5, record .armed EditFields.default 20 1)]) (crowd 31))
    t.activity = .stalled ∧ t.port.rval0 = 0 ∧ t.enable = true := by decide +kernel

/-- 5.9: ENGINE_STOP during a service waits, and will report the handle ACTIVE then. -/
theorem test_engine_stop_waits :
    let t := after .engineStop (serving 5 (record .armed EditFields.default 20 0) 0 0 0)
    t.port.state = .waiting 0x31 ∧ t.enable = false ∧ t.port.stopHandle = some 0x0105 := by decide +kernel

/-- 5.8: with the pointers at 95, record 3 of rank 1 is chosen, and after it record 7. -/
theorem test_head_start_rotation :
    let e : EditFields := { EditFields.default with rank := 1 }
    let s := { holding [(3, record .armed e 9 2), (7, record .armed e 9 1), (40, record .armed e 9 1)] with
      enable := true }
    let t := after .headStart s
    t.records[(3 : RecNo)].state = .active ∧ t.records[(3 : RecNo)].latch = 1 ∧ t.pointers[(1 : Rank)] = 3 ∧
      { s with pointers := t.pointers }.chosenHead = some 7 := by decide +kernel

/-- R89: rank 0 goes before rank 1 (5.8). -/
theorem test_head_start_rank :
    let s := { holding [(7, record .armed { EditFields.default with rank := 1 } 9 1),
      (10, record .armed { EditFields.default with rank := 0 } 9 1)] with enable := true }
    (after .headStart s).actv = 0x010A := by decide +kernel

/-- R197: BREQ_n is asserted for a request held, and not within the spacing. -/
theorem test_bus_request :
    let s := serving 5 (record .armed EditFields.default 20 0) 0 0 0
    (after .busRequest s).breqAsserted = true ∧
      (after .busRequest { s with bus.spacing := 1 }).breqAsserted = false := by decide +kernel

/-- 11.7: the grant begins the read of 0x400011 on the high lane. -/
theorem test_grant_taken :
    let e : EditFields := { EditFields.default with srcStart := 0x400011, dstStart := 0x012000, dstStep := .ascend }
    let s := { serving 40 (record .armed e 20 0) 0x400011 0x012000 0 with bus.ownership := .requesting }
    (after .grantTaken s).masterPins = some ⟨0x200008, ⟨false, true⟩, true, false, none, none⟩ := by decide +kernel

/-- 11.7: the byte captured from the high lane is written on the low lane of 0x012000. -/
theorem test_read_complete_moves_lane :
    let e : EditFields := { EditFields.default with srcStart := 0x400011, dstStart := 0x012000, dstStep := .ascend }
    let s := underWay (serving 40 (record .armed e 20 0) 0x400011 0x012000 0) .read
    (after (.readComplete 0xAB12) s).masterPins =
      some ⟨0x009000, ⟨true, false⟩, false, true, some 0xAB, none⟩ := by decide +kernel

/-- 8.6: the unit at 0xFFFFFF leaves count 6 and ends the service with RANGE. -/
theorem test_write_complete_range :
    let e : EditFields := { EditFields.default with srcStart := 0x400000, dstStart := 0xFFFFFC, dstStep := .ascend
                                                    quantum := .units 8, urgency := 4 }
    let t := after .writeComplete (underWay (serving 33 (record .armed e 10 0) 0x400000 0xFFFFFF 3) .write)
    t.working.any (fun w => w.count == 6 && w.dstCur == 0xFFFFFF &&
      w.endCause == some (.fault .range 0xFFFFFF)) = true := by decide +kernel

/-- 6.10: the unit that takes the count to 0 never faults on its step. -/
theorem test_write_complete_exhausted :
    let e : EditFields := { EditFields.default with srcStart := 3, srcStep := .descend, dstStart := 0x410000
                                                    quantum := .drain, notice := .none }
    let t := after .writeComplete (underWay (serving 9 (record .armed e 4 0) 0 0x410000 3) .write)
    t.working.any (fun w => w.count == 0 && w.srcCur == 0 && w.endCause == some .exhausted) = true := by
  decide +kernel

/-- 12.9: BERR_n on the read of unit 6 ends the service with BUS_READ at 0x460000. -/
theorem test_bus_error_on_read :
    let t := after .busError (underWay (serving 21 (record .armed retry 8 0) 0x460000 0x02400A 5) .read)
    t.bus.ownership = .released ∧
      t.working.any (fun w => w.count == 3 && w.endCause == some (.fault .busRead 0x460000)) = true := by
  decide +kernel

/-- 11.7: no answer to the write through edge 256 ends the service with BUS_WRITE at the destination. -/
theorem test_wait_limit_on_write :
    let t := after .waitLimitExpiry (underWay (serving 21 (record .armed retry 8 0) 0x460000 0x024002 1) .write)
    t.working.any (fun w => w.endCause == some (.fault .busWrite 0x024002)) = true := by decide +kernel

/-- 6.8: the first write-back stores count 6, returns the source and posts SERVICE_DONE with units 4. -/
theorem test_write_back_quantum :
    let t := after .writeBack (ended (serving 14 (record .armed window 10 2) 0x300008 0x020108 4) .quantum)
    t.records[(14 : RecNo)] = { record .armed window 6 2 with dstCur := 0x020108 } ∧ t.activity = .idle ∧
      t.notices.queue = [notice 14 3 (.serviceDone false 4)] := by decide +kernel

/-- 12.7: the RELOAD write-back loads 8, returns the destination and keeps the latch. -/
theorem test_write_back_reload :
    let s := ended (serving 10 (record .armed ring 4 1) 0x480000 0x021008 4) .exhausted
    let t := after .writeBack s
    t.records[(10 : RecNo)] = record .armed ring 8 1 ∧ t.notices.headWord = 0x051A := by decide +kernel

/-- 12.9: the fault write-back stores 3 and 0x02400A and posts the FAULT notice 0x0A8B. -/
theorem test_fault_write_back :
    let s := ended (serving 21 (record .armed retry 8 0) 0x460000 0x02400A 5) (.fault .busRead 0x460000)
    let t := after .faultWriteBack s
    t.records[(21 : RecNo)] = { record .faulted retry 3 0 with
      dstCur := 0x02400A, fault := some ⟨.busRead, 0x460000⟩ } ∧
      t.notices.headWord = 0x0A8B ∧ t.notices.note = true := by decide +kernel

/-- A service of record 5 ended by `c`, with an ENGINE_STOP of 5.9 waiting for the activation to end. -/
def stopping (c : EndCause) : State :=
  { ended (serving 5 (record .armed { window with quantum := .units 8 } 20 1) 0x300010 0x020110 8) c with
    enable := false, port.state := .waiting 0x31, port.stopHandle := some 0x0105 }

/-- 5.9 and R97: the end of the activation completes the ENGINE_STOP with OK, RVAL0 1 and RVAL1 0x0105. -/
theorem test_fault_write_back_completes_stop :
    let t := after .faultWriteBack (stopping (.fault .busWrite 0x020110))
    t.port.state = .ready ∧ t.port.result = 0x3100 ∧ t.port.rval0 = 1 ∧ t.port.rval1 = 0x0105 ∧
      t.activity = .idle := by decide +kernel

/-- 7.9: with 31 notices queued the link waits, and activity is STALLED. -/
theorem test_link_resolution_waits :
    let t := after .linkResolution (linked .due (crowd 31))
    t.activity = .stalled ∧ t.activation.any (·.inLinkWait) = true := by decide +kernel

/-- 7.9 case B and R191: a HELD successor is reported by LINK_BROKEN, and the activation ends. -/
theorem test_link_resolution_broken :
    let t := after .linkResolution (linked .due [])
    t.notices.queue = [notice 2 2 (.linkBroken ⟨5, 1⟩)] ∧ t.notices.headWord = 0x0114 ∧ t.activity = .idle ∧
      t.activation = none := by decide +kernel

/-- 12.11: RETIRE applied afresh finds ARMED and frees the record. -/
theorem test_applied_afresh_retire :
    let s := { bound 30 7 .rising (record .armed drain 379 1) with
      enable := true, activity := .running, activation := some ⟨1, none, some ⟨.retire, ⟨30, 1⟩⟩, none⟩
      port.state := .waiting 0x06 }
    let t := after .appliedAfresh s
    t.port.result = 0x0600 ∧ t.port.rval0 = 0x011E ∧ t.port.rval1 = 2 ∧ t.port.state = .ready ∧
      t.records[(30 : RecNo)].state = .free ∧ t.bindings[(7 : SourceNo)] = none := by decide +kernel

/-! ### Notices -/

/-- 12.9: the take of the FAULT notice: NTAKE 0x0A8B, the holding registers, ISVC 0x0802, NOTE_n negated. -/
theorem test_take_fault :
    let t := after (.take ⟨0x34, ⟨true, true⟩⟩) (queued State.reset [notice 21 1 (.fault false 5 ⟨.busRead, 0x460000⟩)])
    t.slaveData = some 0x0A8B ∧ t.notices.nhHandle = 0x0115 ∧ t.notices.nhUnits = 5 ∧ t.notices.nhAux = 0x4601 ∧
      t.notices.nhAddrL = 0 ∧ t.notices.isvc = 0x0802 ∧ t.notices.note = false := by decide +kernel

/-- 7.9: the take that leaves 30 notices ends the link wait. -/
theorem test_take_ends_link_wait :
    let t := after (.take ⟨0x34, ⟨true, true⟩⟩) (linked .waiting (crowd 31))
    t.activity = .running ∧ t.activation.any (·.inLinkWait) = false := by decide +kernel

/-- 9.8: NPEEK of the LINK_BROKEN notice loads the holding registers and leaves the queue. -/
theorem test_npeek :
    let s := queued State.reset [notice 11 2 (.linkBroken ⟨12, 2⟩)]
    let t := after .npeekRead s
    t.notices.nhHandle = 0x010B ∧ t.notices.nhUnits = 0 ∧ t.notices.nhAux = 0x020C ∧ t.notices.nhAddrL = 0 ∧
      t.notices.queue = s.notices.queue := by decide +kernel

/-- 9.8: CLOSE 8 with levels 0 and 2 in service removes 0. -/
theorem test_close_most_urgent :
    let t := after .close (given { State.reset with notices.inService := 0x05 } 8 0 0)
    t.port.result = 0x4000 ∧ t.port.rval0 = 0 ∧ t.notices.inService = 0x04 := by decide +kernel

/-- 9.8: SET_FLOOR 2 gives RVAL0 8 and RVAL1 2, and negates NOTE_n for a head of urgency 2. -/
theorem test_set_floor :
    let t := after .setFloor (given (queued State.reset [notice 11 2 (.linkBroken ⟨12, 2⟩)]) 2 0 0)
    t.port.rval0 = 8 ∧ t.port.rval1 = 2 ∧ t.notices.note = false := by decide +kernel

/-! ### The port, the window and reset -/

/-- R183: code 0x00 completes with UNKNOWN. -/
theorem test_unknown : (after (.unknown 0x00) State.reset).port.result = 0x000A ∧
    (after (.unknown 0x00) State.reset).port.state = .ready ∧
    (after (.unknown 0x00) State.reset).rdyAsserted = true := by decide +kernel

/-- 10.9: a STORE written while the port waits is refused. -/
theorem test_command_refused :
    let s := { State.reset with port.state := .waiting 0x05, port.result := 0x1234 }
    (after (.commandRefused 0x03) s).port = { s.port with refused := true } := by decide +kernel

/-- 10.9: a write of IM_COUNT while the port waits is ignored and sets REFUSED. -/
theorem test_edit_register_write_refused :
    let s := { State.reset with port.state := .waiting 0x05, image.count := 0x0040 }
    let t := after (.editRegisterWrite .count ⟨true, true⟩ 0x0010) s
    t.image.count = 0x0040 ∧ t.port.refused = true := by decide +kernel

/-- R187: a write that carries the high lane alone keeps the low byte. -/
theorem test_edit_register_write_lane :
    (after (.editRegisterWrite .mode ⟨false, true⟩ 0xABCD) { State.reset with image.mode := 0x1234 }).image.mode =
      0xAB34 := by decide +kernel

/-- 10.9: ARG0 is written while the port waits, and REFUSED is left. -/
theorem test_register_write_argument :
    let s := { State.reset with port.state := .waiting 0x05 }
    let t := after (.registerWrite 0x02 ⟨⟨true, true⟩, false⟩ 0x0106) s
    t.port.args.a0 = 0x0106 ∧ t.port.refused = false := by decide +kernel

/-- R188: writes of the read-back registers are ignored. -/
theorem test_register_write_ignored :
    let t := after (.registerWrite 0x24 ⟨⟨true, true⟩, false⟩ 0xFFFF) State.reset
    t.readBack = State.reset.readBack ∧ t.port = State.reset.port := by decide +kernel

/-- R195: with both strobes asserted an access is answered and is neither a read nor a write: at an edit register while
the port waits, at CMD while it is READY, and at NTAKE. -/
theorem test_register_write_both_strobes :
    ∀ p ∈ [((0x18 : BitVec 7), { State.reset with port.state := .waiting 0x05 }), (0x00, State.reset),
        (0x34, queued State.reset (crowd 2))],
      after (.registerWrite p.1 ⟨⟨true, true⟩, true⟩ 0x0041) p.2 = p.2.answerAccess none := by decide +kernel

/-- R190: PSTAT as it reads with ENGINE_STOP waiting, REFUSED set, the engine RUNNING and two notices queued. -/
theorem test_read_pstat :
    let s := queued { serving 5 (record .armed EditFields.default 20 0) 0 0 0 with
      enable := false, port.state := .waiting 0x31, port.refused := true } (crowd 2)
    (after (.take ⟨0x0E, ⟨true, true⟩⟩) s).slaveData = some 0x0156 ∧
      after (.take ⟨0x7E, ⟨true, true⟩⟩) s = { s with bus.slave := some ⟨some 0⟩ } := by decide +kernel

/-- R195: the strobe negated releases RDY_n. -/
theorem test_slave_strobe_negated :
    (after .slaveStrobeNegated { State.reset with bus.slave := some ⟨some 7⟩ }).rdyAsserted = false := by
  decide +kernel

/-- 12.2: after pin reset PSTAT reads 0 and ACTV 0xFFFF. -/
theorem test_pin_reset :
    let t := after .pinReset (serving 5 (record .armed EditFields.default 20 0) 0 0 0)
    t.pstat = 0 ∧ t.actv = 0xFFFF ∧ t.inReset = true := by decide +kernel

/-- R70, R193: the levels at the negation are the first samples, and an access gets RDY_n after three edges. -/
theorem test_reset_negation :
    let t := after (.resetNegation 0x80000001 true) (after .pinReset State.reset)
    t.lines = 0x80000001 ∧ t.tickLine = true ∧ t.inReset = false ∧ after .allocate t = t ∧
      after .allocate t.clockEdge.clockEdge = t.clockEdge.clockEdge ∧
      (after .allocate t.clockEdge.clockEdge.clockEdge).port.result = 0x0100 := by decide +kernel

/-- R74: the 64th edge gives the internal tick; and R202: a level seen at the edge before is the line's sample. -/
theorem test_clock_tick :
    { alternating .a 2 with divider := 62 }.clockEdge.gens[(2 : GenNo)].remaining = 2 ∧
      { alternating .a 2 with divider := 63 }.clockEdge.gens[(2 : GenNo)].remaining = 1 ∧
      { bound 12 4 .rising (record .armed window 10 0) with levels := 0x10 }.clockEdge.records[(12 : RecNo)].latch = 1 := by
  decide +kernel

/-- R200: the 256th edge of an access ends it. -/
theorem test_clock_wait_limit :
    let s := underWay (serving 21 (record .armed retry 8 0) 0x460000 0x024000 0) .read
    { s with bus.timer := 254 }.clockEdge.bus.ownership = .owner ∧
      { s with bus.timer := 255 }.clockEdge.bus.ownership = .released := by decide +kernel

/-! ### Witnesses: the hypotheses of each statement are met

Each theorem shows states and operands that meet the hypotheses of the statement it names, one for each clause, at
the ends of the ranges where a clause has one. -/

/-- `after` is what `exec` answers. -/
theorem exec_eq_after (i : Instr) (s : State) : exec i s = .next (after i s) := by cases i <;> rfl

/-- One step from a queue that holds one step. -/
theorem step_eq_after (i : Instr) (s : State) :
    step { s with pending := [i] } = .next (after i { s with pending := [] }) := exec_eq_after i _

/-- The part while RESET_n is asserted. -/
def asserted : State := after .pinReset State.reset

/-- The state with the port in state `p`. -/
def portAt (s : State) (p : PortState) : State := { s with port.state := p }

/-- A service of record 95 with 20 bytes to move, its first request held. -/
def held95 : State := serving 95 (record .armed EditFields.default 20 0) 0 0 0

/-- The state with a divider, a wait timer and a spacing. -/
def counting (s : State) (divider timer spacing : Nat) : State :=
  { s with divider := divider, bus.timer := timer, bus.spacing := spacing }

/-- The state with an ownership. -/
def owning (s : State) (o : Ownership) : State := { s with bus.ownership := o }

/-- Record 95 bound RISING to line 31, which was first seen high at the last edge, with TICK, and in the hold-off. -/
def rising95 : State := { bound 95 31 .rising (record .armed EditFields.default 20 0) with
  levels := 0x80000000, tickLevel := true, holdOff := 3
  gens := State.reset.gens.set 7 ⟨true, .once, .external, 1, 0, .a, 1⟩ }

theorem witness_IdleStepIsAClockEdge :
    (asserted.pending = [] ∧ asserted.inReset = true) ∧
    (∀ s ∈ [counting State.reset 62 0 0, counting State.reset 63 0 0, counting held95 0 0 0, counting held95 0 0 1,
        counting State.reset 0 0 2, counting (owning held95 .requesting) 0 0 0,
        counting (underWay held95 .read) 62 254 0, counting (underWay held95 .write) 63 255 0, rising95],
      s.pending = [] ∧ s.inReset = false ∧ s.BindingMap ∧ s.HeadWaitExact) ∧
    (counting State.reset 62 0 0).divider < 63 ∧ 63 ≤ (counting State.reset 63 0 0).divider ∧
    (owning held95 .requesting).bus.ownership = .requesting ∧
    ((counting held95 0 0 1).bus.ownership = .released ∧ (counting held95 0 0 1).bus.spacing ≠ 0) ∧
    (State.reset.bus.ownership = .released ∧ State.reset.bus.spacing = 0 ∧ State.reset.bus.request = none) ∧
    (held95.bus.ownership = .released ∧ held95.bus.spacing = 0 ∧ held95.bus.request ≠ none) ∧
    ((counting (underWay held95 .read) 62 254 0).bus.ownership = .owner ∧
      (counting (underWay held95 .read) 62 254 0).bus.timer < 255) ∧
    ((counting (underWay held95 .write) 63 255 0).bus.ownership = .owner ∧
      255 ≤ (counting (underWay held95 .write) 63 255 0).bus.timer ∧
      (counting (underWay held95 .write) 63 255 0).bus.access ≠ none) := by
  and_intros <;> decide +kernel

theorem witness_OnlyNegationActsInReset :
    asserted.inReset = true ∧ Instr.allocate ≠ .pinReset ∧
    (∀ (lines : BitVec 32) (tick : Bool), Instr.allocate ≠ .resetNegation lines tick) ∧
    State.reset.inReset = false := ⟨by decide +kernel, nofun, nofun, by decide +kernel⟩

/-! #### The command port -/

/-- For every statement about a command: it is served from READY once the hold-off is over and while the part is not
OWNER, and from BUSY on its own code whatever they are; and where it is not. -/
theorem witness_Serves :
    (∀ s ∈ [State.reset, owning held95 .requesting], s.Listens ∧ s.Serves 0x03) ∧
    (∀ s ∈ [{ State.reset with holdOff := 1 }, { State.reset with holdOff := 3 }, underWay held95 .read, asserted],
      ¬s.Listens ∧ ¬s.Serves 0x03) ∧
    (∀ s ∈ [portAt { State.reset with holdOff := 1 } (.busy 0x03), portAt (underWay held95 .read) (.busy 0x03)],
      ¬s.Listens ∧ s.Serves 0x03 ∧ ¬s.Serves 0x04) := by decide +kernel

theorem witness_CmdWriteAcceptedOrRefused :
    ((Instr.setFloor, (0x41 : Byte)) ∈ commandRows ∧ (0x41 : Byte).toNat = (0xFF41 : Word).toNat % 256) ∧
    (∀ p ∈ commandRows, p.2.toNat ≠ (0x0100 : Word).toNat % 256) ∧
    (∀ s ∈ [State.reset, portAt State.reset (.waiting 0x03), portAt State.reset (.busy 0x04)], s.Listens) ∧
    State.reset.port.state = .ready ∧ (portAt State.reset (.busy 0x04)).port.state ≠ .ready ∧
    (∃ c, (portAt State.reset (.waiting 0x03)).port.state = .waiting c) ∧
    (∃ c : Byte, (portAt State.reset (.busy 0x04)).port.state = .busy c ∧ c ≠ 0x41) ∧
    ∃ c : Byte, (portAt State.reset (.busy 0x04)).port.state = .busy c ∧ c ≠ 0x00 := by
  have waiting : ∃ c, (portAt State.reset (.waiting 0x03)).port.state = .waiting c := ⟨_, rfl⟩
  have busy : ∀ c : Byte, c ≠ 0x04 → ∃ d, (portAt State.reset (.busy 0x04)).port.state = .busy d ∧ d ≠ c :=
    fun c h => ⟨_, rfl, h.symm⟩
  refine ⟨by decide +kernel, by decide +kernel, by decide +kernel, ?_, ?_, waiting, busy 0x41 ?_, busy 0x00 ?_⟩ <;>
    decide +kernel

theorem witness_UnknownCodeCompletesItself :
    (∀ code ∈ [(0x00 : Byte), 0x09, 0x0F, 0x13, 0x42, 0xFF], WellFormed (.unknown code) = true ∧
      (∀ p ∈ commandRows, p.2 ≠ code) ∧ State.reset.Serves code ∧
      (portAt State.reset (.busy code)).Serves code) ∧
    ∀ code ∈ [(0x01 : Byte), 0x08, 0x41], WellFormed (.unknown code) ≠ true := by decide +kernel

/-- A queue of one notice of each kind, in urgency order. -/
def kinds : List Notice :=
  [notice 95 0 (.fault true 5 ⟨.busRead, 0x460000⟩), notice 3 1 (.linkBroken ⟨95, 2⟩), notice 4 1 (.chainLimit ⟨0, 1⟩),
   notice 5 6 (.exhausted true 256), notice 6 7 (.serviceDone false 4)]

theorem witness_WindowReadsReturnRegisters :
    0x44 ≤ (0x44 : BitVec 7).toNat ∧ ¬0x44 ≤ (0x43 : BitVec 7).toNat ∧
    ((queued State.reset (crowd 32)).notices.queue.length ≤ 32 ∧ (queued State.reset kinds).notices.queue ≠ [] ∧
      State.reset.notices.queue = []) ∧
    (State.reset.working = none ∧ held95.working ≠ none) ∧
    (∀ offset ∈ [(0x00 : BitVec 7), 0x0E, 0x32, 0x38, 0x42, 0x7E],
      WellFormed (.take ⟨offset, ⟨false, false⟩⟩) = true ∧ offset ≠ 0x34) ∧
    held95.Listens := by decide +kernel

theorem witness_EditRegisterWriteNeedsReady :
    (∀ s ∈ [State.reset, portAt State.reset (.waiting 0x05)], s.Listens) ∧
    State.reset.port.state = .ready ∧ (portAt State.reset (.waiting 0x05)).port.state ≠ .ready := by
  decide +kernel

theorem witness_RegisterWriteStoresArguments :
    (∀ offset ∈ [(0x00 : BitVec 7), 0x02, 0x06, 0x08, 0x0E, 0x24, 0x7E],
      WellFormed (.registerWrite offset ⟨⟨true, false⟩, false⟩ 0xABCD) = true) ∧
    (∀ s ∈ [State.reset, portAt State.reset (.waiting 0x05)], s.Listens) ∧
    (Lanes.mk true false).low = true ∧ (Lanes.mk false true).low = false ∧ (0x02 : BitVec 7) ≠ 0x00 := by
  decide +kernel

/-- Record 95 held in generation 1, and `a0` in ARG0. -/
def naming95 (r : Record) (a0 : Word) : State := given (holding [(95, r)]) a0 0 0

theorem witness_HandleCheckRefusesInOrder :
    (∀ p ∈ [(Instr.fetch, (0x02 : Byte)), (.store, 0x03), (.arm, 0x04), (.hold, 0x05), (.retire, 0x06), (.trigger, 0x07)],
      (naming95 (record .held window 10 0) 0x0160).Serves p.2 ∧
      (naming95 (record .held window 10 0) 0x015E).Serves p.2 ∧
      (naming95 (record .held window 10 0) 0x025F).Serves p.2) ∧
    ((naming95 (record .held window 10 0) 0x0160).HeadWaitExact ∧
      HandleOutOfRange (naming95 (record .held window 10 0) 0x0160).givenArgs.a0) ∧
    ((naming95 (record .held window 10 0) 0x015E).HeadWaitExact ∧
      (naming95 (record .held window 10 0) 0x015E).StaleHandle (naming95 (record .held window 10 0) 0x015E).givenArgs.a0 94) ∧
    (naming95 (record .held window 10 0) 0x025F).HeadWaitExact ∧
    (naming95 (record .held window 10 0) 0x025F).StaleHandle (naming95 (record .held window 10 0) 0x025F).givenArgs.a0 95 := by
  and_intros <;> decide +kernel

/-! #### The record commands -/

/-- Every record a DRAFT. -/
def full : State := { State.reset with records := Vector.replicate 96 (record .draft EditFields.default 0 0) }

theorem witness_AllocateTakesLowestFree :
    State.reset.Serves 0x01 ∧ State.reset.records[(0 : RecNo)].state = .free ∧
    (∀ m : RecNo, m < 0 → State.reset.records[m].state ≠ .free) ∧
    (full.setRecord 95 (Record.empty 0xFF)).Serves 0x01 ∧
    (full.setRecord 95 (Record.empty 0xFF)).records[(95 : RecNo)].state = .free ∧
    (∀ m : RecNo, m < 95 → (full.setRecord 95 (Record.empty 0xFF)).records[m].state ≠ .free) ∧
    full.Serves 0x01 ∧ ∀ n : RecNo, full.records[n].state ≠ .free := by decide +kernel

/-- Record 95, FAULTED as in 12.9. -/
def faulted : Record := { record .faulted retry 3 0 with dstCur := 0x02400A, fault := some ⟨.busRead, 0x460000⟩ }

theorem witness_FetchLoadsTheImage :
    (∀ r ∈ [record .armed ring 8 4, record .held drain 8 0, faulted], ∀ k ∈ [(0 : SourceNo), 39],
      let s := given (bound 95 k .rising r) 0x015F 0 0
      s.Serves 0x02 ∧ s.NamesRecord s.givenArgs.a0 95 ∧ s.records[(95 : RecNo)] = r ∧ r.edit.Sound ∧ s.BindingMap ∧
      r.latch ≤ 4 ∧ s.bindings[k].any (fun b => b.handle.num == 95) = true) ∧
    ((naming95 faulted 0x015F).BindingMap ∧
      ∀ k : SourceNo, (naming95 faulted 0x015F).bindings[k].any (fun b => b.handle.num == 95) = false) ∧
    (ring.successor = none ∧ drain.reload = none) ∧
    (record .armed ring 8 4).fault = none ∧ faulted.fault = some ⟨.busRead, 0x460000⟩ :=
  ⟨by decide +kernel, by decide +kernel, by decide +kernel, rfl, rfl⟩

/-- The image of 6.8, changed so that check `k` is the first to fail. -/
def failing (k : Nat) : EditImage :=
  let m := EditImage.ofRecord (record .draft window 10 0)
  match k with
  | 2 => { m with srcH := 0x0100 }
  | 3 => { m with quant := 257 }
  | 4 => { m with dstL := 0x0101 }
  | 5 => { m with mode := 0x0157 }
  | 6 => { m with mode := 0x0917 }
  | 7 => { m with mode := 0x0197 }
  | 8 => { m with mode := 0x0317, succ := 0x0160 }
  | 9 => { m with level := 0x002B }
  | _ => m

theorem witness_StoreChecksThenCopies :
    (∀ st ∈ [RecState.draft, .held, .armed, .active, .spent, .faulted],
      (naming95 (record st window 10 0) 0x015F).Serves 0x03 ∧
      (naming95 (record st window 10 0) 0x015F).NamesRecord (naming95 (record st window 10 0) 0x015F).givenArgs.a0 95) ∧
    (∀ k ∈ [2, 3, 4, 5, 6, 7, 8, 9], (failing k).checkFails k = true ∧ ∀ j, j < k → (failing k).checkFails j = false) ∧
    ∀ k : Nat, (failing 0).checkFails k = false := by
  refine ⟨by decide +kernel, by decide +kernel, fun k => ?_⟩
  match k with
  | 0 | 1 | 2 | 3 | 4 | 5 | 6 | 7 | 8 | 9 => decide +kernel
  | _ + 10 => rfl

theorem witness_FetchThenStoreKeepsFields :
    ∀ r ∈ [record .draft retry 8 0, record .held ring 0 4, record .held drain 8 0],
      (naming95 r 0x015F).Listens ∧ (naming95 r 0x015F).port.state = .ready ∧
      (naming95 r 0x015F).NamesRecord (naming95 r 0x015F).port.args.a0 95 ∧
      ((naming95 r 0x015F).records[(95 : RecNo)].state = .draft ∨
        (naming95 r 0x015F).records[(95 : RecNo)].state = .held) ∧
      (naming95 r 0x015F).records[(95 : RecNo)].edit.Sound := by decide +kernel

/-- Record 95 bound HIGH to line 31, which stands high. -/
def onHigh (r : Record) : State := given { bound 95 31 .high r with lines := 0x80000000 } 0x015F 0 0

theorem witness_ArmTakesRecordToArmed :
    (∀ r ∈ [record .draft window 1 0, record .held window 1 0, record .held window 0 0, record .spent window 0 0],
      (onHigh r).Serves 0x04 ∧ (onHigh r).NamesRecord (onHigh r).givenArgs.a0 95 ∧ r.edit.Sound ∧ (onHigh r).BindingMap) ∧
    (onHigh (record .held window 1 0)).OnActiveLevelLine 95 ∧
    (record .spent window 0 0).state ≠ .draft ∧ (record .spent window 0 0).state ≠ .held ∧
    (record .held window 0 0).count = 0 ∧ (record .draft window 1 0).count ≠ 0 := by decide +kernel

theorem witness_HoldPausesRecord :
    (∀ r ∈ [record .draft window 1 0, record .held window 1 0, record .armed window 1 4, record .spent window 0 0, faulted],
      (onHigh r).Serves 0x05 ∧ (onHigh r).NamesRecord (onHigh r).givenArgs.a0 95 ∧ r.state ≠ .active ∧ (onHigh r).BindingMap ∧
      (onHigh r).HeadWaitExact) ∧
    (onHigh (record .spent window 0 0)).OnActiveLevelLine 95 := by decide +kernel

theorem witness_RetireFreesRecord :
    ∀ r ∈ [record .draft window 1 0, record .armed window 1 4, faulted],
      (onHigh r).Serves 0x06 ∧ (onHigh r).NamesRecord (onHigh r).givenArgs.a0 95 ∧ r.state ≠ .active := by decide +kernel

/-- The service of record 95 with its handle in ARG0. -/
def deferring (s : State) : State := given s 0x015F 0 0

/-- The same with the command accepted before: the port BUSY and the handle latched. -/
def accepted (s : State) (code : Byte) : State :=
  { s with port := { s.port with state := .busy code, latched := s.port.args } }

theorem witness_ActiveRecordDefersCommand :
    ∀ p ∈ [(Instr.hold, (0x05 : Byte), DeferredKind.hold), (.retire, 0x06, .retire)],
    (∀ s ∈ [deferring held95, deferring (owning held95 .requesting), accepted (deferring held95) p.2.1,
        accepted (deferring (underWay held95 .write)) p.2.1, deferring (ended held95 .quantum)],
      s.Serves p.2.1 ∧ s.NamesRecord s.givenArgs.a0 95 ∧ s.records[(95 : RecNo)].state = .active ∧
      s.activation ≠ none) ∧
    (∀ s ∈ [deferring held95, deferring (owning held95 .requesting), accepted (deferring held95) p.2.1],
      s.working.any (fun w => w.endCause == none) = true ∧ s.bus.ownership ≠ .owner) ∧
    (deferring (ended held95 .quantum)).working.any (fun w => w.endCause != none) = true ∧
    (accepted (deferring (underWay held95 .write)) p.2.1).bus.ownership = .owner := by decide +kernel

theorem witness_WipeEmptiesTheStore :
    full.Serves 0x08 ∧ full.enable = false ∧ full.activity = .idle ∧
    { full with enable := true }.Serves 0x08 ∧ { full with enable := true }.enable = true ∧
    { full with activity := .running }.Serves 0x08 ∧ { full with activity := .running }.activity ≠ .idle := by
  decide +kernel

/-! #### Triggers and bindings -/

theorem witness_TriggerCommandLatches :
    (∀ r ∈ [record .draft window 1 0, record .spent window 0 0, faulted, record .armed window 1 3,
        record .active window 1 4, record .held window 1 0],
      (naming95 r 0x015F).Serves 0x07 ∧ (naming95 r 0x015F).NamesRecord (naming95 r 0x015F).givenArgs.a0 95) ∧
    TriggerTaken (record .armed window 1 3) (record .armed window 1 4) ∧
    TriggerTaken (record .active window 1 4) { record .active window 1 4 with overrun := true } := by
  decide +kernel

/-- Source 4 bound to record 12, and three arguments for BIND. -/
def binding (a0 a1 a2 : Word) : State := given (bound 12 4 .falling (record .armed window 1 0)) a0 a1 a2

theorem witness_BindRefusals :
    (∀ s ∈ [binding 40 0x010C 0, binding 39 0x010C 4, binding 39 0x0160 3, binding 39 0x015F 3, binding 39 0x020C 3,
        binding 39 0x010C 3, binding 4 0x010C 3], s.Serves 0x10 ∧ s.BindingMap) ∧
    40 ≤ (binding 40 0x010C 0).givenArgs.a0.toNat ∧ 4 ≤ (binding 39 0x010C 4).givenArgs.a2.toNat ∧
    HandleOutOfRange (binding 39 0x0160 3).givenArgs.a1 ∧
    (binding 39 0x010C 3).givenArgs.a0.toNat < 40 ∧ (binding 39 0x010C 3).givenArgs.a2.toNat < 4 ∧
    (binding 39 0x015F 3).StaleHandle 0x015F 95 ∧ (binding 39 0x020C 3).StaleHandle 0x020C 12 ∧
    (binding 39 0x010C 3).NamesRecord 0x010C 12 ∧ (binding 39 0x010C 3).bindings[(39 : SourceNo)] = none ∧
    (∃ l : SourceNo, (binding 39 0x010C 3).bindings[l].any (fun b => b.handle.num == 12) = true) ∧
    (binding 4 0x010C 3).bindings[(4 : SourceNo)] ≠ none ∧
    (let s := (binding 4 0x015F 3).setRecord 95 (record .held window 1 0)
     s.Serves 0x10 ∧ s.BindingMap ∧ s.NamesRecord s.givenArgs.a1 95 ∧ s.bindings[(4 : SourceNo)] ≠ none ∧
     ∀ l : SourceNo, s.bindings[l].any (fun b => b.handle.num == 95) = false) := by decide +kernel

theorem witness_BindWritesTheEntry :
    ∀ p ∈ [((0 : SourceNo), Sense.rising), (31, .low), (32, .falling), (39, .high)],
      let s := given (holding [(95, record .armed window 1 0)]) (BitVec.ofNat 16 p.1.val) 0x015F (BitVec.ofNat 16 p.2.code)
      s.Serves 0x10 ∧ s.BindingMap ∧ s.givenArgs.a0.toNat = p.1.val ∧ s.givenArgs.a2.toNat = p.2.code ∧
      s.NamesRecord s.givenArgs.a1 95 ∧ s.bindings[p.1] = none ∧
      ∀ l : SourceNo, s.bindings[l].any (fun b => b.handle.num == 95) = false := by decide +kernel

theorem witness_UnbindAndBindRead :
    (∀ s ∈ [binding 40 0 0, binding 39 0 0, binding 4 0 0], s.Serves 0x11 ∧ s.Serves 0x12) ∧
    40 ≤ (binding 40 0 0).givenArgs.a0.toNat ∧
    (binding 39 0 0).givenArgs.a0.toNat = (39 : SourceNo).val ∧ (binding 39 0 0).bindings[(39 : SourceNo)] = none ∧
    (binding 4 0 0).givenArgs.a0.toNat = (4 : SourceNo).val ∧
    (binding 4 0 0).bindings[(4 : SourceNo)] = some ⟨⟨12, 1⟩, .falling⟩ := by decide +kernel

theorem witness_RequestLineEdge :
    (∀ sense ∈ [Sense.rising, .falling, .high, .low], ∀ was ∈ [false, true], ∀ seen ∈ [false, true],
      let s := { bound 12 31 sense (record .armed window 1 0) with
        lines := if was then 0xFFFFFFFF else 0, levels := if seen then 0xFFFFFFFF else 0 }
      s.inReset = false ∧ s.BindingMap ∧ s.HeadWaitExact ∧ s.lines.getLsbD 31 = was ∧ s.levels.getLsbD 31 = seen ∧
      s.bindings[(31 : SourceNo)] = some ⟨⟨12, 1⟩, sense⟩) ∧
    LineNo.source 31 = 31 := by decide +kernel

/-! #### Generators -/

/-- A generator 7 and three arguments. -/
def timing (c : Generator) (a0 : Word) : State := given { State.reset with gens := State.reset.gens.set 7 c } a0 5 6

/-- A stopped ALTERNATE context, and the same running in phase B. -/
def stoppedAlternate (a b : Word) : Generator := ⟨false, .alternate, .internal, a, b, .a, 0⟩
def runningAlternate (remaining : Word) : Generator := ⟨true, .alternate, .internal, 3, 2, .b, remaining⟩

theorem witness_GenSetConfiguresStopped :
    (timing (stoppedAlternate 3 2) 0x0008).Serves 0x20 ∧ 8 ≤ bitField (timing (stoppedAlternate 3 2) 0x0008).givenArgs.a0 0 4 ∧
    (timing (stoppedAlternate 3 2) 0x0037).Serves 0x20 ∧ bitField (timing (stoppedAlternate 3 2) 0x0037).givenArgs.a0 4 2 = 3 ∧
    (∀ c ∈ [stoppedAlternate 3 2, runningAlternate 1],
      (timing c 0x0127).Serves 0x20 ∧ bitField (timing c 0x0127).givenArgs.a0 0 4 = (7 : GenNo).val ∧
      bitField (timing c 0x0127).givenArgs.a0 4 2 ≠ 3 ∧ (timing c 0x0127).gens[(7 : GenNo)] = c) ∧
    (stoppedAlternate 3 2).running = false ∧ (runningAlternate 1).running = true := by decide +kernel

theorem witness_GenStartStartsPhaseA :
    (timing (stoppedAlternate 3 2) 8).Serves 0x21 ∧ 8 ≤ (timing (stoppedAlternate 3 2) 8).givenArgs.a0.toNat ∧
    (∀ c ∈ [stoppedAlternate 0 2, stoppedAlternate 3 0, stoppedAlternate 1 1, runningAlternate 1],
      (timing c 7).Serves 0x21 ∧ (timing c 7).givenArgs.a0.toNat = (7 : GenNo).val ∧
      (timing c 7).gens[(7 : GenNo)] = c) ∧
    (stoppedAlternate 0 2).periodA = 0 ∧
    ((stoppedAlternate 3 0).mode = .alternate ∧ (stoppedAlternate 3 0).periodB = 0) ∧
    ((stoppedAlternate 1 1).periodA ≠ 0 ∧ (stoppedAlternate 1 1).periodB ≠ 0) ∧
    (runningAlternate 1).running = true := by decide +kernel

theorem witness_GenStopAndGenRead :
    ∀ c ∈ [stoppedAlternate 3 2, runningAlternate 1],
      (timing c 8).Serves 0x22 ∧ (timing c 8).Serves 0x23 ∧ 8 ≤ (timing c 8).givenArgs.a0.toNat ∧
      (timing c 7).Serves 0x22 ∧ (timing c 7).Serves 0x23 ∧
      (timing c 7).givenArgs.a0.toNat = (7 : GenNo).val := by decide +kernel

theorem witness_TicksReachGenerators :
    (∀ s ∈ [alternating .a 1, alternating .b 2, { alternating .a 1 with tickLine := true }],
      s.inReset = false ∧ s.BindingMap ∧ s.HeadWaitExact) ∧
    ((alternating .a 1).expiryReaches .internal 2 30 = true ∧ (alternating .a 1).gens[(2 : GenNo)].running = true ∧
      (alternating .a 1).gens[(2 : GenNo)].remaining = 1) ∧
    ((alternating .b 2).gens[(2 : GenNo)].remaining ≠ 1 ∧ (alternating .b 2).gens[(7 : GenNo)].running = false) ∧
    (alternating .a 1).tickLine = false ∧ { alternating .a 1 with tickLine := true }.tickLine = true ∧
    (alternating .a 1).tickLevel = false ∧
    (rising95.BindingMap ∧ rising95.HeadWaitExact ∧ rising95.tickLevel = true ∧ rising95.tickLine = false) :=
  ⟨by decide +kernel, by decide +kernel, by decide +kernel, rfl, rfl, rfl, by decide +kernel⟩

/-! #### The arbiter and the engine -/

/-- A head wait: record 95 eligible, 31 notices queued, enable ON. -/
def headWait : State :=
  { queued (holding [(95, record .armed window 1 1)]) (crowd 31) with enable := true, activity := .stalled }

theorem witness_EngineGoAndEngineStop :
    (∀ s ∈ [State.reset, headWait, held95], s.Serves 0x30 ∧ s.Serves 0x31) ∧
    State.reset.activity = .idle ∧ (headWait.activity = .stalled ∧ headWait.activation = none) ∧
    held95.activity = .running := by decide +kernel

/-- The link of 7.9 with record 5 as `r`. -/
def linkTo (stage : Stage) (queue : List Notice) (r : Record) : State := (linked stage queue).setRecord 5 r

theorem witness_EngineStopEndsLinkWait :
    (∀ r ∈ [record .held window 12 0, record .armed window 12 4, { record .armed window 12 0 with gen := 2 }],
      let s := linkTo .waiting (crowd 31) r
      s.Serves 0x31 ∧ s.activity = .stalled ∧ SortedQueue s.notices.queue ∧ s.records[(5 : RecNo)] = r ∧
      s.activation = some ⟨1, none, none, some ⟨⟨2, 1⟩, 2, ⟨5, 1⟩, .waiting⟩⟩) ∧
    ((record .armed window 12 4).state = .armed ∧ (record .armed window 12 4).gen = 1) ∧
    (record .held window 12 0).state ≠ .armed := ⟨by decide +kernel, by decide +kernel, by decide +kernel⟩

/-- 5.8: ranks 1, records 3 and 7, enable ON, and a queue. -/
def choosing (queue : List Notice) : State :=
  { queued (holding [(3, record .armed { EditFields.default with rank := 1 } 9 2),
      (7, record .armed { EditFields.default with rank := 1 } 9 1)]) queue with enable := true }

theorem witness_HeadStartOfChosenRecord :
    ((choosing (crowd 30)).inReset = false ∧ (choosing (crowd 30)).enable = true ∧
      (choosing (crowd 30)).activity = .idle ∧ (choosing (crowd 30)).notices.queue.length ≤ 30) ∧
    (choosing (crowd 30)).IsChosenHead 3 ∧
    { choosing (crowd 30) with pointers := (choosing (crowd 30)).pointers.set 1 3 }.IsChosenHead 7 ∧
    (State.reset.enable = false ∧ headWait.activity ≠ .idle) ∧
    (∀ n : RecNo, ¬{ State.reset with enable := true }.records[n].IsEligible) ∧
    ((choosing (crowd 31)).inReset = false ∧ (choosing (crowd 31)).enable = true ∧
      (choosing (crowd 31)).activity = .idle) ∧
    (∃ n : RecNo, (choosing (crowd 31)).records[n].IsEligible) ∧ 30 < (choosing (crowd 31)).notices.queue.length := by
  and_intros <;> decide +kernel

/-- The link of 7.9 due at a depth, with enable and record 5 given. -/
def dueAt (depth : Nat) (enable : Bool) (queue : List Notice) (r : Record) : State :=
  { linkTo .due queue r with
    enable := enable, activation := some ⟨depth, none, none, some ⟨⟨2, 1⟩, 2, ⟨5, 1⟩, .due⟩⟩ }

theorem witness_LinkResolutionBeforeTheCheck :
    (∀ s ∈ [dueAt 12 true (crowd 31) (record .armed window 12 0), dueAt 11 false [] (record .armed window 12 4),
        dueAt 11 false (crowd 31) (record .held window 12 0), dueAt 11 true (crowd 31) (record .armed window 12 0)],
      s.inReset = false ∧ SortedQueue s.notices.queue ∧
      s.activation.any (fun a => a.link == some ⟨⟨2, 1⟩, 2, ⟨5, 1⟩, .due⟩) = true) ∧
    (dueAt 12 true (crowd 31) (record .armed window 12 0)).activation.any (·.depth == 12) = true ∧
    ((dueAt 11 false [] (record .armed window 12 4)).activation.any (·.depth == 11) = true ∧
      (dueAt 11 false [] (record .armed window 12 4)).enable = false) ∧
    ((dueAt 11 true (crowd 31) (record .armed window 12 0)).enable = true ∧
      30 < (dueAt 11 true (crowd 31) (record .armed window 12 0)).notices.queue.length) := by
  and_intros <;> decide +kernel

theorem witness_LinkResolutionChecksSuccessor :
    ∀ r ∈ [record .armed window 12 0, record .held window 12 0, { record .armed window 12 0 with gen := 2 }],
      let s := dueAt 11 true (crowd 30) r
      s.inReset = false ∧ s.activation = some ⟨11, none, none, some ⟨⟨2, 1⟩, 2, ⟨5, 1⟩, .due⟩⟩ ∧
      SortedQueue s.notices.queue ∧ s.enable = true ∧ s.notices.queue.length ≤ 30 ∧ s.records[(5 : RecNo)] = r := by
  decide +kernel

/-- A deferred command about to be applied to record 95 on its active HIGH line. -/
def afresh (kind : DeferredKind) (r : Record) : State :=
  { onHigh r with
    enable := true, activity := .running, activation := some ⟨1, none, some ⟨kind, ⟨95, 1⟩⟩, none⟩
    port.state := .waiting kind.command }

theorem witness_DeferredCommandAppliedAfresh :
    (∀ kind ∈ [DeferredKind.hold, .retire], ∀ r ∈ [record .armed window 6 0, record .spent window 0 0, faulted],
      let s := afresh kind r
      s.inReset = false ∧ s.activation = some ⟨1, none, some ⟨kind, ⟨95, 1⟩⟩, none⟩ ∧ s.port.stopHandle = none ∧
      s.BindingMap ∧ s.NamesRecord (Handle.mk 95 1).word 95 ∧ s.records[(95 : RecNo)] = r) ∧
    (let s := (afresh .hold (record .armed window 6 0)).freeRecord 95
     s.inReset = false ∧ s.activation = some ⟨1, none, some ⟨.hold, ⟨95, 1⟩⟩, none⟩ ∧ s.port.stopHandle = none ∧
     s.BindingMap ∧ s.StaleHandle (Handle.mk 95 1).word 95) := ⟨by decide +kernel, by decide +kernel⟩

/-! #### Units and the bus -/

theorem witness_RequestRaisedAndGrantTaken :
    (∀ s ∈ [State.reset, held95, owning held95 .requesting, underWay held95 .read], s.inReset = false) ∧
    (held95.bus.ownership = .released ∧ held95.bus.request ≠ none ∧ held95.bus.spacing = 0 ∧
      State.reset.bus.request = none ∧ (counting held95 0 0 1).bus.spacing ≠ 0) ∧
    ((owning held95 .requesting).bus.ownership = .requesting ∧ (owning held95 .requesting).bus.slave = none) ∧
    (underWay held95 .read).bus.ownership ≠ .requesting ∧
    { owning held95 .requesting with bus.slave := some ⟨none⟩ }.bus.slave ≠ none := by decide +kernel

/-- One unit under way. -/
def unitUnderWay (half : Half) (unit : UnitSize) (src dst : Addr) : State :=
  underWay (serving 95 (record .armed { EditFields.default with unit := unit } 2 0) src dst 0) half

theorem witness_ReadCompleteCapturesTheUnit :
    (∀ s ∈ [unitUnderWay .read .word 0xFFFFFE 0, unitUnderWay .read .byte 0 1, unitUnderWay .read .byte 1 0],
      s.inReset = false ∧ s.bus.ownership = .owner ∧ s.bus.access = some .read) ∧
    (unitUnderWay .read .word 0xFFFFFE 0).bus.request = some ⟨.word, 0xFFFFFE, 0⟩ ∧
    (unitUnderWay .read .byte 0 1).bus.request = some ⟨.byte, 0, 1⟩ ∧
    (unitUnderWay .read .byte 1 0).bus.request = some ⟨.byte, 1, 0⟩ := by decide +kernel

theorem witness_WriteCompleteCountsTheUnit :
    ∀ s ∈ [unitUnderWay .write .word 0xFFFFFE 0, unitUnderWay .write .byte 0xFFFFFF 0xFFFFFF, underWay held95 .write],
      s.inReset = false ∧ s.bus.ownership = .owner ∧ s.bus.access = some .write ∧
      s.working.any (fun w => w.endCause == none) = true := by decide +kernel

theorem witness_AccessErrorEndsTheService :
    ∀ half ∈ [Half.read, .write], (underWay held95 half).inReset = false ∧
      (underWay held95 half).bus.ownership = .owner ∧ (underWay held95 half).bus.access = some half ∧
      (underWay held95 half).working ≠ none := by decide +kernel

/-! #### The write-back -/

/-- Record 95's service ended, under a policy, a notice policy and a successor. -/
def ending (policy : Policy) (notice : NoticePolicy) (succ : Option Successor) (c : EndCause) : State :=
  ended (serving 95 (record .armed { window with
    reload := some 8, policy := policy, notice := notice, successor := succ } 4 0) 0x300008 0x020108
    (if c = .exhausted then 4 else 3)) c

/-- The activation of `s` holds a service that ended by `c` with no command deferred. -/
def endedBy (s : State) (c : EndCause) (deferred : Option Deferred) : Bool :=
  s.activation.any fun a => a.deferred == deferred && a.work.any fun w => w.endCause == some c

theorem witness_WriteBackStoresProgress :
    ∀ policy ∈ [Policy.park, .retire, .reload], ∀ c ∈ [EndCause.exhausted, .quantum, .cut],
      let s := ending policy .each none c
      s.inReset = false ∧ endedBy s c none = true ∧ c.isFault = false ∧ s.BindingMap ∧
      s.working.any (fun w => w.edit.policy == policy) = true := by decide +kernel

theorem witness_WriteBackPostsOutcome :
    ∀ notice ∈ [NoticePolicy.none, .onEnd, .each], ∀ c ∈ [EndCause.exhausted, .quantum, .cut],
      let s := ending .park notice none c
      s.inReset = false ∧ endedBy s c none = true ∧ c.isFault = false ∧ SortedQueue s.notices.queue ∧
      s.working.any (fun w => w.edit.notice == notice) = true := by decide +kernel

/-- A command deferred against record 95. -/
def withDeferred (s : State) (d : Deferred) : State :=
  { s with
    activation := s.activation.map fun a => { a with deferred := some d }
    port.state := .waiting d.kind.command }

theorem witness_WriteBackContinues :
    (∀ x ∈ [none, some (Successor.mk .always ⟨5, 1⟩), some ⟨.onExhausted, ⟨5, 1⟩⟩, some ⟨.onRemaining, ⟨5, 1⟩⟩],
      ∀ c ∈ [EndCause.exhausted, .quantum],
      let s := ending .park .each x c
      s.inReset = false ∧ endedBy s c none = true ∧ c.isFault = false ∧
      s.working.any (fun w => w.edit.successor == x) = true) ∧
    (∀ c ∈ [EndCause.exhausted, .cut],
      endedBy (withDeferred (ending .park .each none c) ⟨.hold, ⟨95, 1⟩⟩) c (some ⟨.hold, ⟨95, 1⟩⟩) = true) ∧
    conditionMatches .onExhausted .exhausted = true ∧ conditionMatches .onExhausted .quantum = false :=
  ⟨by decide +kernel, by decide +kernel, rfl, rfl⟩

theorem witness_FaultWriteBackLeavesFaulted :
    ∀ f ∈ [EndCause.fault .busRead 0x300008, .fault .busWrite 0x020108, .fault .range 0xFFFFFF],
      let s := ending .park .none none f
      let t := withDeferred s ⟨.retire, ⟨95, 1⟩⟩
      (s.inReset = false ∧ endedBy s f none = true ∧ SortedQueue s.notices.queue) ∧
      t.inReset = false ∧ endedBy t f (some ⟨.retire, ⟨95, 1⟩⟩) = true ∧ SortedQueue t.notices.queue := by
  decide +kernel

/-- The end of an activation that an ENGINE_STOP waits for, in the statements of the write-backs and of the link's
resolution. -/
theorem witness_ActivationEnds_with_stop :
    (∀ c ∈ [EndCause.quantum, .exhausted, .fault .busWrite 0x020110],
      (stopping c).inReset = false ∧ endedBy (stopping c) c none = true ∧ SortedQueue (stopping c).notices.queue ∧
      (stopping c).working.any (fun w => w.edit.successor == none) = true ∧
      (stopping c).port.stopHandle = some 0x0105) ∧
    { dueAt 11 false (crowd 31) (record .held window 12 0) with port.stopHandle := some 0x0105 }.port.stopHandle =
      some 0x0105 := ⟨by decide +kernel, rfl⟩

theorem witness_StepsWithoutConditionDoNothing :
    (isAccess (.take ⟨0x34, ⟨true, true⟩⟩) = true ∧ ¬(underWay held95 .read).Listens ∧
      ¬{ State.reset with holdOff := 1 }.Listens ∧ (underWay held95 .read).port.state ≠ .busy 0x03) ∧
    (held95.inReset = false ∧ held95.bus.ownership ≠ .owner) ∧ (∀ w ∈ held95.working, w.endCause = none) ∧
    endedBy (ending .park .none none (.fault .range 0)) (.fault .range 0) none = true ∧
    endedBy (ending .park .none none .cut) .cut none = true ∧
    (∀ a ∈ (linked .waiting (crowd 31)).activation, ∀ l ∈ a.link, l.stage = .waiting) ∧
    ∀ a ∈ held95.activation, a.work ≠ none ∨ a.deferred = none := by
  and_intros <;> decide +kernel

/-! #### Notices -/

theorem witness_TakeRemovesTheHead :
    (∀ lanes ∈ [Lanes.mk true true, ⟨true, false⟩, ⟨false, true⟩], lanes.low = true ∨ lanes.high = true) ∧
    ∀ k ∈ [0, 1, 2, 3, 4],
      let s := queued State.reset (kinds.drop k)
      s.Listens ∧ s.notices.queue ≠ [] ∧ SortedQueue s.notices.queue := by
  decide +kernel

theorem witness_TakeEndsAStall :
    (∀ s ∈ [linked .waiting (crowd 31), linked .waiting (crowd 32), { headWait with notices.queue := crowd 31 },
        { headWait with notices.queue := crowd 32 }, queued held95 (crowd 1)],
      s.Listens ∧ s.notices.queue ≠ []) ∧
    ((crowd 31).tail.length ≤ 30 ∧ 30 < (crowd 32).tail.length) ∧
    (∀ a ∈ (queued held95 (crowd 1)).activation, a.inLinkWait = false) ∧
    (linked .waiting (crowd 32)).activation.any (·.inLinkWait) = true ∧
    ({ headWait with notices.queue := crowd 32 }.activation = none ∧
      { headWait with notices.queue := crowd 32 }.HeadWaitExact ∧
      { headWait with notices.queue := crowd 32 }.activity = .stalled) := by
  and_intros <;> decide +kernel

theorem witness_EmptyTakeReadsZero :
    State.reset.Listens ∧ State.reset.notices.queue = [] ∧
    FirstWordOf 0x0A8B (notice 21 1 (.fault false 5 ⟨.busRead, 0x460000⟩)) := by decide +kernel

theorem witness_PeekLoadsHoldingRegisters :
    (∀ s ∈ [State.reset, queued State.reset kinds], s.Listens) ∧
    State.reset.notices.queue = [] ∧ (queued State.reset kinds).notices.queue ≠ [] := by decide +kernel

/-- Levels in service and an argument. -/
def inService (levels : Byte) (a0 : Word) : State :=
  given (queued { State.reset with notices.inService := levels } kinds) a0 0 0

theorem witness_CloseAndSetFloor :
    (∀ s ∈ [inService 0x81 9, inService 0x81 8, inService 0x81 7, inService 0x81 0, inService 0x81 3, inService 0 8],
      s.Serves 0x40 ∧ s.Serves 0x41 ∧ SortedQueue s.notices.queue) ∧
    (9 ≤ (inService 0x81 9).givenArgs.a0.toNat ∧ (inService 0x81 8).givenArgs.a0.toNat = (8 : Fin 9).val) ∧
    ((inService 0x81 7).notices.inService.getLsbD (7 : Urgency).val = true ∧ (inService 0x81 7).givenArgs.a0.toNat = 7) ∧
    ((inService 0x81 8).notices.inService.getLsbD (0 : Urgency).val = true ∧
      ∀ m : Urgency, (inService 0x81 8).notices.inService.getLsbD m.val = true → 0 ≤ m) ∧
    (∀ l : Urgency, (inService 0x81 3).givenArgs.a0.toNat = l.val ∨ (inService 0x81 3).givenArgs.a0.toNat = 8 →
      (inService 0x81 3).notices.inService.getLsbD l.val = false) ∧
    ∀ l : Urgency, (inService 0 8).notices.inService.getLsbD l.val = false := by
  and_intros <;> decide +kernel

/-! #### Rules of the whole part -/

theorem witness_ActiveRecordKeepsStoredFields :
    exec .trigger (deferring held95) = .next (after .trigger (deferring held95)) ∧
    (deferring held95).records[(95 : RecNo)].state = .active ∧
    (after .trigger (deferring held95)).records[(95 : RecNo)].state = .active ∧
    (after .trigger (deferring held95)).records[(95 : RecNo)].latch = 1 :=
  ⟨exec_eq_after _ _, by decide +kernel, by decide +kernel, by decide +kernel⟩

theorem witness_StateChangesByItsOwnSteps :
    (exec .allocate State.reset = .next (after .allocate State.reset) ∧ Instr.allocate ≠ .pinReset) ∧
    (after .allocate State.reset).records[(0 : RecNo)].gen ≠ State.reset.records[(0 : RecNo)].gen ∧
    (after (.generatorExpiry 2) (alternating .a 1)).gens ≠ (alternating .a 1).gens ∧
    (after .engineGo State.reset).enable ≠ State.reset.enable ∧
    (after .setFloor State.reset).notices.floor ≠ State.reset.notices.floor ∧
    (after (.take ⟨0x34, ⟨true, true⟩⟩) (queued State.reset kinds)).notices.inService ≠
      (queued State.reset kinds).notices.inService ∧
    (after (.registerWrite 0x02 ⟨⟨true, true⟩, false⟩ 1) State.reset).port.args ≠ State.reset.port.args ∧
    (after .fetch (naming95 faulted 0x015F)).image ≠ (naming95 faulted 0x015F).image ∧
    (after .fetch (naming95 faulted 0x015F)).readBack ≠ (naming95 faulted 0x015F).readBack :=
  ⟨⟨exec_eq_after _ _, nofun⟩, by and_intros <;> decide +kernel⟩

/-! #### Invariants -/

/-- Record 95's service, ended by its quantum, with its write-back the next step. -/
def writingBack : State := { ended (serving 95 (record .armed window 10 2) 0x300008 0x020108 4) .quantum with
  pending := [.writeBack] }

/-- For NoteExactInEveryStep, QueueNeverOverflows, BindingMapInEveryStep, HeadWaitExactInEveryStep,
GeneratorsSoundInEveryStep and StandingTriggersInEveryStep: each invariant holds of a state in mid-activation that a
run reaches, and the step that follows is a write-back. -/
theorem witness_invariants :
    step writingBack = .next (after .writeBack { writingBack with pending := [] }) ∧
    writingBack.notices.Exact ∧ writingBack.QueueRoomKept ∧ writingBack.BindingMap ∧ writingBack.HeadWaitExact ∧
    (∀ g : GenNo, writingBack.gens[g].Sound) ∧ writingBack.StandingTriggersSet ∧ writingBack.ResetHeld :=
  ⟨step_eq_after .writeBack _, by and_intros <;> decide +kernel⟩

/-- The same state; its step is the one of `witness_invariants`. -/
theorem witness_EngineCoherentInEveryStep : writingBack.EngineCoherent := by
  and_intros <;> decide +kernel

/-- The same state; its step is the one of `witness_invariants`. -/
theorem witness_ServiceSoundInEveryStep : writingBack.ServiceSound :=
  ⟨witness_EngineCoherentInEveryStep, by decide +kernel, by decide +kernel, by decide +kernel⟩

/-- The invariants of the binding unit, the generators and the notice unit hold where they have something to
say: an active level line, a running generator, a queue of every kind of notice, a head wait. -/
theorem witness_unit_invariants :
    ((onHigh (record .armed window 10 1)).BindingMap ∧ (onHigh (record .armed window 10 1)).OnActiveLevelLine 95 ∧
      (onHigh (record .armed window 10 1)).StandingTriggersSet ∧ (onHigh (record .armed window 10 1)).ResetHeld) ∧
    (∀ g : GenNo, (alternating .b 2).gens[g].Sound) ∧
    ((queued State.reset kinds).notices.Exact ∧ (queued State.reset (crowd 32)).QueueRoomKept) ∧
    (headWait.HeadWaitExact ∧ headWait.HeadWaitCondition) := by
  and_intros <;> decide +kernel

end Sys2Proof.Tests
end

