-- ==== Sys2Proof/Proofs/UnbindAndBindRead.lean ====
section
/-! UNBIND and BIND_READ (03_request_sources_and_bindings.md 3.4): what each claim does by the source argument and the
entry it finds, the layout of BIND_READ's RVAL1, and the statement about the two commands. -/

namespace Sys2Proof.Machine

/-! ### The source argument -/

/-- A register value above 39 names no source (R60, R61). -/
theorem sourceArg_outOfRange {w : Word} (h : 40 ≤ w.toNat) : sourceArg w = none :=
  dif_neg (Nat.not_lt.mpr h)

/-- The source a register value names. -/
theorem sourceArg_of_num {w : Word} {k : SourceNo} (h : w.toNat = k.val) : sourceArg w = some k := by
  have lt : w.toNat < 40 := h ▸ k.isLt
  rw [sourceArg, dif_pos lt]
  exact congrArg some (Fin.ext h)

/-! ### A completion with no other effect -/

/-- A served command that only completes leaves what `State.replied` describes (R184). -/
theorem State.served_complete (s : State) (code : Byte) (a : Reply) :
    (s.served code).complete code a = s.replied code a.result a.rval0 a.rval1 :=
  State.complete_eq a rfl

/-! ### UNBIND -/

/-- UNBIND, taken, is its claim. -/
theorem exec_unbind_of_serves {s : State} (h : s.Serves codeUnbind) :
    exec .unbind s = .next (s.served codeUnbind).unbindClaim := by
  rw [← State.command_of_serves h State.unbindClaim]
  rfl

theorem State.unbindClaim_outOfRange {s : State} (h : 40 ≤ s.arg0.toNat) :
    s.unbindClaim = s.complete codeUnbind (.bare .range) := by
  simp only [State.unbindClaim, sourceArg_outOfRange h]

theorem State.unbindClaim_empty {s : State} {k : SourceNo} (num : s.arg0.toNat = k.val)
    (empty : s.bindings[k] = none) : s.unbindClaim = s.complete codeUnbind (.bare .unbound) := by
  simp only [State.unbindClaim, sourceArg_of_num num, empty]

theorem State.unbindClaim_bound {s : State} {k : SourceNo} {b : Binding} (num : s.arg0.toNat = k.val)
    (bound : s.bindings[k] = some b) : s.unbindClaim =
      (s.setBinding k none).complete codeUnbind ⟨.ok, b.handle.word, BitVec.ofNat 16 b.sense.code⟩ := by
  simp only [State.unbindClaim, sourceArg_of_num num, bound]

/-! ### BIND_READ -/

/-- BIND_READ, taken, is its claim. -/
theorem exec_bindRead_of_serves {s : State} (h : s.Serves codeBindRead) :
    exec .bindRead s = .next (s.served codeBindRead).bindReadClaim := by
  rw [← State.command_of_serves h State.bindReadClaim]
  rfl

theorem State.bindReadClaim_outOfRange {s : State} (h : 40 ≤ s.arg0.toNat) :
    s.bindReadClaim = s.complete codeBindRead (.bare .range) := by
  simp only [State.bindReadClaim, sourceArg_outOfRange h]

theorem State.bindReadClaim_source {s : State} {k : SourceNo} (num : s.arg0.toNat = k.val) :
    s.bindReadClaim = s.complete codeBindRead ⟨.ok, entryWord s.bindings[k], s.bindReadWord k⟩ := by
  simp only [State.bindReadClaim, sourceArg_of_num num]

/-! ### The word of BIND_READ -/

theorem Sense.code_lt (sense : Sense) : sense.code < 4 := by
  cases sense <;> decide

/-- The sense code an entry shows, 0 when it is empty (R61). -/
def entrySense (e : Option Binding) : Nat := (e.map (·.sense.code)).getD 0

theorem entrySense_lt (e : Option Binding) : entrySense e < 4 := by
  cases e with
  | none => decide
  | some b => exact b.sense.code_lt

/-- The level a source shows: its line's sample, 0 for a generator source (R61). -/
theorem State.lineLevel_toNat (s : State) (k : SourceNo) :
    (s.lineLevel k).toNat = if k.val < 32 then (s.lines.getLsbD k.val).toNat else 0 := by
  unfold State.lineLevel
  split
  · next line => simp [line]
  · next generator => simp [generator]

/-- RVAL1 of BIND_READ: the sense in bits 1:0, the level in bit 8, the other bits 0 (R61, R191). -/
theorem State.bindReadWord_fields (s : State) (k : SourceNo) :
    bitField (s.bindReadWord k) 0 2 = entrySense s.bindings[k] ∧ bitField (s.bindReadWord k) 2 6 = 0 ∧
    bitField (s.bindReadWord k) 8 1 = (s.lineLevel k).toNat ∧ bitField (s.bindReadWord k) 9 7 = 0 := by
  have sense := entrySense_lt s.bindings[k]
  have level : (s.lineLevel k).toNat < 2 := Bool.toNat_lt _
  have value : (s.bindReadWord k).toNat = entrySense s.bindings[k] + (s.lineLevel k).toNat * 256 := by
    change (BitVec.ofNat 16 (entrySense s.bindings[k] + (s.lineLevel k).toNat * 256)).toNat = _
    rw [BitVec.toNat_ofNat, Nat.mod_eq_of_lt (by omega)]
  simp only [bitField, value]
  omega

/-! ### The statement -/

/-- UNBIND's three courses (R60). -/
theorem unbind_courses {s : State} (h : s.Serves codeUnbind) :
    (40 ≤ s.givenArgs.a0.toNat → exec .unbind s = .next (s.replied codeUnbind .range 0 0)) ∧
    ∀ k : SourceNo, s.givenArgs.a0.toNat = k.val →
      (s.bindings[k] = none → exec .unbind s = .next (s.replied codeUnbind .unbound 0 0)) ∧
      ∀ b ∈ s.bindings[k], exec .unbind s = .next { s with
        bindings := s.bindings.set k none
        bus := s.busAfter
        port := s.answered codeUnbind .ok b.handle.word (BitVec.ofNat 16 b.sense.code) } := by
  rw [exec_unbind_of_serves h]
  refine ⟨fun above => ?_, fun k num => ⟨fun empty => ?_, fun b bound => ?_⟩⟩
  · rw [State.unbindClaim_outOfRange (s := s.served codeUnbind) above, State.served_complete]
    rfl
  · rw [State.unbindClaim_empty (s := s.served codeUnbind) num empty, State.served_complete]
    rfl
  · rw [State.unbindClaim_bound (s := s.served codeUnbind) num bound,
      State.complete_eq (s := s) _ (State.setBinding_port ..)]
    rfl

/-- BIND_READ of a source reports its entry and its level, and nothing else changes (R61). -/
theorem bindRead_source {s : State} (h : s.Serves codeBindRead) {k : SourceNo} (num : s.givenArgs.a0.toNat = k.val) :
    exec .bindRead s = .next (s.replied codeBindRead .ok (entryWord s.bindings[k]) (s.bindReadWord k)) := by
  rw [exec_bindRead_of_serves h, State.bindReadClaim_source (s := s.served codeBindRead) num,
    State.served_complete]
  rfl

/-- BIND_READ above source 39 (R61). -/
theorem bindRead_outOfRange {s : State} (h : s.Serves codeBindRead) (above : 40 ≤ s.givenArgs.a0.toNat) :
    exec .bindRead s = .next (s.replied codeBindRead .range 0 0) := by
  rw [exec_bindRead_of_serves h, State.bindReadClaim_outOfRange (s := s.served codeBindRead) above,
    State.served_complete]
  rfl

/-- Settles O24, by the claims' courses above: each command is its claim on the served state, split by the source
argument and the entry. -/
theorem unbindAndBindRead : Obligations.UnbindAndBindRead := by
  unfold Obligations.UnbindAndBindRead
  refine ⟨fun s serves => unbind_courses serves, fun s serves => ⟨bindRead_outOfRange serves, fun k num => ?_⟩⟩
  obtain ⟨sense, low, level, high⟩ := s.bindReadWord_fields k
  refine ⟨_, bindRead_source serves num, rfl, fun empty => ⟨?_, ?_⟩, fun b bound => ⟨?_, ?_⟩, low, high, ?_⟩
  · exact congrArg entryWord empty
  · exact sense.trans (congrArg entrySense empty)
  · exact congrArg entryWord bound
  · exact sense.trans (congrArg entrySense bound)
  · exact level.trans (s.lineLevel_toNat k)

end Sys2Proof.Machine
end

