-- ==== Sys2Proof/Proofs/EmptyTakeReadsZero.lean ====
section
/-! A read of NTAKE (09_notices.md 9.3): what a read access at NTAKE is by its lanes, what it does to a part with the
queue empty, and the statement about such a read. -/

namespace Sys2Proof.Machine

/-! ### The notice unit with the queue empty -/

/-- The first notice word is 0 (R166). -/
theorem NoticeUnit.headWord_empty {u : NoticeUnit} (empty : u.queue = []) : u.headWord = 0 := by
  simp only [NoticeUnit.headWord, empty]

/-- The holding registers are zeroed (R166). -/
theorem NoticeUnit.loadHolding_empty {u : NoticeUnit} (empty : u.queue = []) :
    u.loadHolding = { u with nhHandle := 0, nhUnits := 0, nhAux := 0, nhAddrL := 0 } := by
  simp only [NoticeUnit.loadHolding, empty]

/-- A take is the load of the holding registers (R166). -/
theorem NoticeUnit.taken_empty {u : NoticeUnit} (empty : u.queue = []) : u.taken = u.loadHolding := by
  simp only [NoticeUnit.taken, empty]

/-- A take is a peek: there is no head to remove, and no stall that a room made could end (R164, R166). -/
theorem State.takeClaim_empty {s : State} (empty : s.notices.queue = []) : s.takeClaim = s.peekClaim := by
  simp only [State.takeClaim, State.peekClaim, empty, NoticeUnit.taken_empty empty]

theorem State.peekClaim_empty {s : State} (empty : s.notices.queue = []) : s.peekClaim = { s with
    notices := { s.notices with nhHandle := 0, nhUnits := 0, nhAux := 0, nhAddrL := 0 } } := by
  rw [State.peekClaim, NoticeUnit.loadHolding_empty empty]

/-! ### A read access at NTAKE -/

/-- NTAKE reads as the first notice word (10.7). -/
theorem State.readWindow_ntake (s : State) : s.readWindow 0x34 = s.notices.headWord := by
  simp [State.readWindow]

/-- The claim of a read of NTAKE: a take, or with neither lane strobe a peek (log 8). -/
theorem readClaim_ntake (lanes : Lanes) : readClaim ⟨0x34, lanes⟩ =
    if lanes.low || lanes.high then State.takeClaim else State.peekClaim := by
  simp [readClaim]

/-- With the queue empty it is the peek, whatever the lanes. -/
theorem readClaim_ntake_empty {s : State} (empty : s.notices.queue = []) (lanes : Lanes) :
    readClaim ⟨0x34, lanes⟩ s = s.peekClaim := by
  rw [readClaim_ntake]
  split
  · exact State.takeClaim_empty empty
  · rfl

/-- A read the part serves is answered with its register's word and is its claim (R195). -/
theorem exec_take_of_listens {s : State} (listens : s.Listens) (access : ReadAccess) :
    exec (.take access) s =
      .next (readClaim access (s.answerAccess (some (s.readWindow access.offset)))) := by
  rw [← State.slaveAccess_served listens _ (readClaim access)]
  rfl

/-! ### The kind of a notice -/

/-- Every kind but EMPTY has a code of 1 or more (R166, R191). -/
theorem NoticeKind.code_pos (kind : NoticeKind) : 1 ≤ kind.code := by
  cases kind <;> simp [NoticeKind.code]

/-! ### The statement -/

/-- A read of NTAKE with the queue empty drives 0 and zeroes the holding registers, and nothing else changes (R166). -/
theorem exec_take_empty {s : State} (listens : s.Listens) (empty : s.notices.queue = []) (lanes : Lanes) :
    exec (.take ⟨0x34, lanes⟩) s = .next { s with
      notices := { s.notices with nhHandle := 0, nhUnits := 0, nhAux := 0, nhAddrL := 0 }
      bus.slave := some ⟨some 0⟩ } := by
  have emptyAnswered (driven : Option Word) : (s.answerAccess driven).notices.queue = [] := empty
  rw [exec_take_of_listens listens, State.readWindow_ntake, NoticeUnit.headWord_empty empty,
    readClaim_ntake_empty (emptyAnswered _), State.peekClaim_empty (emptyAnswered _)]
  rfl

/-- Settles O47: the read by `exec_take_empty`; the first word of a notice by its kind, no code of which is 0. -/
theorem emptyTakeReadsZero : Obligations.EmptyTakeReadsZero := by
  unfold Obligations.EmptyTakeReadsZero
  refine ⟨fun s lanes listens empty => exec_take_empty listens empty lanes, fun n w ⟨kind, _⟩ => ?_⟩
  rw [kind]
  exact n.kind.code_pos

end Sys2Proof.Machine
end

