-- ==== Sys2Proof/Proofs/UnknownCodeCompletesItself.lean ====
section
/-! UNKNOWN (10_command_port.md 10.2): which codes are unassigned, what the port answers to one, the layout of RESULT,
and the statement about the command. -/

namespace Sys2Proof.Machine

/-! ### The assigned codes -/

/-- The codes of the host command rows are those the CMD table assigns (R191). -/
theorem commandRows_codes : commandRows.map Prod.snd = assignedCodes := rfl

/-- The part completes by itself the codes that table leaves out, and only those (R183). -/
theorem codeAssigned_iff (code : Byte) : codeAssigned code = true ↔ code ∈ assignedCodes :=
  List.contains_iff_mem

theorem wellFormed_unknown_iff (code : Byte) : WellFormed (.unknown code) = true ↔ code ∉ assignedCodes := by
  simp [WellFormed]

/-- A code is unassigned when no host command row has it (R183). -/
theorem not_mem_assignedCodes_iff (code : Byte) : code ∉ assignedCodes ↔ ∀ p ∈ commandRows, p.2 ≠ code := by
  rw [← commandRows_codes, List.mem_map]
  exact ⟨fun unassigned p row same => unassigned ⟨p, row, same⟩, fun other ⟨p, row, same⟩ => other p row same⟩

/-! ### UNKNOWN -/

/-- UNKNOWN, taken, is its claim. -/
theorem exec_unknown_of_serves {s : State} {code : Byte} (h : s.Serves code) :
    exec (.unknown code) s = .next (State.unknownClaim code (s.served code)) := by
  rw [← State.command_of_serves h (State.unknownClaim code)]
  rfl

/-- An unassigned code is completed with UNKNOWN (R183). -/
theorem State.unknownClaim_unassigned {code : Byte} (unassigned : code ∉ assignedCodes) (s : State) :
    s.unknownClaim code = s.complete code (.bare .unknown) := by
  rw [State.unknownClaim, if_neg (mt (codeAssigned_iff code).mp unassigned)]

/-- UNKNOWN of an unassigned code answers 10 with RVAL0 and RVAL1 at 0, and nothing else changes (R183). -/
theorem exec_unknown_unassigned {s : State} {code : Byte} (unassigned : code ∉ assignedCodes) (h : s.Serves code) :
    exec (.unknown code) s = .next (s.replied code .unknown 0 0) := by
  rw [exec_unknown_of_serves h, State.unknownClaim_unassigned unassigned, State.served_complete]
  rfl

/-! ### RESULT and REFUSED after a completion -/

theorem ResultCode.code_lt (result : ResultCode) : result.code < 256 := by
  cases result <;> decide

/-- RESULT holds the result code in bits 7:0 and the command's code in bits 15:8 (R184). -/
theorem State.replied_result_bytes (s : State) (code : Byte) (result : ResultCode) (rval0 rval1 : Word) :
    (s.replied code result rval0 rval1).port.result.toNat % 256 = result.code ∧
    (s.replied code result rval0 rval1).port.result.toNat / 256 = code.toNat := by
  have low := result.code_lt
  have high := code.isLt
  have value : (s.replied code result rval0 rval1).port.result.toNat = result.code + code.toNat * 256 :=
    Nat.mod_eq_of_lt (by omega)
  omega

/-- A command accepted from READY has cleared REFUSED (R181). -/
theorem State.refusedAfter_ready {s : State} (ready : s.port.state = .ready) : s.refusedAfter = false := by
  simp only [State.refusedAfter, ready]

/-! ### The statement -/

/-- Settles O7: the three tables of codes are one, and UNKNOWN's claim, on a code outside it, is a bare completion. -/
theorem unknownCodeCompletesItself : Obligations.UnknownCodeCompletesItself := by
  unfold Obligations.UnknownCodeCompletesItself
  refine ⟨(wellFormed_unknown_iff 0x00).mpr (by decide),
    fun code => (wellFormed_unknown_iff code).trans (not_mem_assignedCodes_iff code),
    fun s code wellFormed serves => ?_⟩
  have unassigned := (wellFormed_unknown_iff code).mp wellFormed
  obtain ⟨result, codeByte⟩ := s.replied_result_bytes code .unknown 0 0
  exact ⟨_, exec_unknown_unassigned unassigned serves, rfl, result, codeByte, State.refusedAfter_ready⟩

end Sys2Proof.Machine
end

