-- ==== Sys2Proof/Proofs/Footprints.lean ====
section
/-! What each step may change: a step as a function of the state, the fields of the state a rule of the whole part
speaks of, and for each row the fields it may change. -/

namespace Sys2Proof.Machine

/-! ### A step as a function -/

/-- The state a row leaves: `exec` without its outcome, which is always `next`. -/
def effect (i : Instr) (s : State) : State :=
  match exec i s with
  | .next t => t
  | .fault r => nomatch r
  | .refused _ => s

/-- Every row answers a next state (log 1). -/
theorem exec_eq_next (i : Instr) (s : State) : exec i s = .next (effect i s) := by
  cases i <;> rfl

theorem effect_of_exec {i : Instr} {s t : State} (h : exec i s = .next t) : t = effect i s := by
  rw [exec_eq_next] at h
  exact (Host.Outcome.next.inj h).symm

/-- A step with a row in front of the queue is that row, taken with the queue's rest. -/
theorem step_pending (s : State) (c : Instr) (rest : List Instr) :
    step { s with pending := c :: rest } = exec c { s with pending := rest } := rfl

/-- A step is the row in front, or an edge of CLK. -/
theorem step_eq (s : State) : step s = .next (match s.pending with
    | [] => s.clockEdge
    | c :: rest => effect c { s with pending := rest }) := by
  unfold step
  cases s.pending with
  | nil => rfl
  | cons c rest => exact exec_eq_next c _

/-- What an edge of CLK keeps, and each row, and the queue's advance, every step keeps. -/
theorem step_keeps {P : State → Prop} (queue : ∀ (s : State) (q : List Instr), P s → P { s with pending := q })
    (clock : ∀ s : State, P s → P s.clockEdge) (row : ∀ (i : Instr) (s : State), P s → P (effect i s))
    {s t : State} (h : P s) (steps : step s = .next t) : P t := by
  rw [step_eq] at steps
  obtain rfl := Host.Outcome.next.inj steps
  cases s.pending with
  | nil => exact clock s h
  | cons c rest => exact row c _ (queue s rest h)

/-- Settles O1: `step` on a queue that is not empty, unfolded. -/
theorem stepRunsFrontCommand : Obligations.StepRunsFrontCommand := by
  unfold Obligations.StepRunsFrontCommand
  exact fun c rest s => step_pending s c rest

/-! ### Commands and accesses, by what they find -/

/-- A command's row is its owner's claim, or a refusal, or nothing. -/
theorem State.command_cases (s : State) (code : Byte) (owner : State → State) :
    (s.Serves code ∧ s.command code owner = owner (s.served code)) ∨
    (s.Listens ∧ s.command code owner = (s.answerAccess none).refuseWrite) ∨ s.command code owner = s := by
  by_cases serves : s.Serves code
  · exact .inl ⟨serves, State.command_of_serves serves owner⟩
  by_cases listens : s.Listens
  · refine .inr (.inl ⟨listens, State.command_of_occupied listens ?_ owner⟩)
    cases port : s.port.state with
    | ready => exact absurd (Or.inl ⟨port, listens⟩) serves
    | waiting c => exact .inl ⟨c, rfl⟩
    | busy c => exact .inr ⟨c, rfl, fun same => serves (.inr ⟨by rw [port, same], listens.1⟩)⟩
  · by_cases asserted : s.inReset = true
    · exact .inr (.inr (State.command_of_asserted asserted code owner))
    · have other : s.port.state ≠ .busy code := fun busy => serves (.inr ⟨busy, by simpa using asserted⟩)
      exact .inr (.inr (State.command_unanswered listens other owner))

/-- An access is its claim on the answered state, or nothing. -/
theorem State.slaveAccess_cases (s : State) (driven : Option Word) (claim : State → State) :
    (s.Listens ∧ s.slaveAccess driven claim = claim (s.answerAccess driven)) ∨ s.slaveAccess driven claim = s := by
  by_cases listens : s.Listens
  · exact .inl ⟨listens, State.slaveAccess_served listens driven claim⟩
  · exact .inr (State.slaveAccess_unanswered listens driven claim)

/-- An event of the part is its claim, or nothing while RESET_n is asserted. -/
theorem State.unlessReset_cases (s : State) (claim : State → State) :
    (s.inReset = false ∧ s.unlessReset claim = claim s) ∨ s.unlessReset claim = s := by
  cases negated : s.inReset with
  | false => exact .inl ⟨rfl, State.unlessReset_of_negated negated claim⟩
  | true => exact .inr (State.unlessReset_of_asserted negated claim)

/-- What holds of a command's row: of the part as it was, of its refusal, and of its owner's claim. -/
theorem State.command_rule {P : State → Prop} {s : State} {code : Byte} {owner : State → State} (same : P s)
    (refused : s.Listens → P (s.answerAccess none).refuseWrite) (claimed : s.Serves code → P (owner (s.served code))) :
    P (s.command code owner) := by
  rcases s.command_cases code owner with ⟨serves, h⟩ | ⟨listens, h⟩ | h <;> rw [h]
  · exact claimed serves
  · exact refused listens
  · exact same

/-- What holds of an access: of the part as it was, and of its claim once answered. -/
theorem State.slaveAccess_rule {P : State → Prop} {s : State} {driven : Option Word} {claim : State → State}
    (same : P s) (claimed : s.Listens → P (claim (s.answerAccess driven))) : P (s.slaveAccess driven claim) := by
  rcases s.slaveAccess_cases driven claim with ⟨listens, h⟩ | h <;> rw [h]
  · exact claimed listens
  · exact same

/-- What holds of an event: of the part as it was, and of its claim. -/
theorem State.unlessReset_rule {P : State → Prop} {s : State} {claim : State → State} (same : P s)
    (claimed : s.inReset = false → P (claim s)) : P (s.unlessReset claim) := by
  rcases s.unlessReset_cases claim with ⟨negated, h⟩ | h <;> rw [h]
  · exact claimed negated
  · exact same

/-- What holds of an edge of CLK: of the part as it was, and of its inputs, divider and bus taken in turn. -/
theorem State.clockEdge_rule {P : State → Prop} {s : State} (same : P s)
    (edge : s.inReset = false → P s.clockHoldOff.clockInputs.clockDivider.clockBus) : P s.clockEdge :=
  State.unlessReset_rule same edge

/-- The claim of a read of NTAKE (R165, log 8). -/
theorem readClaim_at_ntake {access : ReadAccess} (here : access.offset.toNat / 2 = 26) : readClaim access =
    if access.lanes.low || access.lanes.high then State.takeClaim else State.peekClaim := by
  simp only [readClaim, here]

/-- The claim of a read of any other register is a peek, at NPEEK, or nothing (R167, R189). -/
theorem readClaim_elsewhere {access : ReadAccess} (other : access.offset.toNat / 2 ≠ 26) :
    readClaim access = State.peekClaim ∨ readClaim access = id := by
  unfold readClaim
  split
  · contradiction
  · exact .inl rfl
  · exact .inr rfl

/-- The claim of a read is a take, a peek, or nothing (R165, R167, R189). -/
theorem readClaim_cases (access : ReadAccess) :
    readClaim access = State.takeClaim ∨ readClaim access = State.peekClaim ∨ readClaim access = id := by
  by_cases here : access.offset.toNat / 2 = 26
  · rw [readClaim_at_ntake here]
    split
    · exact .inl rfl
    · exact .inr (.inl rfl)
  · exact .inr (readClaim_elsewhere here)

/-- What holds of a read: of the part as it was, and of the take and the peek once answered. -/
theorem State.readAccess_rule {P : State → Prop} {s : State} {access : ReadAccess} (same : P s)
    (answered : s.Listens → P (s.answerAccess (some (s.readWindow access.offset))))
    (taken : s.Listens → P (s.answerAccess (some (s.readWindow access.offset))).takeClaim)
    (peeked : s.Listens → P (s.answerAccess (some (s.readWindow access.offset))).peekClaim) :
    P (s.readAccess access) := by
  refine State.slaveAccess_rule same fun listens => ?_
  rcases readClaim_cases access with h | h | h <;> rw [h]
  · exact taken listens
  · exact peeked listens
  · exact answered listens

/-- The service that has ended, as the activation holds it. -/
theorem State.endedService_eq_some {s : State} {a : Activation} {w : Working} {c : EndCause}
    (h : s.endedService = some (a, w, c)) : s.activation = some a ∧ a.work = some w ∧ w.endCause = some c := by
  unfold State.endedService at h
  split at h
  · contradiction
  split at h
  · contradiction
  split at h
  · contradiction
  · cases h
    exact ⟨by assumption, by assumption, by assumption⟩

/-- What holds of the two write-back rows: of the part as it was, and of the write-back claim of a service that has
ended, by whatever cause. -/
theorem State.writeBack_rule {P : State → Prop} {s : State} (same : P s)
    (claimed : ∀ a w c, s.activation = some a → a.work = some w → w.endCause = some c → P (s.writeBackClaim a w c)) :
    P s.writeBackStep ∧ P s.faultWriteBackStep := by
  unfold State.writeBackStep State.faultWriteBackStep
  cases ended : s.endedService with
  | none => exact ⟨same, same⟩
  | some p =>
    obtain ⟨a, w, c⟩ := p
    obtain ⟨open_, work, cause⟩ := State.endedService_eq_some ended
    have claim := claimed a w c open_ work cause
    dsimp only
    split
    · exact ⟨same, claim⟩
    · exact ⟨claim, same⟩

/-! ### Fields -/

/-- The fields of the state, and the parts of a field that a rule of the whole part speaks of by itself: the
generations of the records, the in-service set and the floor of the notice unit, the port's argument registers. -/
inductive Field where
  | inReset | holdOff | records | generations | bindings | lines | levels | gens | divider | tickLine | tickLevel
  | pointers | enable | activity | activation | notices | inService | floor | port | args | image | readBack | bus
  | pending

/-- Two states have this field in common. -/
def State.Same (s t : State) : Field → Prop
  | .inReset => t.inReset = s.inReset
  | .holdOff => t.holdOff = s.holdOff
  | .records => t.records = s.records
  | .generations => ∀ n : RecNo, t.records[n].gen = s.records[n].gen
  | .bindings => t.bindings = s.bindings
  | .lines => t.lines = s.lines
  | .levels => t.levels = s.levels
  | .gens => t.gens = s.gens
  | .divider => t.divider = s.divider
  | .tickLine => t.tickLine = s.tickLine
  | .tickLevel => t.tickLevel = s.tickLevel
  | .pointers => t.pointers = s.pointers
  | .enable => t.enable = s.enable
  | .activity => t.activity = s.activity
  | .activation => t.activation = s.activation
  | .notices => t.notices = s.notices
  | .inService => t.notices.inService = s.notices.inService
  | .floor => t.notices.floor = s.notices.floor
  | .port => t.port = s.port
  | .args => t.port.args = s.port.args
  | .image => t.image = s.image
  | .readBack => t.readBack = s.readBack
  | .bus => t.bus = s.bus
  | .pending => t.pending = s.pending

theorem State.Same.refl (s : State) (f : Field) : s.Same s f := by
  cases f <;> simp [State.Same]

theorem State.Same.trans {s t u : State} {f : Field} (h : s.Same t f) (h' : t.Same u f) : s.Same u f := by
  cases f
  case generations => exact fun n => (h' n).trans (h n)
  all_goals exact Eq.trans h' h

/-- `t` differs from `s` in the fields of `l` alone. A field that is a part of another is kept unless it is listed
itself. -/
def State.ChangesOnly (l : List Field) (s t : State) : Prop := ∀ f : Field, f ∉ l → s.Same t f

section
variable {l l' : List Field} {s t u : State}

theorem State.ChangesOnly.refl (l : List Field) (s : State) : s.ChangesOnly l s := fun f _ => .refl s f

theorem State.ChangesOnly.of_eq (h : t = s) : s.ChangesOnly l t := h ▸ .refl l s

theorem State.ChangesOnly.mono (h : s.ChangesOnly l t) (sub : l ⊆ l') : s.ChangesOnly l' t :=
  fun f out => h f fun mem => out (sub mem)

theorem State.ChangesOnly.trans (h : s.ChangesOnly l t) (h' : t.ChangesOnly l u) : s.ChangesOnly l u :=
  fun f out => (h f out).trans (h' f out)

/-- Two changes one after the other. -/
theorem State.ChangesOnly.andThen (h : s.ChangesOnly l t) (h' : t.ChangesOnly l' u) : s.ChangesOnly (l ++ l') u :=
  (h.mono (List.subset_append_left l l')).trans (h'.mono (List.subset_append_right l l'))

end

/-! ### What the shared operations change -/

section
variable (s : State)

theorem State.served_changes (code : Byte) : s.ChangesOnly [.port, .bus] (s.served code) := by
  intro f out; cases f <;> simp [State.Same, State.served] at out ⊢

theorem State.answerAccess_changes (driven : Option Word) : s.ChangesOnly [.bus] (s.answerAccess driven) := by
  intro f out; cases f <;> simp [State.Same] at out ⊢

theorem State.refuseWrite_changes : s.ChangesOnly [.port] s.refuseWrite := by
  intro f out; cases f <;> simp [State.Same] at out ⊢

theorem State.complete_changes (code : Byte) (a : Reply) : s.ChangesOnly [.port] (s.complete code a) := by
  intro f out; cases f <;> simp [State.Same] at out ⊢

theorem State.accept_changes (code : Byte) : s.ChangesOnly [.port] (s.accept code) := by
  intro f out; cases f <;> simp [State.Same] at out ⊢

theorem State.setWaiting_changes (code : Byte) : s.ChangesOnly [.port] (s.setWaiting code) := by
  intro f out; cases f <;> simp [State.Same] at out ⊢

/-- A record replaced by one of its generation. -/
theorem State.setRecord_changes {n : RecNo} {r : Record} (gen : r.gen = s.records[n].gen) :
    s.ChangesOnly [.records] (s.setRecord n r) := by
  intro f out
  cases f
  case generations =>
    intro m
    rw [State.setRecord_records, vector_set_get]
    split
    · next same => rw [gen, same]
    · rfl
  all_goals simp [State.Same] at out ⊢

theorem State.setBinding_changes (k : SourceNo) (e : Option Binding) :
    s.ChangesOnly [.bindings] (s.setBinding k e) := by
  intro f out; cases f <;> simp [State.Same] at out ⊢

theorem State.emptyBindingOf_changes (n : RecNo) : s.ChangesOnly [.bindings] (s.emptyBindingOf n) := by
  intro f out; cases f <;> simp [State.Same] at out ⊢

theorem State.setGen_changes (g : GenNo) (c : Generator) : s.ChangesOnly [.gens] (s.setGen g c) := by
  intro f out; cases f <;> simp [State.Same] at out ⊢

theorem State.setLine_changes (k : LineNo) (high : Bool) : s.ChangesOnly [.lines] (s.setLine k high) := by
  intro f out; cases f <;> simp [State.Same] at out ⊢

theorem State.setWorking_changes (a : Activation) (w : Working) : s.ChangesOnly [.activation] (s.setWorking a w) := by
  intro f out; cases f <;> simp [State.Same] at out ⊢

theorem State.settleActivity_changes : s.ChangesOnly [.activity] s.settleActivity := by
  intro f out; cases f <;> simp [State.Same] at out ⊢

theorem State.post_changes (n : Notice) : s.ChangesOnly [.notices] (s.post n) := by
  intro f out; cases f <;> simp [State.Same, NoticeUnit.evaluate] at out ⊢

/-! #### One field replaced -/

theorem State.bus_changes (b : Bus) : s.ChangesOnly [.bus] { s with bus := b } := by
  intro f out; cases f <;> simp [State.Same] at out ⊢

theorem State.activation_changes (a : Option Activation) : s.ChangesOnly [.activation] { s with activation := a } := by
  intro f out; cases f <;> simp [State.Same] at out ⊢

theorem State.activity_changes (a : Activity) : s.ChangesOnly [.activity] { s with activity := a } := by
  intro f out; cases f <;> simp [State.Same] at out ⊢

theorem State.enable_changes (e : Bool) : s.ChangesOnly [.enable] { s with enable := e } := by
  intro f out; cases f <;> simp [State.Same] at out ⊢

theorem State.pointers_changes (p : Vector RecNo 4) : s.ChangesOnly [.pointers] { s with pointers := p } := by
  intro f out; cases f <;> simp [State.Same] at out ⊢

theorem State.levels_changes (l : BitVec 32) : s.ChangesOnly [.levels] { s with levels := l } := by
  intro f out; cases f <;> simp [State.Same] at out ⊢

theorem State.tickLine_changes (high : Bool) : s.ChangesOnly [.tickLine] { s with tickLine := high } := by
  intro f out; cases f <;> simp [State.Same] at out ⊢

theorem State.tickLevel_changes (high : Bool) : s.ChangesOnly [.tickLevel] { s with tickLevel := high } := by
  intro f out; cases f <;> simp [State.Same] at out ⊢

theorem State.divider_changes (k : Nat) : s.ChangesOnly [.divider] { s with divider := k } := by
  intro f out; cases f <;> simp [State.Same] at out ⊢

theorem State.holdOff_changes (k : Nat) : s.ChangesOnly [.holdOff] { s with holdOff := k } := by
  intro f out; cases f <;> simp [State.Same] at out ⊢

theorem State.image_changes (m : EditImage) : s.ChangesOnly [.image] { s with image := m } := by
  intro f out; cases f <;> simp [State.Same] at out ⊢

theorem State.readBack_changes (r : ReadBack) : s.ChangesOnly [.readBack] { s with readBack := r } := by
  intro f out; cases f <;> simp [State.Same] at out ⊢

theorem State.notices_changes (u : NoticeUnit) :
    s.ChangesOnly [.notices, .inService, .floor] { s with notices := u } := by
  intro f out; cases f <;> simp [State.Same] at out ⊢

/-- The notice unit replaced by one of the same set and floor. -/
theorem State.queue_changes {u : NoticeUnit} (set : u.inService = s.notices.inService)
    (floor : u.floor = s.notices.floor) : s.ChangesOnly [.notices] { s with notices := u } := by
  intro f out; cases f <;> simp [State.Same, set, floor] at out ⊢

/-- The notice unit replaced by one of the same floor. -/
theorem State.inService_changes {u : NoticeUnit} (floor : u.floor = s.notices.floor) :
    s.ChangesOnly [.notices, .inService] { s with notices := u } := by
  intro f out; cases f <;> simp [State.Same, floor] at out ⊢

/-- The port replaced by one of the same arguments. -/
theorem State.port_changes {p : Port} (args : p.args = s.port.args) : s.ChangesOnly [.port] { s with port := p } := by
  intro f out; cases f <;> simp [State.Same, args] at out ⊢

theorem State.args_changes (p : Port) : s.ChangesOnly [.port, .args] { s with port := p } := by
  intro f out; cases f <;> simp [State.Same] at out ⊢

end

/-! ### What the claims change -/

section
variable (s : State)

theorem Record.triggered_gen (r : Record) : r.triggered.gen = r.gen := (r.triggered_taken.keeps).2

theorem State.deliverTrigger_changes (n : RecNo) : s.ChangesOnly [.records] (s.deliverTrigger n) :=
  s.setRecord_changes (Record.triggered_gen _)

theorem State.standingTrigger_changes (n : RecNo) : s.ChangesOnly [.records] (s.standingTrigger n) := by
  unfold State.standingTrigger
  split
  · exact s.setRecord_changes (by rfl)
  · exact .refl _ s

theorem State.freeRecord_changes (n : RecNo) : s.ChangesOnly [.records, .bindings] (s.freeRecord n) :=
  .andThen (s.setRecord_changes (n := n) (r := s.records[n].freed) rfl)
    (State.emptyBindingOf_changes (s.setRecord n s.records[n].freed) n)

theorem State.endActivation_changes : s.ChangesOnly [.activation, .activity, .port] s.endActivation := by
  unfold State.endActivation
  cases stop : s.port.stopHandle with
  | none =>
    simp only [stop]
    exact ((s.activation_changes none).andThen (State.settleActivity_changes _)).mono (by simp)
  | some h =>
    simp only [stop]
    exact ((s.activation_changes none).andThen ((State.complete_changes _ _ _).andThen
      (State.settleActivity_changes _))).mono (by simp)

/-! #### The service in flight -/

theorem State.unitBoundary_changes (a : Activation) (w : Working) :
    s.ChangesOnly [.activation, .bus] (s.unitBoundary a w) := by
  unfold State.unitBoundary
  split
  · exact (s.setWorking_changes a _).mono (by simp)
  · exact (s.setWorking_changes a w).andThen (State.bus_changes _ _)

theorem State.cutWaitingRequest_changes (a : Activation) :
    s.ChangesOnly [.activation, .bus] (s.cutWaitingRequest a) := by
  unfold State.cutWaitingRequest
  split
  · split
    · exact (s.setWorking_changes a _).andThen (State.bus_changes _ _)
    · exact .refl _ s
  · split
    · exact (s.setWorking_changes a _).andThen (State.bus_changes _ _)
    · exact .refl _ s
  · exact .refl _ s

theorem State.deferCommand_changes (kind : DeferredKind) (h : Handle) :
    s.ChangesOnly [.activation, .port, .bus] (s.deferCommand kind h) := by
  unfold State.deferCommand
  dsimp only
  split
  · exact (s.setWaiting_changes _).mono (by simp)
  · exact ((s.setWaiting_changes _).andThen ((State.activation_changes _ _).andThen
      (State.cutWaitingRequest_changes _ _))).mono (by simp)

theorem State.pairCompleted_changes : s.ChangesOnly [.activation, .bus] s.pairCompleted := by
  unfold State.pairCompleted
  split
  · exact .refl _ s
  split
  · exact .refl _ s
  split
  · exact (s.setWorking_changes _ _).mono (by simp)
  · exact s.unitBoundary_changes _ _

theorem State.pairFailed_changes (half : Half) : s.ChangesOnly [.activation] (s.pairFailed half) := by
  unfold State.pairFailed
  split
  · exact .refl _ s
  split
  · exact .refl _ s
  · exact s.setWorking_changes _ _

theorem State.pairError_changes : s.ChangesOnly [.activation, .bus] s.pairError := by
  unfold State.pairError
  split
  · exact ((s.bus_changes _).andThen (State.pairFailed_changes _ _)).mono (by simp)
  · exact .refl _ s

theorem State.writeCompleted_changes : s.ChangesOnly [.activation, .bus] s.writeCompleted := by
  unfold State.writeCompleted
  split
  · exact ((s.bus_changes _).andThen (State.pairCompleted_changes _)).mono (by simp)
  · exact .refl _ s

/-! #### The write-back -/

theorem Record.writtenBack_gen (r : Record) (w : Working) (c : EndCause) : (r.writtenBack w c).gen = r.gen := by
  unfold Record.writtenBack
  cases c <;> cases w.edit.policy <;> rfl

theorem State.postOutcome_changes (w : Working) (c : EndCause) :
    s.ChangesOnly [.notices, .records] (s.postOutcome w c) := by
  unfold State.postOutcome
  dsimp only
  split
  · exact .refl _ s
  · exact (s.post_changes _).andThen (State.setRecord_changes _ rfl)

theorem State.storeProgress_changes (w : Working) (c : EndCause) :
    s.ChangesOnly [.records, .bindings] (s.storeProgress w c) := by
  have stored := s.setRecord_changes (Record.writtenBack_gen s.records[w.handle.num] w c)
  unfold State.storeProgress
  dsimp only
  split
  · exact s.freeRecord_changes _
  split
  · exact (stored.andThen (State.standingTrigger_changes _ _)).mono (by simp)
  · exact stored.mono (by simp)

theorem State.afterWriteBack_changes (a : Activation) (w : Working) (c : EndCause) :
    s.ChangesOnly [.activation, .activity, .port] (s.afterWriteBack a w c) := by
  unfold State.afterWriteBack
  split
  · exact (s.activation_changes _).mono (by simp)
  · exact (s.activation_changes _).mono (by simp)
  · exact s.endActivation_changes

theorem State.writeBackClaim_changes (a : Activation) (w : Working) (c : EndCause) :
    s.ChangesOnly [.records, .bindings, .notices, .activation, .activity, .port] (s.writeBackClaim a w c) :=
  ((s.postOutcome_changes w c).andThen ((State.storeProgress_changes _ w c).andThen
    (State.afterWriteBack_changes _ a w c))).mono (by simp)

theorem State.writeBackStep_changes :
    s.ChangesOnly [.records, .bindings, .notices, .activation, .activity, .port] s.writeBackStep := by
  unfold State.writeBackStep
  split
  · exact .refl _ s
  split
  · exact .refl _ s
  · exact s.writeBackClaim_changes _ _ _

theorem State.faultWriteBackStep_changes :
    s.ChangesOnly [.records, .bindings, .notices, .activation, .activity, .port] s.faultWriteBackStep := by
  unfold State.faultWriteBackStep
  split
  · exact .refl _ s
  split
  · exact s.writeBackClaim_changes _ _ _
  · exact .refl _ s

/-! #### Starts, links and engine control -/

theorem State.startHead_changes (n : RecNo) :
    s.ChangesOnly [.records, .pointers, .activity, .activation, .bus] (s.startHead n) := by
  refine .trans ?_ ((State.unitBoundary_changes _ _ _).mono (by simp))
  have active := s.setRecord_changes (n := n)
    (r := { s.records[n] with state := .active, latch := s.records[n].latch - 1 }) rfl
  refine (active.mono (by simp)).trans ?_
  intro f out
  cases f <;> simp [State.Same] at out ⊢

theorem State.headChoice_changes :
    s.ChangesOnly [.records, .pointers, .activity, .activation, .bus] s.headChoice := by
  unfold State.headChoice
  split
  · split
    · exact .refl _ s
    · split
      · exact s.startHead_changes _
      · exact (s.activity_changes _).mono (by simp)
  · exact .refl _ s

theorem State.startLink_changes (a : Activation) (n : RecNo) :
    s.ChangesOnly [.records, .activation, .bus] (s.startLink a n) := by
  refine .trans ((s.setRecord_changes ?_).mono (by simp)) ((State.unitBoundary_changes _ _ _).mono (by simp))
  rfl

theorem State.enableOffCourse_changes (l : Link) :
    s.ChangesOnly [.records, .notices, .activation, .activity, .port] (s.enableOffCourse l) := by
  unfold State.enableOffCourse
  split
  · exact ((s.deliverTrigger_changes _).andThen (State.endActivation_changes _)).mono (by simp)
  · exact ((s.post_changes _).andThen (State.endActivation_changes _)).mono (by simp)

theorem State.resolve_changes (a : Activation) (l : Link) :
    s.ChangesOnly [.records, .notices, .activation, .activity, .port, .bus] (s.resolve a l) := by
  have ends : ∀ n : Notice,
      s.ChangesOnly [.records, .notices, .activation, .activity, .port, .bus] (s.post n).endActivation :=
    fun n => ((s.post_changes n).andThen (State.endActivation_changes _)).mono (by simp)
  unfold State.resolve
  split
  · exact ends _
  split
  · exact (s.enableOffCourse_changes l).mono (by simp)
  split
  · intro f out
    cases f <;> simp [State.Same] at out ⊢
  split
  · exact (s.startLink_changes a _).mono (by simp)
  · exact ends _

theorem State.resolutionStep_changes :
    s.ChangesOnly [.records, .notices, .activation, .activity, .port, .bus] s.resolutionStep := by
  unfold State.resolutionStep
  split
  · exact .refl _ s
  · exact s.resolve_changes _ _

theorem State.applyHold_changes (w : Word) : s.ChangesOnly [.records] (s.applyHold w).1 := by
  unfold State.applyHold
  split
  · exact .refl _ s
  dsimp only
  split
  · exact s.setRecord_changes (by rfl)
  · exact .refl _ s
  · exact .trans (s.setRecord_changes (by rfl)) (State.standingTrigger_changes (s.setRecord _ _) _)
  · exact .trans (s.setRecord_changes (by rfl)) (State.standingTrigger_changes (s.setRecord _ _) _)
  all_goals exact .refl _ s

theorem State.applyRetire_changes (w : Word) : s.ChangesOnly [.records, .bindings] (s.applyRetire w).1 := by
  unfold State.applyRetire
  split
  · exact .refl _ s
  · exact s.freeRecord_changes _

theorem State.applyDeferred_changes (d : Deferred) : s.ChangesOnly [.records, .bindings] (s.applyDeferred d).1 := by
  unfold State.applyDeferred
  split
  · exact (s.applyHold_changes _).mono (by simp)
  · exact s.applyRetire_changes _

theorem State.afreshStep_changes :
    s.ChangesOnly [.records, .bindings, .activation, .activity, .port] s.afreshStep := by
  unfold State.afreshStep
  split
  · exact .refl _ s
  · exact ((s.applyDeferred_changes _).andThen ((State.complete_changes _ _ _).andThen
      (State.endActivation_changes _))).mono (by simp)

theorem State.engineStopClaim_changes :
    s.ChangesOnly [.enable, .records, .notices, .activation, .activity, .port] s.engineStopClaim := by
  have off := s.enable_changes false
  unfold State.engineStopClaim
  dsimp only
  split
  · intro f out
    cases f <;> simp [State.Same, State.stopWaits, State.setWaiting] at out ⊢
  · exact (off.andThen (State.complete_changes _ _ _)).mono (by simp)
  · split
    · exact (off.andThen ((State.enableOffCourse_changes _ _).andThen (State.complete_changes _ _ _))).mono (by simp)
    · exact (off.andThen ((State.settleActivity_changes _).andThen (State.complete_changes _ _ _))).mono (by simp)

theorem State.engineGoClaim_changes : s.ChangesOnly [.enable, .activity, .port] s.engineGoClaim :=
  (s.enable_changes true).andThen ((State.settleActivity_changes _).andThen (State.complete_changes _ _ _))

/-! #### Sources and ticks -/

theorem State.edgeAction_changes (b : Binding) (high : Bool) : s.ChangesOnly [.records] (s.edgeAction b high) := by
  unfold State.edgeAction
  split
  · exact s.deliverTrigger_changes _
  · exact s.deliverTrigger_changes _
  · exact s.standingTrigger_changes _
  · exact s.standingTrigger_changes _
  all_goals exact .refl _ s

theorem State.lineSampled_changes (k : LineNo) (high : Bool) :
    s.ChangesOnly [.lines, .records, .activity] (s.lineSampled k high) := by
  unfold State.lineSampled
  split
  · exact .refl _ s
  dsimp only
  split
  · exact (s.setLine_changes k high).mono (by simp)
  · exact ((s.setLine_changes k high).andThen ((State.edgeAction_changes _ _ _).andThen
      (State.settleActivity_changes _))).mono (by simp)

theorem State.lineSeen_changes (k : LineNo) (high : Bool) :
    s.ChangesOnly [.levels, .lines, .records, .activity] (s.lineSeen k high) := by
  unfold State.lineSeen
  split
  · exact (s.lineSampled_changes k high).mono (by simp)
  · exact (s.levels_changes _).mono (by simp)

theorem State.lineHeld_changes (k : LineNo) (level : PinLevel) :
    s.ChangesOnly [.levels, .lines, .records, .activity] (s.lineHeld k level) := by
  unfold State.lineHeld
  dsimp only
  split
  · exact (s.lineSeen_changes k _).trans (State.lineSeen_changes _ k _)
  · exact s.lineSeen_changes k _

theorem State.expiryEvent_changes (g : GenNo) : s.ChangesOnly [.records, .activity] (s.expiryEvent g) := by
  unfold State.expiryEvent
  split
  · exact .refl _ s
  · exact (s.deliverTrigger_changes _).andThen (State.settleActivity_changes _)

theorem State.tickClaim_changes (g : GenNo) : s.ChangesOnly [.gens, .records, .activity] (s.tickClaim g) := by
  unfold State.tickClaim
  dsimp only
  split
  · split
    · exact (s.setGen_changes g _).andThen (State.expiryEvent_changes _ g)
    · exact (s.setGen_changes g _).mono (by simp)
  · exact .refl _ s

/-- A fold changes what each of its steps can. -/
theorem State.foldl_changes {α : Type} {l : List Field} {f : State → α → State}
    (each : ∀ (s : State) (x : α), s.ChangesOnly l (f s x)) (xs : List α) (s : State) :
    s.ChangesOnly l (xs.foldl f s) := by
  induction xs generalizing s with
  | nil => exact .refl l s
  | cons x xs ih => exact (each s x).trans (ih _)

theorem State.tick_changes (source : TickSource) : s.ChangesOnly [.gens, .records, .activity] (s.tick source) := by
  refine State.foldl_changes (fun t g => ?_) _ s
  split
  · exact t.tickClaim_changes g
  · exact .refl _ t

theorem State.internalTickClaim_changes :
    s.ChangesOnly [.divider, .gens, .records, .activity] s.internalTickClaim :=
  (s.divider_changes 0).andThen (State.tick_changes _ _)

theorem State.tickSampled_changes (high : Bool) :
    s.ChangesOnly [.tickLine, .gens, .records, .activity] (s.tickSampled high) := by
  unfold State.tickSampled
  dsimp only
  split
  · exact (s.tickLine_changes high).andThen (State.tick_changes _ _)
  · exact (s.tickLine_changes high).mono (by simp)

theorem State.tickSeen_changes (high : Bool) :
    s.ChangesOnly [.tickLevel, .tickLine, .gens, .records, .activity] (s.tickSeen high) := by
  unfold State.tickSeen
  split
  · exact (s.tickSampled_changes high).mono (by simp)
  · exact (s.tickLevel_changes high).mono (by simp)

/-- A sample of TICK at low is no tick (R75). -/
theorem State.tickSeen_low_changes : s.ChangesOnly [.tickLevel, .tickLine] (s.tickSeen false) := by
  unfold State.tickSeen State.tickSampled
  split
  · exact (s.tickLine_changes false).mono (by simp)
  · exact (s.tickLevel_changes false).mono (by simp)

theorem State.tickHeld_changes (level : PinLevel) :
    s.ChangesOnly [.tickLevel, .tickLine, .gens, .records, .activity] (s.tickHeld level) := by
  unfold State.tickHeld
  dsimp only
  split
  · exact (s.tickSeen_changes _).trans (State.tickSeen_changes _ _)
  · exact s.tickSeen_changes _

theorem State.tickHeld_low_changes {level : PinLevel} (low : level.high = false) :
    s.ChangesOnly [.tickLevel, .tickLine] (s.tickHeld level) := by
  unfold State.tickHeld
  rw [low]
  dsimp only
  split
  · exact s.tickSeen_low_changes.trans (State.tickSeen_low_changes _)
  · exact s.tickSeen_low_changes

theorem State.expiryClaim_changes (g : GenNo) : s.ChangesOnly [.gens, .records, .activity] (s.expiryClaim g) := by
  unfold State.expiryClaim
  split
  · exact s.tickClaim_changes g
  · exact .refl _ s

/-! #### The record commands -/

/-- The lowest-numbered FREE record is FREE (R18). -/
theorem State.lowestFree_free {s : State} {n : RecNo} (h : s.lowestFree = some n) : s.records[n].state = .free := by
  have found := List.find?_some h
  simpa only [beq_iff_eq] using found

theorem State.allocateClaim_changes : s.ChangesOnly [.records, .generations, .port] s.allocateClaim := by
  unfold State.allocateClaim
  split
  · exact (s.complete_changes _ _).mono (by simp)
  · intro f out; cases f <;> simp [State.Same] at out ⊢

theorem State.fetchClaim_changes : s.ChangesOnly [.image, .readBack, .port] s.fetchClaim := by
  unfold State.fetchClaim
  split
  · exact (s.complete_changes _ _).mono (by simp)
  · refine .trans ?_ ((State.complete_changes _ _ _).mono (by simp))
    intro f out
    cases f <;> simp [State.Same] at out ⊢

theorem State.storeClaim_changes : s.ChangesOnly [.records, .port] s.storeClaim := by
  unfold State.storeClaim
  split
  · exact (s.complete_changes _ _).mono (by simp)
  dsimp only
  split
  · split
    · exact (s.complete_changes _ _).mono (by simp)
    · refine .trans ((s.setRecord_changes ?_).mono (by simp)) ((State.complete_changes _ _ _).mono (by simp))
      rfl
  · exact (s.complete_changes _ _).mono (by simp)

theorem State.armClaim_changes : s.ChangesOnly [.records, .activity, .port] s.armClaim := by
  unfold State.armClaim
  split
  · exact (s.complete_changes _ _).mono (by simp)
  dsimp only
  split
  · split
    · exact (s.complete_changes _ _).mono (by simp)
    · refine .trans ?_ ((State.complete_changes _ _ _).mono (by simp))
      refine .trans ?_ ((State.settleActivity_changes _).mono (by simp))
      refine .trans ?_ ((State.standingTrigger_changes _ _).mono (by simp))
      exact (s.setRecord_changes (by rfl)).mono (by simp)
  · exact (s.complete_changes _ _).mono (by simp)

theorem State.holdClaim_changes :
    s.ChangesOnly [.records, .activity, .activation, .port, .bus] s.holdClaim := by
  unfold State.holdClaim
  split
  · exact (s.deferCommand_changes _ _).mono (by simp)
  · exact ((s.applyHold_changes _).andThen ((State.settleActivity_changes _).andThen
      (State.complete_changes _ _ _))).mono (by simp)

theorem State.retireClaim_changes :
    s.ChangesOnly [.records, .bindings, .activity, .activation, .port, .bus] s.retireClaim := by
  unfold State.retireClaim
  split
  · exact (s.deferCommand_changes _ _).mono (by simp)
  · exact ((s.applyRetire_changes _).andThen ((State.settleActivity_changes _).andThen
      (State.complete_changes _ _ _))).mono (by simp)

theorem State.wiped_changes :
    s.ChangesOnly [.records, .bindings, .pointers, .notices, .inService] s.wiped := by
  intro f out
  cases f <;> simp [State.Same, State.wiped, Record.empty, NoticeUnit.evaluate] at out ⊢

theorem State.wipeClaim_changes :
    s.ChangesOnly [.records, .bindings, .pointers, .notices, .inService, .port] s.wipeClaim := by
  unfold State.wipeClaim
  split
  · exact s.wiped_changes.andThen (State.complete_changes _ _ _)
  · exact (s.complete_changes _ _).mono (by simp)

theorem State.triggerClaim_changes : s.ChangesOnly [.records, .activity, .port] s.triggerClaim := by
  unfold State.triggerClaim
  split
  · exact (s.complete_changes _ _).mono (by simp)
  dsimp only
  split
  · exact (s.deliverTrigger_changes _).andThen ((State.settleActivity_changes _).andThen (State.complete_changes _ _ _))
  · exact (s.complete_changes _ _).mono (by simp)

/-! #### The binding commands -/

theorem State.bindClaim_changes : s.ChangesOnly [.bindings, .records, .activity, .port] s.bindClaim := by
  unfold State.bindClaim State.bindChecked
  split
  · split
    · exact (s.complete_changes _ _).mono (by simp)
    dsimp only
    split
    · exact (s.setBinding_changes _ _).andThen ((State.standingTrigger_changes _ _).andThen
        ((State.settleActivity_changes _).andThen (State.complete_changes _ _ _)))
    · exact (s.complete_changes _ _).mono (by simp)
  · exact (s.complete_changes _ _).mono (by simp)

theorem State.unbindClaim_changes : s.ChangesOnly [.bindings, .port] s.unbindClaim := by
  unfold State.unbindClaim
  split
  · exact (s.complete_changes _ _).mono (by simp)
  split
  · exact (s.complete_changes _ _).mono (by simp)
  · exact (s.setBinding_changes _ _).andThen (State.complete_changes _ _ _)

theorem State.bindReadClaim_changes : s.ChangesOnly [.port] s.bindReadClaim := by
  unfold State.bindReadClaim
  split <;> exact s.complete_changes _ _

/-! #### The generator commands -/

theorem State.genDone_changes (code : Byte) (g : GenNo) (c : Generator) :
    s.ChangesOnly [.gens, .port] (s.genDone code g c) :=
  (s.setGen_changes g c).andThen (State.complete_changes _ _ _)

theorem State.genSetClaim_changes : s.ChangesOnly [.gens, .port] s.genSetClaim := by
  unfold State.genSetClaim
  split
  · exact (s.complete_changes _ _).mono (by simp)
  split
  · exact (s.complete_changes _ _).mono (by simp)
  split
  · exact (s.complete_changes _ _).mono (by simp)
  · exact s.genDone_changes _ _ _

theorem State.genStartClaim_changes : s.ChangesOnly [.gens, .port] s.genStartClaim := by
  unfold State.genStartClaim
  split
  · exact (s.complete_changes _ _).mono (by simp)
  split
  · exact (s.complete_changes _ _).mono (by simp)
  · exact s.genDone_changes _ _ _

theorem State.genStopClaim_changes : s.ChangesOnly [.gens, .port] s.genStopClaim := by
  unfold State.genStopClaim
  split
  · exact (s.complete_changes _ _).mono (by simp)
  · exact s.genDone_changes _ _ _

theorem State.genReadClaim_changes : s.ChangesOnly [.port] s.genReadClaim := by
  unfold State.genReadClaim
  split <;> exact s.complete_changes _ _

/-! #### The notice unit -/

theorem NoticeUnit.loadHolding_inService (u : NoticeUnit) : u.loadHolding.inService = u.inService := by
  unfold NoticeUnit.loadHolding; split <;> rfl

theorem NoticeUnit.loadHolding_floor (u : NoticeUnit) : u.loadHolding.floor = u.floor := by
  unfold NoticeUnit.loadHolding; split <;> rfl

theorem NoticeUnit.loadHolding_queue (u : NoticeUnit) : u.loadHolding.queue = u.queue := by
  unfold NoticeUnit.loadHolding; split <;> rfl

theorem NoticeUnit.loadHolding_note (u : NoticeUnit) : u.loadHolding.note = u.note := by
  unfold NoticeUnit.loadHolding; split <;> rfl

theorem NoticeUnit.taken_floor (u : NoticeUnit) : u.taken.floor = u.floor := by
  unfold NoticeUnit.taken
  split
  · exact u.loadHolding_floor
  · exact u.loadHolding_floor

theorem State.endStall_changes : s.ChangesOnly [.activity, .activation] s.endStall := by
  unfold State.endStall
  split
  · split
    · intro f out
      cases f <;> simp [State.Same] at out ⊢
    · exact .refl _ s
  · exact s.settleActivity_changes.mono (by simp)

theorem State.takeClaim_changes :
    s.ChangesOnly [.notices, .inService, .activity, .activation] s.takeClaim := by
  have taken : s.ChangesOnly [.notices, .inService] { s with notices := s.notices.taken } :=
    s.inService_changes s.notices.taken_floor
  unfold State.takeClaim
  dsimp only
  split
  · exact taken.mono (by simp)
  · exact taken.andThen (State.endStall_changes _)

theorem State.peekClaim_changes : s.ChangesOnly [.notices] s.peekClaim :=
  s.queue_changes s.notices.loadHolding_inService s.notices.loadHolding_floor

theorem State.closeClaim_changes : s.ChangesOnly [.notices, .inService, .port] s.closeClaim := by
  unfold State.closeClaim
  split
  · exact (s.complete_changes _ _).mono (by simp)
  split
  · exact (s.complete_changes _ _).mono (by simp)
  · refine .trans (?_ : s.ChangesOnly _ { s with notices := _ }) ((State.complete_changes _ _ _).mono (by simp))
    exact (s.inService_changes (by rfl)).mono (by simp)

theorem State.setFloorClaim_changes : s.ChangesOnly [.notices, .floor, .port] s.setFloorClaim := by
  unfold State.setFloorClaim
  split
  · exact (s.complete_changes _ _).mono (by simp)
  · intro f out; cases f <;> simp [State.Same, NoticeUnit.evaluate] at out ⊢

/-! #### The port -/

theorem State.unknownClaim_changes (code : Byte) : s.ChangesOnly [.port] (s.unknownClaim code) := by
  unfold State.unknownClaim
  split
  · exact .refl _ s
  · exact s.complete_changes _ _

theorem State.cmdWrite_changes (code : Byte) : s.ChangesOnly [.port] (s.cmdWrite code) := by
  unfold State.cmdWrite
  split
  · exact s.accept_changes code
  · exact s.refuseWrite_changes
  · exact s.refuseWrite_changes

theorem State.editWrite_changes (reg : EditReg) (lanes : Lanes) (v : Word) :
    s.ChangesOnly [.image, .port] (s.editWrite reg lanes v) := by
  unfold State.editWrite
  split
  · exact (s.image_changes _).mono (by simp)
  · exact s.refuseWrite_changes.mono (by simp)
  · exact s.refuseWrite_changes.mono (by simp)

theorem State.windowWrite_changes (offset : BitVec 7) (lanes : Lanes) (v : Word) :
    s.ChangesOnly [.image, .port, .args] (s.windowWrite offset lanes v) := by
  unfold State.windowWrite
  split
  · split
    · exact (s.cmdWrite_changes _).mono (by simp)
    · exact .refl _ s
  · exact (s.args_changes _).mono (by simp)
  · exact (s.args_changes _).mono (by simp)
  · exact (s.args_changes _).mono (by simp)
  · exact (s.editWrite_changes _ _ _).mono (by simp)
  · exact .refl _ s

/-! #### Reset and the clock -/

theorem State.pinReset_pending : s.pinReset.pending = s.pending := rfl

theorem State.negateReset_changes (lines : BitVec 32) (tick : Bool) :
    s.ChangesOnly [.inReset, .holdOff, .lines, .levels, .tickLine, .tickLevel] (s.negateReset lines tick) := by
  unfold State.negateReset
  split
  · intro f out; cases f <;> simp [State.Same] at out ⊢
  · exact .refl _ s

theorem State.clockInputs_changes :
    s.ChangesOnly [.levels, .lines, .tickLevel, .tickLine, .gens, .records, .activity] s.clockInputs :=
  ((State.foldl_changes (fun t k => State.lineSeen_changes t k _) _ s).andThen
    (State.tickSeen_changes _ _)).mono (by simp)

theorem State.clockDivider_changes : s.ChangesOnly [.divider, .gens, .records, .activity] s.clockDivider := by
  unfold State.clockDivider
  split
  · exact (s.divider_changes _).mono (by simp)
  · exact s.internalTickClaim_changes

theorem State.clockBus_changes : s.ChangesOnly [.activation, .bus] s.clockBus := by
  unfold State.clockBus
  split
  · split
    · exact (s.bus_changes _).mono (by simp)
    · exact s.pairError_changes
  · exact .refl _ s
  · split <;> exact (s.bus_changes _).mono (by simp)

theorem State.clockEdge_changes : s.ChangesOnly [.holdOff, .levels, .lines, .tickLevel, .tickLine, .gens, .records,
    .activity, .divider, .activation, .bus] s.clockEdge := by
  refine State.clockEdge_rule (P := s.ChangesOnly _) (.refl _ s) fun _ => ?_
  exact ((s.holdOff_changes _).andThen ((State.clockInputs_changes _).andThen
    ((State.clockDivider_changes _).andThen (State.clockBus_changes _)))).mono (by simp)

end

/-! ### What each row may change -/

section
variable {l : List Field} {s : State}

theorem State.command_changes {code : Byte} {owner : State → State} (claim : ∀ u : State, u.ChangesOnly l (owner u)) :
    s.ChangesOnly (.bus :: .port :: l) (s.command code owner) := by
  rcases s.command_cases code owner with ⟨_, h⟩ | ⟨_, h⟩ | h <;> rw [h]
  · exact ((s.served_changes code).andThen (claim _)).mono (by simp)
  · exact ((s.answerAccess_changes none).andThen (State.refuseWrite_changes _)).mono (by simp)
  · exact .refl _ s

theorem State.slaveAccess_changes {driven : Option Word} {claim : State → State}
    (changes : ∀ u : State, u.ChangesOnly l (claim u)) : s.ChangesOnly (.bus :: l) (s.slaveAccess driven claim) := by
  rcases s.slaveAccess_cases driven claim with ⟨_, h⟩ | h <;> rw [h]
  · exact (s.answerAccess_changes driven).andThen (changes _)
  · exact .refl _ s

theorem State.unlessReset_changes {claim : State → State} (changes : s.ChangesOnly l (claim s)) :
    s.ChangesOnly l (s.unlessReset claim) := by
  rcases s.unlessReset_cases claim with ⟨_, h⟩ | h <;> rw [h]
  · exact changes
  · exact .refl _ s

end

/-- The fields each row may change. -/
def touched : Instr → List Field
  | .allocate => [.records, .generations, .port, .bus]
  | .fetch => [.image, .readBack, .port, .bus]
  | .store => [.records, .port, .bus]
  | .arm | .trigger => [.records, .activity, .port, .bus]
  | .hold => [.records, .activity, .activation, .port, .bus]
  | .retire => [.records, .bindings, .activity, .activation, .port, .bus]
  | .wipe => [.records, .bindings, .pointers, .notices, .inService, .port, .bus]
  | .bind => [.records, .bindings, .activity, .port, .bus]
  | .unbind => [.bindings, .port, .bus]
  | .bindRead | .genRead | .unknown _ | .commandRefused _ => [.port, .bus]
  | .genSet | .genStart | .genStop => [.gens, .port, .bus]
  | .engineGo => [.enable, .activity, .port, .bus]
  | .engineStop => [.enable, .records, .notices, .activity, .activation, .port, .bus]
  | .close => [.notices, .inService, .port, .bus]
  | .setFloor => [.notices, .floor, .port, .bus]
  | .editRegisterWrite _ _ _ => [.image, .port, .bus]
  | .registerWrite _ strobes _ => (if strobes.read = true then [] else [.image, .port, .args]) ++ [.bus]
  | .take access =>
    (if access.offset.toNat / 2 = 26 then [.inService, .activity, .activation] else []) ++ [.notices, .bus]
  | .npeekRead => [.notices, .bus]
  | .pinReset => [.inReset, .holdOff, .records, .generations, .bindings, .lines, .levels, .gens, .divider, .tickLine,
      .tickLevel, .pointers, .enable, .activity, .activation, .notices, .inService, .floor, .port, .args, .image,
      .readBack, .bus]
  | .resetNegation _ _ => [.inReset, .holdOff, .lines, .levels, .tickLine, .tickLevel]
  | .reqEdge _ _ => [.levels, .lines, .records, .activity]
  | .internalTick => [.divider, .gens, .records, .activity]
  | .externalTick level =>
    (if level.high = true then [.gens, .records, .activity] else []) ++ [.tickLevel, .tickLine]
  | .generatorExpiry _ => [.gens, .records, .activity]
  | .headStart => [.records, .pointers, .activity, .activation, .bus]
  | .busRequest | .grantTaken | .readComplete _ | .slaveStrobeNegated => [.bus]
  | .writeComplete | .busError | .waitLimitExpiry => [.activation, .bus]
  | .writeBack | .faultWriteBack => [.records, .bindings, .notices, .activation, .activity, .port]
  | .linkResolution => [.records, .notices, .activation, .activity, .port, .bus]
  | .appliedAfresh => [.records, .bindings, .activation, .activity, .port]

theorem take_changes (access : ReadAccess) (s : State) :
    s.ChangesOnly (touched (.take access)) (s.readAccess access) := by
  by_cases here : access.offset.toNat / 2 = 26
  · have claim : ∀ u : State, u.ChangesOnly [.notices, .inService, .activity, .activation] (readClaim access u) := by
      intro u
      rw [readClaim_at_ntake here]
      split
      · exact u.takeClaim_changes
      · exact u.peekClaim_changes.mono (by simp)
    exact (State.slaveAccess_changes claim).mono (by simp [touched, here])
  · have claim : ∀ u : State, u.ChangesOnly [.notices] (readClaim access u) := by
      intro u
      rcases readClaim_elsewhere here with h | h <;> rw [h]
      · exact u.peekClaim_changes
      · exact .refl _ u
    exact (State.slaveAccess_changes claim).mono (by simp [touched])

/-- Each row changes the fields listed for it, and no others. -/
theorem effect_changes (i : Instr) (s : State) : s.ChangesOnly (touched i) (effect i s) := by
  cases i with
  | allocate => exact (State.command_changes State.allocateClaim_changes).mono (by simp [touched])
  | fetch => exact (State.command_changes State.fetchClaim_changes).mono (by simp [touched])
  | store => exact (State.command_changes State.storeClaim_changes).mono (by simp [touched])
  | arm => exact (State.command_changes State.armClaim_changes).mono (by simp [touched])
  | hold => exact (State.command_changes State.holdClaim_changes).mono (by simp [touched])
  | retire => exact (State.command_changes State.retireClaim_changes).mono (by simp [touched])
  | wipe => exact (State.command_changes State.wipeClaim_changes).mono (by simp [touched])
  | trigger => exact (State.command_changes State.triggerClaim_changes).mono (by simp [touched])
  | bind => exact (State.command_changes State.bindClaim_changes).mono (by simp [touched])
  | unbind => exact (State.command_changes State.unbindClaim_changes).mono (by simp [touched])
  | bindRead => exact (State.command_changes State.bindReadClaim_changes).mono (by simp [touched])
  | genSet => exact (State.command_changes State.genSetClaim_changes).mono (by simp [touched])
  | genStart => exact (State.command_changes State.genStartClaim_changes).mono (by simp [touched])
  | genStop => exact (State.command_changes State.genStopClaim_changes).mono (by simp [touched])
  | genRead => exact (State.command_changes State.genReadClaim_changes).mono (by simp [touched])
  | engineGo => exact (State.command_changes State.engineGoClaim_changes).mono (by simp [touched])
  | engineStop => exact (State.command_changes State.engineStopClaim_changes).mono (by simp [touched])
  | close => exact (State.command_changes State.closeClaim_changes).mono (by simp [touched])
  | setFloor => exact (State.command_changes State.setFloorClaim_changes).mono (by simp [touched])
  | unknown code =>
    exact (State.command_changes (State.unknownClaim_changes · code)).mono (by simp [touched])
  | commandRefused code =>
    exact (State.slaveAccess_changes (State.cmdWrite_changes · code)).mono (by simp [touched])
  | editRegisterWrite reg lanes value =>
    exact (State.slaveAccess_changes (State.editWrite_changes · reg lanes value)).mono (by simp [touched])
  | registerWrite offset strobes value =>
    obtain ⟨lanes, _ | _⟩ := strobes
    · exact (State.slaveAccess_changes (State.windowWrite_changes · offset lanes value)).mono (by simp [touched])
    · exact (State.slaveAccess_changes (l := []) fun u => .refl _ u).mono (by simp [touched])
  | take access => exact take_changes access s
  | npeekRead => exact (State.slaveAccess_changes State.peekClaim_changes).mono (by simp [touched])
  | pinReset => intro f out; cases f <;> simp [touched] at out; exact s.pinReset_pending
  | resetNegation lines tick => exact s.negateReset_changes lines tick
  | reqEdge line level => exact State.unlessReset_changes (s.lineHeld_changes line level)
  | internalTick => exact State.unlessReset_changes s.internalTickClaim_changes
  | externalTick level =>
    by_cases high : level.high = true
    · exact State.unlessReset_changes ((s.tickHeld_changes level).mono (by simp [touched, high]))
    · exact State.unlessReset_changes ((s.tickHeld_low_changes (by simpa using high)).mono (by simp [touched]))
  | generatorExpiry gen => exact State.unlessReset_changes (s.expiryClaim_changes gen)
  | headStart => exact State.unlessReset_changes s.headChoice_changes
  | busRequest => exact State.unlessReset_changes (s.bus_changes _)
  | grantTaken => exact State.unlessReset_changes (s.bus_changes _)
  | readComplete data => exact State.unlessReset_changes (s.bus_changes _)
  | slaveStrobeNegated => exact State.unlessReset_changes (s.bus_changes _)
  | writeComplete => exact State.unlessReset_changes s.writeCompleted_changes
  | busError => exact State.unlessReset_changes s.pairError_changes
  | waitLimitExpiry => exact State.unlessReset_changes s.pairError_changes
  | writeBack => exact State.unlessReset_changes s.writeBackStep_changes
  | faultWriteBack => exact State.unlessReset_changes s.faultWriteBackStep_changes
  | linkResolution => exact State.unlessReset_changes s.resolutionStep_changes
  | appliedAfresh => exact State.unlessReset_changes s.afreshStep_changes

/-- A row keeps the part of the state a field names, or the field is listed for it. -/
theorem effect_same_or {f : Field} (i : Instr) (s : State) : s.Same (effect i s) f ∨ f ∈ touched i := by
  by_cases out : f ∈ touched i
  · exact .inr out
  · exact .inl (effect_changes i s f out)

/-! ### Rules of the whole part -/

theorem pending_not_touched (i : Instr) : .pending ∉ touched i := by
  cases i <;> simp [touched]

/-- Settles O2: `exec` answers `next` in every row, and no row or edge of CLK touches the queue. -/
theorem everyStepAnswersNext : Obligations.EveryStepAnswersNext := by
  unfold Obligations.EveryStepAnswersNext
  intro s
  refine ⟨_, step_eq s, ?_⟩
  cases h : s.pending with
  | nil => exact Eq.trans (s.clockEdge_changes .pending (by simp)) h
  | cons c rest => exact effect_changes c _ .pending (pending_not_touched c)

/-- A field a row has changed is listed for it. -/
theorem mem_touched_of_changed {f : Field} {i : Instr} {s : State} (changed : ¬s.Same (effect i s) f) :
    f ∈ touched i :=
  (effect_same_or i s).resolve_left changed

/-- The rows a rule of the whole part names for each field (R14, R73, R106, R171, R175, R185, R187, R188) are those the
field is listed for. -/
theorem touched_rows {i : Instr} (noReset : i ≠ .pinReset) :
    (.generations ∈ touched i → i = .allocate) ∧
    (.gens ∈ touched i → i ∈ [Instr.genSet, .genStart, .genStop, .internalTick] ∨
      (∃ held, i = .externalTick ⟨true, held⟩) ∨ ∃ g, i = .generatorExpiry g) ∧
    (.enable ∈ touched i → i = .engineGo ∨ i = .engineStop) ∧
    (.floor ∈ touched i → i = .setFloor) ∧
    (.inService ∈ touched i → i = .close ∨ i = .wipe ∨
      ∃ access, i = .take access ∧ access.offset.toNat / 2 = 26) ∧
    (.args ∈ touched i → ∃ offset lanes v, i = .registerWrite offset ⟨lanes, false⟩ v) ∧
    (.image ∈ touched i → i = .fetch ∨ (∃ reg lanes v, i = .editRegisterWrite reg lanes v) ∨
      ∃ offset lanes v, i = .registerWrite offset ⟨lanes, false⟩ v) ∧
    (.readBack ∈ touched i → i = .fetch) := by
  cases i
  case pinReset => exact absurd rfl noReset
  case registerWrite offset strobes v => obtain ⟨lanes, _ | _⟩ := strobes <;> simp [touched]
  case externalTick level => obtain ⟨_ | _, _ | _⟩ := level <;> simp [touched]
  all_goals simp [touched]

/-- Settles O51: a row that changes a field has it listed in `touched`, and the rows that list it are those named. -/
theorem stateChangesByItsOwnSteps : Obligations.StateChangesByItsOwnSteps := by
  unfold Obligations.StateChangesByItsOwnSteps
  intro i s t steps noReset
  obtain rfl := effect_of_exec steps
  obtain ⟨generations, gens, enable, floor, inService, args, image, readBack⟩ := touched_rows noReset
  exact ⟨fun n changed => generations (mem_touched_of_changed fun same => changed (same n)),
    fun changed => gens (mem_touched_of_changed changed), fun changed => enable (mem_touched_of_changed changed),
    fun changed => floor (mem_touched_of_changed changed), fun changed => inService (mem_touched_of_changed changed),
    fun changed => args (mem_touched_of_changed changed), fun changed => image (mem_touched_of_changed changed),
    fun changed => readBack (mem_touched_of_changed changed)⟩

end Sys2Proof.Machine
end

