-- ==== Sys2Proof/Proofs/NoticeInvariants.lean ====
section
/-! The notice queue in every step: it stays in urgency order with NOTE_n exact, and the places reserved stay free. -/

namespace Sys2Proof.Machine

/-! ### The queue and NOTE_n stay exact -/

/-- The queue, the set, the floor and NOTE_n decide whether a notice unit is exact. -/
theorem NoticeUnit.Exact.loadHolding {u : NoticeUnit} (h : u.Exact) : u.loadHolding.Exact := by
  unfold NoticeUnit.Exact NoticeUnit.Asserts
  rw [u.loadHolding_queue, u.loadHolding_note, u.loadHolding_floor, u.loadHolding_inService]
  exact h

theorem State.post_exact {s : State} (sorted : SortedQueue s.notices.queue) (n : Notice) :
    (s.post n).notices.Exact :=
  NoticeUnit.evaluate_exact (u := { s.notices with queue := insertNotice n s.notices.queue })
    (insertNotice_sorted n sorted)

/-- A take leaves the rest of the queue, evaluated (R165). -/
theorem NoticeUnit.Exact.taken {u : NoticeUnit} (h : u.Exact) : u.taken.Exact := by
  unfold NoticeUnit.taken
  split
  · exact h.loadHolding
  · next queue =>
    refine NoticeUnit.evaluate_exact ?_
    have sorted := h.1
    rw [queue] at sorted
    exact sorted.of_cons

theorem State.endActivation_notices (s : State) : s.endActivation.notices = s.notices :=
  s.endActivation_changes .notices (by simp)

theorem State.enableOffCourse_exact {s : State} (h : s.notices.Exact) (l : Link) :
    (s.enableOffCourse l).notices.Exact := by
  unfold State.enableOffCourse
  rw [State.endActivation_notices]
  split
  · exact h
  · exact State.post_exact h.1 _

theorem State.resolve_exact {s : State} (h : s.notices.Exact) (a : Activation) (l : Link) :
    (s.resolve a l).notices.Exact := by
  unfold State.resolve
  split
  · rw [State.endActivation_notices]
    exact State.post_exact h.1 _
  split
  · exact State.enableOffCourse_exact h l
  split
  · exact h
  split
  · have same : (s.startLink a l.succ.num).notices = s.notices := s.startLink_changes a _ .notices (by simp)
    rw [same]
    exact h
  · rw [State.endActivation_notices]
    exact State.post_exact h.1 _

theorem State.resolutionStep_exact {s : State} (h : s.notices.Exact) : s.resolutionStep.notices.Exact := by
  unfold State.resolutionStep
  split
  · exact h
  · exact State.resolve_exact h _ _

theorem State.postOutcome_exact {s : State} (h : s.notices.Exact) (w : Working) (c : EndCause) :
    (s.postOutcome w c).notices.Exact := by
  unfold State.postOutcome
  dsimp only
  split
  · exact h
  · exact State.post_exact h.1 _

/-- What the write-back leaves of the notice unit is what its outcome notice does. -/
theorem State.writeBackClaim_notices (s : State) (a : Activation) (w : Working) (c : EndCause) :
    (s.writeBackClaim a w c).notices = (s.postOutcome w c).notices :=
  Eq.trans (State.afterWriteBack_changes _ a w c .notices (by simp))
    (State.storeProgress_changes _ w c .notices (by simp))

theorem State.writeBackClaim_exact {s : State} (h : s.notices.Exact) (a : Activation) (w : Working) (c : EndCause) :
    (s.writeBackClaim a w c).notices.Exact := by
  rw [s.writeBackClaim_notices]
  exact State.postOutcome_exact h w c

theorem State.engineStopClaim_exact {s : State} (h : s.notices.Exact) : s.engineStopClaim.notices.Exact := by
  unfold State.engineStopClaim
  dsimp only
  split
  · exact h
  · exact h
  · split
    · exact State.enableOffCourse_exact (s := { s with enable := false }) h _
    · rw [State.complete_notices, State.settleActivity_notices]
      exact h

theorem State.wipeClaim_exact {s : State} (h : s.notices.Exact) : s.wipeClaim.notices.Exact := by
  unfold State.wipeClaim
  split
  · exact NoticeUnit.evaluate_exact (u := { s.notices with queue := [], inService := 0 }) .nil
  · exact h

theorem State.closeClaim_exact {s : State} (h : s.notices.Exact) : s.closeClaim.notices.Exact := by
  unfold State.closeClaim
  split
  · exact h
  split
  · exact h
  · exact NoticeUnit.evaluate_exact (u := { s.notices with inService := _ }) h.1

theorem State.setFloorClaim_exact {s : State} (h : s.notices.Exact) : s.setFloorClaim.notices.Exact := by
  unfold State.setFloorClaim
  split
  · exact h
  · exact NoticeUnit.evaluate_exact (u := { s.notices with floor := _ }) h.1

theorem State.takeClaim_notices (s : State) : s.takeClaim.notices = s.notices.taken := by
  unfold State.takeClaim
  dsimp only
  split
  · rfl
  · exact State.endStall_changes { s with notices := s.notices.taken } .notices (by simp)

theorem State.takeClaim_exact {s : State} (h : s.notices.Exact) : s.takeClaim.notices.Exact := by
  rw [s.takeClaim_notices]
  exact h.taken

theorem NoticeUnit.reset_exact : NoticeUnit.reset.Exact :=
  ⟨.nil, by simp [NoticeUnit.reset, NoticeUnit.Asserts]⟩

/-- Every row keeps the notice unit exact. -/
theorem effect_notices_exact (i : Instr) (s : State) (h : s.notices.Exact) : (effect i s).notices.Exact := by
  by_cases listed : .notices ∈ touched i
  case neg =>
    have same : (effect i s).notices = s.notices := effect_changes i s .notices listed
    rw [same]
    exact h
  cases i with
  | wipe => exact State.command_rule (P := fun t => t.notices.Exact) h (fun _ => h) fun _ => State.wipeClaim_exact h
  | engineStop =>
    exact State.command_rule (P := fun t => t.notices.Exact) h (fun _ => h) fun _ => State.engineStopClaim_exact h
  | close => exact State.command_rule (P := fun t => t.notices.Exact) h (fun _ => h) fun _ => State.closeClaim_exact h
  | setFloor =>
    exact State.command_rule (P := fun t => t.notices.Exact) h (fun _ => h) fun _ => State.setFloorClaim_exact h
  | take access =>
    exact State.readAccess_rule (P := fun t => t.notices.Exact) h (fun _ => h) (fun _ => State.takeClaim_exact h)
      fun _ => h.loadHolding
  | npeekRead =>
    exact State.slaveAccess_rule (P := fun t => t.notices.Exact) h fun _ => h.loadHolding
  | pinReset => exact NoticeUnit.reset_exact
  | writeBack =>
    exact State.unlessReset_rule (P := fun t => t.notices.Exact) h fun _ =>
      (State.writeBack_rule (P := fun t => t.notices.Exact) h fun a w c _ _ _ => State.writeBackClaim_exact h a w c).1
  | faultWriteBack =>
    exact State.unlessReset_rule (P := fun t => t.notices.Exact) h fun _ =>
      (State.writeBack_rule (P := fun t => t.notices.Exact) h fun a w c _ _ _ => State.writeBackClaim_exact h a w c).2
  | linkResolution =>
    exact State.unlessReset_rule (P := fun t => t.notices.Exact) h fun _ => State.resolutionStep_exact h
  | _ => simp [touched] at listed

theorem State.clockEdge_notices (s : State) : s.clockEdge.notices = s.notices :=
  s.clockEdge_changes .notices (by simp)

/-- Settles O53: a post keeps the order, and every change of the queue, the set or the floor evaluates NOTE_n. -/
theorem noteExactInEveryStep : Obligations.NoteExactInEveryStep := by
  unfold Obligations.NoteExactInEveryStep
  exact fun s t h steps => step_keeps (P := fun s => s.notices.Exact) (fun _ _ h => h)
    (fun s h => by rw [s.clockEdge_notices]; exact h) effect_notices_exact h steps

/-! ### The places reserved -/

theorem State.queueLimit_closed {s : State} (closed : s.activation = none) : s.queueLimit = 32 := by
  simp only [State.queueLimit, closed]

theorem State.queueLimit_open {s : State} {a : Activation} (open_ : s.activation = some a) :
    s.queueLimit = if a.work = none then 31 else 30 := by
  unfold State.queueLimit
  rw [open_]
  cases work : a.work <;> simp [work]

theorem State.queueLimit_bounds (s : State) : 30 ≤ s.queueLimit ∧ s.queueLimit ≤ 32 := by
  cases open_ : s.activation with
  | none => rw [State.queueLimit_closed open_]; decide
  | some a => rw [State.queueLimit_open open_]; split <;> decide

/-- The limit depends on whether an activation is open and holds a service. -/
theorem State.queueLimit_of_work {s t : State}
    (h : t.activation.map Activation.work = s.activation.map Activation.work) : t.queueLimit = s.queueLimit := by
  unfold State.queueLimit
  cases open_ : s.activation <;> cases open' : t.activation <;> simp [open_, open'] at h ⊢
  rw [h]

theorem State.queueLimit_congr {s t : State} (h : t.activation = s.activation) : t.queueLimit = s.queueLimit :=
  State.queueLimit_of_work (congrArg _ h)

/-- Room is kept while the queue does not grow and the limit does not fall. -/
theorem State.QueueRoomKept.mono {s t : State} (h : s.QueueRoomKept)
    (queue : t.notices.queue.length ≤ s.notices.queue.length) (limit : s.queueLimit ≤ t.queueLimit) :
    t.QueueRoomKept :=
  (queue.trans h).trans limit

/-- With notice room every activation may be open (R91). -/
theorem State.QueueRoomKept.of_room {s : State} (room : s.notices.queue.length ≤ 30) : s.QueueRoomKept :=
  room.trans s.queueLimit_bounds.1

theorem State.post_length (s : State) (n : Notice) :
    (s.post n).notices.queue.length = s.notices.queue.length + 1 :=
  insertNotice_length n s.notices.queue

/-- The end of an activation gives all 32 places free. -/
theorem State.endActivation_room {s : State} (h : s.notices.queue.length ≤ 32) : s.endActivation.QueueRoomKept := by
  have closed : s.endActivation.activation = none := s.endActivation_ends.1
  rw [State.QueueRoomKept, State.queueLimit_closed closed, s.endActivation_notices]
  exact h

/-- With an activation open a post and the activation's end fit (R137). -/
theorem State.endActivation_post_room {s : State} {a : Activation} (h : s.QueueRoomKept)
    (open_ : s.activation = some a) (n : Notice) : (s.post n).endActivation.QueueRoomKept := by
  apply State.endActivation_room
  rw [State.post_length]
  rw [State.QueueRoomKept, State.queueLimit_open open_] at h
  split at h <;> omega

theorem State.enableOffCourse_room {s : State} {a : Activation} (h : s.QueueRoomKept)
    (open_ : s.activation = some a) (l : Link) : (s.enableOffCourse l).QueueRoomKept := by
  unfold State.enableOffCourse
  split
  · exact State.endActivation_room (h.trans s.queueLimit_bounds.2)
  · exact State.endActivation_post_room h open_ _

theorem State.resolve_room {s : State} {a : Activation} (h : s.QueueRoomKept) (open_ : s.activation = some a)
    (l : Link) : (s.resolve a l).QueueRoomKept := by
  unfold State.resolve
  split
  · exact State.endActivation_post_room h open_ _
  split
  · exact State.enableOffCourse_room h open_ l
  split
  · exact h.mono le_rfl (State.queueLimit_of_work (by simp [open_])).ge
  split
  · next room _ =>
    have same : (s.startLink a l.succ.num).notices = s.notices := s.startLink_changes a _ .notices (by simp)
    apply State.QueueRoomKept.of_room
    rw [same]
    exact s.noticeRoom_iff.mp (by simpa using room)
  · exact State.endActivation_post_room h open_ _

/-- The link in hand, as the activation holds it. -/
theorem State.linkAt_eq_some {s : State} {stage : Stage} {a : Activation} {l : Link}
    (h : s.linkAt stage = some (a, l)) : s.activation = some a ∧ a.link = some l ∧ l.stage = stage := by
  unfold State.linkAt at h
  split at h
  · contradiction
  split at h
  · contradiction
  split at h
  · cases h
    exact ⟨by assumption, by assumption, by assumption⟩
  · contradiction

theorem State.resolutionStep_room {s : State} (h : s.QueueRoomKept) : s.resolutionStep.QueueRoomKept := by
  unfold State.resolutionStep
  split
  · exact h
  · next link => exact State.resolve_room h (State.linkAt_eq_some link).1 _

theorem State.postOutcome_length_le (s : State) (w : Working) (c : EndCause) :
    (s.postOutcome w c).notices.queue.length ≤ s.notices.queue.length + 1 := by
  unfold State.postOutcome
  dsimp only
  split
  · omega
  · exact (State.post_length s _).le

/-- After the write-back no service is in flight. -/
theorem State.afterWriteBack_limit (s : State) (a : Activation) (w : Working) (c : EndCause) :
    31 ≤ (s.afterWriteBack a w c).queueLimit := by
  unfold State.afterWriteBack
  split
  · exact le_refl 31
  · exact le_refl 31
  · rw [State.queueLimit_closed s.endActivation_ends.1]
    decide

theorem State.writeBackClaim_room {s : State} {a : Activation} {w : Working} (h : s.QueueRoomKept)
    (open_ : s.activation = some a) (work : a.work = some w) (c : EndCause) :
    (s.writeBackClaim a w c).QueueRoomKept := by
  rw [State.QueueRoomKept, State.queueLimit_open open_, if_neg (by simp [work])] at h
  have posted := s.postOutcome_length_le w c
  have limit : 31 ≤ (s.writeBackClaim a w c).queueLimit := State.afterWriteBack_limit _ a w c
  rw [State.QueueRoomKept, s.writeBackClaim_notices]
  omega

/-! #### The service in flight goes on -/

theorem State.cutWaitingRequest_limit {s : State} {a : Activation} (open_ : s.activation = some a) :
    (s.cutWaitingRequest a).queueLimit = s.queueLimit := by
  unfold State.cutWaitingRequest
  rw [State.queueLimit_open open_]
  split
  · next work _ =>
    split
    · simp [work, State.queueLimit]
    · rw [State.queueLimit_open open_]
  · next work _ =>
    split
    · simp [work, State.queueLimit]
    · rw [State.queueLimit_open open_]
  · rw [State.queueLimit_open open_]

theorem State.deferCommand_limit (s : State) (kind : DeferredKind) (h : Handle) :
    (s.deferCommand kind h).queueLimit = s.queueLimit := by
  unfold State.deferCommand
  dsimp only
  split
  · rfl
  · next a open_ =>
    rw [State.cutWaitingRequest_limit rfl, State.queueLimit_open rfl]
    exact (State.queueLimit_open (s := s) open_).symm

theorem State.deferCommand_room {s : State} (room : s.QueueRoomKept) (kind : DeferredKind) (h : Handle) :
    (s.deferCommand kind h).QueueRoomKept := by
  have same : (s.deferCommand kind h).notices = s.notices := s.deferCommand_changes kind h .notices (by simp)
  exact room.mono (by rw [same]) (s.deferCommand_limit kind h).ge

/-- A service that goes on or ends is in flight still. -/
theorem State.unitBoundary_limit (s : State) (a : Activation) (w : Working) :
    (s.unitBoundary a w).queueLimit = 30 := by
  unfold State.unitBoundary
  split <;> rfl

theorem State.pairCompleted_limit (s : State) : s.pairCompleted.queueLimit = s.queueLimit := by
  unfold State.pairCompleted
  split
  · rfl
  split
  · rfl
  next _ a open_ _ w work =>
    rw [State.queueLimit_open open_, if_neg (by simp [work])]
    split
    · rfl
    · exact State.unitBoundary_limit _ _ _

theorem State.pairFailed_limit (s : State) (half : Half) : (s.pairFailed half).queueLimit = s.queueLimit := by
  unfold State.pairFailed
  split
  · rfl
  split
  · rfl
  next _ a open_ _ w work =>
    rw [State.queueLimit_open open_, if_neg (by simp [work])]
    rfl

theorem State.pairError_limit (s : State) : s.pairError.queueLimit = s.queueLimit := by
  unfold State.pairError
  split
  · exact State.pairFailed_limit _ _
  · rfl

theorem State.pairError_room {s : State} (h : s.QueueRoomKept) : s.pairError.QueueRoomKept := by
  have same : s.pairError.notices = s.notices := s.pairError_changes .notices (by simp)
  exact h.mono (by rw [same]) s.pairError_limit.ge

theorem State.writeCompleted_room {s : State} (h : s.QueueRoomKept) : s.writeCompleted.QueueRoomKept := by
  have same : s.writeCompleted.notices = s.notices := s.writeCompleted_changes .notices (by simp)
  refine h.mono (by rw [same]) ?_
  unfold State.writeCompleted
  split
  · exact (State.pairCompleted_limit { s with bus := s.bus.release }).ge
  · exact le_rfl

/-! #### The rows -/

theorem State.headChoice_room {s : State} (h : s.QueueRoomKept) : s.headChoice.QueueRoomKept := by
  unfold State.headChoice
  split
  · split
    · exact h
    · next n _ =>
      split
      · next room =>
        have same : (s.startHead n).notices = s.notices := s.startHead_changes n .notices (by simp)
        apply State.QueueRoomKept.of_room
        rw [same]
        exact s.noticeRoom_iff.mp room
      · exact h
  · exact h

theorem State.engineStopClaim_room {s : State} (h : s.QueueRoomKept) : s.engineStopClaim.QueueRoomKept := by
  unfold State.engineStopClaim
  dsimp only
  split
  · exact h
  · exact h
  · split
    · next link =>
      exact State.enableOffCourse_room (s := { s with enable := false }) h (State.linkAt_eq_some link).1 _
    · exact h.mono (by simp) (State.queueLimit_congr (by simp)).ge

theorem State.afreshStep_room {s : State} (h : s.QueueRoomKept) : s.afreshStep.QueueRoomKept := by
  unfold State.afreshStep
  split
  · exact h
  · next d _ =>
    have same : (s.applyDeferred d).1.notices = s.notices := s.applyDeferred_changes d .notices (by simp)
    apply State.endActivation_room
    rw [State.complete_notices, same]
    exact h.trans s.queueLimit_bounds.2

theorem NoticeUnit.taken_length_le (u : NoticeUnit) : u.taken.queue.length ≤ u.queue.length := by
  unfold NoticeUnit.taken
  split
  · rw [u.loadHolding_queue]
  · next queue => rw [queue]; exact Nat.le_succ _

theorem State.endStall_limit (s : State) : s.endStall.queueLimit = s.queueLimit := by
  unfold State.endStall
  split
  · next link =>
    split
    · exact State.queueLimit_of_work (by simp [(State.linkAt_eq_some link).1])
    · rfl
  · exact State.queueLimit_congr (by simp)

theorem State.takeClaim_room {s : State} (h : s.QueueRoomKept) : s.takeClaim.QueueRoomKept := by
  refine h.mono (by rw [s.takeClaim_notices]; exact s.notices.taken_length_le) ?_
  unfold State.takeClaim
  dsimp only
  split
  · exact le_rfl
  · exact (State.endStall_limit { s with notices := s.notices.taken }).ge

theorem State.peekClaim_room {s : State} (h : s.QueueRoomKept) : s.peekClaim.QueueRoomKept :=
  h.mono (s := s) (t := s.peekClaim) (congrArg List.length s.notices.loadHolding_queue).le le_rfl

theorem State.closeClaim_room {s : State} (h : s.QueueRoomKept) : s.closeClaim.QueueRoomKept := by
  unfold State.closeClaim
  split
  · exact h
  split <;> exact h

theorem State.setFloorClaim_room {s : State} (h : s.QueueRoomKept) : s.setFloorClaim.QueueRoomKept := by
  unfold State.setFloorClaim
  split <;> exact h

theorem State.wipeClaim_room {s : State} (h : s.QueueRoomKept) : s.wipeClaim.QueueRoomKept := by
  unfold State.wipeClaim
  split
  · exact Nat.zero_le _
  · exact h

theorem State.holdClaim_room {s : State} (h : s.QueueRoomKept) : s.holdClaim.QueueRoomKept := by
  unfold State.holdClaim
  split
  · exact State.deferCommand_room h _ _
  · have changes := s.applyHold_changes s.arg0
    have notices : (s.applyHold s.arg0).1.notices = s.notices := changes .notices (by simp)
    have activation : (s.applyHold s.arg0).1.activation = s.activation := changes .activation (by simp)
    exact h.mono (by simp [notices]) (State.queueLimit_congr (by simp [activation])).ge

theorem State.retireClaim_room {s : State} (h : s.QueueRoomKept) : s.retireClaim.QueueRoomKept := by
  unfold State.retireClaim
  split
  · exact State.deferCommand_room h _ _
  · have changes := s.applyRetire_changes s.arg0
    have notices : (s.applyRetire s.arg0).1.notices = s.notices := changes .notices (by simp)
    have activation : (s.applyRetire s.arg0).1.activation = s.activation := changes .activation (by simp)
    exact h.mono (by simp [notices]) (State.queueLimit_congr (by simp [activation])).ge

/-- A row that changes neither the notice unit nor the activation keeps the places reserved. -/
theorem State.QueueRoomKept.of_changes {s t : State} {l : List Field} (h : s.QueueRoomKept)
    (changes : s.ChangesOnly l t) (notices : .notices ∉ l) (activation : .activation ∉ l) : t.QueueRoomKept := by
  have queue : t.notices = s.notices := changes .notices notices
  exact h.mono (by rw [queue]) (State.queueLimit_congr (changes .activation activation)).ge

/-- Every row keeps the places reserved free. -/
theorem effect_room (i : Instr) (s : State) (h : s.QueueRoomKept) : (effect i s).QueueRoomKept := by
  by_cases quiet : .notices ∉ touched i ∧ .activation ∉ touched i
  case pos => exact h.of_changes (effect_changes i s) quiet.1 quiet.2
  cases i with
  | hold => exact State.command_rule (P := State.QueueRoomKept) h (fun _ => h) fun _ => State.holdClaim_room h
  | retire => exact State.command_rule (P := State.QueueRoomKept) h (fun _ => h) fun _ => State.retireClaim_room h
  | wipe => exact State.command_rule (P := State.QueueRoomKept) h (fun _ => h) fun _ => State.wipeClaim_room h
  | engineStop =>
    exact State.command_rule (P := State.QueueRoomKept) h (fun _ => h) fun _ => State.engineStopClaim_room h
  | close => exact State.command_rule (P := State.QueueRoomKept) h (fun _ => h) fun _ => State.closeClaim_room h
  | setFloor => exact State.command_rule (P := State.QueueRoomKept) h (fun _ => h) fun _ => State.setFloorClaim_room h
  | take access =>
    exact State.readAccess_rule (P := State.QueueRoomKept) h (fun _ => h) (fun _ => State.takeClaim_room h)
      fun _ => State.peekClaim_room h
  | npeekRead => exact State.slaveAccess_rule (P := State.QueueRoomKept) h fun _ => State.peekClaim_room h
  | pinReset => exact Nat.zero_le _
  | headStart => exact State.unlessReset_rule (P := State.QueueRoomKept) h fun _ => State.headChoice_room h
  | writeComplete => exact State.unlessReset_rule (P := State.QueueRoomKept) h fun _ => State.writeCompleted_room h
  | busError => exact State.unlessReset_rule (P := State.QueueRoomKept) h fun _ => State.pairError_room h
  | waitLimitExpiry => exact State.unlessReset_rule (P := State.QueueRoomKept) h fun _ => State.pairError_room h
  | writeBack =>
    exact State.unlessReset_rule (P := State.QueueRoomKept) h fun _ =>
      (State.writeBack_rule (P := State.QueueRoomKept) h fun a w c open_ work _ =>
        State.writeBackClaim_room h open_ work c).1
  | faultWriteBack =>
    exact State.unlessReset_rule (P := State.QueueRoomKept) h fun _ =>
      (State.writeBack_rule (P := State.QueueRoomKept) h fun a w c open_ work _ =>
        State.writeBackClaim_room h open_ work c).2
  | linkResolution =>
    exact State.unlessReset_rule (P := State.QueueRoomKept) h fun _ => State.resolutionStep_room h
  | appliedAfresh => exact State.unlessReset_rule (P := State.QueueRoomKept) h fun _ => State.afreshStep_room h
  | _ => simp [touched] at quiet

theorem State.clockBus_room {s : State} (h : s.QueueRoomKept) : s.clockBus.QueueRoomKept := by
  unfold State.clockBus
  split
  · split
    · exact h
    · exact State.pairError_room h
  · exact h
  · split <;> exact h

theorem State.clockEdge_room {s : State} (h : s.QueueRoomKept) : s.clockEdge.QueueRoomKept := by
  refine State.clockEdge_rule (P := State.QueueRoomKept) h fun _ => State.clockBus_room ?_
  exact h.of_changes ((s.holdOff_changes _).andThen ((State.clockInputs_changes _).andThen
    (State.clockDivider_changes _))) (by simp) (by simp)

/-- Settles O54: a post finds an activation open, whose limit leaves it a place, and ends or shortens the activation. -/
theorem queueNeverOverflows : Obligations.QueueNeverOverflows := by
  unfold Obligations.QueueNeverOverflows
  intro s t h steps
  have kept : t.QueueRoomKept :=
    step_keeps (P := State.QueueRoomKept) (fun _ _ h => h) (fun _ h => State.clockEdge_room h) effect_room h steps
  exact ⟨kept, kept.trans t.queueLimit_bounds.2⟩

end Sys2Proof.Machine
end

