-- ==== Sys2Proof/Proofs/GeneratorInvariant.lean ====
section
/-! The generators in every step: state, mode, periods, phase and remaining stay tied together (R72). -/

namespace Sys2Proof.Machine

/-- Every generator's context is sound. -/
abbrev State.GeneratorsSound (s : State) : Prop := ∀ g : GenNo, s.gens[g].Sound

/-! ### One context -/

section
variable {c : Generator}

theorem Generator.reset_sound : Generator.reset.Sound := by decide

/-- A STOPPED context stays one under any configuration (R80). -/
theorem Generator.Sound.configured (h : c.Sound) (stopped : c.running = false) (arg0 periodA periodB : Word) :
    (c.configured arg0 periodA periodB).Sound := by
  obtain ⟨rest, _, _, _⟩ := h
  have running : (c.configured arg0 periodA periodB).running ≠ true := by simp [Generator.configured, stopped]
  exact ⟨fun _ => rest stopped, fun h => absurd h running, fun _ => (rest stopped).2, fun h => absurd h running⟩

theorem Generator.stopped_sound (c : Generator) : c.stopped.Sound :=
  ⟨fun _ => ⟨rfl, rfl⟩, nofun, fun _ => rfl, nofun⟩

/-- A period that is not 0 is at least 1. -/
theorem one_le_of_ne_zero {w : Word} (h : w ≠ 0) : 1 ≤ w.toNat := by bv_omega

/-- The start of phase A with periods that pass GEN_START's checks (R81). -/
theorem Generator.started_sound (periodA : c.periodA ≠ 0) (periodB : c.mode = .alternate → c.periodB ≠ 0) :
    c.started.Sound :=
  ⟨nofun, fun _ => ⟨one_le_of_ne_zero periodA, le_refl _⟩, fun _ => rfl, fun _ => ⟨periodA, periodB⟩⟩

/-- A tick that does not expire takes remaining down by 1, not to 0. -/
theorem Generator.Sound.counted (h : c.Sound) (running : c.running = true) (more : c.remaining - 1 ≠ 0) :
    ({ c with remaining := c.remaining - 1 } : Generator).Sound := by
  obtain ⟨_, count, phase, periods⟩ := h
  obtain ⟨low, high⟩ := count running
  refine ⟨fun stopped => absurd (running.symm.trans stopped) (by decide), fun _ => ⟨one_le_of_ne_zero more, ?_⟩,
    phase, periods⟩
  change (c.remaining - 1).toNat ≤ c.period.toNat
  bv_omega

/-- After an expiry the next phase begins with its whole period, or the generator stops (R76). -/
theorem Generator.Sound.expired (h : c.Sound) (running : c.running = true) : c.expired.Sound := by
  obtain ⟨periodA, periodB⟩ := h.2.2.2 running
  have stays : ∀ {d : Generator}, d.running = c.running → d.running = false → False := fun same stopped =>
    absurd (running.symm.trans (same.symm.trans stopped)) (by decide)
  unfold Generator.expired
  split
  · exact c.stopped_sound
  · next mode =>
    exact ⟨fun stopped => (stays rfl stopped).elim, fun _ => ⟨one_le_of_ne_zero periodA, le_refl _⟩, fun _ => rfl,
      fun _ => ⟨periodA, periodB⟩⟩
  · next mode _ =>
    exact ⟨fun stopped => (stays rfl stopped).elim, fun _ => ⟨one_le_of_ne_zero (periodB mode), le_refl _⟩,
      fun other => absurd mode other, fun _ => ⟨periodA, periodB⟩⟩
  · exact ⟨fun stopped => (stays rfl stopped).elim, fun _ => ⟨one_le_of_ne_zero periodA, le_refl _⟩, fun _ => rfl,
      fun _ => ⟨periodA, periodB⟩⟩

end

/-! ### The part -/

section
variable {s : State}

theorem State.GeneratorsSound.setGen (h : s.GeneratorsSound) (g : GenNo) {c : Generator} (sound : c.Sound) :
    (s.setGen g c).GeneratorsSound := by
  intro j
  rw [State.setGen_gens, vector_set_get]
  split
  · exact sound
  · exact h j

theorem State.genSetClaim_gensSound (h : s.GeneratorsSound) : s.genSetClaim.GeneratorsSound := by
  unfold State.genSetClaim
  split
  · exact h
  split
  · exact h
  split
  · exact h
  · next stopped => exact h.setGen _ ((h _).configured (by simpa using stopped) _ _ _)

theorem State.genStartClaim_gensSound (h : s.GeneratorsSound) : s.genStartClaim.GeneratorsSound := by
  unfold State.genStartClaim
  split
  · exact h
  next g _ =>
  split
  · exact h
  · next starts =>
    have periods : s.gens[g].periodA ≠ 0 ∧ (s.gens[g].mode = .alternate → s.gens[g].periodB ≠ 0) := by
      cases running : s.gens[g].running with
      | true => exact (h g).2.2.2 running
      | false => simpa [running, Generator.periodsFail, -Fin.getElem_fin] using starts
    exact h.setGen g (Generator.started_sound periods.1 periods.2)

theorem State.genStopClaim_gensSound (h : s.GeneratorsSound) : s.genStopClaim.GeneratorsSound := by
  unfold State.genStopClaim
  split
  · exact h
  · exact h.setGen _ (Generator.stopped_sound _)

theorem State.expiryEvent_gens (s : State) (g : GenNo) : (s.expiryEvent g).gens = s.gens :=
  s.expiryEvent_changes g .gens (by simp)

theorem State.tickClaim_gensSound (h : s.GeneratorsSound) (g : GenNo) : (s.tickClaim g).GeneratorsSound := by
  unfold State.tickClaim
  dsimp only
  split
  · next running =>
    split
    · intro j
      rw [State.expiryEvent_gens]
      exact h.setGen g ((h g).expired running) j
    · next more => exact h.setGen g ((h g).counted running more)
  · exact h

/-- What each step of a fold keeps the fold keeps. -/
theorem foldl_keeps {α : Type} {P : State → Prop} {f : State → α → State} (each : ∀ s x, P s → P (f s x))
    (xs : List α) {s : State} (h : P s) : P (xs.foldl f s) := by
  induction xs generalizing s with
  | nil => exact h
  | cons x xs ih => exact ih (each s x h)

theorem State.tick_gensSound (h : s.GeneratorsSound) (source : TickSource) : (s.tick source).GeneratorsSound := by
  refine foldl_keeps (P := State.GeneratorsSound) (fun t g sound => ?_) _ h
  split
  · exact State.tickClaim_gensSound sound g
  · exact sound

theorem State.tickSeen_gensSound (h : s.GeneratorsSound) (high : Bool) : (s.tickSeen high).GeneratorsSound := by
  unfold State.tickSeen State.tickSampled
  dsimp only
  split
  · split
    · exact State.tick_gensSound (s := { s with tickLine := high }) h .external
    · exact h
  · exact h

theorem State.tickHeld_gensSound (h : s.GeneratorsSound) (level : PinLevel) :
    (s.tickHeld level).GeneratorsSound := by
  unfold State.tickHeld
  dsimp only
  split
  · exact State.tickSeen_gensSound (State.tickSeen_gensSound h _) _
  · exact State.tickSeen_gensSound h _

theorem State.internalTickClaim_gensSound (h : s.GeneratorsSound) : s.internalTickClaim.GeneratorsSound :=
  State.tick_gensSound (s := { s with divider := 0 }) h .internal

theorem State.expiryClaim_gensSound (h : s.GeneratorsSound) (g : GenNo) : (s.expiryClaim g).GeneratorsSound := by
  unfold State.expiryClaim
  split
  · exact State.tickClaim_gensSound h g
  · exact h

theorem State.GeneratorsSound.of_gens {t : State} (h : s.GeneratorsSound) (same : t.gens = s.gens) :
    t.GeneratorsSound := by
  unfold State.GeneratorsSound
  rw [same]
  exact h

theorem State.clockEdge_gensSound (h : s.GeneratorsSound) : s.clockEdge.GeneratorsSound := by
  refine State.clockEdge_rule (P := State.GeneratorsSound) h fun _ => ?_
  have inputs : s.clockHoldOff.clockInputs.GeneratorsSound := by
    refine State.tickSeen_gensSound (h.of_gens ?_) _
    exact State.foldl_changes (fun t k => State.lineSeen_changes t k _) _ s.clockHoldOff .gens (by simp)
  have divider : s.clockHoldOff.clockInputs.clockDivider.GeneratorsSound := by
    unfold State.clockDivider
    split
    · exact inputs
    · exact State.internalTickClaim_gensSound inputs
  exact divider.of_gens (State.clockBus_changes _ .gens (by simp))

end

/-- Every row keeps the generators sound. -/
theorem effect_gensSound (i : Instr) (s : State) (h : s.GeneratorsSound) : (effect i s).GeneratorsSound := by
  by_cases listed : .gens ∈ touched i
  case neg => exact h.of_gens (effect_changes i s .gens listed)
  cases i with
  | genSet =>
    exact State.command_rule (P := State.GeneratorsSound) h (fun _ => h) fun _ => State.genSetClaim_gensSound h
  | genStart =>
    exact State.command_rule (P := State.GeneratorsSound) h (fun _ => h) fun _ => State.genStartClaim_gensSound h
  | genStop =>
    exact State.command_rule (P := State.GeneratorsSound) h (fun _ => h) fun _ => State.genStopClaim_gensSound h
  | internalTick =>
    exact State.unlessReset_rule (P := State.GeneratorsSound) h fun _ => State.internalTickClaim_gensSound h
  | externalTick level =>
    exact State.unlessReset_rule (P := State.GeneratorsSound) h fun _ => State.tickHeld_gensSound h level
  | generatorExpiry g =>
    exact State.unlessReset_rule (P := State.GeneratorsSound) h fun _ => State.expiryClaim_gensSound h g
  | pinReset =>
    intro g
    have reset : (effect .pinReset s).gens[g] = Generator.reset := Vector.getElem_replicate g.isLt
    rw [reset]
    exact Generator.reset_sound
  | _ => simp [touched] at listed

/-- Settles O57: the generators change only by a configuration, a start, a stop and tick claims, each of which leaves a
sound context. -/
theorem generatorsSoundInEveryStep : Obligations.GeneratorsSoundInEveryStep := by
  unfold Obligations.GeneratorsSoundInEveryStep
  exact fun s t h steps => step_keeps (P := State.GeneratorsSound) (fun _ _ h => h)
    (fun _ h => State.clockEdge_gensSound h) effect_gensSound h steps

end Sys2Proof.Machine
end

