-- ==== Sys2Proof/Proofs/HeadWaitInvariant.lean ====
section
/-! The head wait in every step: with no activation open activity is STALLED exactly while its condition holds. -/

namespace Sys2Proof.Machine

section
variable {s t : State}

/-! ### What the head wait depends on -/

/-- With an activation open there is no head wait. -/
theorem State.HeadWaitExact.of_open (open_ : t.activation ≠ none) : t.HeadWaitExact :=
  fun closed => absurd closed open_

/-- The head wait depends on the activation, the activity, enable, which records are eligible, and the queue's
count. -/
theorem State.HeadWaitExact.of_same (h : s.HeadWaitExact) (activation : t.activation = s.activation)
    (activity : t.activity = s.activity) (enable : t.enable = s.enable)
    (eligible : ∀ n : RecNo, t.records[n].IsEligible ↔ s.records[n].IsEligible)
    (queue : t.notices.queue.length = s.notices.queue.length) : t.HeadWaitExact := by
  have condition : t.HeadWaitCondition ↔ s.HeadWaitCondition := by
    unfold State.HeadWaitCondition
    rw [enable, queue, exists_congr eligible]
  intro closed
  rw [condition, activity]
  exact h (activation.symm.trans closed)

/-- A change that touches none of these keeps the head wait exact. -/
theorem State.HeadWaitExact.of_changes {l : List Field} (h : s.HeadWaitExact) (changes : s.ChangesOnly l t)
    (quiet : .activation ∉ l ∧ .activity ∉ l ∧ .enable ∉ l ∧ .records ∉ l ∧ .notices ∉ l) : t.HeadWaitExact := by
  obtain ⟨activation, activity, enable, records, notices⟩ := quiet
  have records : t.records = s.records := changes .records records
  have notices : t.notices = s.notices := changes .notices notices
  exact h.of_same (changes .activation activation) (changes .activity activity) (changes .enable enable)
    (fun n => by rw [records]) (by rw [notices])

/-- One record replaced by another, neither of them eligible. -/
theorem State.HeadWaitExact.setRecord (h : s.HeadWaitExact) {n : RecNo} {r : Record}
    (eligible : r.IsEligible ↔ s.records[n].IsEligible) : (s.setRecord n r).HeadWaitExact := by
  refine h.of_same (t := s.setRecord n r) rfl rfl rfl (fun m => ?_) rfl
  rw [State.setRecord_records, vector_set_get]
  split
  · next same => rw [same, eligible]
  · exact Iff.rfl

theorem State.settleActivity_headWait (s : State) : s.settleActivity.HeadWaitExact := s.settleActivity_settles.2

theorem State.endActivation_headWait (s : State) : s.endActivation.HeadWaitExact := s.endActivation_ends.2.1

/-! ### The record commands -/

theorem State.allocateClaim_headWait (h : s.HeadWaitExact) : s.allocateClaim.HeadWaitExact := by
  unfold State.allocateClaim
  split
  · exact h
  · next n found =>
    refine h.setRecord (n := n) (r := .allocated (s.records[n].gen + 1)) ?_
    exact ⟨fun draft => absurd draft.1 RecState.noConfusion,
      fun armed => absurd (armed.1.symm.trans (State.lowestFree_free found)) (by decide)⟩

theorem State.storeClaim_headWait (h : s.HeadWaitExact) : s.storeClaim.HeadWaitExact := by
  unfold State.storeClaim
  split
  · exact h
  dsimp only
  split
  · split
    · exact h
    · exact h.setRecord (r := Record.stored _ _) Iff.rfl
  · exact h

theorem State.armClaim_headWait (h : s.HeadWaitExact) : s.armClaim.HeadWaitExact := by
  unfold State.armClaim
  split
  · exact h
  dsimp only
  split
  · split
    · exact h
    · exact State.settleActivity_headWait _
  · exact h

theorem State.cutWaitingRequest_open {a : Activation} (open_ : s.activation = some a) :
    (s.cutWaitingRequest a).activation ≠ none := by
  have same : s.activation ≠ none := by simp [open_]
  unfold State.cutWaitingRequest
  split
  · split
    · exact Option.some_ne_none _
    · exact same
  · split
    · exact Option.some_ne_none _
    · exact same
  · exact same

theorem State.deferCommand_headWait (h : s.HeadWaitExact) (kind : DeferredKind) (handle : Handle) :
    (s.deferCommand kind handle).HeadWaitExact := by
  unfold State.deferCommand
  dsimp only
  split
  · exact h
  · exact .of_open (State.cutWaitingRequest_open rfl)

theorem State.holdClaim_headWait (h : s.HeadWaitExact) : s.holdClaim.HeadWaitExact := by
  unfold State.holdClaim
  split
  · exact State.deferCommand_headWait h _ _
  · exact State.settleActivity_headWait _

theorem State.retireClaim_headWait (h : s.HeadWaitExact) : s.retireClaim.HeadWaitExact := by
  unfold State.retireClaim
  split
  · exact State.deferCommand_headWait h _ _
  · exact State.settleActivity_headWait _

theorem State.wipeClaim_headWait (h : s.HeadWaitExact) : s.wipeClaim.HeadWaitExact := by
  unfold State.wipeClaim
  split
  · next quiet =>
    have off : ¬(s.wiped.complete codeWipe (.bare .ok)).HeadWaitCondition := fun waits =>
      absurd (quiet.1.symm.trans waits.1) (by decide)
    exact fun _ => ⟨fun waits => absurd waits off, fun _ => quiet.2⟩
  · exact h

theorem State.triggerClaim_headWait (h : s.HeadWaitExact) : s.triggerClaim.HeadWaitExact := by
  unfold State.triggerClaim
  split
  · exact h
  dsimp only
  split
  · exact State.settleActivity_headWait _
  · exact h

theorem State.bindClaim_headWait (h : s.HeadWaitExact) : s.bindClaim.HeadWaitExact := by
  unfold State.bindClaim State.bindChecked
  split
  · split
    · exact h
    dsimp only
    split
    · exact State.settleActivity_headWait _
    · exact h
  · exact h

/-! ### Engine control and chains -/

theorem State.engineStopClaim_headWait (h : s.HeadWaitExact) : s.engineStopClaim.HeadWaitExact := by
  unfold State.engineStopClaim
  dsimp only
  split
  · next running =>
    intro closed
    obtain ⟨stalled, idle⟩ := h closed
    by_cases waits : s.HeadWaitCondition
    · exact absurd (running.symm.trans (stalled waits)) (by decide)
    · exact absurd (running.symm.trans (idle waits)) (by decide)
  · next idle =>
    exact fun _ => ⟨fun waits => absurd waits.1 Bool.false_ne_true, fun _ => idle⟩
  · split
    · exact State.endActivation_headWait _
    · exact State.settleActivity_headWait _

theorem State.unitBoundary_open (s : State) (a : Activation) (w : Working) :
    (s.unitBoundary a w).activation ≠ none := by
  unfold State.unitBoundary
  split <;> exact Option.some_ne_none _

/-- The head the arbiter chooses is eligible (R89). -/
theorem State.anyEligible_of_chosenHead {n : RecNo} (chosen : s.chosenHead = some n) :
    ∃ m : RecNo, s.records[m].IsEligible := by
  by_contra none_
  rw [State.chosenHead_none fun m eligible => none_ ⟨m, eligible⟩] at chosen
  contradiction

theorem State.headChoice_headWait (h : s.HeadWaitExact) : s.headChoice.HeadWaitExact := by
  unfold State.headChoice
  split
  · next on =>
    split
    · exact h
    · next n chosen =>
      split
      · exact .of_open (State.unitBoundary_open _ _ _)
      · next full =>
        have waits : s.HeadWaitCondition :=
          ⟨on.1, State.anyEligible_of_chosenHead chosen, s.noticeRoom_false_iff.mp (by simpa using full)⟩
        exact fun _ => ⟨fun _ => rfl, fun other => absurd waits other⟩
  · exact h

theorem State.enableOffCourse_headWait (s : State) (l : Link) : (s.enableOffCourse l).HeadWaitExact :=
  State.endActivation_headWait _

theorem State.resolve_headWait (s : State) (a : Activation) (l : Link) : (s.resolve a l).HeadWaitExact := by
  unfold State.resolve
  split
  · exact State.endActivation_headWait _
  split
  · exact s.enableOffCourse_headWait l
  split
  · exact .of_open (Option.some_ne_none _)
  split
  · exact .of_open (State.unitBoundary_open _ _ _)
  · exact State.endActivation_headWait _

theorem State.resolutionStep_headWait (h : s.HeadWaitExact) : s.resolutionStep.HeadWaitExact := by
  unfold State.resolutionStep
  split
  · exact h
  · exact State.resolve_headWait _ _ _

theorem State.afreshStep_headWait (h : s.HeadWaitExact) : s.afreshStep.HeadWaitExact := by
  unfold State.afreshStep
  split
  · exact h
  · exact State.endActivation_headWait _

theorem State.writeBackClaim_headWait (s : State) (a : Activation) (w : Working) (c : EndCause) :
    (s.writeBackClaim a w c).HeadWaitExact := by
  unfold State.writeBackClaim State.afterWriteBack
  split
  · exact .of_open (Option.some_ne_none _)
  · exact .of_open (Option.some_ne_none _)
  · exact State.endActivation_headWait _

/-! ### Units -/

theorem State.pairCompleted_headWait (h : s.HeadWaitExact) : s.pairCompleted.HeadWaitExact := by
  unfold State.pairCompleted
  split
  · exact h
  split
  · exact h
  split
  · exact .of_open (Option.some_ne_none _)
  · exact .of_open (State.unitBoundary_open _ _ _)

theorem State.writeCompleted_headWait (h : s.HeadWaitExact) : s.writeCompleted.HeadWaitExact := by
  unfold State.writeCompleted
  split
  · exact State.pairCompleted_headWait (s := { s with bus := s.bus.release }) h
  · exact h

theorem State.pairFailed_headWait (h : s.HeadWaitExact) (half : Half) : (s.pairFailed half).HeadWaitExact := by
  unfold State.pairFailed
  split
  · exact h
  split
  · exact h
  · exact .of_open (Option.some_ne_none _)

theorem State.pairError_headWait (h : s.HeadWaitExact) : s.pairError.HeadWaitExact := by
  unfold State.pairError
  split
  · exact State.pairFailed_headWait (s := { s with bus := s.bus.release }) h _
  · exact h

/-! ### Notices -/

theorem State.endStall_headWait (s : State) : s.endStall.HeadWaitExact := by
  unfold State.endStall
  split
  · next link =>
    split
    · exact .of_open (Option.some_ne_none _)
    · exact .of_open (by simp [(State.linkAt_eq_some link).1])
  · exact State.settleActivity_headWait _

theorem State.peekClaim_headWait (h : s.HeadWaitExact) : s.peekClaim.HeadWaitExact :=
  h.of_same (t := s.peekClaim) rfl rfl rfl (fun _ => Iff.rfl) (congrArg _ s.notices.loadHolding_queue)

theorem State.takeClaim_headWait (h : s.HeadWaitExact) : s.takeClaim.HeadWaitExact := by
  cases queue : s.notices.queue with
  | nil =>
    rw [State.takeClaim_empty queue]
    exact State.peekClaim_headWait h
  | cons n rest =>
    simp only [State.takeClaim, queue]
    exact State.endStall_headWait _

theorem State.closeClaim_headWait (h : s.HeadWaitExact) : s.closeClaim.HeadWaitExact := by
  unfold State.closeClaim
  split
  · exact h
  split <;> exact h

theorem State.setFloorClaim_headWait (h : s.HeadWaitExact) : s.setFloorClaim.HeadWaitExact := by
  unfold State.setFloorClaim
  split <;> exact h

/-! ### Sources and ticks -/

theorem State.lineSeen_headWait (h : s.HeadWaitExact) (k : LineNo) (high : Bool) :
    (s.lineSeen k high).HeadWaitExact := by
  unfold State.lineSeen State.lineSampled
  split
  · split
    · exact h
    dsimp only
    split
    · exact h
    · exact State.settleActivity_headWait _
  · exact h

theorem State.lineHeld_headWait (h : s.HeadWaitExact) (k : LineNo) (level : PinLevel) :
    (s.lineHeld k level).HeadWaitExact := by
  unfold State.lineHeld
  dsimp only
  split
  · exact State.lineSeen_headWait (State.lineSeen_headWait h k _) k _
  · exact State.lineSeen_headWait h k _

theorem State.tickClaim_headWait (h : s.HeadWaitExact) (g : GenNo) : (s.tickClaim g).HeadWaitExact :=
  (State.tickClaim_spec h g).2.2.2

theorem State.tick_headWait (h : s.HeadWaitExact) (source : TickSource) : (s.tick source).HeadWaitExact := by
  unfold State.tick
  refine foldl_keeps (P := State.HeadWaitExact) (fun t g exact_ => ?_) _ h
  split
  · exact State.tickClaim_headWait exact_ g
  · exact exact_

theorem State.tickSeen_headWait (h : s.HeadWaitExact) (high : Bool) : (s.tickSeen high).HeadWaitExact := by
  unfold State.tickSeen State.tickSampled
  dsimp only
  split
  · split
    · exact State.tick_headWait (s := { s with tickLine := high }) h .external
    · exact h
  · exact h

theorem State.tickHeld_headWait (h : s.HeadWaitExact) (level : PinLevel) : (s.tickHeld level).HeadWaitExact := by
  unfold State.tickHeld
  dsimp only
  split
  · exact State.tickSeen_headWait (State.tickSeen_headWait h _) _
  · exact State.tickSeen_headWait h _

theorem State.internalTickClaim_headWait (h : s.HeadWaitExact) : s.internalTickClaim.HeadWaitExact := by
  have zero : ({ s with divider := 0 } : State).HeadWaitExact := h
  unfold State.internalTickClaim
  exact State.tick_headWait zero .internal

theorem State.expiryClaim_headWait (h : s.HeadWaitExact) (g : GenNo) : (s.expiryClaim g).HeadWaitExact := by
  unfold State.expiryClaim
  split
  · exact State.tickClaim_headWait h g
  · exact h

/-! ### The clock -/

theorem State.clockInputs_headWait (h : s.HeadWaitExact) : s.clockInputs.HeadWaitExact := by
  unfold State.clockInputs
  refine State.tickSeen_headWait (foldl_keeps (P := State.HeadWaitExact) (fun t k exact_ => ?_) _ h) _
  exact State.lineSeen_headWait exact_ k _

theorem State.clockDivider_headWait (h : s.HeadWaitExact) : s.clockDivider.HeadWaitExact := by
  unfold State.clockDivider
  split
  · exact h
  · exact State.internalTickClaim_headWait h

theorem State.clockBus_headWait (h : s.HeadWaitExact) : s.clockBus.HeadWaitExact := by
  unfold State.clockBus
  split
  · split
    · exact h
    · exact State.pairError_headWait h
  · exact h
  · split <;> exact h

theorem State.clockEdge_headWait (h : s.HeadWaitExact) : s.clockEdge.HeadWaitExact := by
  have held : s.clockHoldOff.HeadWaitExact := h
  exact State.clockEdge_rule (P := State.HeadWaitExact) h fun _ =>
    State.clockBus_headWait (State.clockDivider_headWait (State.clockInputs_headWait held))

end

/-! ### Every row -/

/-- A command keeps the head wait exact when its owner's claim does. -/
theorem State.command_headWait {s : State} {code : Byte} {owner : State → State} (h : s.HeadWaitExact)
    (claim : ∀ {u : State}, u.HeadWaitExact → (owner u).HeadWaitExact) : (s.command code owner).HeadWaitExact :=
  State.command_rule (P := State.HeadWaitExact) h (fun _ => h) fun _ => claim h

/-- Every row keeps the head wait exact. -/
theorem effect_headWait (i : Instr) (s : State) (h : s.HeadWaitExact) : (effect i s).HeadWaitExact := by
  by_cases quiet : .activation ∉ touched i ∧ .activity ∉ touched i ∧ .enable ∉ touched i ∧ .records ∉ touched i ∧
      .notices ∉ touched i
  case pos => exact h.of_changes (effect_changes i s) quiet
  cases i with
  | allocate => exact State.command_headWait h State.allocateClaim_headWait
  | store => exact State.command_headWait h State.storeClaim_headWait
  | arm => exact State.command_headWait h State.armClaim_headWait
  | hold => exact State.command_headWait h State.holdClaim_headWait
  | retire => exact State.command_headWait h State.retireClaim_headWait
  | wipe => exact State.command_headWait h State.wipeClaim_headWait
  | trigger => exact State.command_headWait h State.triggerClaim_headWait
  | bind => exact State.command_headWait h State.bindClaim_headWait
  | engineGo => exact State.command_headWait h fun _ => State.settleActivity_headWait _
  | engineStop => exact State.command_headWait h State.engineStopClaim_headWait
  | close => exact State.command_headWait h State.closeClaim_headWait
  | setFloor => exact State.command_headWait h State.setFloorClaim_headWait
  | take access =>
    exact State.readAccess_rule (P := State.HeadWaitExact) h (fun _ => h) (fun _ => State.takeClaim_headWait h)
      fun _ => State.peekClaim_headWait h
  | npeekRead => exact State.slaveAccess_rule (P := State.HeadWaitExact) h fun _ => State.peekClaim_headWait h
  | pinReset => exact fun _ => ⟨fun waits => absurd waits.1 Bool.false_ne_true, fun _ => rfl⟩
  | reqEdge line level =>
    exact State.unlessReset_rule (P := State.HeadWaitExact) h fun _ => State.lineHeld_headWait h line level
  | internalTick =>
    exact State.unlessReset_rule (P := State.HeadWaitExact) h fun _ => State.internalTickClaim_headWait h
  | externalTick level =>
    exact State.unlessReset_rule (P := State.HeadWaitExact) h fun _ => State.tickHeld_headWait h level
  | generatorExpiry g =>
    exact State.unlessReset_rule (P := State.HeadWaitExact) h fun _ => State.expiryClaim_headWait h g
  | headStart => exact State.unlessReset_rule (P := State.HeadWaitExact) h fun _ => State.headChoice_headWait h
  | writeComplete =>
    exact State.unlessReset_rule (P := State.HeadWaitExact) h fun _ => State.writeCompleted_headWait h
  | busError => exact State.unlessReset_rule (P := State.HeadWaitExact) h fun _ => State.pairError_headWait h
  | waitLimitExpiry => exact State.unlessReset_rule (P := State.HeadWaitExact) h fun _ => State.pairError_headWait h
  | writeBack =>
    exact State.unlessReset_rule (P := State.HeadWaitExact) h fun _ => (State.writeBack_rule (P := State.HeadWaitExact)
      h fun a w c _ _ _ => s.writeBackClaim_headWait a w c).1
  | faultWriteBack =>
    exact State.unlessReset_rule (P := State.HeadWaitExact) h fun _ => (State.writeBack_rule (P := State.HeadWaitExact)
      h fun a w c _ _ _ => s.writeBackClaim_headWait a w c).2
  | linkResolution =>
    exact State.unlessReset_rule (P := State.HeadWaitExact) h fun _ => State.resolutionStep_headWait h
  | appliedAfresh =>
    exact State.unlessReset_rule (P := State.HeadWaitExact) h fun _ => State.afreshStep_headWait h
  | _ => simp [touched] at quiet

/-- Settles O58: a claim that can begin or end a head wait ends by settling the activity or leaves an activation open,
and every other keeps what the head wait depends on. -/
theorem headWaitExactInEveryStep : Obligations.HeadWaitExactInEveryStep := by
  unfold Obligations.HeadWaitExactInEveryStep
  exact fun s t h steps => step_keeps (P := State.HeadWaitExact) (fun _ _ h => h)
    (fun _ h => State.clockEdge_headWait h) effect_headWait h steps

end Sys2Proof.Machine
end

