-- ==== Sys2Proof/Proofs/TriggersOnRecords.lean ====
section
/-! What triggers do to the record store, through whatever claim they come: latches rise, overrun flags are set, and
nothing else of a record changes (R12, R64, R65). The events of the sources and the ticks change no more than that. -/

namespace Sys2Proof.Machine

/-! ### One record -/

/-- `r'` is `r` after triggers and standing triggers: its latch has risen, to 4 at most, its overrun flag has been set,
or neither; a record in which triggers do not latch is as it was. -/
structure Record.LatchedTo (r r' : Record) : Prop where
  rest : r' = { r with latch := r'.latch, overrun := r'.overrun }
  latch : r.latch ≤ r'.latch
  overrun : r.overrun = true → r'.overrun = true
  limit : r.latch ≤ 4 → r'.latch ≤ 4
  idle : r.state.latches = false → r' = r

section
variable {r r' r'' : Record}

theorem Record.LatchedTo.refl (r : Record) : r.LatchedTo r := ⟨rfl, le_rfl, id, id, fun _ => rfl⟩

theorem Record.LatchedTo.state (h : r.LatchedTo r') : r'.state = r.state := by rw [h.rest]
theorem Record.LatchedTo.gen (h : r.LatchedTo r') : r'.gen = r.gen := by rw [h.rest]
theorem Record.LatchedTo.edit (h : r.LatchedTo r') : r'.edit = r.edit := by rw [h.rest]
theorem Record.LatchedTo.count (h : r.LatchedTo r') : r'.count = r.count := by rw [h.rest]
theorem Record.LatchedTo.srcCur (h : r.LatchedTo r') : r'.srcCur = r.srcCur := by rw [h.rest]
theorem Record.LatchedTo.dstCur (h : r.LatchedTo r') : r'.dstCur = r.dstCur := by rw [h.rest]
theorem Record.LatchedTo.fault (h : r.LatchedTo r') : r'.fault = r.fault := by rw [h.rest]

theorem Record.LatchedTo.trans (h : r.LatchedTo r') (h' : r'.LatchedTo r'') : r.LatchedTo r'' where
  rest := by rw [h'.rest, h.rest]
  latch := h.latch.trans h'.latch
  overrun := h'.overrun ∘ h.overrun
  limit := h'.limit ∘ h.limit
  idle := fun none_ => (h'.idle (by rw [h.state]; exact none_)).trans (h.idle none_)

/-- One trigger (R64). -/
theorem Record.triggered_latchedTo (r : Record) : r.LatchedTo r.triggered := by
  unfold Record.triggered
  split
  · next latches =>
    have busy : r.state.latches = false → False := fun none_ => absurd (latches.symm.trans none_) (by decide)
    split
    · next room => exact ⟨rfl, Nat.le_succ _, id, fun _ => room, fun h => (busy h).elim⟩
    · exact ⟨rfl, le_rfl, fun _ => rfl, id, fun h => (busy h).elim⟩
  · exact .refl r

end

/-! ### The record store -/

/-- Every record of `t` is that of `s` after triggers. -/
abbrev State.RecordsLatched (s t : State) : Prop := ∀ n : RecNo, s.records[n].LatchedTo t.records[n]

section
variable {s t u : State}

theorem State.RecordsLatched.of_records (h : t.records = s.records) : s.RecordsLatched t := by
  intro n
  rw [h]
  exact .refl _

theorem State.RecordsLatched.trans (h : s.RecordsLatched t) (h' : t.RecordsLatched u) : s.RecordsLatched u :=
  fun n => (h n).trans (h' n)

theorem State.setRecord_latched {n : RecNo} {r : Record} (h : s.records[n].LatchedTo r) :
    s.RecordsLatched (s.setRecord n r) := by
  intro m
  rw [State.setRecord_records, vector_set_get]
  split
  · next same => rw [same]; exact h
  · exact .refl _

theorem State.deliverTrigger_latched (s : State) (n : RecNo) : s.RecordsLatched (s.deliverTrigger n) :=
  State.setRecord_latched (Record.triggered_latchedTo _)

/-- The test of a standing trigger, taken apart (R65). -/
theorem Record.awaitsStanding_iff (r : Record) :
    r.awaitsStanding = true ↔ (r.state = .armed ∨ r.state = .held) ∧ r.latch = 0 := by
  simp [Record.awaitsStanding]

theorem State.standingTrigger_latched (s : State) (n : RecNo) : s.RecordsLatched (s.standingTrigger n) := by
  unfold State.standingTrigger
  split
  · next due =>
    obtain ⟨state, latch⟩ := (Record.awaitsStanding_iff _).mp (Bool.and_eq_true_iff.mp due).1
    refine State.setRecord_latched ⟨rfl, by omega, id, fun _ => by norm_num, fun none_ => ?_⟩
    rcases state with h | h <;> rw [h] at none_ <;> contradiction
  · exact .of_records rfl

/-! ### Steps that are triggers -/

/-- The fields a trigger step may change beside the records and the activity: what the sources and the ticks have of
their own. -/
def sourceFields : List Field := [.records, .activity, .levels, .lines, .tickLevel, .tickLine, .gens, .divider, .holdOff]

/-- `t` is `s` after events of the sources and ticks: beside the fields of those, triggers have come to records, and the
activity has settled where no activation is open. -/
structure State.Triggered (s t : State) : Prop where
  records : s.RecordsLatched t
  changes : s.ChangesOnly sourceFields t
  activity : t.activity = s.activity ∨ (s.activation = none ∧ t.activity ≠ .running)

theorem State.Triggered.refl (s : State) : s.Triggered s := ⟨.of_records rfl, .refl _ s, .inl rfl⟩

theorem State.Triggered.trans (h : s.Triggered t) (h' : t.Triggered u) : s.Triggered u where
  records := h.records.trans h'.records
  changes := h.changes.trans h'.changes
  activity := by
    have activation : t.activation = s.activation := h.changes .activation (by simp [sourceFields])
    rcases h'.activity with same | ⟨closed, still⟩
    · rw [same]
      exact h.activity
    · exact .inr ⟨activation.symm.trans closed, still⟩

/-- A change of the sources' own fields is no trigger. -/
theorem State.Triggered.of_changes {l : List Field} (changes : s.ChangesOnly l t) (own : l ⊆ sourceFields)
    (quiet : .records ∉ l ∧ .activity ∉ l) : s.Triggered t :=
  ⟨.of_records (changes .records quiet.1), changes.mono own, .inl (changes .activity quiet.2)⟩

theorem State.deliverTrigger_triggered (s : State) (n : RecNo) : s.Triggered (s.deliverTrigger n) :=
  ⟨s.deliverTrigger_latched n, (s.deliverTrigger_changes n).mono (by simp [sourceFields]), .inl rfl⟩

theorem State.standingTrigger_triggered (s : State) (n : RecNo) : s.Triggered (s.standingTrigger n) :=
  ⟨s.standingTrigger_latched n, (s.standingTrigger_changes n).mono (by simp [sourceFields]), .inl (by simp)⟩

theorem State.settleActivity_triggered (s : State) : s.Triggered s.settleActivity := by
  refine ⟨.of_records (by simp), s.settleActivity_changes.mono (by simp [sourceFields]), ?_⟩
  unfold State.settleActivity
  split
  · exact .inl rfl
  · next closed =>
    refine .inr ⟨closed, ?_⟩
    dsimp only
    split <;> exact Activity.noConfusion

theorem State.setLine_triggered (s : State) (k : LineNo) (high : Bool) : s.Triggered (s.setLine k high) :=
  .of_changes (s.setLine_changes k high) (by simp [sourceFields]) (by simp)

theorem State.setGen_triggered (s : State) (g : GenNo) (c : Generator) : s.Triggered (s.setGen g c) :=
  .of_changes (s.setGen_changes g c) (by simp [sourceFields]) (by simp)

theorem State.edgeAction_triggered (s : State) (b : Binding) (high : Bool) : s.Triggered (s.edgeAction b high) := by
  unfold State.edgeAction
  split
  · exact s.deliverTrigger_triggered _
  · exact s.deliverTrigger_triggered _
  · exact s.standingTrigger_triggered _
  · exact s.standingTrigger_triggered _
  all_goals exact .refl s

theorem State.lineSampled_triggered (s : State) (k : LineNo) (high : Bool) : s.Triggered (s.lineSampled k high) := by
  unfold State.lineSampled
  split
  · exact .refl s
  dsimp only
  split
  · exact s.setLine_triggered k high
  · exact (s.setLine_triggered k high).trans ((State.edgeAction_triggered _ _ _).trans
      (State.settleActivity_triggered _))

theorem State.lineSeen_triggered (s : State) (k : LineNo) (high : Bool) : s.Triggered (s.lineSeen k high) := by
  unfold State.lineSeen
  split
  · exact s.lineSampled_triggered k high
  · exact .of_changes (s.levels_changes _) (by simp [sourceFields]) (by simp)

theorem State.lineHeld_triggered (s : State) (k : LineNo) (level : PinLevel) : s.Triggered (s.lineHeld k level) := by
  unfold State.lineHeld
  dsimp only
  split
  · exact (s.lineSeen_triggered k _).trans (State.lineSeen_triggered _ k _)
  · exact s.lineSeen_triggered k _

theorem State.expiryEvent_triggered (s : State) (g : GenNo) : s.Triggered (s.expiryEvent g) := by
  unfold State.expiryEvent
  split
  · exact .refl s
  · exact (s.deliverTrigger_triggered _).trans (State.settleActivity_triggered _)

theorem State.tickClaim_triggered (s : State) (g : GenNo) : s.Triggered (s.tickClaim g) := by
  unfold State.tickClaim
  dsimp only
  split
  · split
    · exact (s.setGen_triggered g _).trans (State.expiryEvent_triggered _ g)
    · exact s.setGen_triggered g _
  · exact .refl s

theorem State.tick_triggered (s : State) (source : TickSource) : s.Triggered (s.tick source) := by
  unfold State.tick
  refine foldl_keeps (P := s.Triggered) (fun t g before => before.trans ?_) _ (.refl s)
  split
  · exact t.tickClaim_triggered g
  · exact .refl t

theorem State.internalTickClaim_triggered (s : State) : s.Triggered s.internalTickClaim := by
  unfold State.internalTickClaim
  exact State.Triggered.trans (.of_changes (s.divider_changes 0) (by simp [sourceFields]) (by simp))
    (State.tick_triggered _ _)

theorem State.tickSeen_triggered (s : State) (high : Bool) : s.Triggered (s.tickSeen high) := by
  have line : s.Triggered { s with tickLine := high } :=
    .of_changes (s.tickLine_changes high) (by simp [sourceFields]) (by simp)
  unfold State.tickSeen State.tickSampled
  dsimp only
  split
  · split
    · exact line.trans (State.tick_triggered _ _)
    · exact line
  · exact .of_changes (s.tickLevel_changes high) (by simp [sourceFields]) (by simp)

theorem State.tickHeld_triggered (s : State) (level : PinLevel) : s.Triggered (s.tickHeld level) := by
  unfold State.tickHeld
  dsimp only
  split
  · exact (s.tickSeen_triggered _).trans (State.tickSeen_triggered _ _)
  · exact s.tickSeen_triggered _

theorem State.expiryClaim_triggered (s : State) (g : GenNo) : s.Triggered (s.expiryClaim g) := by
  unfold State.expiryClaim
  split
  · exact s.tickClaim_triggered g
  · exact .refl s

theorem State.clockInputs_triggered (s : State) : s.Triggered s.clockInputs := by
  unfold State.clockInputs
  refine State.Triggered.trans ?_ (State.tickSeen_triggered _ _)
  exact foldl_keeps (P := s.Triggered) (fun t k before => before.trans (t.lineSeen_triggered k _)) _ (.refl s)

theorem State.clockDivider_triggered (s : State) : s.Triggered s.clockDivider := by
  unfold State.clockDivider
  split
  · exact .of_changes (s.divider_changes _) (by simp [sourceFields]) (by simp)
  · exact s.internalTickClaim_triggered

/-- An edge of CLK up to the bus interface is an event of the sources and a tick. -/
theorem State.clockSources_triggered (s : State) : s.Triggered s.clockHoldOff.clockInputs.clockDivider :=
  State.Triggered.trans (.of_changes (s.holdOff_changes _) (by simp [sourceFields]) (by simp))
    ((State.clockInputs_triggered _).trans (State.clockDivider_triggered _))

end

/-! ### The record a write-back leaves -/

section
variable {s : State} {w : Working} {c : EndCause}

theorem State.postOutcome_other {n : RecNo} (other : n ≠ w.handle.num) :
    (s.postOutcome w c).records[n] = s.records[n] := by
  rw [State.postOutcome_eq]
  exact (vector_set_get _ _ _ _).trans (if_neg other)

/-- The outcome notice leaves its record, or clears its overrun flag (R123). -/
theorem State.postOutcome_record (s : State) (w : Working) (c : EndCause) :
    (s.postOutcome w c).records[w.handle.num] = { s.records[w.handle.num] with
      overrun := (s.postOutcome w c).records[w.handle.num].overrun } := by
  conv_lhs => rw [State.postOutcome_eq]
  exact (vector_set_get _ _ _ _).trans (if_pos rfl)

theorem State.storeProgress_other {n : RecNo} (other : n ≠ w.handle.num) :
    (s.storeProgress w c).records[n] = s.records[n] := by
  have set_ : ∀ r : Record, (s.setRecord w.handle.num r).records[n] = s.records[n] := fun r =>
    (vector_set_get _ _ _ _).trans (if_neg other)
  unfold State.storeProgress
  dsimp only
  split
  · exact set_ _
  split
  · rw [State.standingTrigger_other _ other]
    exact set_ _
  · exact set_ _

/-- Under RETIRE the record is freed (R117). -/
theorem State.storeProgress_retired (retires : w.autoRetires c = true) :
    s.storeProgress w c = s.freeRecord w.handle.num := by
  simp only [State.storeProgress, retires, if_true]

/-- Else it is the record written back, with its standing trigger (R66). -/
theorem State.storeProgress_kept (keeps : w.autoRetires c = false) :
    (s.records[w.handle.num].writtenBack w c).LatchedTo (s.storeProgress w c).records[w.handle.num] := by
  have written : (s.setRecord w.handle.num (s.records[w.handle.num].writtenBack w c)).records[w.handle.num] =
      s.records[w.handle.num].writtenBack w c := (vector_set_get _ _ _ _).trans (if_pos rfl)
  simp only [State.storeProgress, keeps, Bool.false_eq_true, if_false]
  split
  · have standing := State.standingTrigger_latched
      (s.setRecord w.handle.num (s.records[w.handle.num].writtenBack w c)) w.handle.num w.handle.num
    rw [written] at standing
    exact standing
  · rw [written]
    exact .refl _

theorem State.freeRecord_record (s : State) (n : RecNo) : (s.freeRecord n).records[n] = s.records[n].freed :=
  (vector_set_get _ _ _ _).trans (if_pos rfl)

/-- What an end that does not free the record leaves it: ARMED, SPENT or FAULTED (R115, R116, R118, R149). -/
theorem Record.writtenBack_state (r : Record) (keeps : w.autoRetires c = false) :
    (r.writtenBack w c).state = .armed ∨ (r.writtenBack w c).state = .spent ∨
      (r.writtenBack w c).state = .faulted := by
  cases c with
  | exhausted =>
    cases policy : w.edit.policy with
    | retire => simp [Working.autoRetires, policy] at keeps
    | park => simp [Record.writtenBack, policy]
    | reload => simp [Record.writtenBack, policy]
  | quantum => exact .inl rfl
  | cut => exact .inl rfl
  | fault cause addr => exact .inr (.inr rfl)

theorem State.writeBackClaim_records (s : State) (a : Activation) (w : Working) (c : EndCause) :
    (s.writeBackClaim a w c).records = ((s.postOutcome w c).storeProgress w c).records :=
  State.afterWriteBack_changes _ a w c .records (by simp)

theorem State.writeBackClaim_other (s : State) (a : Activation) {n : RecNo} (other : n ≠ w.handle.num) :
    (s.writeBackClaim a w c).records[n] = s.records[n] := by
  rw [s.writeBackClaim_records, State.storeProgress_other other, State.postOutcome_other other]

/-- A write-back leaves its record FREE, ARMED, SPENT or FAULTED, so not ACTIVE (R114, R149). -/
theorem State.writeBackClaim_not_active (s : State) (a : Activation) (w : Working) (c : EndCause) :
    (s.writeBackClaim a w c).records[w.handle.num].state ≠ .active := by
  rw [s.writeBackClaim_records]
  cases retires : w.autoRetires c with
  | true =>
    rw [State.storeProgress_retired retires, State.freeRecord_record]
    exact RecState.noConfusion
  | false =>
    rw [(State.storeProgress_kept retires).state]
    rcases Record.writtenBack_state (s.postOutcome w c).records[w.handle.num] retires with h | h | h <;>
      rw [h] <;> exact RecState.noConfusion

end

end Sys2Proof.Machine
end

