-- ==== Sys2Proof/Proofs/ActiveRecord.lean ====
section
/-! A record that stays ACTIVE through a step keeps its stored fields: no claim but a trigger reaches it (R3, R31). -/

namespace Sys2Proof.Machine

/-- Every record that is ACTIVE in `s` and in `t` has had triggers at most. -/
def State.KeepsActive (s t : State) : Prop :=
  ∀ n : RecNo, s.records[n].state = .active → t.records[n].state = .active → s.records[n].LatchedTo t.records[n]

section
variable {s t u : State}

theorem State.RecordsLatched.keepsActive (h : s.RecordsLatched t) : s.KeepsActive t := fun n _ _ => h n

theorem State.KeepsActive.of_records (h : t.records = s.records) : s.KeepsActive t :=
  (State.RecordsLatched.of_records h).keepsActive

/-- Triggers after a change. -/
theorem State.KeepsActive.latched (h : s.KeepsActive t) (h' : t.RecordsLatched u) : s.KeepsActive u :=
  fun n before after => (h n before ((h' n).state.symm.trans after)).trans (h' n)

/-- A change of other fields first. -/
theorem State.KeepsActive.from_records (h : t.KeepsActive u) (records : t.records = s.records) : s.KeepsActive u := by
  unfold State.KeepsActive at h ⊢
  rw [← records]
  exact h

/-- A record replaced that was not ACTIVE. -/
theorem State.setRecord_keepsActive_of_not {n : RecNo} {r : Record} (idle : s.records[n].state ≠ .active) :
    s.KeepsActive (s.setRecord n r) := by
  intro m before _
  have other : m ≠ n := by rintro rfl; exact idle before
  rw [State.setRecord_records, vector_set_get, if_neg other]
  exact .refl _

/-- A record replaced by one that is not ACTIVE. -/
theorem State.setRecord_keepsActive_to_not {n : RecNo} {r : Record} (idle : r.state ≠ .active) :
    s.KeepsActive (s.setRecord n r) := by
  intro m _ after
  rw [State.setRecord_records, vector_set_get] at after ⊢
  split at after
  · exact absurd after idle
  · next other => rw [if_neg other]; exact .refl _

/-! ### The claims -/

theorem State.allocateClaim_keepsActive (s : State) : s.KeepsActive s.allocateClaim := by
  unfold State.allocateClaim
  split
  · exact .of_records rfl
  · exact State.setRecord_keepsActive_to_not (r := .allocated _) RecState.noConfusion

/-- A record STORE and ARM accept is DRAFT or HELD (R32, R36). -/
theorem RecState.editable_iff (st : RecState) : st.editable = true ↔ st = .draft ∨ st = .held := by
  simp [RecState.editable]

theorem RecState.not_active_of_editable {st : RecState} (h : st.editable = true) : st ≠ .active := by
  rintro rfl; contradiction

theorem State.storeClaim_keepsActive (s : State) : s.KeepsActive s.storeClaim := by
  unfold State.storeClaim
  split
  · exact .of_records rfl
  dsimp only
  split
  · next editable =>
    split
    · exact .of_records rfl
    · exact State.setRecord_keepsActive_of_not (RecState.not_active_of_editable editable)
  · exact .of_records rfl

theorem State.armClaim_keepsActive (s : State) : s.KeepsActive s.armClaim := by
  unfold State.armClaim
  split
  · exact .of_records rfl
  dsimp only
  split
  · next editable =>
    split
    · exact .of_records rfl
    · exact (State.setRecord_keepsActive_of_not (RecState.not_active_of_editable editable)).latched
        ((State.standingTrigger_triggered _ _).trans (State.settleActivity_triggered _)).records
  · exact .of_records rfl

theorem State.applyHold_keepsActive (s : State) (w : Word) : s.KeepsActive (s.applyHold w).1 := by
  unfold State.applyHold
  split
  · exact .of_records rfl
  dsimp only
  split
  · exact State.setRecord_keepsActive_to_not RecState.noConfusion
  · exact .of_records rfl
  · exact (State.setRecord_keepsActive_to_not RecState.noConfusion).latched (State.standingTrigger_latched _ _)
  · exact (State.setRecord_keepsActive_to_not RecState.noConfusion).latched (State.standingTrigger_latched _ _)
  all_goals exact .of_records rfl

theorem State.freeRecord_keepsActive (s : State) (n : RecNo) : s.KeepsActive (s.freeRecord n) :=
  State.setRecord_keepsActive_to_not (r := s.records[n].freed) RecState.noConfusion

theorem State.applyRetire_keepsActive (s : State) (w : Word) : s.KeepsActive (s.applyRetire w).1 := by
  unfold State.applyRetire
  split
  · exact .of_records rfl
  · exact s.freeRecord_keepsActive _

theorem State.holdClaim_keepsActive (s : State) : s.KeepsActive s.holdClaim := by
  unfold State.holdClaim
  split
  · exact .of_records (s.deferCommand_changes _ _ .records (by simp))
  · exact (s.applyHold_keepsActive _).latched (State.settleActivity_triggered _).records

theorem State.retireClaim_keepsActive (s : State) : s.KeepsActive s.retireClaim := by
  unfold State.retireClaim
  split
  · exact .of_records (s.deferCommand_changes _ _ .records (by simp))
  · exact (s.applyRetire_keepsActive _).latched (State.settleActivity_triggered _).records

theorem State.wipeClaim_keepsActive (s : State) : s.KeepsActive s.wipeClaim := by
  unfold State.wipeClaim
  split
  · intro n _ after
    simp [State.wiped, Record.empty] at after
  · exact .of_records rfl

theorem State.triggerClaim_keepsActive (s : State) : s.KeepsActive s.triggerClaim := by
  unfold State.triggerClaim
  split
  · exact .of_records rfl
  dsimp only
  split
  · exact ((s.deliverTrigger_triggered _).trans (State.settleActivity_triggered _)).records.keepsActive
  · exact .of_records rfl

theorem State.bindClaim_keepsActive (s : State) : s.KeepsActive s.bindClaim := by
  unfold State.bindClaim State.bindChecked
  split
  · split
    · exact .of_records rfl
    dsimp only
    split
    · exact (State.KeepsActive.of_records (State.setBinding_records _ _ _)).latched
        ((State.standingTrigger_triggered _ _).trans (State.settleActivity_triggered _)).records
    · exact .of_records rfl
  · exact .of_records rfl

theorem State.endActivation_records (s : State) : s.endActivation.records = s.records :=
  s.endActivation_changes .records (by simp)

theorem State.enableOffCourse_latched (s : State) (l : Link) : s.RecordsLatched (s.enableOffCourse l) := by
  unfold State.enableOffCourse
  refine State.RecordsLatched.trans ?_ (.of_records (State.endActivation_records _))
  split
  · exact s.deliverTrigger_latched _
  · exact .of_records rfl

theorem State.engineStopClaim_keepsActive (s : State) : s.KeepsActive s.engineStopClaim := by
  unfold State.engineStopClaim
  dsimp only
  split
  · exact .of_records rfl
  · exact .of_records rfl
  · split
    · exact (State.enableOffCourse_latched { s with enable := false } _).keepsActive
    · exact .of_records (by simp)

/-- The head the arbiter chooses is ARMED (R86, R89). -/
theorem State.chosenHead_eligible {n : RecNo} (chosen : s.chosenHead = some n) : s.records[n].IsEligible := by
  unfold State.chosenHead at chosen
  obtain ⟨k, _, head⟩ := List.exists_of_findSome?_eq_some chosen
  unfold State.headOfRank at head
  have found := List.find?_some head
  simp only [Record.eligible, Bool.and_eq_true, beq_iff_eq, decide_eq_true_eq] at found
  exact found.1

theorem State.unitBoundary_records (s : State) (a : Activation) (w : Working) :
    (s.unitBoundary a w).records = s.records := s.unitBoundary_changes a w .records (by simp)

/-- The start of a head changes its own record alone. -/
theorem State.startHead_records (s : State) (n : RecNo) : (s.startHead n).records =
    s.records.set n { s.records[n] with state := .active, latch := s.records[n].latch - 1 } :=
  State.unitBoundary_records _ _ _

theorem State.startLink_records (s : State) (a : Activation) (n : RecNo) : (s.startLink a n).records =
    s.records.set n { s.records[n] with state := .active } :=
  State.unitBoundary_records _ _ _

theorem State.headChoice_keepsActive (s : State) : s.KeepsActive s.headChoice := by
  unfold State.headChoice
  split
  · split
    · exact .of_records rfl
    · next n chosen =>
      split
      · have armed : s.records[n].state ≠ .active := by
          rw [(State.chosenHead_eligible chosen).1]
          exact RecState.noConfusion
        exact (State.setRecord_keepsActive_of_not armed).latched (.of_records (s.startHead_records n))
      · exact .of_records rfl
  · exact .of_records rfl

/-- A link check passes for an ARMED record of the generation named (R134). -/
theorem State.successorReady_iff (s : State) (h : Handle) :
    s.successorReady h = true ↔ s.records[h.num].state = .armed ∧ s.records[h.num].gen = h.gen := by
  simp [State.successorReady, -Fin.getElem_fin]

theorem State.resolve_keepsActive (s : State) (a : Activation) (l : Link) : s.KeepsActive (s.resolve a l) := by
  unfold State.resolve
  split
  · exact .of_records (State.endActivation_records _)
  split
  · exact (s.enableOffCourse_latched l).keepsActive
  split
  · exact .of_records rfl
  split
  · next ready =>
    have armed : s.records[l.succ.num].state ≠ .active := by
      rw [((s.successorReady_iff _).mp ready).1]
      exact RecState.noConfusion
    exact (State.setRecord_keepsActive_of_not armed).latched (.of_records (s.startLink_records a _))
  · exact .of_records (State.endActivation_records _)

theorem State.resolutionStep_keepsActive (s : State) : s.KeepsActive s.resolutionStep := by
  unfold State.resolutionStep
  split
  · exact .of_records rfl
  · exact s.resolve_keepsActive _ _

theorem State.applyDeferred_keepsActive (s : State) (d : Deferred) : s.KeepsActive (s.applyDeferred d).1 := by
  unfold State.applyDeferred
  split
  · exact s.applyHold_keepsActive _
  · exact s.applyRetire_keepsActive _

theorem State.afreshStep_keepsActive (s : State) : s.KeepsActive s.afreshStep := by
  unfold State.afreshStep
  split
  · exact .of_records rfl
  · exact (s.applyDeferred_keepsActive _).latched (.of_records (State.endActivation_records _))

theorem State.writeBackClaim_keepsActive (s : State) (a : Activation) (w : Working) (c : EndCause) :
    s.KeepsActive (s.writeBackClaim a w c) := by
  intro n _ after
  by_cases own : n = w.handle.num
  · rw [own] at after
    exact absurd after (s.writeBackClaim_not_active a w c)
  · rw [s.writeBackClaim_other a own]
    exact .refl _

end

/-! ### Every row -/

theorem State.command_keepsActive {code : Byte} {owner : State → State} (claim : ∀ u : State, u.KeepsActive (owner u))
    (s : State) : s.KeepsActive (s.command code owner) :=
  State.command_rule (P := s.KeepsActive) (.of_records rfl) (fun _ => .of_records rfl) fun _ => claim (s.served code)

/-- In every row a record that stays ACTIVE has had triggers at most. -/
theorem effect_keepsActive (i : Instr) (s : State) : s.KeepsActive (effect i s) := by
  by_cases listed : .records ∈ touched i
  case neg => exact .of_records (effect_changes i s .records listed)
  have same : s.KeepsActive s := .of_records rfl
  cases i with
  | allocate => exact s.command_keepsActive State.allocateClaim_keepsActive
  | store => exact s.command_keepsActive State.storeClaim_keepsActive
  | arm => exact s.command_keepsActive State.armClaim_keepsActive
  | hold => exact s.command_keepsActive State.holdClaim_keepsActive
  | retire => exact s.command_keepsActive State.retireClaim_keepsActive
  | wipe => exact s.command_keepsActive State.wipeClaim_keepsActive
  | trigger => exact s.command_keepsActive State.triggerClaim_keepsActive
  | bind => exact s.command_keepsActive State.bindClaim_keepsActive
  | engineStop => exact s.command_keepsActive State.engineStopClaim_keepsActive
  | pinReset =>
    intro n _ after
    have reset : (effect .pinReset s).records[n] = Record.empty 0 := Vector.getElem_replicate n.isLt
    rw [reset] at after
    contradiction
  | reqEdge line level =>
    exact State.unlessReset_rule (P := s.KeepsActive) same fun _ =>
      (s.lineHeld_triggered line level).records.keepsActive
  | internalTick =>
    exact State.unlessReset_rule (P := s.KeepsActive) same fun _ => s.internalTickClaim_triggered.records.keepsActive
  | externalTick level =>
    exact State.unlessReset_rule (P := s.KeepsActive) same fun _ => (s.tickHeld_triggered level).records.keepsActive
  | generatorExpiry g =>
    exact State.unlessReset_rule (P := s.KeepsActive) same fun _ => (s.expiryClaim_triggered g).records.keepsActive
  | headStart => exact State.unlessReset_rule (P := s.KeepsActive) same fun _ => s.headChoice_keepsActive
  | writeBack =>
    exact State.unlessReset_rule (P := s.KeepsActive) same fun _ =>
      (State.writeBack_rule (P := s.KeepsActive) same fun a w c _ _ _ => s.writeBackClaim_keepsActive a w c).1
  | faultWriteBack =>
    exact State.unlessReset_rule (P := s.KeepsActive) same fun _ =>
      (State.writeBack_rule (P := s.KeepsActive) same fun a w c _ _ _ => s.writeBackClaim_keepsActive a w c).2
  | linkResolution => exact State.unlessReset_rule (P := s.KeepsActive) same fun _ => s.resolutionStep_keepsActive
  | appliedAfresh => exact State.unlessReset_rule (P := s.KeepsActive) same fun _ => s.afreshStep_keepsActive
  | _ => simp [touched] at listed

/-- Settles O50: a row writes a record that is ACTIVE neither before nor after it, or delivers triggers. -/
theorem activeRecordKeepsStoredFields : Obligations.ActiveRecordKeepsStoredFields := by
  unfold Obligations.ActiveRecordKeepsStoredFields
  intro i s t n steps before after
  obtain rfl := effect_of_exec steps
  obtain ⟨rest, latch, overrun, _, _⟩ := effect_keepsActive i s n before after
  exact ⟨rest, latch, overrun⟩

end Sys2Proof.Machine
end

