-- ==== Sys2Proof/Proofs/BindingInvariants.lean ====
section
/-! The binding table in every step: it stays a one-to-one map (R54), and a standing trigger that is due has been set
(R65, R66). -/

namespace Sys2Proof.Machine

/-! ### The map -/

section
variable {s t : State}

/-- The map holds on while the table stays and no record it may name is freed or given another generation. -/
theorem State.BindingMap.of_records (map : s.BindingMap) (bindings : t.bindings = s.bindings)
    (keeps : ∀ n : RecNo, s.records[n].state ≠ .free →
      t.records[n].state ≠ .free ∧ t.records[n].gen = s.records[n].gen) : t.BindingMap := by
  unfold State.BindingMap
  rw [bindings]
  refine ⟨fun k b mem => ?_, map.2⟩
  obtain ⟨used, gen, sense⟩ := map.1 k b mem
  obtain ⟨used', gen'⟩ := keeps b.handle.num used
  exact ⟨used', gen'.trans gen, sense⟩

theorem State.BindingMap.of_changes {l : List Field} (map : s.BindingMap) (changes : s.ChangesOnly l t)
    (quiet : .bindings ∉ l ∧ .records ∉ l) : t.BindingMap := by
  have records : t.records = s.records := changes .records quiet.2
  exact map.of_records (changes .bindings quiet.1) fun n used => by rw [records]; exact ⟨used, rfl⟩

theorem State.BindingMap.latched (map : s.BindingMap) (bindings : t.bindings = s.bindings)
    (latched : s.RecordsLatched t) : t.BindingMap :=
  map.of_records bindings fun n used => ⟨by rw [(latched n).state]; exact used, (latched n).gen⟩

theorem State.BindingMap.triggered (map : s.BindingMap) (h : s.Triggered t) : t.BindingMap :=
  map.latched (h.changes .bindings (by simp [sourceFields])) h.records

theorem State.BindingMap.complete {code : Byte} {a : Reply} (map : s.BindingMap) : (s.complete code a).BindingMap := map

theorem State.BindingMap.settle (map : s.BindingMap) : s.settleActivity.BindingMap :=
  map.triggered s.settleActivity_triggered

theorem State.BindingMap.standing {n : RecNo} (map : s.BindingMap) : (s.standingTrigger n).BindingMap :=
  map.triggered (s.standingTrigger_triggered n)

theorem State.BindingMap.setRecord (map : s.BindingMap) {n : RecNo} {r : Record}
    (keeps : s.records[n].state ≠ .free → r.state ≠ .free ∧ r.gen = s.records[n].gen) :
    (s.setRecord n r).BindingMap := by
  refine map.of_records (t := s.setRecord n r) rfl fun m used => ?_
  rw [State.setRecord_records, vector_set_get]
  split
  · next same => rw [same] at used ⊢; exact keeps used
  · exact ⟨used, rfl⟩

/-- A record freed is unbound in the same claim (R17). -/
theorem State.BindingMap.freed (map : s.BindingMap) {n : RecNo} (h : s.Freed t n) : t.BindingMap := by
  obtain ⟨_, _, _, _, _, others, entries⟩ := h
  have kept : ∀ (k : SourceNo), ∀ b ∈ t.bindings[k], b ∈ s.bindings[k] ∧ b.handle.num ≠ n := by
    intro k b mem
    rw [entries k] at mem
    split at mem
    · contradiction
    · next free => exact ⟨mem, fun same => free (binding_any_iff.mpr ⟨b, mem, same⟩)⟩
  refine ⟨fun k b mem => ?_, fun k l b hb c hc => map.2 k l b (kept k b hb).1 c (kept l c hc).1⟩
  obtain ⟨mem, other⟩ := kept k b mem
  rw [others _ other]
  exact map.1 k b mem

theorem State.BindingMap.freeRecord (map : s.BindingMap) (n : RecNo) : (s.freeRecord n).BindingMap :=
  map.freed (s.freeRecord_freed n)

/-- A table of which only empty entries differ. -/
theorem State.BindingMap.of_fewer (map : s.BindingMap) (records : t.records = s.records)
    (fewer : ∀ k : SourceNo, ∀ b ∈ t.bindings[k], b ∈ s.bindings[k]) : t.BindingMap := by
  unfold State.BindingMap
  rw [records]
  exact ⟨fun k b mem => map.1 k b (fewer k b mem), fun k l b hb c hc => map.2 k l b (fewer k b hb) c (fewer l c hc)⟩

theorem State.setBinding_get (s : State) (k l : SourceNo) (e : Option Binding) :
    (s.setBinding k e).bindings[l] = if l = k then e else s.bindings[l] := vector_set_get _ _ _ _

theorem State.BindingMap.unbind (map : s.BindingMap) (k : SourceNo) : (s.setBinding k none).BindingMap := by
  refine map.of_fewer (t := s.setBinding k none) rfl fun l b mem => ?_
  rw [State.setBinding_get] at mem
  split at mem
  · contradiction
  · exact mem

/-- A record that is bound to nothing, bound. -/
theorem State.BindingMap.bind (map : s.BindingMap) (k : SourceNo) {b : Binding}
    (used : s.records[b.handle.num].state ≠ .free) (gen : s.records[b.handle.num].gen = b.handle.gen)
    (sense : 32 ≤ k.val → b.sense = .rising)
    (unbound : ∀ l : SourceNo, s.bindings[l].any (fun c => c.handle.num == b.handle.num) = false) :
    (s.setBinding k (some b)).BindingMap := by
  have other : ∀ (l : SourceNo), ∀ c ∈ s.bindings[l], c.handle.num ≠ b.handle.num := fun l c mem same =>
    absurd (binding_any_iff.mpr ⟨c, mem, same⟩) (by rw [unbound l]; decide)
  refine ⟨fun l c mem => ?_, fun l m c hc d hd same => ?_⟩
  · rw [State.setBinding_get] at mem
    split at mem
    · next here =>
      obtain rfl : b = c := Option.some.inj mem
      exact ⟨used, gen, here ▸ sense⟩
    · exact map.1 l c mem
  · rw [State.setBinding_get] at hc hd
    split at hc <;> split at hd
    · next here there => exact here.trans there.symm
    · obtain rfl : b = c := Option.some.inj hc
      exact absurd same.symm (other m d hd)
    · obtain rfl : b = d := Option.some.inj hd
      exact absurd same (other l c hc)
    · exact map.2 l m c hc d hd same

theorem State.BindingMap.of_empty (empty : ∀ k : SourceNo, t.bindings[k] = none) : t.BindingMap := by
  refine ⟨fun k b mem => ?_, fun k l b mem => ?_⟩ <;> rw [empty k] at mem <;> contradiction

/-! ### The map through each claim -/

/-- A handle that passes the check names a record that is not FREE, by its generation (R15). -/
theorem State.checkHandle_eq_passed {w : Word} {h : Handle} (passed : s.checkHandle w = .passed h) :
    s.records[h.num].state ≠ .free ∧ s.records[h.num].gen = h.gen := by
  unfold State.checkHandle at passed
  split at passed
  · contradiction
  · split at passed
    · contradiction
    · next names =>
      cases passed
      exact ⟨fun free => names (.inl free), not_not.mp fun other => names (.inr other)⟩

theorem State.allocateClaim_map (map : s.BindingMap) : s.allocateClaim.BindingMap := by
  unfold State.allocateClaim
  split
  · exact map
  · next n found =>
    exact State.BindingMap.setRecord map (r := .allocated _) fun used => absurd (State.lowestFree_free found) used

theorem State.storeClaim_map (map : s.BindingMap) : s.storeClaim.BindingMap := by
  unfold State.storeClaim
  split
  · exact map
  dsimp only
  split
  · split
    · exact map
    · exact State.BindingMap.setRecord map (r := Record.stored _ _) fun used => ⟨used, rfl⟩
  · exact map

theorem State.armClaim_map (map : s.BindingMap) : s.armClaim.BindingMap := by
  unfold State.armClaim
  split
  · exact map
  dsimp only
  split
  · split
    · exact map
    · exact .complete (.settle (.standing (.setRecord map fun _ => ⟨RecState.noConfusion, rfl⟩)))
  · exact map

theorem State.applyHold_map (map : s.BindingMap) (w : Word) : (s.applyHold w).1.BindingMap := by
  unfold State.applyHold
  split
  · exact map
  dsimp only
  split
  · exact map.setRecord fun _ => ⟨RecState.noConfusion, rfl⟩
  · exact map
  · exact .standing (.setRecord map fun _ => ⟨RecState.noConfusion, rfl⟩)
  · exact .standing (.setRecord map fun _ => ⟨RecState.noConfusion, rfl⟩)
  all_goals exact map

theorem State.applyRetire_map (map : s.BindingMap) (w : Word) : (s.applyRetire w).1.BindingMap := by
  unfold State.applyRetire
  split
  · exact map
  · exact map.freeRecord _

theorem State.holdClaim_map (map : s.BindingMap) : s.holdClaim.BindingMap := by
  unfold State.holdClaim
  split
  · exact map.of_changes (s.deferCommand_changes _ _) (by simp)
  · exact .complete (.settle (State.applyHold_map map _))

theorem State.retireClaim_map (map : s.BindingMap) : s.retireClaim.BindingMap := by
  unfold State.retireClaim
  split
  · exact map.of_changes (s.deferCommand_changes _ _) (by simp)
  · exact .complete (.settle (State.applyRetire_map map _))

theorem State.wiped_unbound (s : State) (k : SourceNo) : s.wiped.bindings[k] = none :=
  Vector.getElem_replicate k.isLt

theorem State.wipeClaim_map (map : s.BindingMap) : s.wipeClaim.BindingMap := by
  unfold State.wipeClaim
  split
  · exact .of_empty s.wiped_unbound
  · exact map

theorem State.triggerClaim_map (map : s.BindingMap) : s.triggerClaim.BindingMap := by
  unfold State.triggerClaim
  split
  · exact map
  dsimp only
  split
  · exact .complete (.settle (map.triggered (s.deliverTrigger_triggered _)))
  · exact map

/-- The entry BIND writes passes the rules of the table (R54, R57). -/
theorem State.BindingMap.bindChecked (map : s.BindingMap) (k : SourceNo) (sense : Sense) {w : Word} {h : Handle}
    (passed : s.checkHandle w = .passed h) (unbound : s.sourceOf h.num = none) :
    (s.setBinding k (some ⟨h, storedSense k sense⟩)).BindingMap := by
  obtain ⟨used, gen⟩ := State.checkHandle_eq_passed passed
  refine State.BindingMap.bind map k used gen (fun above => ?_) (State.sourceOf_eq_none.mp unbound)
  exact if_neg (Nat.not_lt.mpr above)

theorem State.bindClaim_map (map : s.BindingMap) : s.bindClaim.BindingMap := by
  unfold State.bindClaim State.bindChecked
  split
  · split
    · exact map
    · next passed =>
      dsimp only
      split
      · next free =>
        exact .complete (.settle (.standing (map.bindChecked _ _ passed free.2)))
      · exact map
  · exact map

theorem State.unbindClaim_map (map : s.BindingMap) : s.unbindClaim.BindingMap := by
  unfold State.unbindClaim
  split
  · exact map
  split
  · exact map
  · exact map.unbind _

theorem State.endActivation_bindings (s : State) : s.endActivation.bindings = s.bindings :=
  s.endActivation_changes .bindings (by simp)

theorem State.enableOffCourse_map (map : s.BindingMap) (l : Link) : (s.enableOffCourse l).BindingMap :=
  map.latched ((s.enableOffCourse_changes l) .bindings (by simp)) (s.enableOffCourse_latched l)

theorem State.engineStopClaim_map (map : s.BindingMap) : s.engineStopClaim.BindingMap := by
  have off : ({ s with enable := false } : State).BindingMap := map
  unfold State.engineStopClaim
  dsimp only
  split
  · exact map
  · exact map
  · split
    · exact State.enableOffCourse_map off _
    · exact .complete off.settle

theorem State.headChoice_map (map : s.BindingMap) : s.headChoice.BindingMap := by
  unfold State.headChoice
  split
  · split
    · exact map
    · next n _ =>
      split
      · have started : (s.setRecord n { s.records[n] with
            state := .active, latch := s.records[n].latch - 1 }).BindingMap :=
          map.setRecord fun _ => ⟨RecState.noConfusion, rfl⟩
        exact started.latched (s.startHead_changes n .bindings (by simp)) (.of_records (s.startHead_records n))
      · exact map
  · exact map

theorem State.endActivation_map (map : s.BindingMap) : s.endActivation.BindingMap :=
  map.of_changes s.endActivation_changes (by simp)

theorem State.resolve_map (map : s.BindingMap) (a : Activation) (l : Link) : (s.resolve a l).BindingMap := by
  unfold State.resolve
  split
  · exact State.endActivation_map (s := s.post _) map
  split
  · exact State.enableOffCourse_map map l
  split
  · exact map
  split
  · have started : (s.setRecord l.succ.num { s.records[l.succ.num] with state := .active }).BindingMap :=
      map.setRecord fun _ => ⟨RecState.noConfusion, rfl⟩
    exact started.latched (s.startLink_changes a _ .bindings (by simp)) (.of_records (s.startLink_records a _))
  · exact State.endActivation_map (s := s.post _) map

theorem State.resolutionStep_map (map : s.BindingMap) : s.resolutionStep.BindingMap := by
  unfold State.resolutionStep
  split
  · exact map
  · exact State.resolve_map map _ _

theorem State.applyDeferred_map (map : s.BindingMap) (d : Deferred) : (s.applyDeferred d).1.BindingMap := by
  unfold State.applyDeferred
  split
  · exact State.applyHold_map map _
  · exact State.applyRetire_map map _

theorem State.afreshStep_map (map : s.BindingMap) : s.afreshStep.BindingMap := by
  unfold State.afreshStep
  split
  · exact map
  · next d _ =>
    exact State.endActivation_map (State.BindingMap.complete (State.applyDeferred_map map d))

theorem State.postOutcome_map (map : s.BindingMap) (w : Working) (c : EndCause) :
    (s.postOutcome w c).BindingMap := by
  unfold State.postOutcome
  dsimp only
  split
  · exact map
  · exact State.BindingMap.setRecord (s := s.post _) map fun used => ⟨used, rfl⟩

/-- A record written back is not FREE (R114, R149). -/
theorem Record.writtenBack_used (r : Record) {w : Working} {c : EndCause} (keeps : w.autoRetires c = false) :
    (r.writtenBack w c).state ≠ .free := by
  rcases r.writtenBack_state keeps with h | h | h <;> rw [h] <;> exact RecState.noConfusion

theorem State.writtenBack_map (map : s.BindingMap) {w : Working} {c : EndCause} (keeps : w.autoRetires c = false) :
    (s.setRecord w.handle.num (s.records[w.handle.num].writtenBack w c)).BindingMap :=
  map.setRecord fun _ => ⟨Record.writtenBack_used _ keeps, Record.writtenBack_gen _ _ _⟩

theorem State.storeProgress_map (map : s.BindingMap) (w : Working) (c : EndCause) :
    (s.storeProgress w c).BindingMap := by
  cases retires : w.autoRetires c with
  | true =>
    rw [State.storeProgress_retired retires]
    exact map.freeRecord _
  | false =>
    simp only [State.storeProgress, retires, Bool.false_eq_true, if_false]
    split
    · exact (State.writtenBack_map map retires).triggered (State.standingTrigger_triggered _ _)
    · exact State.writtenBack_map map retires

theorem State.writeBackClaim_map (map : s.BindingMap) (a : Activation) (w : Working) (c : EndCause) :
    (s.writeBackClaim a w c).BindingMap :=
  (State.storeProgress_map (State.postOutcome_map map w c) w c).of_changes (State.afterWriteBack_changes _ a w c)
    (by simp)

end

/-! ### The map through each row -/

theorem State.command_map {s : State} {code : Byte} {owner : State → State} (map : s.BindingMap)
    (claim : ∀ {u : State}, u.BindingMap → (owner u).BindingMap) : (s.command code owner).BindingMap :=
  State.command_rule (P := State.BindingMap) map (fun _ => map) fun _ => claim map

/-- Every row keeps the map. -/
theorem effect_map (i : Instr) (s : State) (map : s.BindingMap) : (effect i s).BindingMap := by
  by_cases quiet : .bindings ∉ touched i ∧ .records ∉ touched i
  case pos => exact map.of_changes (effect_changes i s) quiet
  cases i with
  | allocate => exact State.command_map map State.allocateClaim_map
  | store => exact State.command_map map State.storeClaim_map
  | arm => exact State.command_map map State.armClaim_map
  | hold => exact State.command_map map State.holdClaim_map
  | retire => exact State.command_map map State.retireClaim_map
  | wipe => exact State.command_map map State.wipeClaim_map
  | trigger => exact State.command_map map State.triggerClaim_map
  | bind => exact State.command_map map State.bindClaim_map
  | unbind => exact State.command_map map State.unbindClaim_map
  | engineStop => exact State.command_map map State.engineStopClaim_map
  | pinReset => exact .of_empty fun k => Vector.getElem_replicate k.isLt
  | reqEdge line level =>
    exact State.unlessReset_rule (P := State.BindingMap) map fun _ => map.triggered (s.lineHeld_triggered line level)
  | internalTick =>
    exact State.unlessReset_rule (P := State.BindingMap) map fun _ => map.triggered s.internalTickClaim_triggered
  | externalTick level =>
    exact State.unlessReset_rule (P := State.BindingMap) map fun _ => map.triggered (s.tickHeld_triggered level)
  | generatorExpiry g =>
    exact State.unlessReset_rule (P := State.BindingMap) map fun _ => map.triggered (s.expiryClaim_triggered g)
  | headStart => exact State.unlessReset_rule (P := State.BindingMap) map fun _ => State.headChoice_map map
  | writeBack =>
    exact State.unlessReset_rule (P := State.BindingMap) map fun _ =>
      (State.writeBack_rule (P := State.BindingMap) map fun a w c _ _ _ => State.writeBackClaim_map map a w c).1
  | faultWriteBack =>
    exact State.unlessReset_rule (P := State.BindingMap) map fun _ =>
      (State.writeBack_rule (P := State.BindingMap) map fun a w c _ _ _ => State.writeBackClaim_map map a w c).2
  | linkResolution => exact State.unlessReset_rule (P := State.BindingMap) map fun _ => State.resolutionStep_map map
  | appliedAfresh => exact State.unlessReset_rule (P := State.BindingMap) map fun _ => State.afreshStep_map map
  | _ => simp [touched] at quiet

theorem State.clockEdge_map {s : State} (map : s.BindingMap) : s.clockEdge.BindingMap :=
  State.clockEdge_rule (P := State.BindingMap) map fun _ =>
    (map.triggered s.clockSources_triggered).of_changes (State.clockBus_changes _) (by simp)

/-- Settles O55: an entry is written for a record that passes the handle check and is bound to nothing, and a record is
freed with its entry emptied. -/
theorem bindingMapInEveryStep : Obligations.BindingMapInEveryStep := by
  unfold Obligations.BindingMapInEveryStep
  exact fun s t map steps => step_keeps (P := State.BindingMap) (fun _ _ h => h) (fun _ h => State.clockEdge_map h)
    effect_map map steps

end Sys2Proof.Machine
end

