-- ==== Sys2Proof/Proofs/ResetSteps.lean ====
section
/-! Pin reset (11_local_bus_interface.md 11.1): what its assertion leaves, what acts while it is asserted, and what its
negation does. -/

namespace Sys2Proof.Machine

theorem State.not_listens_of_asserted {s : State} (asserted : s.inReset = true) : ¬s.Listens := fun listens =>
  absurd (asserted.symm.trans listens.1) (by decide)

/-- While RESET_n is asserted no row but PIN_RESET and RESET_NEGATION acts (log 18). -/
theorem effect_asserted {i : Instr} {s : State} (asserted : s.inReset = true) (noReset : i ≠ .pinReset)
    (noNegation : ∀ lines tick, i ≠ .resetNegation lines tick) : effect i s = s := by
  have deaf := State.not_listens_of_asserted asserted
  cases i with
  | pinReset => exact absurd rfl noReset
  | resetNegation lines tick => exact absurd rfl (noNegation lines tick)
  | commandRefused code => exact State.slaveAccess_unanswered deaf none fun t => t.cmdWrite code
  | editRegisterWrite reg lanes value => exact State.slaveAccess_unanswered deaf none fun t => t.editWrite reg lanes value
  | registerWrite offset strobes value => exact State.slaveAccess_unanswered deaf none (writeClaim offset strobes value)
  | take access => exact State.slaveAccess_unanswered deaf _ (readClaim access)
  | npeekRead => exact State.slaveAccess_unanswered deaf _ (readClaim ⟨0x36, .both⟩)
  | reqEdge line level => exact State.unlessReset_of_asserted asserted fun t => t.lineHeld line level
  | externalTick level => exact State.unlessReset_of_asserted asserted fun t => t.tickHeld level
  | generatorExpiry gen => exact State.unlessReset_of_asserted asserted fun t => t.expiryClaim gen
  | busRequest => exact State.unlessReset_of_asserted asserted fun t => { t with bus := t.bus.raiseRequest }
  | grantTaken => exact State.unlessReset_of_asserted asserted fun t => { t with bus := t.bus.takeGrant }
  | readComplete data => exact State.unlessReset_of_asserted asserted fun t => { t with bus := t.bus.completeRead data }
  | internalTick | headStart | writeComplete | busError | waitLimitExpiry | writeBack | faultWriteBack
  | linkResolution | appliedAfresh | slaveStrobeNegated => exact State.unlessReset_of_asserted asserted _
  | _ => exact State.command_of_asserted asserted _ _

theorem State.negateReset_asserted {s : State} (asserted : s.inReset = true) (lines : BitVec 32) (tick : Bool) :
    s.negateReset lines tick = { s with
      inReset := false, holdOff := 3, lines := lines, levels := lines, tickLine := tick, tickLevel := tick } := by
  rw [State.negateReset, if_pos asserted]
  rfl

theorem State.negateReset_negated {s : State} (negated : s.inReset = false) (lines : BitVec 32) (tick : Bool) :
    s.negateReset lines tick = s := by
  rw [State.negateReset, if_neg (by simp [negated])]

/-- Settles O5: every other row asks for RESET_n negated first. -/
theorem onlyNegationActsInReset : Obligations.OnlyNegationActsInReset := by
  unfold Obligations.OnlyNegationActsInReset
  refine ⟨fun s i asserted noReset noNegation => ?_, fun s lines tick asserted => ?_,
    fun s lines tick negated => ?_⟩
  · rw [exec_eq_next, effect_asserted asserted noReset noNegation]
  · exact congrArg Host.Outcome.next (State.negateReset_asserted asserted lines tick)
  · exact congrArg Host.Outcome.next (State.negateReset_negated negated lines tick)

/-! ### The reset values -/

theorem State.pinReset_record (s : State) (n : RecNo) : s.pinReset.records[n] = Record.empty 0 :=
  Vector.getElem_replicate n.isLt

theorem State.pinReset_binding (s : State) (k : SourceNo) : s.pinReset.bindings[k] = none :=
  Vector.getElem_replicate k.isLt

theorem State.pinReset_gen (s : State) (g : GenNo) : s.pinReset.gens[g] = Generator.reset :=
  Vector.getElem_replicate g.isLt

theorem State.pinReset_pointer (s : State) (k : Rank) : s.pinReset.pointers[k] = 95 :=
  Vector.getElem_replicate k.isLt

/-- Settles O4: the state PIN_RESET leaves is written out in the model; its tables hold one value in every entry. -/
theorem pinResetLeavesResetValues : Obligations.PinResetLeavesResetValues := by
  unfold Obligations.PinResetLeavesResetValues
  intro s
  exact ⟨s.pinReset, rfl, rfl, rfl, s.pinReset_record, s.pinReset_binding, s.pinReset_gen, s.pinReset_pointer, rfl, rfl,
    rfl, rfl, rfl, rfl, rfl, rfl, rfl, rfl, rfl, rfl, rfl, rfl, rfl, rfl⟩

/-! ### The reset values held -/

/-- PIN_RESET leaves the reset values, and no row but PIN_RESET begins a reset (R193). -/
theorem effect_resetHeld (i : Instr) (s : State) (held : s.ResetHeld) : (effect i s).ResetHeld := by
  by_cases reset : i = .pinReset
  · subst reset
    exact fun _ => rfl
  by_cases negation : ∃ lines tick, i = .resetNegation lines tick
  · obtain ⟨lines, tick, rfl⟩ := negation
    intro asserted
    have same : effect (.resetNegation lines tick) s = s := by
      cases before : s.inReset with
      | false => exact State.negateReset_negated before lines tick
      | true =>
        have after := congrArg State.inReset (State.negateReset_asserted before lines tick)
        exact absurd (asserted.symm.trans after) Bool.noConfusion
    rw [same] at asserted ⊢
    exact held asserted
  · have noNegation : ∀ lines tick, i ≠ .resetNegation lines tick := fun lines tick h => negation ⟨lines, tick, h⟩
    have kept : .inReset ∉ touched i := by
      cases i <;> simp [touched] at reset noNegation ⊢
    intro asserted
    have before : s.inReset = true := (effect_changes i s .inReset kept).symm.trans asserted
    rw [effect_asserted before reset noNegation]
    exact held before

theorem State.clockEdge_resetHeld {s : State} (held : s.ResetHeld) : s.clockEdge.ResetHeld := by
  intro asserted
  have before : s.inReset = true := (s.clockEdge_changes .inReset (by simp)).symm.trans asserted
  rw [State.clockEdge, State.unlessReset_of_asserted before]
  exact held before

/-- What holds of the reset values the queue has no part in. -/
theorem State.ResetHeld.queue {s : State} (held : s.ResetHeld) (q : List Instr) :
    ({ s with pending := q } : State).ResetHeld := fun asserted => by
  conv_lhs => rw [held asserted]

end Sys2Proof.Machine
end

