-- ==== Sys2Proof/Proofs/StandingTriggers.lean ====
section
/-! Standing triggers in every step (R65, R66): a claim that arms or holds a record, binds it, or brings its line to its
active level ends with the record's standing trigger. -/

namespace Sys2Proof.Machine

/-- The standing trigger of record `n` is not due, or has been set. -/
abbrev State.StandingSet (s : State) (n : RecNo) : Prop :=
  s.records[n].state = .armed ∨ s.records[n].state = .held → s.records[n].latch = 0 → ¬s.OnActiveLevelLine n

section
variable {s t : State}

/-! ### What a standing trigger depends on -/

theorem State.StandingSet.of_le {n : RecNo} (h : s.StandingSet n)
    (line : t.OnActiveLevelLine n → s.OnActiveLevelLine n)
    (waits : t.records[n].state = .armed ∨ t.records[n].state = .held → t.records[n].latch = 0 →
      (s.records[n].state = .armed ∨ s.records[n].state = .held) ∧ s.records[n].latch = 0) : t.StandingSet n :=
  fun state latch active => by
    obtain ⟨state', latch'⟩ := waits state latch
    exact h state' latch' (line active)

/-- The level lines are those of the table and the samples. -/
theorem State.onActiveLevelLine_congr (bindings : t.bindings = s.bindings) (lines : t.lines = s.lines) (n : RecNo) :
    t.OnActiveLevelLine n ↔ s.OnActiveLevelLine n := by
  unfold State.OnActiveLevelLine
  rw [bindings, lines]

/-- Triggers with the table and the samples as they were leave no standing trigger due. -/
theorem State.StandingTriggersSet.latched (h : s.StandingTriggersSet) (bindings : t.bindings = s.bindings)
    (lines : t.lines = s.lines) (latched : s.RecordsLatched t) : t.StandingTriggersSet := fun n =>
  State.StandingSet.of_le (h n) (State.onActiveLevelLine_congr bindings lines n).mp fun state latch => by
    have low := (latched n).latch
    exact ⟨by rwa [(latched n).state] at state, by omega⟩

theorem State.StandingTriggersSet.of_changes {l : List Field} (h : s.StandingTriggersSet) (changes : s.ChangesOnly l t)
    (quiet : .bindings ∉ l ∧ .lines ∉ l ∧ .records ∉ l) : t.StandingTriggersSet :=
  h.latched (changes .bindings quiet.1) (changes .lines quiet.2.1) (.of_records (changes .records quiet.2.2))

theorem State.StandingTriggersSet.complete {code : Byte} {a : Reply} (h : s.StandingTriggersSet) :
    (s.complete code a).StandingTriggersSet := h

theorem State.StandingTriggersSet.settle (h : s.StandingTriggersSet) : s.settleActivity.StandingTriggersSet :=
  h.of_changes s.settleActivity_changes (by simp)

theorem State.StandingTriggersSet.endActivation (h : s.StandingTriggersSet) : s.endActivation.StandingTriggersSet :=
  h.of_changes s.endActivation_changes (by simp)

/-- A record replaced leaves the others' standing triggers as they were. -/
theorem State.setRecord_standing_other {n m : RecNo} {r : Record} (other : m ≠ n) (h : s.StandingSet m) :
    (s.setRecord n r).StandingSet m := by
  have same : (s.setRecord n r).records[m] = s.records[m] := (vector_set_get _ _ _ _).trans (if_neg other)
  unfold State.StandingSet
  rw [same]
  exact h

/-- A record replaced by one that takes no standing trigger, or took none before. -/
theorem State.StandingTriggersSet.setRecord {n : RecNo} {r : Record} (h : s.StandingTriggersSet)
    (waits : r.state = .armed ∨ r.state = .held → r.latch = 0 →
      (s.records[n].state = .armed ∨ s.records[n].state = .held) ∧ s.records[n].latch = 0) :
    (s.setRecord n r).StandingTriggersSet := by
  intro m
  by_cases own : m = n
  · subst own
    have new : (s.setRecord m r).records[m] = r := (vector_set_get _ _ _ _).trans (if_pos rfl)
    refine State.StandingSet.of_le (h m) id ?_
    rw [new]
    exact waits
  · exact State.setRecord_standing_other own (h m)

/-- A record replaced by one that is neither ARMED nor HELD. -/
theorem State.StandingTriggersSet.setRecord_idle {n : RecNo} {r : Record} (h : s.StandingTriggersSet)
    (armed : r.state ≠ .armed) (held : r.state ≠ .held) : (s.setRecord n r).StandingTriggersSet :=
  h.setRecord fun state => absurd state (by simp [armed, held])

/-- A standing trigger sets the one that may be due (R65). -/
theorem State.standingTrigger_standing {n : RecNo} (map : s.BindingMap) (others : ∀ m : RecNo, m ≠ n → s.StandingSet m) :
    (s.standingTrigger n).StandingTriggersSet := by
  have line := fun m => State.onActiveLevelLine_congr (s := s) (t := s.standingTrigger n) (by simp) (by simp) m
  intro m state latch active
  rw [line m] at active
  by_cases own : m = n
  · subst own
    have rest := State.standingTrigger_latched s m m
    have set_ := State.standingTrigger_latch map m
    have low := rest.latch
    rw [rest.state] at state
    rw [State.StandingLatch, if_pos ⟨state, by omega, active⟩] at set_
    omega
  · rw [State.standingTrigger_other s own] at state latch
    exact others m own state latch active

/-- The same, once the record has been replaced. -/
theorem State.StandingTriggersSet.standing {n : RecNo} {r : Record} (h : s.StandingTriggersSet)
    (map : (s.setRecord n r).BindingMap) : ((s.setRecord n r).standingTrigger n).StandingTriggersSet :=
  State.standingTrigger_standing map fun m other => State.setRecord_standing_other other (h m)

/-- A table with fewer entries has fewer level lines. -/
theorem State.onActiveLevelLine_of_fewer (lines : t.lines = s.lines)
    (fewer : ∀ k : SourceNo, ∀ b ∈ t.bindings[k], b ∈ s.bindings[k]) (n : RecNo) (active : t.OnActiveLevelLine n) :
    s.OnActiveLevelLine n := by
  obtain ⟨k, h⟩ := active
  refine ⟨k, ?_⟩
  rw [lines] at h
  cases entry : t.bindings[LineNo.source k] with
  | none => rw [entry] at h; contradiction
  | some b =>
    have mem : s.bindings[LineNo.source k] = some b := fewer _ b entry
    rw [entry] at h
    rwa [mem]

/-- A freed record takes no standing trigger, and its entry's emptying makes none due. -/
theorem State.StandingTriggersSet.freeRecord (h : s.StandingTriggersSet) (n : RecNo) :
    (s.freeRecord n).StandingTriggersSet := by
  have freed : (s.setRecord n s.records[n].freed).StandingTriggersSet :=
    h.setRecord_idle RecState.noConfusion RecState.noConfusion
  intro m
  refine State.StandingSet.of_le (freed m) (State.onActiveLevelLine_of_fewer (s := s.setRecord n s.records[n].freed)
    (t := s.freeRecord n) rfl ?_ m) fun state latch => ⟨state, latch⟩
  intro k b mem
  rw [State.freeRecord_bindings, State.emptyBindingOf, Fin.getElem_fin, mapTable_getElem] at mem
  split at mem
  · contradiction
  · exact mem

/-! ### The record commands -/

theorem State.allocateClaim_standing (h : s.StandingTriggersSet) : s.allocateClaim.StandingTriggersSet := by
  unfold State.allocateClaim
  split
  · exact h
  · exact .complete (h.setRecord_idle RecState.noConfusion RecState.noConfusion)

theorem State.storeClaim_standing (h : s.StandingTriggersSet) : s.storeClaim.StandingTriggersSet := by
  unfold State.storeClaim
  split
  · exact h
  dsimp only
  split
  · split
    · exact h
    · exact .complete (.setRecord h fun state latch => ⟨state, latch⟩)
  · exact h

theorem State.armClaim_standing (map : s.BindingMap) (h : s.StandingTriggersSet) :
    s.armClaim.StandingTriggersSet := by
  unfold State.armClaim
  split
  · exact h
  dsimp only
  split
  · split
    · exact h
    · exact .complete (.settle (.standing h (.setRecord map fun _ => ⟨RecState.noConfusion, rfl⟩)))
  · exact h

theorem State.applyHold_standing (map : s.BindingMap) (h : s.StandingTriggersSet) (w : Word) :
    (s.applyHold w).1.StandingTriggersSet := by
  unfold State.applyHold
  split
  · exact h
  dsimp only
  split
  · next armed => exact .setRecord h fun _ latch => ⟨.inl armed, latch⟩
  · exact h
  · exact .standing h (.setRecord map fun _ => ⟨RecState.noConfusion, rfl⟩)
  · exact .standing h (.setRecord map fun _ => ⟨RecState.noConfusion, rfl⟩)
  all_goals exact h

theorem State.applyRetire_standing (h : s.StandingTriggersSet) (w : Word) :
    (s.applyRetire w).1.StandingTriggersSet := by
  unfold State.applyRetire
  split
  · exact h
  · exact h.freeRecord _

theorem State.holdClaim_standing (map : s.BindingMap) (h : s.StandingTriggersSet) :
    s.holdClaim.StandingTriggersSet := by
  unfold State.holdClaim
  split
  · exact h.of_changes (s.deferCommand_changes _ _) (by simp)
  · exact .complete (.settle (State.applyHold_standing map h _))

theorem State.retireClaim_standing (h : s.StandingTriggersSet) : s.retireClaim.StandingTriggersSet := by
  unfold State.retireClaim
  split
  · exact h.of_changes (s.deferCommand_changes _ _) (by simp)
  · exact .complete (.settle (State.applyRetire_standing h _))

/-- With every record FREE no standing trigger is due. -/
theorem State.StandingTriggersSet.of_free (free : ∀ n : RecNo, t.records[n].state = .free) :
    t.StandingTriggersSet := fun n state => by
  rw [free n] at state
  rcases state with state | state <;> contradiction

theorem State.wiped_free (s : State) (n : RecNo) : s.wiped.records[n].state = .free := by
  simp [State.wiped, Record.empty]

theorem State.wipeClaim_standing (h : s.StandingTriggersSet) : s.wipeClaim.StandingTriggersSet := by
  unfold State.wipeClaim
  split
  · exact .of_free s.wiped_free
  · exact h

theorem State.triggerClaim_standing (h : s.StandingTriggersSet) : s.triggerClaim.StandingTriggersSet := by
  unfold State.triggerClaim
  split
  · exact h
  dsimp only
  split
  · exact .complete (.settle (h.latched rfl rfl (s.deliverTrigger_latched _)))
  · exact h

/-! ### The binding commands -/

/-- An entry written for record `b.handle.num` concerns no other record. -/
theorem State.setBinding_standing_other {k : SourceNo} {b : Binding} {m : RecNo} (other : m ≠ b.handle.num)
    (h : s.StandingSet m) : (s.setBinding k (some b)).StandingSet m := by
  refine State.StandingSet.of_le h (fun ⟨j, active⟩ => ⟨j, ?_⟩) fun state latch => ⟨state, latch⟩
  rw [State.setBinding_get] at active
  split at active
  · have named : b.handle.num = m := by
      have both := active
      simp only [Option.any_some, Binding.activeFor, Bool.and_eq_true, beq_iff_eq] at both
      exact both.1
    exact absurd named.symm other
  · exact active

theorem State.bindClaim_standing (map : s.BindingMap) (h : s.StandingTriggersSet) :
    s.bindClaim.StandingTriggersSet := by
  unfold State.bindClaim State.bindChecked
  split
  · split
    · exact h
    · next passed =>
      dsimp only
      split
      · next free =>
        exact .complete (.settle (State.standingTrigger_standing (map.bindChecked _ _ passed free.2)
          fun m other => State.setBinding_standing_other other (h m)))
      · exact h
  · exact h

theorem State.unbindClaim_standing (h : s.StandingTriggersSet) : s.unbindClaim.StandingTriggersSet := by
  have unbound : ∀ k : SourceNo, (s.setBinding k none).StandingTriggersSet := by
    intro k m
    refine State.StandingSet.of_le (h m) (State.onActiveLevelLine_of_fewer (s := s) (t := s.setBinding k none) rfl ?_ m)
      fun state latch => ⟨state, latch⟩
    intro l b mem
    rw [State.setBinding_get] at mem
    split at mem
    · contradiction
    · exact mem
  unfold State.unbindClaim
  split
  · exact h
  split
  · exact h
  · exact .complete (unbound _)

/-! ### Engine control and chains -/

theorem State.enableOffCourse_standing (h : s.StandingTriggersSet) (l : Link) :
    (s.enableOffCourse l).StandingTriggersSet :=
  h.latched (s.enableOffCourse_changes l .bindings (by simp)) (s.enableOffCourse_changes l .lines (by simp))
    (s.enableOffCourse_latched l)

theorem State.engineStopClaim_standing (h : s.StandingTriggersSet) : s.engineStopClaim.StandingTriggersSet := by
  have off : ({ s with enable := false } : State).StandingTriggersSet := h
  unfold State.engineStopClaim
  dsimp only
  split
  · exact h
  · exact h
  · split
    · exact .complete (State.enableOffCourse_standing off _)
    · exact .complete off.settle

theorem State.headChoice_standing (h : s.StandingTriggersSet) : s.headChoice.StandingTriggersSet := by
  unfold State.headChoice
  split
  · split
    · exact h
    · next n _ =>
      split
      · have started : (s.setRecord n { s.records[n] with
            state := .active, latch := s.records[n].latch - 1 }).StandingTriggersSet :=
          h.setRecord_idle RecState.noConfusion RecState.noConfusion
        exact started.latched (s.startHead_changes n .bindings (by simp)) (s.startHead_changes n .lines (by simp))
          (.of_records (s.startHead_records n))
      · exact h
  · exact h

theorem State.resolve_standing (h : s.StandingTriggersSet) (a : Activation) (l : Link) :
    (s.resolve a l).StandingTriggersSet := by
  have posted : ∀ n : Notice, (s.post n).endActivation.StandingTriggersSet := fun n =>
    State.StandingTriggersSet.endActivation (s := s.post n) h
  unfold State.resolve
  split
  · exact posted _
  split
  · exact State.enableOffCourse_standing h l
  split
  · exact h
  split
  · have started : (s.setRecord l.succ.num { s.records[l.succ.num] with state := .active }).StandingTriggersSet :=
      h.setRecord_idle RecState.noConfusion RecState.noConfusion
    exact started.latched (s.startLink_changes a _ .bindings (by simp)) (s.startLink_changes a _ .lines (by simp))
      (.of_records (s.startLink_records a _))
  · exact posted _

theorem State.resolutionStep_standing (h : s.StandingTriggersSet) : s.resolutionStep.StandingTriggersSet := by
  unfold State.resolutionStep
  split
  · exact h
  · exact State.resolve_standing h _ _

theorem State.applyDeferred_standing (map : s.BindingMap) (h : s.StandingTriggersSet) (d : Deferred) :
    (s.applyDeferred d).1.StandingTriggersSet := by
  unfold State.applyDeferred
  split
  · exact State.applyHold_standing map h _
  · exact State.applyRetire_standing h _

theorem State.afreshStep_standing (map : s.BindingMap) (h : s.StandingTriggersSet) :
    s.afreshStep.StandingTriggersSet := by
  unfold State.afreshStep
  split
  · exact h
  · exact .endActivation (.complete (State.applyDeferred_standing map h _))

/-! ### The write-back -/

theorem State.postOutcome_standing (h : s.StandingTriggersSet) (w : Working) (c : EndCause) :
    (s.postOutcome w c).StandingTriggersSet := by
  unfold State.postOutcome
  dsimp only
  split
  · exact h
  · exact State.StandingTriggersSet.setRecord (s := s.post _) h fun state latch => ⟨state, latch⟩

theorem State.storeProgress_standing (map : s.BindingMap) (h : s.StandingTriggersSet) (w : Working) (c : EndCause) :
    (s.storeProgress w c).StandingTriggersSet := by
  cases retires : w.autoRetires c with
  | true =>
    rw [State.storeProgress_retired retires]
    exact h.freeRecord _
  | false =>
    have written : (s.setRecord w.handle.num (s.records[w.handle.num].writtenBack w c)).records[w.handle.num] =
        s.records[w.handle.num].writtenBack w c := (vector_set_get _ _ _ _).trans (if_pos rfl)
    simp only [State.storeProgress, retires, Bool.false_eq_true, if_false]
    split
    · exact .standing h (State.writtenBack_map map retires)
    · next other =>
      rw [written] at other
      refine h.setRecord_idle other ?_
      rcases Record.writtenBack_state s.records[w.handle.num] retires with state | state | state <;>
        rw [state] <;> exact RecState.noConfusion

theorem State.writeBackClaim_standing (map : s.BindingMap) (h : s.StandingTriggersSet) (a : Activation) (w : Working)
    (c : EndCause) : (s.writeBackClaim a w c).StandingTriggersSet :=
  (State.storeProgress_standing (State.postOutcome_map map w c) (State.postOutcome_standing h w c) w c).of_changes
    (State.afterWriteBack_changes _ a w c) (by simp)

/-! ### Request lines -/

/-- A new sample makes no standing trigger due but that of a record the line's entry brings to its active level. -/
theorem State.setLine_standing {k : LineNo} {high : Bool} {m : RecNo} (h : s.StandingSet m)
    (still : ∀ b ∈ s.bindings[LineNo.source k], b.activeFor m high = false) : (s.setLine k high).StandingSet m := by
  refine State.StandingSet.of_le h (fun ⟨j, active⟩ => ⟨j, ?_⟩) fun state latch => ⟨state, latch⟩
  have level : (s.setLine k high).lines.getLsbD j.val = if j = k then high else s.lines.getLsbD j.val :=
    withLevel_getLsbD s.lines k j high
  rw [State.setLine_bindings, level] at active
  split at active
  · next own =>
    subst own
    cases entry : s.bindings[LineNo.source j] with
    | none => rw [entry] at active; contradiction
    | some b =>
      rw [entry, Option.any_some, still b entry] at active
      contradiction
  · exact active

/-- An edge of a line sets the standing trigger it makes due (R63, R65). -/
theorem State.edgeAction_standing (map : s.BindingMap) (h : s.StandingTriggersSet) {k : LineNo} {b : Binding}
    (entry : s.bindings[LineNo.source k] = some b) (high : Bool) :
    ((s.setLine k high).edgeAction b high).StandingTriggersSet := by
  have mapped : (s.setLine k high).BindingMap := map.triggered (s.setLine_triggered k high)
  have others : ∀ m : RecNo, m ≠ b.handle.num → (s.setLine k high).StandingSet m := fun m other =>
    State.setLine_standing (h m) fun c mem => by
      obtain rfl : b = c := Option.some.inj (entry.symm.trans mem)
      simp [Binding.activeFor, other.symm]
  have quiet : (∀ m : RecNo, b.activeFor m high = false) → (s.setLine k high).StandingTriggersSet := fun inactive m =>
    State.setLine_standing (h m) fun c mem => by
      obtain rfl : b = c := Option.some.inj (entry.symm.trans mem)
      exact inactive m
  have triggers : (∀ m : RecNo, b.activeFor m high = false) →
      ((s.setLine k high).deliverTrigger b.handle.num).StandingTriggersSet := fun inactive =>
    (quiet inactive).latched rfl rfl (State.deliverTrigger_latched _ _)
  unfold State.edgeAction
  split
  · next _ _ sense => exact triggers fun m => by simp [Binding.activeFor, sense]
  · next _ _ sense => exact triggers fun m => by simp [Binding.activeFor, sense]
  · exact State.standingTrigger_standing mapped others
  · exact State.standingTrigger_standing mapped others
  · next _ _ sense => exact quiet fun m => by simp [Binding.activeFor, sense]
  · next _ _ sense => exact quiet fun m => by simp [Binding.activeFor, sense]
  · next _ _ sense => exact quiet fun m => by simp [Binding.activeFor, sense]
  · next _ _ sense => exact quiet fun m => by simp [Binding.activeFor, sense]

theorem State.lineSeen_standing (map : s.BindingMap) (h : s.StandingTriggersSet) (k : LineNo) (high : Bool) :
    (s.lineSeen k high).StandingTriggersSet := by
  unfold State.lineSeen State.lineSampled
  split
  · split
    · exact h
    dsimp only
    split
    · next empty =>
      intro m
      refine State.setLine_standing (h m) fun b mem => ?_
      rw [State.setLine_bindings] at empty
      rw [empty] at mem
      contradiction
    · next entry => exact .settle (State.edgeAction_standing map h entry high)
  · exact h

/-- The map and the standing triggers, through two samples. -/
theorem State.lineHeld_standing (map : s.BindingMap) (h : s.StandingTriggersSet) (k : LineNo) (level : PinLevel) :
    (s.lineHeld k level).StandingTriggersSet := by
  have once := State.lineSeen_standing map h k level.high
  unfold State.lineHeld
  dsimp only
  split
  · exact State.lineSeen_standing (map.triggered (s.lineSeen_triggered k level.high)) once k level.high
  · exact once

/-- Triggers that leave the samples and the table. -/
theorem State.StandingTriggersSet.ticked {l : List Field} (h : s.StandingTriggersSet) (triggered : s.Triggered t)
    (changes : s.ChangesOnly l t) (still : .lines ∉ l) : t.StandingTriggersSet :=
  h.latched (triggered.changes .bindings (by simp [sourceFields])) (changes .lines still) triggered.records

theorem State.clockInputs_standing (map : s.BindingMap) (h : s.StandingTriggersSet) :
    s.clockInputs.StandingTriggersSet := by
  unfold State.clockInputs
  have lines := foldl_keeps (P := fun t => t.BindingMap ∧ t.StandingTriggersSet)
    (f := fun t k => State.lineSeen t k (t.levels.getLsbD k.val))
    (fun t k both => ⟨both.1.triggered (t.lineSeen_triggered k _), State.lineSeen_standing both.1 both.2 k _⟩)
    (List.finRange 32) ⟨map, h⟩
  exact State.StandingTriggersSet.ticked lines.2 (State.tickSeen_triggered _ _) (State.tickSeen_changes _ _) (by simp)

theorem State.command_standing {code : Byte} {owner : State → State} (h : s.StandingTriggersSet)
    (claim : (s.served code).StandingTriggersSet → (owner (s.served code)).StandingTriggersSet) :
    (s.command code owner).StandingTriggersSet :=
  State.command_rule (P := State.StandingTriggersSet) h (fun _ => h) fun _ => claim h

theorem State.clockEdge_standing (map : s.BindingMap) (h : s.StandingTriggersSet) :
    s.clockEdge.StandingTriggersSet :=
  State.clockEdge_rule (P := State.StandingTriggersSet) h fun _ =>
    have inputs : s.clockHoldOff.clockInputs.StandingTriggersSet := State.clockInputs_standing (s := s.clockHoldOff) map h
    have divided := inputs.ticked (State.clockDivider_triggered _) (State.clockDivider_changes _) (by simp)
    divided.of_changes (State.clockBus_changes _) (by simp)

theorem State.negateReset_standing (h : s.StandingTriggersSet) (held : s.ResetHeld) (lines : BitVec 32) (tick : Bool) :
    (s.negateReset lines tick).StandingTriggersSet := by
  cases reset : s.inReset with
  | false => rwa [State.negateReset_negated reset]
  | true =>
    have free : ∀ n : RecNo, s.records[n].state = .free := fun n => by
      rw [held reset]
      exact congrArg Record.state (Vector.getElem_replicate n.isLt)
    rw [State.negateReset_asserted reset]
    exact .of_free free

/-- Every row leaves the standing triggers set. -/
theorem effect_standing (i : Instr) (s : State) (map : s.BindingMap) (h : s.StandingTriggersSet) (held : s.ResetHeld) :
    (effect i s).StandingTriggersSet := by
  by_cases quiet : .bindings ∉ touched i ∧ .lines ∉ touched i ∧ .records ∉ touched i
  case pos => exact h.of_changes (effect_changes i s) quiet
  have event := fun {claim} => State.unlessReset_rule (P := State.StandingTriggersSet) (claim := claim) h
  cases i with
  | allocate => exact State.command_standing h State.allocateClaim_standing
  | store => exact State.command_standing h State.storeClaim_standing
  | arm => exact State.command_standing h (State.armClaim_standing (s := s.served _) map)
  | hold => exact State.command_standing h (State.holdClaim_standing (s := s.served _) map)
  | retire => exact State.command_standing h State.retireClaim_standing
  | wipe => exact State.command_standing h State.wipeClaim_standing
  | trigger => exact State.command_standing h State.triggerClaim_standing
  | bind => exact State.command_standing h (State.bindClaim_standing (s := s.served _) map)
  | unbind => exact State.command_standing h State.unbindClaim_standing
  | engineStop => exact State.command_standing h State.engineStopClaim_standing
  | pinReset => exact .of_free fun n => congrArg Record.state (State.pinReset_record s n)
  | resetNegation lines tick => exact State.negateReset_standing h held lines tick
  | reqEdge line level => exact event fun _ => State.lineHeld_standing map h line level
  | internalTick => exact event fun _ => h.ticked s.internalTickClaim_triggered s.internalTickClaim_changes (by simp)
  | externalTick level => exact event fun _ => h.ticked (s.tickHeld_triggered level) (s.tickHeld_changes level) (by simp)
  | generatorExpiry g => exact event fun _ => h.ticked (s.expiryClaim_triggered g) (s.expiryClaim_changes g) (by simp)
  | headStart => exact event fun _ => State.headChoice_standing h
  | writeBack =>
    exact event fun _ => (State.writeBack_rule (P := State.StandingTriggersSet) h
      fun a w c _ _ _ => State.writeBackClaim_standing map h a w c).1
  | faultWriteBack =>
    exact event fun _ => (State.writeBack_rule (P := State.StandingTriggersSet) h
      fun a w c _ _ _ => State.writeBackClaim_standing map h a w c).2
  | linkResolution => exact event fun _ => State.resolutionStep_standing h
  | appliedAfresh => exact event fun _ => State.afreshStep_standing map h
  | _ => simp [touched] at quiet

/-- Settles O56: the claims that arm, hold or bind a record, or change a sample, end with its standing trigger; no other
claim makes one due. -/
theorem standingTriggersInEveryStep : Obligations.StandingTriggersInEveryStep := by
  unfold Obligations.StandingTriggersInEveryStep
  intro s t map standing held steps
  obtain ⟨_, kept⟩ := step_keeps (P := fun u => u.BindingMap ∧ u.StandingTriggersSet ∧ u.ResetHeld)
    (fun u q ⟨map, standing, held⟩ => ⟨map, standing, held.queue q⟩)
    (fun u ⟨map, standing, held⟩ =>
      ⟨State.clockEdge_map map, State.clockEdge_standing map standing, State.clockEdge_resetHeld held⟩)
    (fun i u ⟨map, standing, held⟩ =>
      ⟨effect_map i u map, effect_standing i u map standing held, effect_resetHeld i u held⟩)
    ⟨map, standing, held⟩ steps
  exact kept

end

end Sys2Proof.Machine
end

