-- ==== Sys2Proof/Proofs/EngineAgreement.lean ====
section
/-! When the engine, the record store, the port and the bus interface agree: what each part of `State.EngineCoherent`
depends on, and how it is established once an activation begins, goes on, or ends. -/

namespace Sys2Proof.Machine

section
variable {s t : State} {a b : Activation} {w v : Working}

/-! ### The service in flight -/

theorem State.working_open (h : s.activation = some a) : s.working = a.work := by
  rw [State.working, h]

theorem State.working_closed (h : s.activation = none) : s.working = none := by
  rw [State.working, h]

theorem State.outstandingRequest_none (idle : s.working = none) : s.outstandingRequest = none := by
  rw [State.outstandingRequest, idle]

theorem State.outstandingRequest_going (work : s.working = some w) (going : w.endCause = none) :
    s.outstandingRequest = some w.request := by
  simp [State.outstandingRequest, work, going]

theorem State.outstandingRequest_ended (work : s.working = some w) (ended : w.endCause ≠ none) :
    s.outstandingRequest = none := by
  simp [State.outstandingRequest, work, ended]

theorem State.outstandingRequest_congr (h : t.activation = s.activation) :
    t.outstandingRequest = s.outstandingRequest := by
  rw [State.outstandingRequest, State.outstandingRequest, State.working, State.working, h]

/-- A request is outstanding for a service that goes on. -/
theorem State.outstandingRequest_some (h : s.outstandingRequest ≠ none) :
    ∃ a w, s.activation = some a ∧ a.work = some w ∧ w.endCause = none := by
  cases opened : s.activation with
  | none => exact absurd (State.outstandingRequest_none (State.working_closed opened)) h
  | some a =>
    cases work : a.work with
    | none => exact absurd (State.outstandingRequest_none ((State.working_open opened).trans work)) h
    | some w =>
      refine ⟨a, w, rfl, work, ?_⟩
      by_contra ended
      exact h (State.outstandingRequest_ended ((State.working_open opened).trans work) ended)

/-! ### The ACTIVE record -/

/-- No record is ACTIVE. -/
abbrev State.NoneActive (s : State) : Prop := ∀ n : RecNo, s.records[n].state ≠ .active

/-- What `ActiveExact` says of the working copy it says of its handle. -/
theorem State.activeExact_iff (s : State) : s.ActiveExact ↔
    (∀ n : RecNo, s.records[n].state = .active ↔ (s.working.map (·.handle)).any (fun h => h.num == n) = true) ∧
    ∀ h ∈ s.working.map (·.handle), s.records[h.num].gen = h.gen := by
  unfold State.ActiveExact
  cases s.working <;> simp

/-- The ACTIVE record depends on which record is ACTIVE, its generation, and the handle served. -/
theorem State.ActiveExact.congr (h : s.ActiveExact)
    (state : ∀ n : RecNo, t.records[n].state = .active ↔ s.records[n].state = .active)
    (gen : ∀ n : RecNo, s.records[n].state = .active → t.records[n].gen = s.records[n].gen)
    (handle : t.working.map (·.handle) = s.working.map (·.handle)) : t.ActiveExact := by
  rw [State.activeExact_iff] at h ⊢
  obtain ⟨exact_, names⟩ := h
  rw [handle]
  refine ⟨fun n => (state n).trans (exact_ n), fun g mem => ?_⟩
  have active := (exact_ g.num).mpr (by rw [mem]; simp)
  exact (gen g.num active).trans (names g mem)

theorem State.ActiveExact.latched (h : s.ActiveExact) (records : s.RecordsLatched t)
    (handle : t.working.map (·.handle) = s.working.map (·.handle)) : t.ActiveExact :=
  h.congr (fun n => by rw [(records n).state]) (fun n _ => (records n).gen) handle

/-- A record replaced that is ACTIVE neither before nor after. -/
theorem State.ActiveExact.setRecord {n : RecNo} {r : Record} (h : s.ActiveExact) (before : s.records[n].state ≠ .active)
    (after : r.state ≠ .active) : (s.setRecord n r).ActiveExact := by
  have entry : ∀ m : RecNo, (s.setRecord n r).records[m] = if m = n then r else s.records[m] :=
    fun m => vector_set_get _ _ _ _
  refine h.congr (fun m => ?_) (fun m active => ?_) rfl
  · rw [entry]
    split
    · next own => subst own; exact ⟨fun h => absurd h after, fun h => absurd h before⟩
    · rfl
  · rw [entry, if_neg (by rintro rfl; exact before active)]

theorem State.ActiveExact.noneActive (h : s.ActiveExact) (idle : s.working = none) : s.NoneActive := by
  intro n active
  have served := (h.1 n).mp active
  rw [idle] at served
  contradiction

theorem State.NoneActive.activeExact (h : s.NoneActive) (idle : s.working = none) : s.ActiveExact := by
  rw [State.activeExact_iff, idle]
  exact ⟨fun n => ⟨fun active => absurd active (h n), fun served => by contradiction⟩, fun _ mem => by contradiction⟩

theorem State.NoneActive.latched (h : s.NoneActive) (records : s.RecordsLatched t) : t.NoneActive := fun n => by
  rw [(records n).state]
  exact h n

/-- The record that becomes ACTIVE is the one the new service names. -/
theorem State.NoneActive.started {n : RecNo} {r : Record} (h : s.NoneActive) (records : t.records = s.records.set n r)
    (active : r.state = .active) (work : t.working = some w) (names : w.handle = ⟨n, r.gen⟩) : t.ActiveExact := by
  have entry : ∀ m : RecNo, t.records[m] = if m = n then r else s.records[m] := fun m => by
    rw [records]
    exact vector_set_get _ _ _ _
  rw [State.activeExact_iff, work]
  refine ⟨fun m => ?_, fun g mem => ?_⟩
  · rw [entry]
    split
    · next own => simp [active, names, own]
    · next other => simpa [names, Ne.symm other] using h m
  · obtain rfl : w.handle = g := Option.some.inj mem
    rw [entry, names, if_pos rfl]

/-! ### The activity -/

theorem State.ActivityCoherent.congr (h : s.ActivityCoherent) (activation : t.activation = s.activation)
    (enable : s.enable = true → t.enable = true)
    (activity : t.activity = s.activity ∨ (s.activation = none ∧ t.activity ≠ .running)) : t.ActivityCoherent := by
  obtain ⟨closed, opened⟩ := h
  rcases activity with same | ⟨none_, still⟩
  · refine ⟨fun none_ => same ▸ closed (activation ▸ none_), fun a mem => ?_⟩
    obtain ⟨shape, waits, runs⟩ := opened a (activation ▸ mem)
    exact ⟨shape, fun wait => ⟨same ▸ (waits wait).1, enable (waits wait).2⟩, fun wait => same ▸ runs wait⟩
  · refine ⟨fun _ => still, fun a mem => ?_⟩
    rw [activation, none_] at mem
    contradiction

theorem State.ActivityCoherent.of_closed (closed : t.activation = none) (still : t.activity ≠ .running) :
    t.ActivityCoherent :=
  ⟨fun _ => still, fun a mem => by rw [closed] at mem; contradiction⟩

theorem State.ActivityCoherent.of_open (opened : t.activation = some a) (shape : a.shape = true)
    (waits : a.inLinkWait = true → t.activity = .stalled ∧ t.enable = true)
    (runs : a.inLinkWait = false → t.activity = .running) : t.ActivityCoherent := by
  refine ⟨fun closed => ?_, fun b mem => ?_⟩
  · rw [opened] at closed
    contradiction
  · obtain rfl : a = b := Option.some.inj (opened.symm.trans mem)
    exact ⟨shape, waits, runs⟩

/-- An activation with a service in flight: it has no link in hand, and the engine runs. -/
theorem State.ActivityCoherent.serving (h : s.ActivityCoherent) (opened : s.activation = some a) (work : a.work = some w) :
    1 ≤ a.depth ∧ a.depth ≤ 12 ∧ a.link = none ∧ s.activity = .running := by
  obtain ⟨shape, _, runs⟩ := h.2 a opened
  simp only [Activation.shape, work, Bool.and_eq_true, decide_eq_true_eq] at shape
  obtain ⟨⟨low, high⟩, rest⟩ := shape
  have link : a.link = none := by
    cases link : a.link with
    | none => rfl
    | some l => rw [link] at rest; contradiction
  exact ⟨low, high, link, runs (by rw [Activation.inLinkWait, link]; rfl)⟩

/-- An activation with a link in hand: no service is in flight and no command is deferred. -/
theorem State.ActivityCoherent.linked {l : Link} (h : s.ActivityCoherent) (opened : s.activation = some a)
    (link : a.link = some l) : 1 ≤ a.depth ∧ a.depth ≤ 12 ∧ a.work = none ∧ a.deferred = none := by
  obtain ⟨shape, _⟩ := h.2 a opened
  simp only [Activation.shape, link, Bool.and_eq_true, decide_eq_true_eq] at shape
  obtain ⟨⟨low, high⟩, rest⟩ := shape
  cases work : a.work <;> cases deferred : a.deferred <;> rw [work, deferred] at rest <;> simp_all

theorem Activation.shape_of_work (low : 1 ≤ a.depth) (high : a.depth ≤ 12) (work : a.work = some w)
    (link : a.link = none) : a.shape = true := by
  simp [Activation.shape, low, high, work, link]

theorem Activation.not_inLinkWait (link : a.link = none) : a.inLinkWait = false := by
  rw [Activation.inLinkWait, link]
  rfl

/-- The same activation with another working copy (R108 to R112). -/
theorem State.ActivityCoherent.rework (h : s.ActivityCoherent) (opened : s.activation = some a) (work : a.work = some w)
    (after : t.activation = some { a with work := some v }) (activity : t.activity = s.activity) :
    t.ActivityCoherent := by
  obtain ⟨low, high, link, runs⟩ := h.serving opened work
  exact .of_open after (Activation.shape_of_work low high rfl link)
    (fun wait => absurd (wait.symm.trans (Activation.not_inLinkWait link)) (by decide)) fun _ => activity.trans runs

/-! ### The port -/

/-- No command is left WAITING. -/
abbrev State.PortFree (s : State) : Prop := ∀ code : Byte, s.port.state ≠ .waiting code

theorem State.WaitingCoherent.congr (h : s.WaitingCoherent) (activation : t.activation = s.activation)
    (enable : t.enable = s.enable) (state : t.port.state = s.port.state) (stop : t.port.stopHandle = s.port.stopHandle) :
    t.WaitingCoherent := by
  unfold State.WaitingCoherent at h ⊢
  rw [activation, enable, state, stop]
  exact h

theorem State.WaitingCoherent.stop_of_free (h : s.WaitingCoherent) (free : s.PortFree) : s.port.stopHandle = none := by
  by_contra waits
  exact free _ (h.1.mp waits)

theorem State.WaitingCoherent.deferred_of_free (h : s.WaitingCoherent) (free : s.PortFree)
    (opened : s.activation = some a) : a.deferred = none := by
  obtain ⟨_, _, _, waits, _⟩ := h
  cases deferred : a.deferred with
  | none => rfl
  | some d => exact absurd (waits a opened d deferred).1 (free _)

theorem State.WaitingCoherent.enable_of_free (h : s.WaitingCoherent) (free : s.PortFree)
    (opened : s.activation ≠ none) : s.enable = true :=
  (h.2.2.1 opened).resolve_right fun waits => waits (h.stop_of_free free)

/-- With the port not WAITING the engine holds nothing for it. -/
theorem State.WaitingCoherent.of_free (free : t.PortFree) (stop : t.port.stopHandle = none)
    (enable : t.activation ≠ none → t.enable = true) (deferred : ∀ a ∈ t.activation, a.deferred = none) :
    t.WaitingCoherent := by
  refine ⟨⟨fun waits => absurd stop waits, fun waits => absurd waits (free _)⟩, fun waits => absurd stop waits,
    fun opened => .inl (enable opened), fun a mem d deferred' => ?_, fun kind waits => absurd waits (free kind)⟩
  rw [deferred a mem] at deferred'
  contradiction

/-- With nothing deferred and no ENGINE_STOP waiting the port is not WAITING (R45, R97). -/
theorem State.WaitingCoherent.free (h : s.WaitingCoherent) (stop : s.port.stopHandle = none)
    (deferred : ∀ a ∈ s.activation, a.deferred = none) : s.PortFree := by
  obtain ⟨stops, _, _, _, kinds⟩ := h
  intro code waits
  rcases kinds code waits with rfl | held
  · exact stops.mpr waits stop
  · cases opened : s.activation with
    | none => rw [opened] at held; contradiction
    | some a =>
      rw [opened, Option.any_some, deferred a opened] at held
      contradiction

/-- With no activation open the port is not WAITING. -/
theorem State.WaitingCoherent.free_of_closed (h : s.WaitingCoherent) (closed : s.activation = none) : s.PortFree := by
  refine h.free ?_ fun a mem => by rw [closed] at mem; contradiction
  by_contra waits
  exact (h.2.1 waits).1 closed

/-- The activation goes on with its deferred command, for the same record if a service is in flight. -/
theorem State.WaitingCoherent.goesOn (h : s.WaitingCoherent) (opened : s.activation = some a)
    (after : t.activation = some b) (deferred : b.deferred = a.deferred)
    (work : ∀ v ∈ b.work, ∃ w ∈ a.work, w.handle = v.handle) (enable : t.enable = s.enable)
    (port : t.port = s.port) : t.WaitingCoherent := by
  unfold State.WaitingCoherent at h ⊢
  rw [opened] at h
  rw [after, enable, port]
  obtain ⟨stops, stopped, enabled, waits, kinds⟩ := h
  refine ⟨stops, fun stop => ⟨by simp, (stopped stop).2⟩, fun _ => enabled (by simp), ?_, ?_⟩
  · rintro c mem d held
    obtain rfl : b = c := Option.some.inj mem
    obtain ⟨state, handle⟩ := waits a rfl d (deferred ▸ held)
    refine ⟨state, fun v working => ?_⟩
    obtain ⟨w, before, same⟩ := work v working
    exact (handle w before).trans same
  · intro kind state
    rw [Option.any_some, deferred]
    exact kinds kind state

/-! ### The bus interface -/

/-- The bus interface with no request: nothing raised, nothing under way. -/
structure Bus.Idle (b : Bus) : Prop where
  ownership : b.ownership = .released
  request : b.request = none
  access : b.access = none
  timer : b.timer = 0
  spacing : b.spacing ≤ 2

/-- Whether a command is deferred. -/
abbrev State.Defers (s : State) : Prop := s.activation.any (fun a => a.deferred.isSome) = true

theorem State.BusCoherent.congr (h : s.BusCoherent) (activation : t.activation = s.activation) (bus : t.bus = s.bus) :
    t.BusCoherent := by
  unfold State.BusCoherent at h ⊢
  rw [State.outstandingRequest_congr activation, activation, bus]
  exact h

/-- With no request outstanding the bus interface is idle. -/
theorem State.BusCoherent.idle (h : s.BusCoherent) (none_ : s.outstandingRequest = none) : s.bus.Idle := by
  obtain ⟨request, owner, raised, spacing, _, timer, _⟩ := h
  rw [none_] at request
  have released : s.bus.ownership = .released := by
    by_contra held
    exact (raised held).1 request
  have access : s.bus.access = none := by
    by_contra held
    exact absurd (released.symm.trans (owner.mpr held)) (by decide)
  exact ⟨released, request, access, timer access, spacing⟩

theorem Bus.Idle.coherent (h : t.bus.Idle) (none_ : t.outstandingRequest = none) : t.BusCoherent := by
  obtain ⟨released, request, access, timer, spacing⟩ := h
  exact ⟨by rw [request, none_], by simp [released, access], fun held => absurd released held, spacing,
    by omega, fun _ => timer, fun owner => absurd (released.symm.trans owner) (by decide),
    fun some_ => absurd none_ some_⟩

/-- A request handed to an idle bus interface (R107, R197). -/
theorem Bus.Idle.handed {c : Bus} {q : UnitRequest} (h : c.Idle) (bus : t.bus = c.handRequest q)
    (request : t.outstandingRequest = some q) (deferred : ¬t.Defers) : t.BusCoherent := by
  obtain ⟨released, _, access, timer, spacing⟩ := h
  unfold State.BusCoherent
  rw [bus, request, Bus.handRequest, released, access, timer]
  refine ⟨rfl, ?_, ?_, spacing, by decide, fun _ => rfl, ?_, fun _ held => absurd held deferred⟩
  · dsimp only
    split <;> simp
  · dsimp only
    split
    · next due => exact fun _ => ⟨Option.some_ne_none q, due.2⟩
    · exact fun held => absurd rfl held
  · dsimp only
    split <;> exact fun owner => Ownership.noConfusion owner

theorem Bus.release_idle (c : Bus) : c.release.Idle := ⟨rfl, rfl, rfl, rfl, le_rfl⟩

theorem Bus.Idle.answered {c : Bus} (h : c.Idle) (x : Option SlaveAccess) : { c with slave := x }.Idle :=
  ⟨h.ownership, h.request, h.access, h.timer, h.spacing⟩

/-! ### All of it -/

/-- The engine goes on agreeing through triggers and through changes it has no part in. -/
theorem State.EngineCoherent.congr (h : s.EngineCoherent) (records : s.RecordsLatched t)
    (activation : t.activation = s.activation)
    (activity : t.activity = s.activity ∨ (s.activation = none ∧ t.activity ≠ .running))
    (enable : t.enable = s.enable) (state : t.port.state = s.port.state)
    (stop : t.port.stopHandle = s.port.stopHandle) (bus : t.bus = s.bus) : t.EngineCoherent := by
  obtain ⟨active, coherent, waiting, bus'⟩ := h
  refine ⟨active.latched records ?_, coherent.congr activation (fun on_ => enable.trans on_) activity,
    waiting.congr activation enable state stop, bus'.congr activation bus⟩
  rw [State.working, State.working, activation]

theorem State.EngineCoherent.triggered (h : s.EngineCoherent) (events : s.Triggered t) : t.EngineCoherent := by
  have port : t.port = s.port := events.changes .port (by simp [sourceFields])
  exact h.congr events.records (events.changes .activation (by simp [sourceFields])) events.activity
    (events.changes .enable (by simp [sourceFields])) (by rw [port]) (by rw [port])
    (events.changes .bus (by simp [sourceFields]))

/-- The fields the agreement speaks of. -/
def engineFields : List Field := [.records, .activation, .activity, .enable, .port, .bus]

theorem State.EngineCoherent.of_changes {l : List Field} (h : s.EngineCoherent) (changes : s.ChangesOnly l t)
    (quiet : ∀ f ∈ engineFields, f ∉ l) : t.EngineCoherent := by
  have same := fun f mem => changes f (quiet f mem)
  have port : t.port = s.port := same .port (by simp [engineFields])
  exact h.congr (.of_records (same .records (by simp [engineFields]))) (same .activation (by simp [engineFields]))
    (.inl (same .activity (by simp [engineFields]))) (same .enable (by simp [engineFields])) (by rw [port])
    (by rw [port]) (same .bus (by simp [engineFields]))

/-- The end of an activation: no record is ACTIVE, no request is outstanding, and a port that waits, waits for
ENGINE_STOP, which completes (R94, R97). -/
theorem State.endActivation_coherent (none_ : s.NoneActive) (idle : s.bus.Idle)
    (free : s.port.stopHandle = none → s.PortFree) : s.endActivation.EngineCoherent ∧ s.endActivation.PortFree := by
  obtain ⟨closed, exact_, left, answered⟩ := s.endActivation_ends
  have bus : s.endActivation.bus = s.bus := s.endActivation_changes .bus (by simp)
  have still : s.endActivation.activity ≠ .running := by
    obtain ⟨stalled, still⟩ := exact_ closed
    by_cases wait : s.endActivation.HeadWaitCondition
    · rw [stalled wait]; exact Activity.noConfusion
    · rw [still wait]; exact Activity.noConfusion
  have after : s.endActivation.PortFree ∧ s.endActivation.port.stopHandle = none := by
    cases stop : s.port.stopHandle with
    | none => rw [left stop]; exact ⟨fun code => by rw [left stop]; exact free stop code, stop⟩
    | some h => exact ⟨fun code => by rw [answered h stop]; exact PortState.noConfusion, by rw [answered h stop]⟩
  have unserved : s.endActivation.working = none := State.working_closed closed
  refine ⟨⟨State.NoneActive.activeExact ?_ unserved, .of_closed closed still, ?_, ?_⟩, after.1⟩
  · exact none_.latched (.of_records s.endActivation_records)
  · exact .of_free after.1 after.2 (fun opened => absurd closed opened) fun a mem => by rw [closed] at mem; contradiction
  · exact Bus.Idle.coherent (bus ▸ idle) (State.outstandingRequest_none unserved)

end

end Sys2Proof.Machine
end

