-- ==== Sys2Proof/Proofs/EngineCoherence.lean ====
section
/-! The engine, the store, the port and the bus interface stay in agreement through every step: row by row. -/

namespace Sys2Proof.Machine

section
variable {s t : State} {a : Activation} {w : Working}

/-! ### Commands -/

/-- The engine agrees, and the port is not WAITING: what a command's claim finds. -/
structure State.Serving (s : State) : Prop where
  coherent : s.EngineCoherent
  free : s.PortFree

/-- The port READY, no ENGINE_STOP noted. -/
abbrev State.PortReady (s : State) : Prop := s.port.state = .ready ∧ s.port.stopHandle = none

/-- The port passes from one state in which it is not WAITING to another. -/
theorem State.Serving.ported (h : s.Serving) {p : Port} (free : ∀ code, p.state ≠ .waiting code)
    (stop : p.stopHandle = none) : ({ s with port := p } : State).Serving := by
  obtain ⟨⟨active, activity, waiting, bus⟩, free'⟩ := h
  refine ⟨⟨active, activity, .of_free free stop (waiting.enable_of_free free') fun a opened => ?_, bus⟩, free⟩
  exact waiting.deferred_of_free free' opened

theorem State.Serving.complete {code : Byte} {r : Reply} (h : s.Serving) : (s.complete code r).Serving :=
  h.ported (fun _ => PortState.noConfusion) rfl

theorem State.Serving.triggered (h : s.Serving) (events : s.Triggered t) : t.Serving :=
  ⟨h.coherent.triggered events, by
    unfold State.PortFree
    rw [show t.port = s.port from events.changes .port (by simp [sourceFields])]
    exact h.free⟩

theorem State.Serving.of_changes {l : List Field} (h : s.Serving) (changes : s.ChangesOnly l t)
    (quiet : ∀ f ∈ engineFields, f ∉ l) : t.Serving :=
  ⟨h.coherent.of_changes changes quiet, by
    unfold State.PortFree
    rw [show t.port = s.port from changes .port (quiet .port (by simp [engineFields]))]
    exact h.free⟩

theorem State.Serving.setRecord {n : RecNo} {r : Record} (h : s.Serving) (before : s.records[n].state ≠ .active)
    (after : r.state ≠ .active) : (s.setRecord n r).Serving := by
  obtain ⟨⟨active, activity, waiting, bus⟩, free⟩ := h
  exact ⟨⟨active.setRecord before after, activity, waiting, bus⟩, free⟩

theorem State.Serving.settle (h : s.Serving) : s.settleActivity.Serving := h.triggered s.settleActivity_triggered

theorem State.Serving.standing (h : s.Serving) (n : RecNo) : (s.standingTrigger n).Serving :=
  h.triggered (s.standingTrigger_triggered n)

/-- A claim that completes, having changed nothing the agreement speaks of but the port. -/
theorem State.Serving.answered {l : List Field} (h : s.Serving) (changes : s.ChangesOnly l t)
    (quiet : ∀ f ∈ engineFields, f = .port ∨ f ∉ l) (ready : t.PortReady) : t.Serving := by
  have same : ∀ f ∈ engineFields, f ≠ .port → s.Same t f := fun f mem other =>
    changes f ((quiet f mem).resolve_left other)
  have others := h.ported (p := t.port) (fun code => by rw [ready.1]; exact PortState.noConfusion) ready.2
  refine ⟨others.coherent.congr (.of_records (same .records ?_ ?_)) (same .activation ?_ ?_)
    (.inl (same .activity ?_ ?_)) (same .enable ?_ ?_) rfl rfl (same .bus ?_ ?_),
    fun code => by rw [ready.1]; exact PortState.noConfusion⟩ <;> simp [engineFields]

/-! #### Acceptance -/

/-- RDY_n asserted for an access, or released. -/
theorem State.EngineCoherent.slave (h : s.EngineCoherent) {x : Option SlaveAccess}
    (allowed : s.bus.ownership ≠ .owner ∨ x = none) : ({ s with bus := { s.bus with slave := x } }).EngineCoherent := by
  obtain ⟨active, activity, waiting, request, owner, raised, spacing, timer, timed, _, deferred⟩ := h
  exact ⟨active, activity, waiting, request, owner, raised, spacing, timer, timed,
    fun owned => allowed.elim (fun other => absurd owned other) id, deferred⟩

theorem State.EngineCoherent.answerAccess (h : s.EngineCoherent) (listens : s.Listens) (driven : Option Word) :
    (s.answerAccess driven).EngineCoherent :=
  h.slave (.inl listens.2.2)

/-- What a command's owner finds: the port was READY, or BUSY with the command, and is BUSY (R181). -/
theorem State.EngineCoherent.served {code : Byte} (h : s.EngineCoherent) (serves : s.Serves code) :
    (s.served code).Serving := by
  have free : s.PortFree := fun c waits => by
    rcases serves with ⟨state, _⟩ | ⟨state, _⟩ <;> rw [state] at waits <;> contradiction
  have bus : ({ s with bus := s.busAfter } : State).EngineCoherent := by
    rcases serves with ⟨ready, listens⟩ | ⟨busy, _⟩
    · have after : s.busAfter = { s.bus with slave := some ⟨none⟩ } := by rw [State.busAfter, ready]
      rw [after]
      exact h.answerAccess listens none
    · have after : s.busAfter = s.bus := by rw [State.busAfter, busy]
      rw [after]
      exact h
  exact State.Serving.ported ⟨bus, free⟩ (fun _ => PortState.noConfusion)
    (h.2.2.1.stop_of_free free)

theorem State.EngineCoherent.refuseWrite (h : s.EngineCoherent) : s.refuseWrite.EngineCoherent :=
  h.congr (.of_records rfl) rfl (.inl rfl) rfl rfl rfl rfl

theorem State.command_coherent {code : Byte} {owner : State → State} (h : s.EngineCoherent)
    (claim : (s.served code).Serving → (owner (s.served code)).EngineCoherent) :
    (s.command code owner).EngineCoherent :=
  State.command_rule (P := State.EngineCoherent) h (fun listens => (h.answerAccess listens none).refuseWrite)
    fun serves => claim (h.served serves)

/-! #### The commands that concern no record -/

theorem State.fetchClaim_ready (s : State) : s.fetchClaim.PortReady := by
  unfold State.fetchClaim
  split <;> exact ⟨rfl, rfl⟩

theorem State.unbindClaim_ready (s : State) : s.unbindClaim.PortReady := by
  unfold State.unbindClaim
  split
  · exact ⟨rfl, rfl⟩
  · split <;> exact ⟨rfl, rfl⟩

theorem State.bindReadClaim_ready (s : State) : s.bindReadClaim.PortReady := by
  unfold State.bindReadClaim
  split <;> exact ⟨rfl, rfl⟩

theorem State.genSetClaim_ready (s : State) : s.genSetClaim.PortReady := by
  unfold State.genSetClaim
  split
  · exact ⟨rfl, rfl⟩
  split
  · exact ⟨rfl, rfl⟩
  split <;> exact ⟨rfl, rfl⟩

theorem State.genStartClaim_ready (s : State) : s.genStartClaim.PortReady := by
  unfold State.genStartClaim
  split
  · exact ⟨rfl, rfl⟩
  · split <;> exact ⟨rfl, rfl⟩

theorem State.genStopClaim_ready (s : State) : s.genStopClaim.PortReady := by
  unfold State.genStopClaim
  split <;> exact ⟨rfl, rfl⟩

theorem State.genReadClaim_ready (s : State) : s.genReadClaim.PortReady := by
  unfold State.genReadClaim
  split <;> exact ⟨rfl, rfl⟩

theorem State.closeClaim_ready (s : State) : s.closeClaim.PortReady := by
  unfold State.closeClaim
  split
  · exact ⟨rfl, rfl⟩
  · split <;> exact ⟨rfl, rfl⟩

theorem State.setFloorClaim_ready (s : State) : s.setFloorClaim.PortReady := by
  unfold State.setFloorClaim
  split <;> exact ⟨rfl, rfl⟩

theorem State.unknownClaim_serving (h : s.Serving) (code : Byte) : (s.unknownClaim code).Serving := by
  unfold State.unknownClaim
  split
  · exact h
  · exact h.complete

/-! #### The record commands -/

theorem State.allocateClaim_serving (h : s.Serving) : s.allocateClaim.Serving := by
  unfold State.allocateClaim
  split
  · exact h.complete
  · next free =>
    have idle := State.lowestFree_free free
    exact .complete (h.setRecord (by rw [idle]; exact RecState.noConfusion) RecState.noConfusion)

theorem State.storeClaim_serving (h : s.Serving) : s.storeClaim.Serving := by
  unfold State.storeClaim
  split
  · exact h.complete
  dsimp only
  split
  · next editable =>
    have idle := RecState.not_active_of_editable editable
    split
    · exact h.complete
    · exact .complete (h.setRecord idle idle)
  · exact h.complete

theorem State.armClaim_serving (h : s.Serving) : s.armClaim.Serving := by
  unfold State.armClaim
  split
  · exact h.complete
  dsimp only
  split
  · next editable =>
    split
    · exact h.complete
    · exact .complete (.settle (.standing
        (h.setRecord (RecState.not_active_of_editable editable) RecState.noConfusion) _))
  · exact h.complete

theorem State.applyHold_serving (h : s.Serving) (x : Word) : (s.applyHold x).1.Serving := by
  unfold State.applyHold
  split
  · exact h
  dsimp only
  split
  case h_1 state => exact h.setRecord (by rw [state]; exact RecState.noConfusion) RecState.noConfusion
  case h_3 state =>
    exact (h.setRecord (by rw [state]; exact RecState.noConfusion) RecState.noConfusion).standing _
  case h_4 state =>
    exact (h.setRecord (by rw [state]; exact RecState.noConfusion) RecState.noConfusion).standing _
  all_goals exact h

theorem State.freeRecord_serving (h : s.Serving) {n : RecNo} (idle : s.records[n].state ≠ .active) :
    (s.freeRecord n).Serving :=
  (h.setRecord (r := s.records[n].freed) idle RecState.noConfusion).of_changes (State.emptyBindingOf_changes _ _)
    (by simp [engineFields])

theorem State.applyRetire_serving (h : s.Serving) {x : Word}
    (idle : ∀ g, s.checkHandle x = .passed g → s.records[g.num].state ≠ .active) : (s.applyRetire x).1.Serving := by
  unfold State.applyRetire
  split
  · exact h
  · next passed => exact State.freeRecord_serving h (idle _ passed)

/-- What `namesActive` finds (R45). -/
theorem State.namesActive_eq_some {x : Word} {g : Handle} (names : s.namesActive x = some g) :
    s.checkHandle x = .passed g ∧ s.records[g.num].state = .active := by
  unfold State.namesActive at names
  split at names
  · contradiction
  split at names
  · cases names
    exact ⟨by assumption, by assumption⟩
  · contradiction

theorem State.namesActive_eq_none {x : Word} {g : Handle} (names : s.namesActive x = none)
    (passed : s.checkHandle x = .passed g) : s.records[g.num].state ≠ .active := by
  intro active
  simp [State.namesActive, passed, active, -Fin.getElem_fin] at names

theorem State.checkHandle_gen {x : Word} {g : Handle} (passed : s.checkHandle x = .passed g) :
    s.records[g.num].gen = g.gen := by
  unfold State.checkHandle at passed
  split at passed
  · contradiction
  split at passed
  · contradiction
  · next names =>
    cases passed
    exact not_not.mp fun other => names (.inr other)

theorem DeferredKind.command_ne_stop (kind : DeferredKind) : kind.command ≠ codeEngineStop := by
  cases kind <;> decide

/-- The port WAITING for a deferred command (R45). -/
theorem State.WaitingCoherent.of_deferred {d : Deferred} (opened : t.activation = some a) (held : a.deferred = some d)
    (state : t.port.state = .waiting d.kind.command) (stop : t.port.stopHandle = none) (enable : t.enable = true)
    (names : ∀ v ∈ a.work, d.handle = v.handle) : t.WaitingCoherent := by
  refine ⟨⟨fun waits => absurd stop waits, fun waits => ?_⟩, fun waits => absurd stop waits, fun _ => .inl enable, ?_, ?_⟩
  · exact absurd (PortState.waiting.inj (state.symm.trans waits)) d.kind.command_ne_stop
  · intro b mem e held'
    obtain rfl : a = b := Option.some.inj (opened.symm.trans mem)
    obtain rfl : d = e := Option.some.inj (held.symm.trans held')
    exact ⟨state, names⟩
  · intro kind waits
    obtain rfl := PortState.waiting.inj (state.symm.trans waits)
    exact .inr (by rw [opened, Option.any_some, held, Option.any_some, beq_self_eq_true])

theorem Bus.withdraw_idle {c : Bus} (h : c.ownership ≠ .owner) (access : c.access = none) (timer : c.timer = 0)
    (spacing : c.spacing ≤ 2) : c.withdraw.Idle := by
  unfold Bus.withdraw
  split
  · next released => exact ⟨released, rfl, access, timer, spacing⟩
  · exact ⟨rfl, rfl, access, timer, le_rfl⟩
  · contradiction

/-- What `cutWaitingRequest` does: it ends a service whose request waits for the grant, and else nothing (R112). -/
theorem State.cutWaitingRequest_cases (s : State) (a : Activation) :
    (∃ w, a.work = some w ∧ s.bus.ownership ≠ .owner ∧ w.endCause = none ∧ s.cutWaitingRequest a =
      { s.setWorking a { w with endCause := some .cut } with bus := s.bus.withdraw }) ∨
    ((∀ w ∈ a.work, s.bus.ownership ≠ .owner → w.endCause ≠ none) ∧ s.cutWaitingRequest a = s) := by
  unfold State.cutWaitingRequest
  split
  · next w work released =>
    split
    · next going => exact .inl ⟨w, work, by rw [released]; exact Ownership.noConfusion, going, rfl⟩
    · next ended => exact .inr ⟨fun v mem _ => Option.some.inj (work.symm.trans mem) ▸ ended, rfl⟩
  · next w work requesting =>
    split
    · next going => exact .inl ⟨w, work, by rw [requesting]; exact Ownership.noConfusion, going, rfl⟩
    · next ended => exact .inr ⟨fun v mem _ => Option.some.inj (work.symm.trans mem) ▸ ended, rfl⟩
  · next released requesting =>
    refine .inr ⟨fun v mem other => ?_, rfl⟩
    cases ownership : s.bus.ownership with
    | released => exact (released v mem ownership).elim
    | requesting => exact (requesting v mem ownership).elim
    | owner => exact absurd ownership other

/-- The command waits for the service in flight, which goes on or is cut (R45, R112). -/
theorem State.deferCommand_coherent (h : s.Serving) (kind : DeferredKind) {g : Handle}
    (active : s.records[g.num].state = .active) (gen : s.records[g.num].gen = g.gen) :
    (s.deferCommand kind g).EngineCoherent := by
  obtain ⟨⟨exact_, activity, waiting, bus⟩, free⟩ := h
  have stop := waiting.stop_of_free free
  obtain ⟨w, serving, named⟩ : ∃ w, s.working = some w ∧ w.handle.num = g.num := by
    have served := (exact_.1 g.num).mp active
    cases working : s.working with
    | none => rw [working] at served; contradiction
    | some w => rw [working] at served; exact ⟨w, rfl, by simpa using served⟩
  have handle : g = w.handle := by
    have same := exact_.2 w serving
    obtain ⟨num, gen'⟩ := g
    obtain rfl : w.handle.num = num := named
    exact congrArg (Handle.mk w.handle.num) (gen.symm.trans same)
  obtain ⟨a, opened, work⟩ : ∃ a, s.activation = some a ∧ a.work = some w := by
    cases opened : s.activation with
    | none => rw [State.working_closed opened] at serving; contradiction
    | some a => exact ⟨a, rfl, (State.working_open opened).symm.trans serving⟩
  have enable : s.enable = true := waiting.enable_of_free free (by rw [opened]; exact Option.some_ne_none a)
  have defers : s.deferCommand kind g = State.cutWaitingRequest
      { s.setWaiting kind.command with activation := some { a with deferred := some ⟨kind, g⟩ } }
      { a with deferred := some ⟨kind, g⟩ } := by
    simp [State.deferCommand, State.setWaiting, opened]
  rw [defers]
  obtain ⟨request, owner, raised, spacing, timer, timed, slave, _⟩ := bus
  rcases State.cutWaitingRequest_cases
      { s.setWaiting kind.command with activation := some { a with deferred := some ⟨kind, g⟩ } }
      { a with deferred := some ⟨kind, g⟩ } with ⟨v, work', unowned, going, cuts⟩ | ⟨goesOn, same⟩
  · rw [cuts]
    obtain rfl : w = v := Option.some.inj (work.symm.trans work')
    have access : s.bus.access = none := by
      by_contra under
      exact unowned (owner.mpr under)
    refine ⟨exact_.congr (fun _ => Iff.rfl) (fun _ _ => rfl) ?_, ?_, .of_deferred (a := { a with
      deferred := some ⟨kind, g⟩, work := some { w with endCause := some .cut } }) rfl rfl rfl stop enable ?_, ?_⟩
    · rw [serving]; rfl
    · obtain ⟨low, high, link, runs⟩ := activity.serving opened work
      exact .of_open (a := { a with deferred := some ⟨kind, g⟩, work := some { w with endCause := some .cut } }) rfl
        (Activation.shape_of_work low high rfl link)
        (fun wait => absurd (wait.symm.trans (Activation.not_inLinkWait link)) (by decide)) fun _ => runs
    · rintro v mem
      obtain rfl := Option.some.inj mem
      exact handle
    · exact Bus.Idle.coherent (Bus.withdraw_idle unowned access (timed access) spacing) rfl
  · rw [same]
    refine ⟨exact_.congr (fun _ => Iff.rfl) (fun _ _ => rfl) ?_, ?_, .of_deferred (a := { a with
      deferred := some ⟨kind, g⟩ }) rfl rfl rfl stop enable ?_, ?_⟩
    · rw [State.working_open opened]; rfl
    · obtain ⟨low, high, link, runs⟩ := activity.serving opened work
      exact .of_open (a := { a with deferred := some ⟨kind, g⟩ }) rfl (Activation.shape_of_work low high work link)
        (fun wait => absurd (wait.symm.trans (Activation.not_inLinkWait link)) (by decide)) fun _ => runs
    · rintro v mem
      obtain rfl : w = v := Option.some.inj (work.symm.trans mem)
      exact handle
    · have after : State.outstandingRequest
          { s.setWaiting kind.command with activation := some { a with deferred := some ⟨kind, g⟩ } } =
          s.outstandingRequest := by
        rw [State.outstandingRequest, State.outstandingRequest, State.working_open opened]
        rfl
      refine ⟨request.trans after.symm, owner, raised, spacing, timer, timed, slave, fun outstanding _ => ?_⟩
      by_contra unowned
      rw [after] at outstanding
      have ended := goesOn w work unowned
      exact outstanding (State.outstandingRequest_ended serving ended)

theorem State.holdClaim_coherent (h : s.Serving) : s.holdClaim.EngineCoherent := by
  unfold State.holdClaim
  split
  · next names =>
    obtain ⟨passed, active⟩ := State.namesActive_eq_some names
    exact State.deferCommand_coherent h .hold active (State.checkHandle_gen passed)
  · exact (State.applyHold_serving h _).settle.complete.coherent

theorem State.retireClaim_coherent (h : s.Serving) : s.retireClaim.EngineCoherent := by
  unfold State.retireClaim
  split
  · next names =>
    obtain ⟨passed, active⟩ := State.namesActive_eq_some names
    exact State.deferCommand_coherent h .retire active (State.checkHandle_gen passed)
  · next names =>
    exact (State.applyRetire_serving h fun g passed => State.namesActive_eq_none names passed).settle.complete.coherent

/-- With the activity IDLE no activation is open (R87). -/
theorem State.EngineCoherent.closed_of_idle (h : s.EngineCoherent) (idle : s.activity = .idle) : s.activation = none := by
  obtain ⟨_, ⟨_, opened⟩, _⟩ := h
  cases activation : s.activation with
  | none => rfl
  | some a =>
    obtain ⟨_, waits, runs⟩ := opened a activation
    cases wait : a.inLinkWait with
    | true => exact absurd (idle.symm.trans (waits wait).1) Activity.noConfusion
    | false => exact absurd (idle.symm.trans (runs wait)) Activity.noConfusion

theorem State.wipeClaim_serving (h : s.Serving) : s.wipeClaim.Serving := by
  unfold State.wipeClaim
  split
  · next off =>
    have closed := h.coherent.closed_of_idle off.2
    obtain ⟨⟨_, activity, waiting, bus⟩, free⟩ := h
    have unserved : s.wiped.working = none := State.working_closed closed
    have none_ : s.wiped.NoneActive := fun n => by rw [s.wiped_free n]; exact RecState.noConfusion
    exact .complete ⟨⟨none_.activeExact unserved, activity, waiting, bus⟩, free⟩
  · exact h.complete

theorem State.triggerClaim_serving (h : s.Serving) : s.triggerClaim.Serving := by
  unfold State.triggerClaim
  split
  · exact h.complete
  dsimp only
  split
  · exact (h.triggered (s.deliverTrigger_triggered _)).settle.complete
  · exact h.complete

theorem State.bindClaim_serving (h : s.Serving) : s.bindClaim.Serving := by
  unfold State.bindClaim State.bindChecked
  split
  · split
    · exact h.complete
    dsimp only
    split
    · exact ((h.of_changes (s.setBinding_changes _ _) (by simp [engineFields])).standing _).settle.complete
    · exact h.complete
  · exact h.complete

end

end Sys2Proof.Machine
end

