-- ==== Sys2Proof/Proofs/ActivationCoherence.lean ====
section
/-! The engine, the store, the port and the bus interface stay in agreement through the steps of the engine and the bus,
and so through every step. -/

namespace Sys2Proof.Machine

section
variable {s t : State} {a : Activation} {w : Working}

/-! ### Starts -/

/-- A boundary with no command deferred hands the next request over (R107). -/
theorem State.unitBoundary_going (s : State) (w : Working) (going : a.deferred = none) :
    s.unitBoundary a w = { s.setWorking a w with bus := s.bus.handRequest w.request } := by
  rw [State.unitBoundary, going]
  rfl

/-- A boundary with a command deferred ends the service by CUT (R112). -/
theorem State.unitBoundary_cut {d : Deferred} (s : State) (w : Working) (deferred : a.deferred = some d) :
    s.unitBoundary a w = s.setWorking a { w with endCause := some .cut } := by
  rw [State.unitBoundary, deferred]

/-- A service starts: nothing was served, and the record it names becomes ACTIVE (R104, R105). -/
theorem State.started_coherent {n : RecNo} {r : Record} {p : Vector RecNo 4} {depth : Nat} (none_ : s.NoneActive)
    (idle : s.bus.Idle) (free : s.PortFree) (stop : s.port.stopHandle = none) (enable : s.enable = true)
    (active : r.state = .active) (names : w.handle = ⟨n, r.gen⟩) (going : w.endCause = none) (low : 1 ≤ depth)
    (high : depth ≤ 12) : ({ s with
      records := s.records.set n r, pointers := p, activity := .running, activation := some ⟨depth, some w, none, none⟩
      bus := s.bus.handRequest w.request } : State).EngineCoherent := by
  refine ⟨none_.started rfl active rfl names, .of_open rfl (Activation.shape_of_work low high rfl rfl)
    (fun wait => Bool.noConfusion wait) fun _ => rfl, .of_free free stop (fun _ => enable) ?_,
    Bus.Idle.handed idle rfl (State.outstandingRequest_going rfl going) (by simp)⟩
  rintro b mem
  obtain rfl := Option.some.inj mem
  rfl

theorem State.EngineCoherent.idle_of_unserved (h : s.EngineCoherent) (unserved : s.working = none) :
    s.NoneActive ∧ s.bus.Idle :=
  ⟨h.1.noneActive unserved, h.2.2.2.idle (State.outstandingRequest_none unserved)⟩

theorem State.headChoice_coherent (h : s.EngineCoherent) : s.headChoice.EngineCoherent := by
  unfold State.headChoice
  split
  case isFalse => exact h
  case isTrue on_ =>
    obtain ⟨enable, still⟩ := on_
    have closed := h.closed_of_idle still
    split
    · exact h
    split
    · obtain ⟨none_, idle⟩ := h.idle_of_unserved (State.working_closed closed)
      obtain ⟨_, _, waiting, _⟩ := h
      have free := waiting.free_of_closed closed
      exact State.started_coherent none_ idle free (waiting.stop_of_free free) enable rfl rfl rfl le_rfl (by decide)
    · exact h.congr (.of_records rfl) rfl (.inr ⟨closed, Activity.noConfusion⟩) rfl rfl rfl rfl

/-! ### Links -/

/-- The end of an activation in which nothing is deferred and no service is in flight, after triggers or a notice. -/
theorem State.EngineCoherent.ends (h : s.EngineCoherent) (unserved : s.working = none)
    (deferred : ∀ a ∈ s.activation, a.deferred = none) (records : s.RecordsLatched t) (bus : t.bus = s.bus)
    (port : t.port = s.port) : t.endActivation.EngineCoherent ∧ t.endActivation.PortFree := by
  obtain ⟨none_, idle⟩ := h.idle_of_unserved unserved
  refine State.endActivation_coherent (none_.latched records) (bus ▸ idle) fun stop => ?_
  rw [port] at stop
  unfold State.PortFree
  rw [port]
  exact h.2.2.1.free stop deferred

theorem State.enableOffCourse_coherent {u : State} (h : s.EngineCoherent) (unserved : s.working = none)
    (deferred : ∀ a ∈ s.activation, a.deferred = none) (records : u.records = s.records) (bus : u.bus = s.bus)
    (port : u.port = s.port) (l : Link) : (u.enableOffCourse l).EngineCoherent ∧ (u.enableOffCourse l).PortFree := by
  unfold State.enableOffCourse
  split
  · exact h.ends unserved deferred ((State.RecordsLatched.of_records records).trans (u.deliverTrigger_latched _)) bus port
  · exact h.ends unserved deferred (.of_records records) bus port

theorem State.resolve_coherent {l : Link} (h : s.EngineCoherent) (opened : s.activation = some a)
    (link : a.link = some l) (due : l.stage = .due) : (s.resolve a l).EngineCoherent := by
  obtain ⟨low, high, work, none_⟩ := h.2.1.linked opened link
  have unserved : s.working = none := (State.working_open opened).trans work
  have deferred : ∀ b ∈ s.activation, b.deferred = none := fun b mem => by
    obtain rfl : a = b := Option.some.inj (opened.symm.trans mem)
    exact none_
  unfold State.resolve
  split
  · exact (h.ends (t := s.post l.limit) unserved deferred (.of_records rfl) rfl rfl).1
  next below =>
  split
  · exact (State.enableOffCourse_coherent h unserved deferred rfl rfl rfl l).1
  next on_ =>
  have enable : s.enable = true := by simpa using on_
  obtain ⟨inactive, idle⟩ := h.idle_of_unserved unserved
  split
  · obtain ⟨_, _, waiting, _⟩ := h
    have unserved' : State.working { s with
        activity := .stalled, activation := some { a with link := some { l with stage := .waiting } } } = none := work
    refine ⟨State.NoneActive.activeExact inactive unserved', .of_open (a := { a with
      link := some { l with stage := .waiting } }) rfl ?_ (fun _ => ⟨rfl, enable⟩) (fun wait => Bool.noConfusion wait),
      waiting.goesOn opened rfl rfl (fun v mem => ⟨v, mem, rfl⟩) rfl rfl,
      Bus.Idle.coherent idle (State.outstandingRequest_none unserved')⟩
    simp [Activation.shape, low, high, work, none_]
  split
  · obtain ⟨_, activity, waiting, _⟩ := h
    have runs : s.activity = .running := (activity.2 a opened).2.2 (by simp [Activation.inLinkWait, link, due])
    have stop : s.port.stopHandle = none := by
      by_contra waits
      exact absurd (enable.symm.trans (waiting.2.1 waits).2) (by decide)
    have started := State.started_coherent (r := { s.records[l.succ.num] with state := .active }) (p := s.pointers)
      (w := .load l.succ.num s.records[l.succ.num]) (depth := a.depth + 1) inactive idle (waiting.free stop deferred)
      stop enable rfl rfl rfl (by omega) (by have : a.depth ≠ 12 := below; omega)
    obtain ⟨depth, _, _, _⟩ := a
    subst none_
    rw [← runs] at started
    exact started
  · exact (h.ends (t := s.post l.broken) unserved deferred (.of_records rfl) rfl rfl).1

theorem State.resolutionStep_coherent (h : s.EngineCoherent) : s.resolutionStep.EngineCoherent := by
  unfold State.resolutionStep
  split
  · exact h
  · next found =>
    obtain ⟨opened, link, due⟩ := State.linkAt_eq_some found
    exact State.resolve_coherent h opened link due

/-! ### The write-back and the deferred command -/

/-- A write-back leaves no record ACTIVE (R114, R149). -/
theorem State.writeBackClaim_noneActive (h : s.ActiveExact) (serving : s.working = some w) (c : EndCause) :
    (s.writeBackClaim a w c).NoneActive := by
  intro n
  by_cases own : n = w.handle.num
  · subst own
    exact State.writeBackClaim_not_active s a w c
  · rw [State.writeBackClaim_other s a own]
    intro active
    have served := (h.1 n).mp active
    rw [serving] at served
    exact own (beq_iff_eq.mp served).symm

theorem State.writeBackClaim_coherent {c : EndCause} (h : s.EngineCoherent) (opened : s.activation = some a)
    (work : a.work = some w) (ended : w.endCause = some c) : (s.writeBackClaim a w c).EngineCoherent := by
  have serving : s.working = some w := (State.working_open opened).trans work
  have inactive := State.writeBackClaim_noneActive (a := a) h.1 serving c
  obtain ⟨low, high, link, runs⟩ := h.2.1.serving opened work
  obtain ⟨_, _, waiting, bus⟩ := h
  have idle := bus.idle (State.outstandingRequest_ended serving (by rw [ended]; exact Option.some_ne_none c))
  have changes := (s.postOutcome_changes w c).andThen ((s.postOutcome w c).storeProgress_changes w c)
  generalize stored : (s.postOutcome w c).storeProgress w c = u at changes
  have claim : s.writeBackClaim a w c = u.afterWriteBack a w c := congrArg (State.afterWriteBack · a w c) stored
  have records : (u.afterWriteBack a w c).records = u.records := u.afterWriteBack_changes a w c .records (by simp)
  rw [claim] at inactive ⊢
  have inactive' : u.NoneActive := fun n => by have := inactive n; rwa [records] at this
  have sameBus : u.bus = s.bus := changes .bus (by simp)
  have samePort : u.port = s.port := changes .port (by simp)
  have sameEnable : u.enable = s.enable := changes .enable (by simp)
  have sameActivity : u.activity = s.activity := changes .activity (by simp)
  unfold State.afterWriteBack
  split
  · next _ _ _ deferred =>
    refine ⟨State.NoneActive.activeExact inactive' rfl, .of_open (a := { a with work := none }) rfl ?_
      (fun wait => absurd (wait.symm.trans (Activation.not_inLinkWait link)) (by decide)) fun _ => sameActivity.trans runs,
      waiting.goesOn opened rfl rfl (fun v mem => by contradiction) sameEnable samePort,
      Bus.Idle.coherent (sameBus ▸ idle) rfl⟩
    simp [Activation.shape, low, high, link, deferred]
  · next h deferred _ =>
    refine ⟨State.NoneActive.activeExact inactive' rfl, .of_open (a := { a with
      work := none, link := some ⟨w.handle, w.edit.urgency, h, .due⟩ }) rfl ?_
      (fun wait => Bool.noConfusion wait) fun _ => sameActivity.trans runs,
      waiting.goesOn opened rfl rfl (fun v mem => by contradiction) sameEnable samePort,
      Bus.Idle.coherent (sameBus ▸ idle) rfl⟩
    simp [Activation.shape, low, high, deferred]
  · next deferred _ =>
    refine (State.endActivation_coherent inactive' (sameBus ▸ idle) fun stop => ?_).1
    rw [samePort] at stop
    unfold State.PortFree
    rw [samePort]
    refine waiting.free stop fun b mem => ?_
    obtain rfl : a = b := Option.some.inj (opened.symm.trans mem)
    exact deferred

/-- A deferred command applied leaves no record ACTIVE. -/
theorem State.applyDeferred_noneActive (h : s.NoneActive) (d : Deferred) : (s.applyDeferred d).1.NoneActive := by
  have replaced : ∀ {n : RecNo} {r : Record}, r.state ≠ .active → (s.setRecord n r).NoneActive := fun idle m => by
    rw [State.setRecord_records, vector_set_get]
    split
    · exact idle
    · exact h m
  unfold State.applyDeferred
  split
  · unfold State.applyHold
    split
    · exact h
    dsimp only
    split
    case h_1 => exact replaced RecState.noConfusion
    case h_3 => exact (replaced RecState.noConfusion).latched (State.standingTrigger_latched _ _)
    case h_4 => exact (replaced RecState.noConfusion).latched (State.standingTrigger_latched _ _)
    all_goals exact h
  · unfold State.applyRetire
    split
    · exact h
    · exact replaced (r := Record.freed _) RecState.noConfusion

theorem State.awaitingAfresh_eq_some {d : Deferred} (h : s.awaitingAfresh = some d) :
    ∃ a, s.activation = some a ∧ a.work = none ∧ a.deferred = some d := by
  unfold State.awaitingAfresh at h
  split at h
  · contradiction
  split at h
  · exact ⟨_, by assumption, by assumption, h⟩
  · contradiction

theorem State.afreshStep_coherent (h : s.EngineCoherent) : s.afreshStep.EngineCoherent := by
  unfold State.afreshStep
  split
  · exact h
  · next d awaits =>
    obtain ⟨a, opened, work, _⟩ := State.awaitingAfresh_eq_some awaits
    obtain ⟨inactive, idle⟩ := h.idle_of_unserved ((State.working_open opened).trans work)
    have bus : (s.applyDeferred d).1.bus = s.bus := s.applyDeferred_changes d .bus (by simp)
    exact (State.endActivation_coherent (s := (s.applyDeferred d).1.complete _ _)
      (State.applyDeferred_noneActive inactive d) (bus ▸ idle) fun _ code => PortState.noConfusion).1

/-! ### Engine control -/

theorem State.engineGoClaim_coherent (h : s.Serving) : s.engineGoClaim.EngineCoherent := by
  obtain ⟨⟨active, activity, waiting, bus⟩, free⟩ := h
  have on_ : ({ s with enable := true } : State).Serving :=
    ⟨⟨active, activity.congr rfl (fun _ => rfl) (.inl rfl), .of_free free (waiting.stop_of_free free) (fun _ => rfl)
      fun _ opened => waiting.deferred_of_free free opened, bus⟩, free⟩
  exact on_.settle.complete.coherent

/-- Enable OFF with no activation open. -/
theorem State.Serving.enableOff (h : s.Serving) (closed : s.activation = none) :
    ({ s with enable := false } : State).Serving := by
  obtain ⟨⟨active, activity, waiting, bus⟩, free⟩ := h
  exact ⟨⟨active, .of_closed closed (activity.1 closed), .of_free free (waiting.stop_of_free free)
    (fun opened => absurd closed opened) fun _ opened => waiting.deferred_of_free free opened, bus⟩, free⟩

/-- With the activity RUNNING an activation is open, with no link wait (R87). -/
theorem State.ActivityCoherent.open_of_running (h : s.ActivityCoherent) (runs : s.activity = .running) :
    ∃ a, s.activation = some a ∧ a.shape = true ∧ a.inLinkWait = false := by
  cases opened : s.activation with
  | none => exact absurd runs (h.1 opened)
  | some a =>
    obtain ⟨shape, waits, _⟩ := h.2 a opened
    refine ⟨a, rfl, shape, ?_⟩
    cases wait : a.inLinkWait with
    | false => rfl
    | true => exact absurd (runs.symm.trans (waits wait).1) Activity.noConfusion

/-- STALLED without a link wait no activation is open (R92). -/
theorem State.ActivityCoherent.closed_of_headWait (h : s.ActivityCoherent) (stalled : s.activity = .stalled)
    (noLink : s.linkAt .waiting = none) : s.activation = none := by
  cases opened : s.activation with
  | none => rfl
  | some a =>
    obtain ⟨_, _, runs⟩ := h.2 a opened
    cases wait : a.inLinkWait with
    | false => exact absurd (stalled.symm.trans (runs wait)) Activity.noConfusion
    | true =>
      cases link : a.link with
      | none => rw [Activation.not_inLinkWait link] at wait; contradiction
      | some l =>
        have stage : l.stage = .waiting := by simpa [Activation.inLinkWait, link] using wait
        simp [State.linkAt, opened, link, stage] at noLink

theorem State.stopWaits_coherent (h : s.Serving) (runs : s.activity = .running) :
    ({ s with enable := false } : State).stopWaits.EngineCoherent := by
  obtain ⟨⟨active, activity, waiting, bus⟩, free⟩ := h
  obtain ⟨a, opened, shape, noWait⟩ := activity.open_of_running runs
  refine ⟨active, .of_open opened shape (fun wait => absurd (wait.symm.trans noWait) (by decide)) fun _ => runs, ?_, bus⟩
  refine ⟨⟨fun _ => rfl, fun _ => Option.some_ne_none _⟩, fun _ => ⟨fun closed => ?_, rfl⟩,
    fun _ => .inr (Option.some_ne_none _), fun b mem d held => ?_, fun kind waits => .inl ?_⟩
  · exact absurd (opened.symm.trans closed) (Option.some_ne_none a)
  · rw [waiting.deferred_of_free free mem] at held
    contradiction
  · exact (PortState.waiting.inj waits).symm

theorem State.engineStopClaim_coherent (h : s.Serving) : s.engineStopClaim.EngineCoherent := by
  unfold State.engineStopClaim
  dsimp only
  split
  · next runs => exact State.stopWaits_coherent h runs
  · next idle => exact (h.enableOff (h.coherent.closed_of_idle idle)).complete.coherent
  · next stalled =>
    split
    · next a l found =>
      obtain ⟨opened, link, _⟩ := State.linkAt_eq_some found
      obtain ⟨_, _, work, none_⟩ := h.coherent.2.1.linked opened link
      obtain ⟨after, free⟩ := State.enableOffCourse_coherent (u := { s with enable := false }) h.coherent
        ((State.working_open opened).trans work)
        (fun b mem => by obtain rfl : a = b := Option.some.inj (opened.symm.trans mem); exact none_) rfl rfl rfl l
      exact State.Serving.coherent (.complete ⟨after, free⟩)
    · next noLink =>
      exact (h.enableOff (h.coherent.2.1.closed_of_headWait stalled noLink)).settle.complete.coherent

/-! ### Takes -/

theorem State.endStall_coherent (h : s.EngineCoherent) : s.endStall.EngineCoherent := by
  unfold State.endStall
  split
  · next a l found =>
    obtain ⟨opened, link, _⟩ := State.linkAt_eq_some found
    split
    · obtain ⟨low, high, work, none_⟩ := h.2.1.linked opened link
      obtain ⟨inactive, idle⟩ := h.idle_of_unserved ((State.working_open opened).trans work)
      refine ⟨State.NoneActive.activeExact inactive work, .of_open (a := { a with
        link := some { l with stage := .due } }) rfl ?_ (fun wait => Bool.noConfusion wait) (fun _ => rfl),
        h.2.2.1.goesOn opened rfl rfl (fun v mem => ⟨v, mem, rfl⟩) rfl rfl,
        Bus.Idle.coherent idle (State.outstandingRequest_none work)⟩
      simp [Activation.shape, low, high, work, none_]
    · exact h
  · exact h.triggered s.settleActivity_triggered

theorem State.EngineCoherent.notices (h : s.EngineCoherent) (u : NoticeUnit) :
    ({ s with notices := u } : State).EngineCoherent :=
  h.congr (.of_records rfl) rfl (.inl rfl) rfl rfl rfl rfl

theorem State.takeClaim_coherent (h : s.EngineCoherent) : s.takeClaim.EngineCoherent := by
  unfold State.takeClaim
  dsimp only
  split
  · exact h.notices _
  · exact State.endStall_coherent (h.notices _)

/-! ### The bus -/

theorem State.raiseRequest_coherent (h : s.EngineCoherent) :
    ({ s with bus := s.bus.raiseRequest } : State).EngineCoherent := by
  by_cases due : s.bus.ownership = .released ∧ s.bus.request ≠ none ∧ s.bus.spacing = 0
  · obtain ⟨released, held, spaced⟩ := due
    obtain ⟨active, activity, waiting, request, owner, _, spacing, timer, timed, _, deferred⟩ := h
    have access : s.bus.access = none := by
      by_contra under
      exact absurd (released.symm.trans (owner.mpr under)) (by decide)
    rw [Bus.raiseRequest_due released held spaced]
    refine ⟨active, activity, waiting, request, ?_, fun _ => ⟨held, spaced⟩, spacing, timer, timed,
      fun owned => Ownership.noConfusion owned, fun outstanding defers => ?_⟩
    · simp [access]
    · exact absurd (released.symm.trans (deferred outstanding defers)) (by decide)
  · have same : s.bus.raiseRequest = s.bus := if_neg due
    rw [same]
    exact h

theorem State.takeGrant_coherent (h : s.EngineCoherent) :
    ({ s with bus := s.bus.takeGrant } : State).EngineCoherent := by
  by_cases taken : s.bus.ownership = .requesting ∧ s.bus.slave = none
  · obtain ⟨requesting, quiet⟩ := taken
    obtain ⟨active, activity, waiting, request, _, raised, spacing, _⟩ := h
    have held := raised (by rw [requesting]; exact Ownership.noConfusion)
    rw [show s.bus.takeGrant = { s.bus with ownership := .owner, access := some .read, timer := 0 } from
      if_pos ⟨requesting, quiet⟩]
    exact ⟨active, activity, waiting, request, by simp, fun _ => held, spacing, (by decide : 0 < 256), fun _ => rfl, fun _ => quiet,
      fun _ _ => rfl⟩
  · have same : s.bus.takeGrant = s.bus := if_neg taken
    rw [same]
    exact h

theorem State.completeRead_coherent (h : s.EngineCoherent) (data : Word) :
    ({ s with bus := s.bus.completeRead data } : State).EngineCoherent := by
  unfold Bus.completeRead
  split
  · next owned _ _ =>
    obtain ⟨active, activity, waiting, request, _, raised, spacing, _, _, slave, deferred⟩ := h
    exact ⟨active, activity, waiting, request, by simp [owned], raised, spacing, (by decide : 0 < 256),
      fun _ => rfl, slave, deferred⟩
  · exact h

/-- The working copy of the service in flight replaced, the bus interface left idle. -/
theorem State.EngineCoherent.reworked {v : Working} {c : Bus} (h : s.EngineCoherent) (opened : s.activation = some a)
    (work : a.work = some w) (names : v.handle = w.handle) (idle : c.Idle) (ended : v.endCause ≠ none) :
    ({ s.setWorking a v with bus := c } : State).EngineCoherent := by
  obtain ⟨active, activity, waiting, _⟩ := h
  refine ⟨active.congr (fun _ => Iff.rfl) (fun _ _ => rfl) ?_, activity.rework opened work rfl rfl,
    waiting.goesOn opened rfl rfl (fun u mem => ⟨w, work, ?_⟩) rfl rfl,
    Bus.Idle.coherent idle (State.outstandingRequest_ended rfl ended)⟩
  · rw [State.working_open opened, work]
    exact congrArg some names
  · obtain rfl : v = u := Option.some.inj mem
    exact names.symm

/-- The next unit of the service in flight requested (R107, R112). -/
theorem State.EngineCoherent.requested {v : Working} {c : Bus} (h : s.EngineCoherent) (opened : s.activation = some a)
    (work : a.work = some w) (names : v.handle = w.handle) (idle : c.Idle) (going : v.endCause = none)
    (deferred : a.deferred = none) :
    ({ s.setWorking a v with bus := c.handRequest v.request } : State).EngineCoherent := by
  obtain ⟨active, activity, waiting, _⟩ := h
  refine ⟨active.congr (fun _ => Iff.rfl) (fun _ _ => rfl) ?_, activity.rework opened work rfl rfl,
    waiting.goesOn opened rfl rfl (fun u mem => ⟨w, work, ?_⟩) rfl rfl,
    Bus.Idle.handed idle rfl (State.outstandingRequest_going rfl going) ?_⟩
  · rw [State.working_open opened, work]
    exact congrArg some names
  · obtain rfl : v = u := Option.some.inj mem
    exact names.symm
  · simp [State.setWorking, deferred]

/-- While an access is under way a service goes on (R197, R198). -/
theorem State.BusCoherent.serving (h : s.BusCoherent) (owned : s.bus.ownership = .owner) :
    ∃ a w, s.activation = some a ∧ a.work = some w ∧ w.endCause = none := by
  obtain ⟨request, _, raised, _⟩ := h
  have held := (raised (by rw [owned]; exact Ownership.noConfusion)).1
  rw [request] at held
  exact State.outstandingRequest_some held

theorem State.writeCompleted_coherent (h : s.EngineCoherent) : s.writeCompleted.EngineCoherent := by
  unfold State.writeCompleted
  split
  · next owned _ =>
    obtain ⟨a, w, opened, work, _⟩ := h.2.2.2.serving owned
    simp only [State.pairCompleted, opened, work]
    cases ended : w.countUnit.endCause with
    | some c =>
      exact h.reworked opened work (v := w.countUnit) rfl s.bus.release_idle (by rw [ended]; exact Option.some_ne_none c)
    | none =>
      cases deferred : a.deferred with
      | some d =>
        rw [State.unitBoundary_cut _ _ deferred]
        exact h.reworked opened work (v := { w.countUnit with endCause := some .cut }) rfl s.bus.release_idle
          (Option.some_ne_none _)
      | none =>
        rw [State.unitBoundary_going _ _ deferred]
        exact h.requested opened work (v := w.countUnit) rfl s.bus.release_idle ended deferred
  · exact h

theorem State.pairError_coherent (h : s.EngineCoherent) : s.pairError.EngineCoherent := by
  unfold State.pairError
  split
  · next half owned _ =>
    obtain ⟨a, w, opened, work, _⟩ := h.2.2.2.serving owned
    simp only [State.pairFailed, opened, work]
    exact h.reworked opened work rfl s.bus.release_idle (Option.some_ne_none _)
  · exact h

theorem State.clockBus_coherent (h : s.EngineCoherent) : s.clockBus.EngineCoherent := by
  unfold State.clockBus
  split
  · next owned =>
    split
    · next below =>
      obtain ⟨active, activity, waiting, request, owner, raised, spacing, _, _, slave, deferred⟩ := h
      exact ⟨active, activity, waiting, request, owner, raised, spacing, below,
        fun none_ => absurd none_ (owner.mp owned), slave, deferred⟩
    · exact State.pairError_coherent h
  · exact h
  · next released =>
    split
    · exact State.raiseRequest_coherent h
    · obtain ⟨active, activity, waiting, request, owner, _, spacing, timer, timed, slave, deferred⟩ := h
      exact ⟨active, activity, waiting, request, owner, fun other => absurd released other,
        (Nat.sub_le _ _).trans spacing, timer, timed, slave, deferred⟩

theorem State.clockEdge_coherent (h : s.EngineCoherent) : s.clockEdge.EngineCoherent :=
  State.clockEdge_rule (P := State.EngineCoherent) h fun _ =>
    State.clockBus_coherent (h.triggered s.clockSources_triggered)

/-! ### Accesses of the window -/

theorem State.cmdWrite_coherent (h : s.EngineCoherent) (code : Byte) : (s.cmdWrite code).EngineCoherent := by
  unfold State.cmdWrite
  split
  · next ready =>
    have free : s.PortFree := fun c => by rw [ready]; exact PortState.noConfusion
    exact (State.Serving.ported (p := (s.accept code).port) ⟨h, free⟩ (fun _ => PortState.noConfusion)
      (h.2.2.1.stop_of_free free)).coherent
  · exact h.refuseWrite
  · exact h.refuseWrite

theorem State.editWrite_coherent (h : s.EngineCoherent) (reg : EditReg) (lanes : Lanes) (v : Word) :
    (s.editWrite reg lanes v).EngineCoherent := by
  unfold State.editWrite
  split
  · exact h.of_changes (s.image_changes _) (by simp [engineFields])
  · exact h.refuseWrite
  · exact h.refuseWrite

theorem State.windowWrite_coherent (h : s.EngineCoherent) (offset : BitVec 7) (lanes : Lanes) (v : Word) :
    (s.windowWrite offset lanes v).EngineCoherent := by
  have args : ∀ x : Args, ({ s with port.args := x } : State).EngineCoherent := fun x =>
    h.congr (.of_records rfl) rfl (.inl rfl) rfl rfl rfl rfl
  unfold State.windowWrite
  split
  · split
    · exact State.cmdWrite_coherent h _
    · exact h
  · exact args _
  · exact args _
  · exact args _
  · exact State.editWrite_coherent h _ _ _
  · exact h

theorem State.writeClaim_coherent (h : s.EngineCoherent) (offset : BitVec 7) (strobes : WriteStrobes) (v : Word) :
    (writeClaim offset strobes v s).EngineCoherent := by
  unfold writeClaim
  split
  · exact h
  · exact State.windowWrite_coherent h _ _ _

theorem State.readAccess_coherent (h : s.EngineCoherent) (access : ReadAccess) :
    (s.readAccess access).EngineCoherent :=
  State.readAccess_rule (P := State.EngineCoherent) h (fun listens => h.answerAccess listens _)
    (fun listens => State.takeClaim_coherent (h.answerAccess listens _))
    fun listens => (h.answerAccess listens _).notices _

/-! ### Reset -/

theorem State.pinReset_coherent (s : State) : s.pinReset.EngineCoherent := by
  have inactive : s.pinReset.NoneActive := fun n => by
    rw [s.pinReset_record n]
    exact RecState.noConfusion
  exact ⟨inactive.activeExact rfl, .of_closed rfl Activity.noConfusion,
    .of_free (fun _ => PortState.noConfusion) rfl (fun opened => absurd rfl opened) (fun a mem => by contradiction),
    Bus.Idle.coherent ⟨rfl, rfl, rfl, rfl, Nat.zero_le 2⟩ rfl⟩

end

/-! ### Every row -/

theorem effect_coherent (i : Instr) (s : State) (h : s.EngineCoherent) : (effect i s).EngineCoherent := by
  by_cases quiet : ∀ f ∈ engineFields, f ∉ touched i
  case pos => exact h.of_changes (effect_changes i s) quiet
  have event := fun {claim} => State.unlessReset_rule (P := State.EngineCoherent) (claim := claim) h
  have command := fun {code owner} (claim : (s.served code).Serving → (owner (s.served code)).Serving) =>
    State.command_coherent (owner := owner) h fun serving => (claim serving).coherent
  have access := fun {claim : State → State} (kept : ∀ u : State, u.EngineCoherent → (claim u).EngineCoherent) =>
    State.slaveAccess_rule (P := State.EngineCoherent) (claim := claim) h
      fun listens => kept _ (h.answerAccess listens none)
  cases i with
  | allocate => exact command State.allocateClaim_serving
  | fetch => exact command fun u => u.answered (State.fetchClaim_changes _) (by simp [engineFields]) (State.fetchClaim_ready _)
  | store => exact command State.storeClaim_serving
  | arm => exact command State.armClaim_serving
  | hold => exact State.command_coherent h State.holdClaim_coherent
  | retire => exact State.command_coherent h State.retireClaim_coherent
  | wipe => exact command State.wipeClaim_serving
  | trigger => exact command State.triggerClaim_serving
  | bind => exact command State.bindClaim_serving
  | unbind => exact command fun u => u.answered (State.unbindClaim_changes _) (by simp [engineFields]) (State.unbindClaim_ready _)
  | bindRead =>
    exact command fun u => u.answered (State.bindReadClaim_changes _) (by simp [engineFields]) (State.bindReadClaim_ready _)
  | genSet => exact command fun u => u.answered (State.genSetClaim_changes _) (by simp [engineFields]) (State.genSetClaim_ready _)
  | genStart =>
    exact command fun u => u.answered (State.genStartClaim_changes _) (by simp [engineFields]) (State.genStartClaim_ready _)
  | genStop =>
    exact command fun u => u.answered (State.genStopClaim_changes _) (by simp [engineFields]) (State.genStopClaim_ready _)
  | genRead =>
    exact command fun u => u.answered (State.genReadClaim_changes _) (by simp [engineFields]) (State.genReadClaim_ready _)
  | close => exact command fun u => u.answered (State.closeClaim_changes _) (by simp [engineFields]) (State.closeClaim_ready _)
  | setFloor =>
    exact command fun u => u.answered (State.setFloorClaim_changes _) (by simp [engineFields]) (State.setFloorClaim_ready _)
  | unknown code => exact command fun u => State.unknownClaim_serving u code
  | engineGo => exact State.command_coherent h State.engineGoClaim_coherent
  | engineStop => exact State.command_coherent h State.engineStopClaim_coherent
  | commandRefused code => exact access fun u agree => State.cmdWrite_coherent agree code
  | editRegisterWrite reg lanes value => exact access fun u agree => State.editWrite_coherent agree reg lanes value
  | registerWrite offset strobes value => exact access fun u agree => State.writeClaim_coherent agree offset strobes value
  | take read => exact State.readAccess_coherent h read
  | npeekRead => exact State.readAccess_coherent h _
  | pinReset => exact s.pinReset_coherent
  | reqEdge line level => exact event fun _ => h.triggered (s.lineHeld_triggered line level)
  | internalTick => exact event fun _ => h.triggered s.internalTickClaim_triggered
  | externalTick level => exact event fun _ => h.triggered (s.tickHeld_triggered level)
  | generatorExpiry g => exact event fun _ => h.triggered (s.expiryClaim_triggered g)
  | headStart => exact event fun _ => State.headChoice_coherent h
  | busRequest => exact event fun _ => State.raiseRequest_coherent h
  | grantTaken => exact event fun _ => State.takeGrant_coherent h
  | readComplete data => exact event fun _ => State.completeRead_coherent h data
  | writeComplete => exact event fun _ => State.writeCompleted_coherent h
  | busError => exact event fun _ => State.pairError_coherent h
  | waitLimitExpiry => exact event fun _ => State.pairError_coherent h
  | writeBack =>
    exact event fun _ => (State.writeBack_rule (P := State.EngineCoherent) h
      fun a w c opened work ended => State.writeBackClaim_coherent h opened work ended).1
  | faultWriteBack =>
    exact event fun _ => (State.writeBack_rule (P := State.EngineCoherent) h
      fun a w c opened work ended => State.writeBackClaim_coherent h opened work ended).2
  | linkResolution => exact event fun _ => State.resolutionStep_coherent h
  | appliedAfresh => exact event fun _ => State.afreshStep_coherent h
  | slaveStrobeNegated => exact event fun _ => h.slave (.inr rfl)
  | _ => simp [touched, engineFields] at quiet

/-- Settles O59: each claim that begins an activation finds none, each that ends one leaves no record ACTIVE and no
request, and a command that must wait is held by the one place that completes it. -/
theorem engineCoherentInEveryStep : Obligations.EngineCoherentInEveryStep := by
  unfold Obligations.EngineCoherentInEveryStep
  exact fun s t h steps => step_keeps (P := State.EngineCoherent) (fun _ _ kept => kept)
    (fun _ kept => State.clockEdge_coherent kept) effect_coherent h steps

end Sys2Proof.Machine
end

