-- ==== Sys2Proof/Proofs/RecordSoundness.lean ====
section
/-! What ties the fields of a record together, and the working copy to its record, through each operation of the record
store and of one service (R5, R7, R11, R13, R21, R102, R108, R111). -/

namespace Sys2Proof.Machine

/-! ### One record -/

section
variable {r r' : Record}

theorem Record.Sound.latched (h : r.Sound) (triggers : r.LatchedTo r') : r'.Sound := by
  cases latches : r.state.latches with
  | false => exact triggers.idle latches ▸ h
  | true =>
    obtain ⟨latch, _, fault, counted, spent, _, edit, addresses⟩ := h
    rw [Record.Sound, triggers.state, triggers.fault, triggers.count, triggers.edit, triggers.srcCur, triggers.dstCur]
    refine ⟨triggers.limit latch, ?_, fault, counted, spent, ?_, edit, addresses⟩
    · rintro (state | state | state | state) <;> rw [state] at latches <;> contradiction
    · rintro (state | state | state) <;> rw [state] at latches <;> contradiction

theorem Record.allocated_sound (gen : Byte) : (Record.allocated gen).Sound := by
  refine ⟨Nat.zero_le 4, fun _ => rfl, ?_, ?_, ?_, fun _ => rfl, fun _ => ?_, ?_⟩ <;>
    simp [Record.allocated, EditFields.default, EditFields.Sound, Quantum.word]

/-- A record as pin reset and WIPE leave it (R22, R51). -/
theorem Record.empty_sound (gen : Byte) : (Record.empty gen).Sound := by
  refine ⟨Nat.zero_le 4, fun _ => rfl, ?_, ?_, ?_, fun _ => rfl, ?_, ?_⟩ <;> simp [Record.empty]

theorem Record.freed_sound (r : Record) : r.freed.Sound := by
  refine ⟨Nat.zero_le 4, fun _ => rfl, ?_, ?_, ?_, fun _ => rfl, ?_, ?_⟩ <;> simp [Record.freed]

/-- A record that is not FAULTED has no fault part (R13). -/
theorem Record.Sound.fault_none (h : r.Sound) (state : r.state ≠ .faulted) : r.fault = none := by
  by_contra fault
  exact state (h.2.2.1.mp fault)

/-- A record in use has sound edit fields (R21). -/
theorem Record.Sound.editSound (h : r.Sound) (used : r.state ≠ .free) : r.edit.Sound := by
  obtain ⟨_, _, _, _, _, _, sound, _⟩ := h
  exact sound used

/-- An image that passes the checks holds sound edit fields (R20, R21). -/
theorem EditImage.fields_sound {m : EditImage} (passes : m.failingCheck = none) : m.fields.Sound := by
  unfold EditImage.failingCheck at passes
  split at passes
  · contradiction
  split at passes
  · contradiction
  next quant =>
  split at passes
  · contradiction
  next align =>
  split at passes
  · contradiction
  next policy =>
  split at passes
  · contradiction
  next reload =>
  refine ⟨?_, ?_, fun word => ?_, fun reloads => ?_, fun zero => ?_⟩
  · simp only [EditImage.fields, Quantum.ofWord]
    split
    · exact Quantum.noConfusion
    · next other => exact fun same => other (Quantum.units.inj same)
  · simp only [EditImage.fields, Quantum.ofWord]
    split
    · decide
    · exact not_lt.mp quant
  · have unit : bitField m.mode 4 1 = 1 := by
      have code := congrArg UnitSize.code word
      rwa [EditImage.fields, UnitSize.code_ofCode (bitField_lt ..)] at code
    simp only [unit, true_and, not_or, addrOdd, beq_iff_eq] at align
    exact ⟨Nat.mod_two_ne_one.mp align.1, Nat.mod_two_ne_one.mp align.2⟩
  · have bits := bitField_lt m.mode 5 2
    have code : bitField m.mode 5 2 = 2 := by
      have code := congrArg Policy.code reloads
      rwa [EditImage.fields, Policy.code_ofCode (by omega)] at code
    simp only [code, true_and, not_or, Bool.not_eq_false] at policy
    simp [EditImage.fields, EditImage.reloadField, policy.2]
  · simp only [EditImage.fields, EditImage.reloadField] at zero
    split at zero
    · next present => exact reload ⟨present, Option.some.inj zero⟩
    · contradiction

/-- STORE copies fields that have passed the checks into a record that is DRAFT or HELD (R33). -/
theorem Record.Sound.stored (h : r.Sound) (editable : r.state.editable = true) {m : EditImage}
    (passes : m.failingCheck = none) : (r.stored m).Sound := by
  have fields := EditImage.fields_sound passes
  obtain ⟨latch, zero, fault, _, _, overrun, _, _⟩ := h
  refine ⟨latch, zero, fault, ?_, ?_, overrun, fun _ => fields, fun _ => fields.2.2.1⟩ <;>
    rcases (RecState.editable_iff _).mp editable with state | state <;> simp [Record.stored, state]

/-- ARM and the write-back leave a record ARMED with a count that is not 0 (R21, R36). -/
theorem Record.Sound.armed (h : r.Sound) (editable : r.state.editable = true) (passes : r.failingCheck = none) :
    ({ r with state := .armed } : Record).Sound := by
  have state := (RecState.editable_iff _).mp editable
  have sound : r.edit.Sound := h.editSound (by rcases state with h | h <;> rw [h] <;> exact RecState.noConfusion)
  have fault := h.fault_none (by rcases state with h | h <;> rw [h] <;> exact RecState.noConfusion)
  have count : r.count ≠ 0 := fun zero => by
    rw [Record.failingCheck_of_sound sound, if_pos zero] at passes
    contradiction
  obtain ⟨latch, _, _, _, _, _, _, addresses⟩ := h
  refine ⟨latch, ?_, ?_, fun _ => count, ?_, ?_, fun _ => sound, fun _ => addresses ?_⟩
  · rintro (h | h | h | h) <;> contradiction
  · simp [fault]
  · exact fun h => RecState.noConfusion h
  · rintro (h | h | h) <;> contradiction
  · rcases state with h | h <;> rw [h] <;> exact RecState.noConfusion

/-- HOLD leaves a record HELD, without a fault part (R39, R41). -/
theorem Record.Sound.held (h : r.Sound) (used : r.state ≠ .free) :
    ({ r with state := .held, fault := none } : Record).Sound := by
  obtain ⟨latch, _, _, _, _, _, edit, addresses⟩ := h
  refine ⟨latch, ?_, ?_, ?_, ?_, ?_, fun _ => edit used, fun _ => addresses used⟩
  · rintro (h | h | h | h) <;> contradiction
  · simp
  · rintro (h | h | h) <;> contradiction
  · exact fun h => RecState.noConfusion h
  · rintro (h | h | h) <;> contradiction

/-- A service start makes an ARMED record ACTIVE; a head's latch falls by 1 (R104, R105). -/
theorem Record.Sound.started (h : r.Sound) (armed : r.state = .armed) {latch : Nat} (fewer : latch ≤ r.latch) :
    ({ r with state := .active, latch := latch } : Record).Sound := by
  have used : r.state ≠ .free := by rw [armed]; exact RecState.noConfusion
  have fault := h.fault_none (by rw [armed]; exact RecState.noConfusion)
  obtain ⟨limit, _, _, counted, _, _, edit, addresses⟩ := h
  refine ⟨fewer.trans limit, ?_, ?_, fun _ => counted (.inl armed), ?_, ?_, fun _ => edit used, fun _ => addresses used⟩
  · rintro (h | h | h | h) <;> contradiction
  · simp [fault]
  · exact fun h => RecState.noConfusion h
  · rintro (h | h | h) <;> contradiction

end

/-! ### The working copy -/

/-- The working copy against the record it was loaded from (R102, R108, R111). -/
abbrev Working.SoundFor (w : Working) (r : Record) : Prop :=
  r.edit = w.edit ∧ w.count.toNat + w.moved.toNat = r.count.toNat ∧ w.endCauseTrue = true ∧
  (w.edit.quantum ≠ .drain → w.moved.toNat ≤ w.edit.quantum.word.toNat) ∧
  (w.edit.unit = .word → w.srcCur.toNat % 2 = 0 ∧ w.dstCur.toNat % 2 = 0)

section
variable {r r' : Record} {w : Working}

/-- While a service goes on its count is not 0, and its quantum has a unit left (R110). -/
theorem Working.going_iff (going : w.endCause = none) : w.endCauseTrue = true ↔
    w.count ≠ 0 ∧ (w.edit.quantum = .drain ∨ w.moved.toNat < w.edit.quantum.word.toNat) := by
  simp [Working.endCauseTrue, going]

/-- What a service start loads (R102). -/
theorem Working.load_sound (n : RecNo) (h : r.Sound) (armed : r.state = .armed) (edit : r'.edit = r.edit)
    (count : r'.count = r.count) : (Working.load n r).SoundFor r' := by
  have used : r.state ≠ .free := by rw [armed]; exact RecState.noConfusion
  obtain ⟨_, _, _, counted, _, _, sound, addresses⟩ := h
  have unit_left : r.edit.quantum = .drain ∨ 0 < r.edit.quantum.word.toNat := by
    have quantum := (sound used).1
    cases units : r.edit.quantum with
    | drain => exact .inl rfl
    | units k =>
      have nonzero : k ≠ 0 := fun zero => quantum (by rw [units, zero])
      exact .inr (Nat.pos_of_ne_zero fun zero => nonzero (BitVec.eq_of_toNat_eq zero))
  exact ⟨edit, by rw [count]; rfl, (Working.going_iff rfl).mpr ⟨counted (.inl armed), unit_left⟩, fun _ => Nat.zero_le _,
    addresses used⟩

theorem Working.SoundFor.count_ne (h : w.SoundFor r) (going : w.endCause = none) : w.count ≠ 0 := by
  obtain ⟨_, _, true_, _⟩ := h
  exact ((Working.going_iff going).mp true_).1

/-- A service that goes on is cut, or fails: nothing is counted (R112, R146, R147). -/
theorem Working.SoundFor.stopped {c : EndCause} (h : w.SoundFor r) (going : w.endCause = none)
    (cause : c = .cut ∨ c.isFault = true) : ({ w with endCause := some c } : Working).SoundFor r := by
  have count := h.count_ne going
  obtain ⟨edit, sum, _, quantum, addresses⟩ := h
  refine ⟨edit, sum, ?_, quantum, addresses⟩
  rcases cause with rfl | fault
  · simpa [Working.endCauseTrue] using count
  · cases c with
    | fault cause addr => simpa [Working.endCauseTrue] using count
    | exhausted => contradiction
    | quantum => contradiction
    | cut => contradiction

/-- A step of a WORD unit keeps an address even (R5, R109). -/
theorem addressStepped_even {a : Addr} (even : a.toNat % 2 = 0) (step : AddrStep) :
    (addressStepped step .word a).1.toNat % 2 = 0 := by
  have lt := a.isLt
  have up : (if a.toNat + 2 < 2 ^ 24 then (a + BitVec.ofNat 24 2, false) else (a, true)).1.toNat % 2 = 0 := by
    split
    · rw [BitVec.toNat_add_of_lt] <;> simp <;> omega
    · exact even
  cases step with
  | fixed => exact even
  | ascend => exact up
  | ascendReturn => exact up
  | descend =>
    simp only [addressStepped]
    split
    · rw [BitVec.toNat_sub_of_le] <;> simp [BitVec.le_def] <;> omega
    · exact even

/-- A unit counted (R108 to R110). -/
theorem Working.SoundFor.countUnit (h : w.SoundFor r) (going : w.endCause = none) : w.countUnit.SoundFor r := by
  obtain ⟨edit, sum, true_, _, addresses⟩ := h
  obtain ⟨nonzero, units⟩ := (Working.going_iff going).mp true_
  have stored := r.count.isLt
  have positive : w.count.toNat ≠ 0 := fun zero => nonzero (BitVec.eq_of_toNat_eq zero)
  have count : (w.count - 1).toNat = w.count.toNat - 1 := by
    rw [BitVec.toNat_sub_of_le] <;> simp [BitVec.le_def]
    omega
  have moved : (w.moved + 1).toNat = w.moved.toNat + 1 := by
    rw [BitVec.toNat_add, Nat.mod_eq_of_lt] <;> simp
    omega
  have limit : w.edit.quantum ≠ .drain → (w.moved + 1).toNat ≤ w.edit.quantum.word.toNat := fun other => by
    have below := units.resolve_left other
    omega
  have total : (w.count - 1).toNat + (w.moved + 1).toNat = r.count.toNat := by omega
  refine ⟨edit, total, ?_, limit, fun word => ?_⟩
  · have cause := w.countUnit_endCause
    split at cause
    · next done =>
      simp only [Working.endCauseTrue, cause]
      exact beq_iff_eq.mpr done
    next left =>
    have counted : w.countUnit.count ≠ 0 := left
    split at cause
    · simpa only [Working.endCauseTrue, cause, bne_iff_ne] using counted
    split at cause
    · simpa only [Working.endCauseTrue, cause, bne_iff_ne] using counted
    split at cause
    · next reached =>
      simp only [Working.endCauseTrue, cause]
      exact Bool.and_eq_true_iff.mpr ⟨bne_iff_ne.mpr counted, beq_iff_eq.mpr reached⟩
    · next short =>
      refine (Working.going_iff cause).mpr ⟨counted, ?_⟩
      change w.edit.quantum = .drain ∨ (w.moved + 1).toNat < w.edit.quantum.word.toNat
      cases quantum : w.edit.quantum with
      | drain => exact .inl rfl
      | units k =>
        rw [quantum] at limit short
        refine .inr (lt_of_le_of_ne (limit Quantum.noConfusion) fun same => short ?_)
        exact congrArg Quantum.units (BitVec.eq_of_toNat_eq same).symm
  · obtain ⟨src, dst⟩ := w.countUnit_addresses
    have word' : w.edit.unit = .word := word
    rw [src, dst, word']
    exact ⟨addressStepped_even (addresses word).1 _, addressStepped_even (addresses word).2 _⟩

end

/-! ### The write-back -/

section
variable {r : Record} {w : Working} {c : EndCause}

/-- A current address as stored is even where the unit is WORD (R119). -/
theorem returned_even {step : AddrStep} {start cur : Addr} (start_ : start.toNat % 2 = 0) (cur_ : cur.toNat % 2 = 0) :
    (returned step start cur).toNat % 2 = 0 := by
  unfold returned
  split
  · exact start_
  · exact cur_

/-- A record stored ARMED, with a count that is not 0 (R115, R118). -/
theorem Record.Sound.rearmed (h : r.Sound) (active : r.state = .active) {count : Word} {src dst : Addr}
    (nonzero : count ≠ 0) (even : r.edit.unit = .word → src.toNat % 2 = 0 ∧ dst.toNat % 2 = 0) :
    ({ r with state := .armed, count := count, srcCur := src, dstCur := dst } : Record).Sound := by
  have fault := h.fault_none (by rw [active]; exact RecState.noConfusion)
  obtain ⟨latch, _, _, _, _, _, sound, _⟩ := h
  refine ⟨latch, ?_, ?_, fun _ => nonzero, fun spent => RecState.noConfusion spent, ?_,
    fun _ => sound (by rw [active]; exact RecState.noConfusion), fun _ => even⟩
  · rintro (h | h | h | h) <;> contradiction
  · simp [fault]
  · rintro (h | h | h) <;> contradiction

/-- The record a write-back stores, its overrun flag taken by a fault's notice (R115, R116, R118, R149). -/
theorem Record.Sound.writtenBack (h : r.Sound) (active : r.state = .active) (working : w.SoundFor r)
    (ended : w.endCause = some c) (keeps : w.autoRetires c = false)
    (taken : c.isFault = true → r.overrun = false) : (r.writtenBack w c).Sound := by
  have fields := h.editSound (by rw [active]; exact RecState.noConfusion)
  obtain ⟨edit, _, true_, _, addresses⟩ := working
  obtain ⟨_, _, starts, reloads, nonzero⟩ := fields
  have even : r.edit.unit = .word →
      (returned w.edit.srcStep w.edit.srcStart w.srcCur).toNat % 2 = 0 ∧
      (returned w.edit.dstStep w.edit.dstStart w.dstCur).toNat % 2 = 0 := fun word => by
    rw [← edit]
    have cur := addresses (edit ▸ word)
    exact ⟨returned_even (starts word).1 cur.1, returned_even (starts word).2 cur.2⟩
  simp only [Working.endCauseTrue, ended] at true_
  cases c with
  | quantum => exact h.rearmed active (bne_iff_ne.mp (Bool.and_eq_true_iff.mp true_).1) even
  | cut => exact h.rearmed active (bne_iff_ne.mp true_) even
  | exhausted =>
    cases policy : w.edit.policy with
    | retire => simp [Working.autoRetires, policy] at keeps
    | park =>
      simp only [Record.writtenBack, policy]
      refine ⟨Nat.zero_le 4, fun _ => rfl, ?_, ?_, fun _ => beq_iff_eq.mp true_, ?_,
        fun _ => h.editSound (by rw [active]; exact RecState.noConfusion), fun _ => even⟩
      · simp [h.fault_none (by rw [active]; exact RecState.noConfusion)]
      · rintro (h | h | h) <;> contradiction
      · rintro (h | h | h) <;> contradiction
    | reload =>
      simp only [Record.writtenBack, policy]
      refine h.rearmed active ?_ fun word => by rw [← edit]; exact starts word
      rw [← edit] at policy ⊢
      cases present : r.edit.reload with
      | none => exact absurd present (reloads policy)
      | some v => exact fun zero => nonzero (by rw [present]; exact congrArg some zero)
  | fault cause addr =>
    refine ⟨Nat.zero_le 4, fun _ => rfl, ⟨fun _ => rfl, fun _ => Option.some_ne_none _⟩, fun _ => bne_iff_ne.mp true_,
      fun spent => RecState.noConfusion spent, fun _ => taken rfl,
      fun _ => h.editSound (by rw [active]; exact RecState.noConfusion), fun _ word => addresses (edit ▸ word)⟩

end

end Sys2Proof.Machine
end

