-- ==== Sys2Proof/Proofs/ServiceSoundness.lean ====
section
/-! Every record and the progress of the service in flight stay sound, row by row. -/

namespace Sys2Proof.Machine

/-! ### The record store -/

/-- Every record is sound. -/
abbrev State.RecordsSound (s : State) : Prop := ∀ n : RecNo, s.records[n].Sound

section
variable {s t : State}

theorem State.RecordsSound.latched (h : s.RecordsSound) (records : s.RecordsLatched t) : t.RecordsSound :=
  fun n => (h n).latched (records n)

theorem State.RecordsSound.of_records (h : s.RecordsSound) (records : t.records = s.records) : t.RecordsSound :=
  h.latched (.of_records records)

theorem State.RecordsSound.setRecord {n : RecNo} {r : Record} (h : s.RecordsSound) (sound : r.Sound) :
    (s.setRecord n r).RecordsSound := fun m => by
  rw [State.setRecord_records, vector_set_get]
  split
  · exact sound
  · exact h m

theorem State.RecordsSound.freeRecord (h : s.RecordsSound) (n : RecNo) : (s.freeRecord n).RecordsSound :=
  State.RecordsSound.setRecord (r := s.records[n].freed) h (Record.freed_sound _)

theorem State.RecordsSound.settle (h : s.RecordsSound) : s.settleActivity.RecordsSound :=
  h.latched s.settleActivity_triggered.records

theorem State.RecordsSound.standing (h : s.RecordsSound) (n : RecNo) : (s.standingTrigger n).RecordsSound :=
  h.latched (s.standingTrigger_latched n)

theorem State.RecordsSound.complete {code : Byte} {r : Reply} (h : s.RecordsSound) : (s.complete code r).RecordsSound := h

theorem State.allocateClaim_sound (h : s.RecordsSound) : s.allocateClaim.RecordsSound := by
  unfold State.allocateClaim
  split
  · exact h
  · exact .complete (h.setRecord (Record.allocated_sound _))

theorem State.storeClaim_sound (h : s.RecordsSound) : s.storeClaim.RecordsSound := by
  unfold State.storeClaim
  split
  · exact h
  dsimp only
  split
  · next editable =>
    split
    · exact h
    · next passes => exact .complete (h.setRecord ((h _).stored editable passes))
  · exact h

theorem State.armClaim_sound (h : s.RecordsSound) : s.armClaim.RecordsSound := by
  unfold State.armClaim
  split
  · exact h
  dsimp only
  split
  · next editable =>
    split
    · exact h
    · next passes => exact .complete (.settle (.standing (h.setRecord ((h _).armed editable passes)) _))
  · exact h

theorem State.applyHold_sound (h : s.RecordsSound) (x : Word) : (s.applyHold x).1.RecordsSound := by
  unfold State.applyHold
  split
  · exact h
  next g _ =>
  have held : s.records[g.num].state ≠ .free → (s.setRecord g.num { s.records[g.num] with
      state := .held, fault := none }).RecordsSound := fun used => h.setRecord ((h g.num).held used)
  dsimp only
  split
  case h_1 armed =>
    have fault := (h g.num).fault_none (by rw [armed]; exact RecState.noConfusion)
    have after := held (by rw [armed]; exact RecState.noConfusion)
    rw [← fault] at after
    exact after
  case h_3 spent => exact .standing (held (by rw [spent]; exact RecState.noConfusion)) _
  case h_4 faulted => exact .standing (held (by rw [faulted]; exact RecState.noConfusion)) _
  all_goals exact h

theorem State.applyRetire_sound (h : s.RecordsSound) (x : Word) : (s.applyRetire x).1.RecordsSound := by
  unfold State.applyRetire
  split
  · exact h
  · exact h.freeRecord _

theorem State.holdClaim_sound (h : s.RecordsSound) : s.holdClaim.RecordsSound := by
  unfold State.holdClaim
  split
  · exact h.of_records (s.deferCommand_changes _ _ .records (by simp))
  · exact .complete (.settle (State.applyHold_sound h _))

theorem State.retireClaim_sound (h : s.RecordsSound) : s.retireClaim.RecordsSound := by
  unfold State.retireClaim
  split
  · exact h.of_records (s.deferCommand_changes _ _ .records (by simp))
  · exact .complete (.settle (State.applyRetire_sound h _))

theorem State.wipeClaim_sound (h : s.RecordsSound) : s.wipeClaim.RecordsSound := by
  unfold State.wipeClaim
  split
  · intro n
    have wiped : s.wiped.records[n] = Record.empty s.records[n].gen := by simp [State.wiped]
    exact wiped ▸ Record.empty_sound _
  · exact h

theorem State.triggerClaim_sound (h : s.RecordsSound) : s.triggerClaim.RecordsSound := by
  unfold State.triggerClaim
  split
  · exact h
  dsimp only
  split
  · exact .complete (.settle (h.latched (s.deliverTrigger_latched _)))
  · exact h

theorem State.bindClaim_sound (h : s.RecordsSound) : s.bindClaim.RecordsSound := by
  unfold State.bindClaim State.bindChecked
  split
  · split
    · exact h
    dsimp only
    split
    · exact .complete (.settle (State.RecordsSound.standing (s := s.setBinding _ _) h _))
    · exact h
  · exact h

theorem State.enableOffCourse_sound (h : s.RecordsSound) (l : Link) : (s.enableOffCourse l).RecordsSound :=
  h.latched (s.enableOffCourse_latched l)

theorem State.engineStopClaim_sound (h : s.RecordsSound) : s.engineStopClaim.RecordsSound := by
  have off : ({ s with enable := false } : State).RecordsSound := h
  unfold State.engineStopClaim
  dsimp only
  split
  · exact h
  · exact h
  · split
    · exact .complete (State.enableOffCourse_sound off _)
    · exact .complete off.settle

theorem State.headChoice_sound (h : s.RecordsSound) : s.headChoice.RecordsSound := by
  unfold State.headChoice
  split
  · split
    · exact h
    · next n chosen =>
      split
      · have armed := (State.chosenHead_eligible chosen).1
        have started := h.setRecord (n := n) ((h n).started armed (Nat.sub_le s.records[n].latch 1))
        exact started.of_records (s.startHead_records n)
      · exact h
  · exact h

theorem State.resolve_sound (h : s.RecordsSound) (a : Activation) (l : Link) : (s.resolve a l).RecordsSound := by
  have posted : ∀ n : Notice, (s.post n).endActivation.RecordsSound := fun n =>
    State.RecordsSound.of_records (s := s.post n) h (State.endActivation_records _)
  unfold State.resolve
  split
  · exact posted _
  split
  · exact State.enableOffCourse_sound h l
  split
  · exact h
  split
  · next ready =>
    have armed := ((State.successorReady_iff _ _).mp ready).1
    have started := h.setRecord (n := l.succ.num) ((h l.succ.num).started armed le_rfl)
    exact started.of_records (s.startLink_records a l.succ.num)
  · exact posted _

theorem State.resolutionStep_sound (h : s.RecordsSound) : s.resolutionStep.RecordsSound := by
  unfold State.resolutionStep
  split
  · exact h
  · exact State.resolve_sound h _ _

theorem State.afreshStep_sound (h : s.RecordsSound) : s.afreshStep.RecordsSound := by
  unfold State.afreshStep
  split
  · exact h
  next d _ =>
  have applied : (s.applyDeferred d).1.RecordsSound := by
    unfold State.applyDeferred
    split
    · exact State.applyHold_sound h _
    · exact State.applyRetire_sound h _
  exact applied.of_records (State.endActivation_records _)

/-- Every fault's notice takes the overrun flag with it (R123, R150). -/
theorem State.postOutcome_overrun (s : State) (w : Working) {c : EndCause} (fault : c.isFault = true) :
    (s.postOutcome w c).records[w.handle.num].overrun = false := by
  cases c with
  | fault cause addr =>
    simp only [State.postOutcome, outcomeNotice, State.setRecord_records, vector_set_get, if_true]
  | exhausted => contradiction
  | quantum => contradiction
  | cut => contradiction

/-- The record of an ended service, sound while ACTIVE, is sound once written back (R114, R149). -/
theorem State.writeBackClaim_sound {a : Activation} {w : Working} {c : EndCause} (h : s.RecordsSound)
    (active : s.records[w.handle.num].state = .active) (working : w.SoundFor s.records[w.handle.num])
    (ended : w.endCause = some c) : (s.writeBackClaim a w c).RecordsSound := by
  intro n
  by_cases own : n = w.handle.num
  · subst own
    rw [s.writeBackClaim_records]
    cases retires : w.autoRetires c with
    | true =>
      rw [State.storeProgress_retired retires, State.freeRecord_record]
      exact Record.freed_sound _
    | false =>
      refine Record.Sound.latched ?_ (State.storeProgress_kept retires)
      have posted := s.postOutcome_record w c
      have taken := s.postOutcome_overrun w (c := c)
      generalize (s.postOutcome w c).records[w.handle.num] = r at posted taken
      have sound : r.Sound := by
        obtain ⟨latch, zero, fault, counted, spent, _, edit, addresses⟩ := h w.handle.num
        rw [posted]
        refine ⟨latch, zero, fault, counted, spent, ?_, edit, addresses⟩
        rintro (state | state | state) <;> exact absurd (active.symm.trans state) RecState.noConfusion
      have same : w.SoundFor r := by
        rw [posted]
        exact working
      exact sound.writtenBack (by rw [posted]; exact active) same ended retires taken
  · rw [s.writeBackClaim_other a own]
    exact h n

/-! ### The service in flight -/

/-- The progress of the service in flight is sound, and a CUT has its deferred command. -/
abbrev State.ProgressSound (s : State) : Prop := s.WorkingSound ∧ s.CutDeferred

theorem State.ProgressSound.of_unserved (idle : t.working = none) : t.ProgressSound := by
  refine ⟨fun w mem => by rw [idle] at mem; contradiction, fun a opened w work => ?_⟩
  rw [State.working_open opened] at idle
  exact absurd (idle.symm.trans work) (Option.some_ne_none w).symm

/-- The service in flight is the one of `s`, or there is none. -/
abbrev State.ServesNoOther (s t : State) : Prop := t.activation = s.activation ∨ t.working = none

/-- The record of the service in flight keeps its stored fields while it is ACTIVE. -/
theorem State.ProgressSound.kept (h : s.ProgressSound) (before : s.ActiveExact) (after : t.ActiveExact)
    (keeps : s.KeepsActive t) (activation : s.ServesNoOther t) : t.ProgressSound := by
  rcases activation with same | idle
  · have working : t.working = s.working := by rw [State.working, State.working, same]
    refine ⟨fun w mem => ?_, fun a opened => h.2 a (same ▸ opened)⟩
    have served : s.working = some w := working ▸ mem
    obtain ⟨edit, sum, rest⟩ := h.1 w served
    have active := (before.1 w.handle.num).mpr (by rw [served]; simp)
    have active' := (after.1 w.handle.num).mpr (by rw [working, served]; simp)
    have latched := keeps w.handle.num active active'
    exact ⟨latched.edit.trans edit, by rw [latched.count]; exact sum, rest⟩
  · exact .of_unserved idle

/-- The activation goes on with a working copy that is sound for its record. -/
theorem State.ProgressSound.of_work {a : Activation} {w : Working} (opened : t.activation = some a)
    (work : a.work = some w) (sound : w.SoundFor t.records[w.handle.num])
    (cut : w.endCause = some .cut → a.deferred ≠ none) : t.ProgressSound := by
  refine ⟨fun v mem => ?_, fun b mem v work' ended => ?_⟩
  · rw [State.working_open opened, work] at mem
    obtain rfl : w = v := Option.some.inj mem
    exact sound
  · obtain rfl : a = b := Option.some.inj (opened.symm.trans mem)
    obtain rfl : w = v := Option.some.inj (work.symm.trans work')
    exact cut ended

theorem State.headChoice_progress (h : s.ProgressSound) (sound : s.RecordsSound) : s.headChoice.ProgressSound := by
  unfold State.headChoice
  split
  · split
    · exact h
    · next n chosen =>
      split
      · have armed := (State.chosenHead_eligible chosen).1
        have entry : (s.startHead n).records[n] =
            { s.records[n] with state := .active, latch := s.records[n].latch - 1 } :=
          (vector_set_get _ _ _ _).trans (if_pos rfl)
        have loaded : (Working.load n s.records[n]).SoundFor (s.startHead n).records[n] :=
          Working.load_sound n (sound n) armed (by rw [entry]) (by rw [entry])
        exact .of_work (a := ⟨1, some (.load n s.records[n]), none, none⟩) rfl rfl loaded fun cut => by contradiction
      · exact h
  · exact h

theorem State.startLink_progress {a : Activation} (sound : s.RecordsSound) (none_ : a.deferred = none) (n : RecNo)
    (armed : s.records[n].state = .armed) : (s.startLink a n).ProgressSound := by
  have entry : (s.startLink a n).records[n] = { s.records[n] with state := .active } := by
    rw [State.startLink_records]
    exact (vector_set_get _ _ _ _).trans (if_pos rfl)
  have starts : (s.startLink a n).activation =
      some ⟨a.depth + 1, some (.load n s.records[n]), a.deferred, none⟩ := by
    rw [State.startLink, State.unitBoundary_going (a := { a with depth := a.depth + 1, link := none }) _ _ none_]
    rfl
  have loaded : (Working.load n s.records[n]).SoundFor (s.startLink a n).records[n] :=
    Working.load_sound n (sound n) armed (by rw [entry]) (by rw [entry])
  exact .of_work starts rfl loaded fun cut => by contradiction

theorem State.endActivation_unserved (s : State) : s.endActivation.working = none := by
  rw [s.endActivation_eq]
  rfl

theorem State.resolutionStep_progress (h : s.ProgressSound) (sound : s.RecordsSound) (agree : s.EngineCoherent) :
    s.resolutionStep.ProgressSound := by
  unfold State.resolutionStep
  split
  · exact h
  next a l found =>
  obtain ⟨opened, link, _⟩ := State.linkAt_eq_some found
  obtain ⟨_, _, work, none_⟩ := agree.2.1.linked opened link
  unfold State.resolve
  split
  · exact .of_unserved (State.endActivation_unserved _)
  split
  · exact .of_unserved (State.endActivation_unserved _)
  split
  · exact .of_unserved work
  split
  · next ready => exact State.startLink_progress sound none_ _ ((State.successorReady_iff _ _).mp ready).1
  · exact .of_unserved (State.endActivation_unserved _)

theorem State.engineStopClaim_servesNoOther (s : State) : s.ServesNoOther s.engineStopClaim := by
  unfold State.engineStopClaim
  dsimp only
  split
  · exact .inl rfl
  · exact .inl rfl
  · split
    · exact .inr (State.endActivation_unserved _)
    · exact .inl (State.settleActivity_changes { s with enable := false } .activation (by simp))

theorem State.writeBackClaim_unserved (s : State) (a : Activation) (w : Working) (c : EndCause) :
    (s.writeBackClaim a w c).working = none := by
  unfold State.writeBackClaim State.afterWriteBack
  split
  · rfl
  · rfl
  · exact State.endActivation_unserved _

theorem State.afreshStep_servesNoOther (s : State) : s.ServesNoOther s.afreshStep := by
  unfold State.afreshStep
  split
  · exact .inl rfl
  · exact .inr (State.endActivation_unserved _)

theorem State.takeClaim_servesNoOther (agree : s.EngineCoherent) : s.ServesNoOther s.takeClaim := by
  unfold State.takeClaim State.endStall
  dsimp only
  split
  · exact .inl rfl
  split
  · next a l found =>
    obtain ⟨opened, link, _⟩ := State.linkAt_eq_some found
    obtain ⟨_, _, work, _⟩ := agree.2.1.linked opened link
    split
    · exact .inr work
    · exact .inl rfl
  · exact .inl (State.settleActivity_changes _ .activation (by simp))

theorem State.deferCommand_progress (h : s.ProgressSound) (kind : DeferredKind) (g : Handle) :
    (s.deferCommand kind g).ProgressSound := by
  cases opened : s.activation with
  | none =>
    have same : s.deferCommand kind g = s.setWaiting kind.command := by
      simp [State.deferCommand, State.setWaiting, opened]
    rw [same]
    exact h
  | some a =>
    have defers : s.deferCommand kind g = State.cutWaitingRequest
        { s.setWaiting kind.command with activation := some { a with deferred := some ⟨kind, g⟩ } }
        { a with deferred := some ⟨kind, g⟩ } := by
      simp [State.deferCommand, State.setWaiting, opened]
    rw [defers]
    rcases State.cutWaitingRequest_cases
        { s.setWaiting kind.command with activation := some { a with deferred := some ⟨kind, g⟩ } }
        { a with deferred := some ⟨kind, g⟩ } with ⟨w, work, _, going, cuts⟩ | ⟨_, same⟩
    · rw [cuts]
      have sound : w.SoundFor s.records[w.handle.num] := h.1 w ((State.working_open opened).trans work)
      exact .of_work (a := { a with deferred := some ⟨kind, g⟩, work := some { w with endCause := some .cut } }) rfl rfl
        (sound.stopped going (.inl rfl)) fun _ => Option.some_ne_none _
    · rw [same]
      cases work : a.work with
      | none => exact .of_unserved rfl
      | some w =>
        exact .of_work (a := { a with deferred := some ⟨kind, g⟩, work := some w }) rfl rfl
          (h.1 w ((State.working_open opened).trans work)) fun _ => Option.some_ne_none _

theorem State.holdClaim_progress (h : s.ProgressSound) (serving : s.Serving) : s.holdClaim.ProgressSound := by
  cases names : s.namesActive s.arg0 with
  | some g =>
    rw [State.holdClaim, names]
    exact State.deferCommand_progress h .hold g
  | none =>
    refine h.kept serving.coherent.1 (State.holdClaim_coherent serving).1 s.holdClaim_keepsActive (.inl ?_)
    rw [State.holdClaim, names]
    exact (((s.applyHold_changes _).andThen (State.settleActivity_changes _)).andThen
      (State.complete_changes _ _ _)) .activation (by simp)

theorem State.retireClaim_progress (h : s.ProgressSound) (serving : s.Serving) : s.retireClaim.ProgressSound := by
  cases names : s.namesActive s.arg0 with
  | some g =>
    rw [State.retireClaim, names]
    exact State.deferCommand_progress h .retire g
  | none =>
    refine h.kept serving.coherent.1 (State.retireClaim_coherent serving).1 s.retireClaim_keepsActive (.inl ?_)
    rw [State.retireClaim, names]
    exact (((s.applyRetire_changes _).andThen (State.settleActivity_changes _)).andThen
      (State.complete_changes _ _ _)) .activation (by simp)

/-- An end check is never CUT (R110). -/
theorem Working.countUnit_not_cut (w : Working) : w.countUnit.endCause ≠ some .cut := by
  rw [w.countUnit_endCause]
  split
  · simp
  split
  · simp
  split
  · simp
  split <;> simp

theorem State.writeCompleted_progress (h : s.ProgressSound) (agree : s.BusCoherent) :
    s.writeCompleted.ProgressSound := by
  unfold State.writeCompleted
  split
  · next owned _ =>
    obtain ⟨a, w, opened, work, going⟩ := agree.serving owned
    have before : w.SoundFor s.records[w.handle.num] := h.1 w ((State.working_open opened).trans work)
    have sound := before.countUnit going
    have goesOn : ∀ t : State, t.activation = some { a with work := some w.countUnit } → t.records = s.records →
        t.ProgressSound := fun t open_ records =>
      .of_work open_ rfl (records ▸ sound) fun cut => absurd cut w.countUnit_not_cut
    simp only [State.pairCompleted, opened, work]
    cases ended : w.countUnit.endCause with
    | some c => exact goesOn _ rfl rfl
    | none =>
      cases deferred : a.deferred with
      | some d =>
        rw [State.unitBoundary_cut _ _ deferred]
        refine .of_work (a := { a with work := some { w.countUnit with endCause := some .cut } }) rfl rfl
          (sound.stopped ended (.inl rfl)) fun _ => ?_
        rw [deferred]
        exact Option.some_ne_none d
      | none =>
        rw [State.unitBoundary_going _ _ deferred]
        exact goesOn _ rfl rfl
  · exact h

theorem State.pairError_progress (h : s.ProgressSound) (agree : s.BusCoherent) : s.pairError.ProgressSound := by
  unfold State.pairError
  split
  · next half owned _ =>
    obtain ⟨a, w, opened, work, going⟩ := agree.serving owned
    have sound : w.SoundFor s.records[w.handle.num] := h.1 w ((State.working_open opened).trans work)
    simp only [State.pairFailed, opened, work]
    have fails : ∀ c : EndCause, c.isFault = true → c ≠ .cut →
        (State.setWorking { s with bus := s.bus.release } a { w with endCause := some c }).ProgressSound :=
      fun c fault other => .of_work (a := { a with work := some { w with endCause := some c } }) rfl rfl
        (sound.stopped going (.inr fault)) fun cut => absurd (Option.some.inj cut) other
    cases half with
    | read => exact fails _ rfl EndCause.noConfusion
    | write => exact fails _ rfl EndCause.noConfusion
  · exact h

theorem State.clockBus_progress (h : s.ProgressSound) (agree : s.BusCoherent) : s.clockBus.ProgressSound := by
  unfold State.clockBus
  split
  · split
    · exact h
    · exact State.pairError_progress h agree
  · exact h
  · split
    · exact h
    · exact h

theorem State.command_progress {code : Byte} {owner : State → State} (h : s.ProgressSound) (agree : s.EngineCoherent)
    (claim : (s.served code).ProgressSound → (s.served code).Serving → (owner (s.served code)).ProgressSound) :
    (s.command code owner).ProgressSound :=
  State.command_rule (P := State.ProgressSound) h (fun _ => h) fun serves => claim h (agree.served serves)

theorem State.command_sound {code : Byte} {owner : State → State} (h : s.RecordsSound)
    (claim : (s.served code).RecordsSound → (owner (s.served code)).RecordsSound) :
    (s.command code owner).RecordsSound :=
  State.command_rule (P := State.RecordsSound) h (fun _ => h) fun _ => claim h

end

/-! ### Every row -/

/-- The service that has ended serves an ACTIVE record (R102). -/
theorem State.ActiveExact.active {s : State} {a : Activation} {w : Working} (h : s.ActiveExact)
    (opened : s.activation = some a) (work : a.work = some w) : s.records[w.handle.num].state = .active :=
  (h.1 w.handle.num).mpr (by rw [State.working_open opened, work]; simp)

theorem effect_recordsSound (i : Instr) (s : State) (h : s.RecordsSound) (active : s.ActiveExact)
    (progress : s.ProgressSound) : (effect i s).RecordsSound := by
  by_cases listed : .records ∈ touched i
  case neg => exact h.of_records (effect_changes i s .records listed)
  have event := fun {claim} => State.unlessReset_rule (P := State.RecordsSound) (claim := claim) h
  have writeBack := State.writeBack_rule (P := State.RecordsSound) h fun a w c opened work ended =>
    State.writeBackClaim_sound (a := a) h (active.active opened work)
      (progress.1 w ((State.working_open opened).trans work)) ended
  cases i with
  | allocate => exact State.command_sound h State.allocateClaim_sound
  | store => exact State.command_sound h State.storeClaim_sound
  | arm => exact State.command_sound h State.armClaim_sound
  | hold => exact State.command_sound h State.holdClaim_sound
  | retire => exact State.command_sound h State.retireClaim_sound
  | wipe => exact State.command_sound h State.wipeClaim_sound
  | trigger => exact State.command_sound h State.triggerClaim_sound
  | bind => exact State.command_sound h State.bindClaim_sound
  | engineStop => exact State.command_sound h State.engineStopClaim_sound
  | pinReset => exact fun n => (State.pinReset_record s n) ▸ Record.empty_sound 0
  | reqEdge line level => exact event fun _ => h.latched (s.lineHeld_triggered line level).records
  | internalTick => exact event fun _ => h.latched s.internalTickClaim_triggered.records
  | externalTick level => exact event fun _ => h.latched (s.tickHeld_triggered level).records
  | generatorExpiry g => exact event fun _ => h.latched (s.expiryClaim_triggered g).records
  | headStart => exact event fun _ => State.headChoice_sound h
  | writeBack => exact event fun _ => writeBack.1
  | faultWriteBack => exact event fun _ => writeBack.2
  | linkResolution => exact event fun _ => State.resolutionStep_sound h
  | appliedAfresh => exact event fun _ => State.afreshStep_sound h
  | _ => simp [touched] at listed

theorem effect_progress (i : Instr) (s : State) (h : s.ProgressSound) (agree : s.EngineCoherent)
    (records : s.RecordsSound) : (effect i s).ProgressSound := by
  have kept := h.kept agree.1 (effect_coherent i s agree).1 (effect_keepsActive i s)
  by_cases quiet : .activation ∉ touched i
  case pos => exact kept (.inl (effect_changes i s .activation quiet))
  have same : s.ServesNoOther s := .inl rfl
  have event := fun {claim} => State.unlessReset_rule (P := State.ProgressSound) (claim := claim) h
  have writeBack := State.writeBack_rule (P := s.ServesNoOther) same fun a w c _ _ _ =>
    .inr (s.writeBackClaim_unserved a w c)
  cases i with
  | hold => exact State.command_progress h agree State.holdClaim_progress
  | retire => exact State.command_progress h agree State.retireClaim_progress
  | engineStop =>
    exact kept (State.command_rule (P := s.ServesNoOther) same (fun _ => same)
      fun _ => (s.served _).engineStopClaim_servesNoOther)
  | take read =>
    exact kept (State.readAccess_rule (P := s.ServesNoOther) same (fun _ => same)
      (fun listens => State.takeClaim_servesNoOther (agree.answerAccess listens _)) fun _ => same)
  | pinReset => exact kept (.inr rfl)
  | headStart => exact event fun _ => State.headChoice_progress h records
  | writeComplete => exact event fun _ => State.writeCompleted_progress h agree.2.2.2
  | busError => exact event fun _ => State.pairError_progress h agree.2.2.2
  | waitLimitExpiry => exact event fun _ => State.pairError_progress h agree.2.2.2
  | writeBack => exact kept (State.unlessReset_rule (P := s.ServesNoOther) same fun _ => writeBack.1)
  | faultWriteBack => exact kept (State.unlessReset_rule (P := s.ServesNoOther) same fun _ => writeBack.2)
  | linkResolution => exact event fun _ => State.resolutionStep_progress h records agree
  | appliedAfresh => exact kept (State.unlessReset_rule (P := s.ServesNoOther) same fun _ => s.afreshStep_servesNoOther)
  | _ => simp [touched] at quiet

/-- An edge of CLK delivers triggers, and may end the service by its wait limit (R200). -/
theorem State.clockEdge_sound {s : State} (h : s.ServiceSound) :
    s.clockEdge.RecordsSound ∧ s.clockEdge.ProgressSound := by
  obtain ⟨agree, records, progress, cut⟩ := h
  refine State.clockEdge_rule (P := fun t => t.RecordsSound ∧ t.ProgressSound) ⟨records, progress, cut⟩ fun _ => ?_
  have events := s.clockSources_triggered
  have agree' := agree.triggered events
  have progress' : s.clockHoldOff.clockInputs.clockDivider.ProgressSound :=
    State.ProgressSound.kept ⟨progress, cut⟩ agree.1 agree'.1 events.records.keepsActive
      (.inl (events.changes .activation (by simp [sourceFields])))
  exact ⟨(State.RecordsSound.latched records events.records).of_records (State.clockBus_changes _ .records (by simp)),
    State.clockBus_progress progress' agree'.2.2.2⟩

/-- Settles O60: what a claim stores has passed the checks or comes of a sound working copy, and a working copy is one
loaded from a sound record, counted, cut or failed. -/
theorem serviceSoundInEveryStep : Obligations.ServiceSoundInEveryStep := by
  unfold Obligations.ServiceSoundInEveryStep
  intro s t h steps
  refine step_keeps (P := State.ServiceSound) (fun _ _ kept => kept) (fun u kept => ?_) (fun i u kept => ?_) h steps
  · obtain ⟨records, progress⟩ := State.clockEdge_sound kept
    exact ⟨State.clockEdge_coherent kept.1, records, progress⟩
  · obtain ⟨agree, records, progress, cut⟩ := kept
    exact ⟨effect_coherent i u agree, effect_recordsSound i u records agree.1 ⟨progress, cut⟩,
      effect_progress i u ⟨progress, cut⟩ agree records⟩

end Sys2Proof.Machine
end

