-- ==== Sys2Proof/Proofs/InvariantsAtReset.lean ====
section
/-! Each invariant holds of the part after pin reset (R22, R85, R178, R192, R193). -/

namespace Sys2Proof.Machine

theorem State.reset_record (n : RecNo) : State.reset.records[n] = Record.empty 0 :=
  Vector.getElem_replicate n.isLt

theorem State.reset_not_waiting : ¬State.reset.HeadWaitCondition := fun wait => Bool.noConfusion wait.1

theorem State.reset_serviceSound : State.reset.ServiceSound :=
  ⟨State.pinReset_coherent State.reset, fun n => State.reset_record n ▸ Record.empty_sound 0,
    State.ProgressSound.of_unserved rfl⟩

/-- Settles O52: every table holds its reset value, no activation is open and the queue is empty. -/
theorem invariantsHoldAtReset : Obligations.InvariantsHoldAtReset := by
  unfold Obligations.InvariantsHoldAtReset
  refine ⟨NoticeUnit.reset_exact, Nat.zero_le 32, .of_empty fun k => Vector.getElem_replicate k.isLt,
    .of_free fun n => congrArg Record.state (State.reset_record n), fun asserted => Bool.noConfusion asserted,
    fun g => ?_, fun _ => ⟨fun wait => absurd wait State.reset_not_waiting, fun _ => rfl⟩, State.reset_serviceSound⟩
  have reset : State.reset.gens[g] = Generator.reset := Vector.getElem_replicate g.isLt
  exact reset ▸ Generator.reset_sound

end Sys2Proof.Machine
end

