-- ==== Sys2Proof/Proofs/PortAccesses.lean ====
section
/-! The command port and the window (chapter 10): what a CMD write spells and does, register writes, the handle check
of the commands that name a record, and the steps that have no condition to act. -/

namespace Sys2Proof.Machine

/-! ### Commands -/

/-- A command the part takes answers with its owner's claim. -/
theorem answer_command {s : State} {code : Byte} (serves : s.Serves code) (claim : State → State) :
    answer (s.command code claim) = .next (claim (s.served code)) :=
  congrArg Host.Outcome.next (State.command_of_serves serves claim)

/-- Each host command row is a command of its code. -/
theorem exec_commandRow {p : Instr × Byte} (row : p ∈ commandRows) :
    ∃ claim : State → State, ∀ s : State, exec p.1 s = .next (s.command p.2 claim) := by
  simp only [commandRows, List.mem_cons, List.not_mem_nil, or_false] at row
  rcases row with rfl | rfl | rfl | rfl | rfl | rfl | rfl | rfl | rfl | rfl | rfl | rfl | rfl | rfl | rfl | rfl | rfl |
    rfl | rfl <;> exact ⟨_, fun _ => rfl⟩

/-- The CMD table decodes each of its codes to its row (R191). -/
theorem commandOfCode_row : ∀ p ∈ commandRows, commandOfCode p.2 = p.1 := by decide

/-- A code outside the CMD table is UNKNOWN (R183). -/
theorem commandOfCode_unassigned {code : Byte} (unassigned : ∀ p ∈ commandRows, p.2 ≠ code) :
    commandOfCode code = .unknown code := by
  have other : ∀ k : Nat, k ∈ commandRows.map (fun p => p.2.toNat) → code.toNat ≠ k := by
    intro k mem same
    obtain ⟨p, row, rfl⟩ := List.mem_map.mp mem
    exact unassigned p row (BitVec.eq_of_toNat_eq same.symm)
  unfold commandOfCode
  split
  case h_20 => rfl
  all_goals
    next value => exact absurd value (other _ (by decide))

/-- A word of CMD spells the command of its low byte (R181, R191). -/
theorem decodeTableWord_word (w : Nat) : decodeTableWord 16 w = some (commandOfCode (BitVec.ofNat 8 w)) := rfl

/-- The command a word spells is the next step (log 20). -/
theorem step_withFetchWord {s : State} {w : Nat} {i : Instr} (spells : decodeTableWord 16 w = some i) :
    step (s.withFetchWord 16 w) = exec i s := by
  rw [State.withFetchWord, spells]
  rfl

theorem exec_commandRefused {s : State} (listens : s.Listens) (code : Byte) :
    exec (.commandRefused code) s = .next ((s.answerAccess none).cmdWrite code) :=
  congrArg Host.Outcome.next (State.slaveAccess_served listens none fun t => t.cmdWrite code)

/-- While another command is served a CMD write is refused (R182). -/
theorem State.cmdWrite_occupied {s : State} (occupied : s.port.state ≠ .ready) (code : Byte) :
    s.cmdWrite code = s.refuseWrite := by
  unfold State.cmdWrite
  split
  · contradiction
  · rfl
  · rfl

/-- Settles O6: the table by its rows; a CMD write by the port's state. -/
theorem cmdWriteAcceptedOrRefused : Obligations.CmdWriteAcceptedOrRefused := by
  unfold Obligations.CmdWriteAcceptedOrRefused
  refine ⟨fun s w => ⟨fun p row num => ?_, fun other => ?_⟩, fun s listens => ⟨fun code => ⟨fun ready => ?_,
    fun occupied => ?_⟩, fun p row occupied => ?_, fun code occupied => ?_⟩⟩
  · have code : BitVec.ofNat 8 w.toNat = p.2 := BitVec.eq_of_toNat_eq (by simpa using num.symm)
    have spells : decodeTableWord 16 w.toNat = some p.1 := by
      rw [decodeTableWord_word, code, commandOfCode_row p row]
    exact ⟨spells, step_withFetchWord spells⟩
  · have spells : decodeTableWord 16 w.toNat = some (.unknown (BitVec.ofNat 8 w.toNat)) := by
      rw [decodeTableWord_word, commandOfCode_unassigned fun p row same => other p row (by rw [same]; simp)]
    exact ⟨spells, step_withFetchWord spells⟩
  · rw [exec_commandRefused listens, State.cmdWrite, show (s.answerAccess none).port.state = .ready from ready]
    rfl
  · rw [exec_commandRefused listens, State.cmdWrite_occupied (s := s.answerAccess none) occupied]
    rfl
  · obtain ⟨claim, run⟩ := exec_commandRow row
    rw [run, State.command_of_occupied listens occupied]
    rfl
  · exact congrArg Host.Outcome.next (State.command_of_occupied listens occupied (State.unknownClaim code))

/-! ### Register writes -/

/-- The edit register of an image. -/
def EditImage.register (m : EditImage) : EditReg → Word
  | .srcL => m.srcL
  | .srcH => m.srcH
  | .dstL => m.dstL
  | .dstH => m.dstH
  | .count => m.count
  | .reload => m.reload
  | .quant => m.quant
  | .mode => m.mode
  | .succ => m.succ
  | .level => m.level

theorem State.readWindow_edit (s : State) (reg : EditReg) : s.readWindow (editOffset reg) = s.image.register reg := by
  cases reg <;> rfl

theorem EditImage.write_register (m : EditImage) (reg other : EditReg) (lanes : Lanes) (v : Word) :
    (m.write reg lanes v).register other =
      if other = reg then mergeLanes (m.register other) v lanes else m.register other := by
  cases reg <;> cases other <;> rfl

/-- Settles O9: the write goes to the one register its row names, by the lanes carried. -/
theorem editRegisterWriteNeedsReady : Obligations.EditRegisterWriteNeedsReady := by
  unfold Obligations.EditRegisterWriteNeedsReady
  intro s reg lanes v listens
  refine ⟨(s.answerAccess none).editWrite reg lanes v,
    congrArg Host.Outcome.next (State.slaveAccess_served listens none fun t => t.editWrite reg lanes v),
    fun occupied => ?_, fun ready => ?_⟩
  · unfold State.editWrite
    split
    · contradiction
    · rfl
    · rfl
  · have writes : (s.answerAccess none).editWrite reg lanes v =
        { s.answerAccess none with image := s.image.write reg lanes v } := by
      rw [State.editWrite, show (s.answerAccess none).port.state = .ready from ready]
      rfl
    rw [writes]
    refine ⟨rfl, fun other bit lt => ?_⟩
    rw [State.readWindow_edit, State.readWindow_edit, EditImage.write_register]
    by_cases own : other = reg
    · simp only [own, if_true, true_and, mergeLanes_getLsbD _ _ _ lt]
    · simp only [own, if_false, false_and]

theorem exec_registerWrite {s : State} (listens : s.Listens) (offset : BitVec 7) (strobes : WriteStrobes) (v : Word) :
    exec (.registerWrite offset strobes v) s = .next (writeClaim offset strobes v (s.answerAccess none)) :=
  congrArg Host.Outcome.next (State.slaveAccess_served listens none (writeClaim offset strobes v))

/-- The registers a write of this row can reach (R185, R189, R191). -/
theorem writeTarget_cases : ∀ offset : BitVec 7, offsetEven offset = true → offsetIsEdit offset = false →
    (offset = 0x00 ∧ writeTarget offset = .cmd) ∨ (offset = 0x02 ∧ writeTarget offset = .arg0) ∨
    (offset = 0x04 ∧ writeTarget offset = .arg1) ∨ (offset = 0x06 ∧ writeTarget offset = .arg2) ∨
    ((offset ≠ 0x02 ∧ offset ≠ 0x04 ∧ offset ≠ 0x06) ∧ writeTarget offset = .other) := by
  decide

/-- What reads of the argument registers return after a write at `offset`. -/
def ArgumentsWritten (s t : State) (offset : BitVec 7) (lanes : Lanes) (v : Word) : Prop :=
  ∀ r ∈ [(0x02 : BitVec 7), 0x04, 0x06], ∀ bit : Nat, bit < 16 →
    (t.readWindow r).getLsbD bit =
      if r = offset ∧ ((lanes.low = true ∧ bit < 8) ∨ (lanes.high = true ∧ 8 ≤ bit)) then v.getLsbD bit
      else (s.readWindow r).getLsbD bit

/-- The argument registers after a write, register by register. -/
theorem argumentsWritten_iff {s t : State} {offset : BitVec 7} {lanes : Lanes} {v : Word}
    (each : ∀ r ∈ [(0x02 : BitVec 7), 0x04, 0x06],
      t.readWindow r = if r = offset then mergeLanes (s.readWindow r) v lanes else s.readWindow r) :
    ArgumentsWritten s t offset lanes v := by
  intro r mem bit lt
  rw [each r mem]
  by_cases own : r = offset
  · simp only [own, if_true, true_and, mergeLanes_getLsbD _ _ _ lt]
  · simp only [own, if_false, false_and]

/-- A write at an offset of this row that is no CMD write goes to one argument register, or nowhere. -/
theorem State.windowWrite_arguments (s : State) {offset : BitVec 7} {lanes : Lanes} {v : Word}
    (even : offsetEven offset = true) (noEdit : offsetIsEdit offset = false)
    (noCmd : offset ≠ 0x00 ∨ lanes.low = false) :
    s.windowWrite offset lanes v = { s with port.args := (s.windowWrite offset lanes v).port.args } ∧
      ArgumentsWritten s (s.windowWrite offset lanes v) offset lanes v := by
  have nothing : (∀ r ∈ [(0x02 : BitVec 7), 0x04, 0x06], r ≠ offset) → s.windowWrite offset lanes v = s →
      s.windowWrite offset lanes v = { s with port.args := (s.windowWrite offset lanes v).port.args } ∧
      ArgumentsWritten s (s.windowWrite offset lanes v) offset lanes v := fun other same => by
    rw [same]
    exact ⟨rfl, argumentsWritten_iff fun r mem => (if_neg (other r mem)).symm⟩
  rcases writeTarget_cases offset even noEdit with ⟨rfl, target⟩ | ⟨rfl, target⟩ | ⟨rfl, target⟩ | ⟨rfl, target⟩ |
    ⟨⟨not2, not4, not6⟩, target⟩
  · refine nothing (by decide) ?_
    simp only [State.windowWrite, target, noCmd.resolve_left (fun h => h rfl), Bool.false_eq_true, if_false]
  · refine ⟨by simp only [State.windowWrite, target], argumentsWritten_iff fun r mem => ?_⟩
    simp only [State.windowWrite, target, List.mem_cons, List.not_mem_nil, or_false] at mem ⊢
    rcases mem with rfl | rfl | rfl <;> rfl
  · refine ⟨by simp only [State.windowWrite, target], argumentsWritten_iff fun r mem => ?_⟩
    simp only [State.windowWrite, target, List.mem_cons, List.not_mem_nil, or_false] at mem ⊢
    rcases mem with rfl | rfl | rfl <;> rfl
  · refine ⟨by simp only [State.windowWrite, target], argumentsWritten_iff fun r mem => ?_⟩
    simp only [State.windowWrite, target, List.mem_cons, List.not_mem_nil, or_false] at mem ⊢
    rcases mem with rfl | rfl | rfl <;> rfl
  · refine nothing (fun r mem => ?_) (by simp only [State.windowWrite, target])
    simp only [List.mem_cons, List.not_mem_nil, or_false] at mem
    rcases mem with rfl | rfl | rfl
    · exact not2.symm
    · exact not4.symm
    · exact not6.symm

/-- Settles O10: with both strobes nothing is written; a CMD write is COMMAND_REFUSED's; any other goes to an argument
register or nowhere. -/
theorem registerWriteStoresArguments : Obligations.RegisterWriteStoresArguments := by
  unfold Obligations.RegisterWriteStoresArguments
  intro s offset lanes v listens
  refine ⟨?_, fun _ cmd low => ?_, fun wellFormed noCmd => ?_⟩
  · rw [exec_registerWrite listens, writeClaim_bothStrobes]
    rfl
  · subst cmd
    rw [exec_registerWrite listens, exec_commandRefused listens, writeClaim_write]
    simp only [State.windowWrite, show writeTarget 0x00 = .cmd from rfl, low, if_true]
  · have operands : offsetEven offset = true ∧ offsetIsEdit offset = false := by simpa [WellFormed] using wellFormed
    obtain ⟨same, arguments⟩ := (s.answerAccess none).windowWrite_arguments (v := v) operands.1 operands.2 noCmd
    refine ⟨(s.answerAccess none).windowWrite offset lanes v, exec_registerWrite listens offset ⟨lanes, false⟩ v, ?_,
      arguments⟩
    conv_lhs => rw [same]
    rfl

/-! ### The handle check -/

section
variable {s : State} {c : ResultCode}

theorem State.fetchClaim_refused (refused : s.checkHandle s.arg0 = .refused c) :
    s.fetchClaim = s.complete codeFetch (.bare c) := by
  simp only [State.fetchClaim, refused]

theorem State.storeClaim_refused (refused : s.checkHandle s.arg0 = .refused c) :
    s.storeClaim = s.complete codeStore (.bare c) := by
  simp only [State.storeClaim, refused]

theorem State.armClaim_refused (refused : s.checkHandle s.arg0 = .refused c) :
    s.armClaim = s.complete codeArm (.bare c) := by
  simp only [State.armClaim, refused]

theorem State.triggerClaim_refused (refused : s.checkHandle s.arg0 = .refused c) :
    s.triggerClaim = s.complete codeTrigger (.bare c) := by
  simp only [State.triggerClaim, refused]

theorem State.holdClaim_refused (exact_ : s.HeadWaitExact) (refused : s.checkHandle s.arg0 = .refused c) :
    s.holdClaim = s.complete codeHold (.bare c) := by
  simp only [State.holdClaim, State.namesActive, State.applyHold, refused, State.settleActivity_of_exact exact_]

theorem State.retireClaim_refused (exact_ : s.HeadWaitExact) (refused : s.checkHandle s.arg0 = .refused c) :
    s.retireClaim = s.complete codeRetire (.bare c) := by
  simp only [State.retireClaim, State.namesActive, State.applyRetire, refused, State.settleActivity_of_exact exact_]

end

/-- The six commands that name a record in ARG0. -/
abbrev handleRows : List (Instr × Byte) :=
  [(.fetch, 0x02), (.store, 0x03), (.arm, 0x04), (.hold, 0x05), (.retire, 0x06), (.trigger, 0x07)]

/-- A handle the check refuses: its code, and nothing else changes (R15). -/
theorem exec_handleRow_refused {p : Instr × Byte} (row : p ∈ handleRows) {s : State} (serves : s.Serves p.2)
    (exact_ : s.HeadWaitExact) {c : ResultCode} (refused : s.checkHandle s.givenArgs.a0 = .refused c) :
    exec p.1 s = .next (s.replied p.2 c 0 0) := by
  have ends : ∀ {claim : State → State}, claim (s.served p.2) = (s.served p.2).complete p.2 (.bare c) →
      answer (s.command p.2 claim) = .next (s.replied p.2 c 0 0) := fun claimed => by
    rw [answer_command serves, claimed, State.served_complete]
    rfl
  simp only [handleRows, List.mem_cons, List.not_mem_nil, or_false] at row
  rcases row with rfl | rfl | rfl | rfl | rfl | rfl
  · exact ends (State.fetchClaim_refused (s := s.served _) refused)
  · exact ends (State.storeClaim_refused (s := s.served _) refused)
  · exact ends (State.armClaim_refused (s := s.served _) refused)
  · exact ends (State.holdClaim_refused (s := s.served _) exact_ refused)
  · exact ends (State.retireClaim_refused (s := s.served _) exact_ refused)
  · exact ends (State.triggerClaim_refused (s := s.served _) refused)

/-- Settles O11: each claim begins with the handle check. -/
theorem handleCheckRefusesInOrder : Obligations.HandleCheckRefusesInOrder := by
  unfold Obligations.HandleCheckRefusesInOrder
  exact fun p row s serves exact_ =>
    ⟨fun out => exec_handleRow_refused row serves exact_ (State.checkHandle_outOfRange out),
      fun n stale => exec_handleRow_refused row serves exact_ (State.checkHandle_stale stale)⟩

/-! ### Steps without their condition -/

/-- An access that is not served changes nothing. -/
theorem exec_access_unanswered {s : State} (deaf : ¬s.Listens) {i : Instr} (access : isAccess i = true) :
    exec i s = .next s := by
  have quiet : ∀ driven claim, answer (s.slaveAccess driven claim) = .next s := fun driven claim =>
    congrArg Host.Outcome.next (State.slaveAccess_unanswered deaf driven claim)
  cases i with
  | commandRefused code => exact quiet none fun t => t.cmdWrite code
  | editRegisterWrite reg lanes value => exact quiet none fun t => t.editWrite reg lanes value
  | registerWrite offset strobes value => exact quiet none (writeClaim offset strobes value)
  | take read => exact quiet _ (readClaim read)
  | npeekRead => exact quiet _ (readClaim ⟨0x36, .both⟩)
  | _ => contradiction

section
variable {s : State}

theorem State.pairError_unowned (other : s.bus.ownership ≠ .owner) : s.pairError = s := by
  unfold State.pairError
  split
  · contradiction
  · rfl

theorem State.writeCompleted_unowned (other : s.bus.ownership ≠ .owner) : s.writeCompleted = s := by
  unfold State.writeCompleted
  split
  · contradiction
  · rfl

/-- With no service ended there is no write-back (R114, R149). -/
theorem State.endedService_none (going : ∀ w ∈ s.working, w.endCause = none) : s.endedService = none := by
  cases ended : s.endedService with
  | none => rfl
  | some p =>
    obtain ⟨a, w, c⟩ := p
    obtain ⟨opened, work, cause⟩ := State.endedService_eq_some ended
    have none_ := going w ((State.working_open opened).trans work)
    exact absurd (cause.symm.trans none_) (Option.some_ne_none c)

/-- The service that has ended, from the working copy. -/
theorem State.endedService_of_working {w : Working} {c : EndCause} (serving : s.working = some w)
    (ended : w.endCause = some c) : ∃ a, s.endedService = some (a, w, c) := by
  cases opened : s.activation with
  | none => rw [State.working_closed opened] at serving; contradiction
  | some a => exact ⟨a, State.endedService_eq opened ((State.working_open opened).symm.trans serving) ended⟩

theorem State.resolutionStep_notDue (notDue : ∀ a ∈ s.activation, ∀ l ∈ a.link, l.stage = .waiting) :
    s.resolutionStep = s := by
  unfold State.resolutionStep
  split
  · rfl
  · next a l found =>
    obtain ⟨opened, link, due⟩ := State.linkAt_eq_some found
    exact absurd (due.symm.trans (notDue a opened l link)) Stage.noConfusion

theorem State.afreshStep_notAwaited (notAwaited : ∀ a ∈ s.activation, a.work ≠ none ∨ a.deferred = none) :
    s.afreshStep = s := by
  unfold State.afreshStep
  split
  · rfl
  · next d awaits =>
    obtain ⟨a, opened, work, deferred⟩ := State.awaitingAfresh_eq_some awaits
    rcases notAwaited a opened with working | none_
    · exact absurd work working
    · exact absurd (deferred.symm.trans none_) (Option.some_ne_none d)

end

/-- An event of the part whose claim changes nothing. -/
theorem answer_event {s t : State} (negated : s.inReset = false) {claim : State → State} (h : claim s = t) :
    answer (s.unlessReset claim) = .next t :=
  congrArg Host.Outcome.next ((State.unlessReset_of_negated negated claim).trans h)

/-- Settles O44: each claim tests its condition first. -/
theorem stepsWithoutConditionDoNothing : Obligations.StepsWithoutConditionDoNothing := by
  unfold Obligations.StepsWithoutConditionDoNothing
  refine ⟨fun s deaf => ⟨fun i access => exec_access_unanswered deaf access, fun p row other => ?_,
    fun code other => ?_⟩, fun s negated => ⟨fun other data => ⟨?_, ?_, ?_, ?_⟩, fun going => ⟨?_, ?_⟩,
    fun w serving c ended => ⟨fun fault => ?_, fun sound => ?_⟩, fun notDue => ?_, fun notAwaited => ?_⟩⟩
  · obtain ⟨claim, run⟩ := exec_commandRow row
    rw [run, State.command_unanswered deaf other]
  · exact congrArg Host.Outcome.next (State.command_unanswered deaf other (State.unknownClaim code))
  · exact answer_event negated (by rw [Bus.completeRead_notDue other])
  · exact answer_event negated (State.writeCompleted_unowned other)
  · exact answer_event negated (State.pairError_unowned other)
  · exact answer_event negated (State.pairError_unowned other)
  · exact answer_event negated (by rw [State.writeBackStep, State.endedService_none going])
  · exact answer_event negated (by rw [State.faultWriteBackStep, State.endedService_none going])
  · obtain ⟨a, found⟩ := State.endedService_of_working serving ended
    exact answer_event negated (by simp only [State.writeBackStep, found, fault, if_true])
  · obtain ⟨a, found⟩ := State.endedService_of_working serving ended
    exact answer_event negated (by simp only [State.faultWriteBackStep, found, sound, Bool.false_eq_true, if_false])
  · exact answer_event negated (State.resolutionStep_notDue notDue)
  · exact answer_event negated (State.afreshStep_notAwaited notAwaited)

end Sys2Proof.Machine
end

