-- ==== Sys2Proof/Proofs/RecordCommandEffects.lean ====
section
/-! What ALLOCATE, ARM, HOLD, RETIRE, WIPE and TRIGGER do to the record they name (chapters 2 and 3): each claim by the
state it finds, its completion and the settling of the activity taken from the lemmas of the first part. -/

namespace Sys2Proof.Machine

/-! ### Claims that settle and complete -/

section
variable {s v : State} {code : Byte}

/-- A claim that settles the activity and completes changes the activity and the port beside what it did before. -/
theorem State.settled_complete (a : Reply) (port : v.port = (s.served code).port) :
    v.settleActivity.complete code a = { v with
      activity := v.settleActivity.activity, port := s.answered code a.result a.rval0 a.rval1 } := by
  rw [State.complete_eq (s := s) a (by rw [State.settleActivity_port, port]), v.settleActivity_eq]

/-- It settles the activity (R87, R92). -/
theorem State.settled_complete_settles (a : Reply) (activation : v.activation = s.activation)
    (activity : v.activity = s.activity) : s.ActivitySettles (v.settleActivity.complete code a) :=
  State.settleActivity_settles_from activation activity

/-- Replacing a record twice. -/
theorem State.setRecord_setRecord (s : State) (n : RecNo) (r r' : Record) :
    (s.setRecord n r).setRecord n r' = s.setRecord n r' := by
  unfold State.setRecord
  simp

theorem State.setRecord_get (s : State) (n : RecNo) (r : Record) : (s.setRecord n r).records[n] = r :=
  (vector_set_get _ _ _ _).trans (if_pos rfl)

/-- A record replaced and given its standing trigger: only its latch differs from the record put in. -/
theorem State.setRecord_standing (s : State) (n : RecNo) (r : Record) : (s.setRecord n r).standingTrigger n =
    s.setRecord n { r with latch := ((s.setRecord n r).standingTrigger n).records[n].latch } := by
  conv_lhs => rw [State.standingTrigger_eq, State.setRecord_get]
  exact State.setRecord_setRecord s n r _

/-- Its latch is what R65 asks for. -/
theorem State.setRecord_standing_latch {n : RecNo} {r : Record} (map : (s.setRecord n r).BindingMap) :
    s.StandingLatch n r ((s.setRecord n r).standingTrigger n).records[n].latch := by
  have latch := State.standingTrigger_latch map n
  rw [State.setRecord_get] at latch
  exact latch

/-- A claim that puts a record in its place, gives it its standing trigger, settles the activity and completes. -/
theorem State.standing_course {n : RecNo} {r : Record} (map : ((s.served code).setRecord n r).BindingMap) (a : Reply)
    {t : State}
    (claim : t = (((s.served code).setRecord n r).standingTrigger n).settleActivity.complete code a) :
    t = { s with
      records := s.records.set n { r with latch := t.records[n].latch }
      activity := t.activity
      bus := s.busAfter
      port := s.answered code a.result a.rval0 a.rval1 } ∧
    s.StandingLatch n r t.records[n].latch ∧ s.ActivitySettles t := by
  have latch := State.setRecord_standing_latch map
  have shape := State.setRecord_standing (s.served code) n r
  have port : (((s.served code).setRecord n r).standingTrigger n).port = (s.served code).port := by simp
  have settles := State.settled_complete_settles (s := s) (code := code)
    (v := ((s.served code).setRecord n r).standingTrigger n) a (by simp) (by simp)
  generalize ((s.served code).setRecord n r).standingTrigger n = u at *
  rw [State.settled_complete (s := s) a port] at claim settles
  subst claim
  refine ⟨?_, latch, settles⟩
  generalize u.settleActivity.activity = activity
  conv_lhs => rw [shape]
  rfl

/-- A claim that puts a record in its place, settles the activity and completes. -/
theorem State.replaced_course {n : RecNo} {r : Record} (a : Reply) {t : State}
    (claim : t = ((s.served code).setRecord n r).settleActivity.complete code a) :
    t = { s with
      records := s.records.set n t.records[n]
      activity := t.activity
      bus := s.busAfter
      port := s.answered code a.result a.rval0 a.rval1 } ∧
    t.records[n] = r ∧ s.ActivitySettles t := by
  have settles := State.settled_complete_settles (s := s) (v := (s.served code).setRecord n r) (code := code) a rfl rfl
  rw [State.settled_complete (s := s) a (State.setRecord_port ..)] at claim settles
  subst claim
  have entry : ((s.served code).setRecord n r).records[n] = r := State.setRecord_get _ n r
  refine ⟨?_, entry, settles⟩
  rw [entry]
  rfl

/-- The record that `standing_course` leaves. -/
theorem State.record_of_set {t : State} {n : RecNo} {r : Record} (records : t.records = s.records.set n r) :
    t.records[n] = r := by
  rw [records]
  exact (vector_set_get _ _ _ _).trans (if_pos rfl)

/-- A record replaced by one in use of the same generation keeps the binding map. -/
theorem State.BindingMap.replaced {n : RecNo} {r : Record} (map : s.BindingMap) (used : r.state ≠ .free)
    (gen : r.gen = s.records[n].gen) : (s.setRecord n r).BindingMap :=
  map.setRecord fun _ => ⟨used, gen⟩

end

/-! ### ALLOCATE -/

/-- A search in the order of the numbers finds the lowest that satisfies `p`. -/
theorem finRange_find?_of_lowest {k : Nat} {p : Fin k → Bool} {l : Fin k} (holds : p l = true)
    (lowest : ∀ m, p m = true → l ≤ m) : (List.finRange k).find? p = some l := by
  cases found : (List.finRange k).find? p with
  | none => exact absurd holds (List.find?_eq_none.mp found l (List.mem_finRange l))
  | some m =>
    obtain ⟨holds', before, after, split, notBefore⟩ := List.find?_eq_some_iff_append.mp found
    have sorted := List.pairwise_lt_finRange k
    rw [split] at sorted
    have mem := List.mem_finRange l
    rw [split, List.mem_append, List.mem_cons] at mem
    rcases mem with early | rfl | late
    · exact absurd holds (by simpa using notBefore l early)
    · rfl
    · have lt : m < l := (List.pairwise_cons.mp (List.pairwise_append.mp sorted).2.1).1 l late
      exact absurd (lowest m holds') (not_le.mpr lt)

/-- The lowest-numbered FREE record (R18). -/
theorem State.lowestFree_of_lowest {s : State} {n : RecNo} (free : s.records[n].state = .free)
    (lowest : ∀ m : RecNo, m < n → s.records[m].state ≠ .free) : s.lowestFree = some n :=
  finRange_find?_of_lowest (beq_iff_eq.mpr free) fun m found =>
    not_lt.mp fun lt => lowest m lt (beq_iff_eq.mp found)

theorem State.lowestFree_none {s : State} (full : ∀ n : RecNo, s.records[n].state ≠ .free) : s.lowestFree = none :=
  List.find?_eq_none.mpr fun n _ free => full n (beq_iff_eq.mp free)

/-- A handle's word: the generation above the record number (R14). -/
theorem Handle.word_toNat (h : Handle) : h.word.toNat = h.gen.toNat * 256 + h.num.val := by
  have gen := h.gen.isLt
  have num := h.num.isLt
  rw [Handle.word, BitVec.toNat_ofNat, Nat.mod_eq_of_lt (by omega)]

/-- Settles O12: the claim by what the search for a FREE record finds. -/
theorem allocateTakesLowestFree : Obligations.AllocateTakesLowestFree := by
  unfold Obligations.AllocateTakesLowestFree
  intro s serves
  have run : exec .allocate s = .next (s.served codeAllocate).allocateClaim := answer_command serves State.allocateClaim
  refine ⟨fun n free lowest => ⟨_, run, ?_⟩, fun full => run.trans (congrArg Host.Outcome.next ?_)⟩
  · have found : (s.served codeAllocate).lowestFree = some n := State.lowestFree_of_lowest (s := s.served _) free lowest
    have claim : (s.served codeAllocate).allocateClaim =
        ((s.served codeAllocate).setRecord n (.allocated (s.records[n].gen + 1))).complete codeAllocate
          ⟨.ok, (Handle.mk n (s.records[n].gen + 1)).word, RecState.free.word⟩ := by
      rw [State.allocateClaim, found]
      rfl
    rw [claim, State.complete_eq (s := s) _ (State.setRecord_port ..)]
    exact ⟨rfl, Handle.word_toNat _⟩
  · rw [State.allocateClaim, State.lowestFree_none (s := s.served _) full]
    exact State.served_complete s codeAllocate _

/-! ### ARM -/

section
variable {s : State} {n : RecNo}

/-- The handle check of a served command whose argument names record `n` (R15). -/
theorem State.served_checkHandle {code : Byte} {w : Word} (names : s.NamesRecord w n) :
    (s.served code).checkHandle w = .passed ⟨n, s.records[n].gen⟩ :=
  State.checkHandle_passed (s := s.served code) names

theorem RecState.editable_of_not {st : RecState} (draft : st ≠ .draft) (held : st ≠ .held) : st.editable = false :=
  Bool.eq_false_iff.mpr fun editable => ((RecState.editable_iff st).mp editable).elim draft held

/-- ARM's claim on a record the handle check lets through (R36 to R38). -/
theorem State.armClaim_passed (names : s.NamesRecord s.arg0 n) : s.armClaim =
    if s.records[n].state.editable then
      match s.records[n].failingCheck with
      | some k => s.complete codeArm ⟨.invalid, BitVec.ofNat 16 k, s.records[n].state.word⟩
      | none =>
        (((s.setRecord n { s.records[n] with state := .armed }).standingTrigger n).settleActivity).complete codeArm
          (.done s.arg0 s.records[n].state)
    else s.complete codeArm (.stateFound s.records[n].state) := by
  rw [State.armClaim, State.checkHandle_passed names] <;> rfl

/-- Settles O16: the claim by the state found and by COUNT, the one check stored fields can fail. -/
theorem armTakesRecordToArmed : Obligations.ArmTakesRecordToArmed := by
  unfold Obligations.ArmTakesRecordToArmed
  intro s n serves names sound map
  have run : exec .arm s = .next (s.served codeArm).armClaim := answer_command serves State.armClaim
  have claim := State.armClaim_passed (s := s.served codeArm) names
  rw [State.served_records, Record.failingCheck_of_sound sound] at claim
  refine ⟨fun notDraft notHeld => run.trans (congrArg Host.Outcome.next ?_),
    fun editable => ⟨fun zero => run.trans (congrArg Host.Outcome.next ?_), fun nonzero => ⟨_, run, ?_⟩⟩⟩
  · rw [claim, RecState.editable_of_not notDraft notHeld]
    exact State.served_complete s codeArm _
  · rw [if_pos ((RecState.editable_iff _).mpr editable), if_pos zero] at claim
    exact claim.trans (State.served_complete s codeArm ⟨.invalid, 1, s.records[n].state.word⟩)
  · rw [if_pos ((RecState.editable_iff _).mpr editable), if_neg nonzero] at claim
    generalize (s.served codeArm).armClaim = t at claim ⊢
    have armed : ((s.served codeArm).setRecord n { s.records[n] with state := .armed }).BindingMap :=
      State.BindingMap.replaced (s := s.served codeArm) map RecState.noConfusion rfl
    have course := State.standing_course armed _ claim
    exact course

end

/-! ### HOLD -/

section
variable {s : State} {n : RecNo}

theorem State.namesActive_other {w : Word} (names : s.NamesRecord w n) (other : s.records[n].state ≠ .active) :
    s.namesActive w = none := by
  rw [State.namesActive, State.checkHandle_passed names]
  exact if_neg other

/-- HOLD's claim on a record that is not ACTIVE (R39). -/
theorem State.holdClaim_passed (names : s.NamesRecord s.arg0 n) (other : s.records[n].state ≠ .active) :
    s.holdClaim = (s.applyHold s.arg0).1.settleActivity.complete codeHold (s.applyHold s.arg0).2 := by
  rw [State.holdClaim, State.namesActive_other names other]

/-- What HOLD does to the record the handle check lets through, by the state found (R39, R41). -/
theorem State.applyHold_passed {w : Word} (names : s.NamesRecord w n) : s.applyHold w =
    match s.records[n].state with
    | .armed => (s.setRecord n { s.records[n] with state := .held }, .done w s.records[n].state)
    | .held => (s, .done w s.records[n].state)
    | .spent | .faulted =>
      ((s.setRecord n { s.records[n] with state := .held, fault := none }).standingTrigger n,
        .done w s.records[n].state)
    | .draft | .active | .free => (s, .stateFound s.records[n].state) := by
  rw [State.applyHold, State.checkHandle_passed names] <;> rfl

/-- Settles O17: HOLD by the state of the record found. -/
theorem holdPausesRecord : Obligations.HoldPausesRecord := by
  unfold Obligations.HoldPausesRecord
  intro s n serves names other map exact_
  have run : exec .hold s = .next (s.served codeHold).holdClaim := answer_command serves State.holdClaim
  have claim := State.holdClaim_passed (s := s.served codeHold) names other
  rw [State.applyHold_passed (s := s.served codeHold) (w := (s.served codeHold).arg0) names] at claim
  have same : (s.served codeHold).setRecord n s.records[n] = s.served codeHold := by
    rw [State.setRecord, State.served_records, vector_set_self]
    rfl
  refine ⟨_, run, ?_⟩
  generalize (s.served codeHold).holdClaim = t at claim ⊢
  have stays : ∀ a : Reply, t = (s.served codeHold).settleActivity.complete codeHold a →
      t = ((s.served codeHold).setRecord n s.records[n]).settleActivity.complete codeHold a := fun a h => by
    rw [same]
    exact h
  have held : ((s.served codeHold).setRecord n { s.records[n] with state := .held, fault := none }).BindingMap :=
    State.BindingMap.replaced (s := s.served codeHold) map RecState.noConfusion rfl
  rw [State.served_records] at claim
  cases state : s.records[n].state with
  | free => exact absurd state names.2.1
  | active => exact absurd state other
  | draft =>
    rw [state] at claim
    obtain ⟨shape, record, settles⟩ := State.replaced_course _ (stays _ claim)
    exact ⟨settles, shape, fun _ => record, by simp, by simp⟩
  | held =>
    rw [state] at claim
    obtain ⟨shape, record, settles⟩ := State.replaced_course _ (stays _ claim)
    exact ⟨settles, shape, fun _ => record, by simp, by simp⟩
  | armed =>
    rw [state] at claim
    obtain ⟨shape, record, settles⟩ := State.replaced_course _ claim
    exact ⟨settles, shape, by simp, fun _ => record, by simp⟩
  | spent =>
    rw [state] at claim
    obtain ⟨shape, latch, settles⟩ := State.standing_course held _ claim
    have record := State.record_of_set (congrArg State.records shape)
    exact ⟨settles, by rw [record]; exact shape, by simp, by simp, fun _ => ⟨record, latch⟩⟩
  | faulted =>
    rw [state] at claim
    obtain ⟨shape, latch, settles⟩ := State.standing_course held _ claim
    have record := State.record_of_set (congrArg State.records shape)
    exact ⟨settles, by rw [record]; exact shape, by simp, by simp, fun _ => ⟨record, latch⟩⟩

end

/-! ### RETIRE -/

section
variable {s t : State} {n : RecNo}

/-- RETIRE's claim on a record that is not ACTIVE (R42). -/
theorem State.retireClaim_passed (names : s.NamesRecord s.arg0 n) (other : s.records[n].state ≠ .active) :
    s.retireClaim = (s.freeRecord n).settleActivity.complete codeRetire (.done s.arg0 s.records[n].state) := by
  rw [State.retireClaim, State.namesActive_other names other, State.applyRetire, State.checkHandle_passed names]

/-- Freeing shows in the records and the table alone. -/
theorem State.Freed.congr {u v : State} (h : s.Freed t n) (records : u.records = s.records)
    (bindings : u.bindings = s.bindings) (records' : v.records = t.records) (bindings' : v.bindings = t.bindings) :
    u.Freed v n := by
  unfold State.Freed at h ⊢
  rw [records, bindings, records', bindings']
  exact h

/-- Settles O18: the record freed, the activity settled, the command completed. -/
theorem retireFreesRecord : Obligations.RetireFreesRecord := by
  unfold Obligations.RetireFreesRecord
  intro s n serves names other
  have run : exec .retire s = .next (s.served codeRetire).retireClaim := answer_command serves State.retireClaim
  have claim := State.retireClaim_passed (s := s.served codeRetire) names other
  have settles := State.settled_complete_settles (s := s) (v := (s.served codeRetire).freeRecord n) (code := codeRetire)
    (.done s.givenArgs.a0 s.records[n].state) rfl rfl
  have freed := (s.served codeRetire).freeRecord_freed n
  refine ⟨_, run, ?_⟩
  generalize (s.served codeRetire).retireClaim = t at claim ⊢
  subst claim
  refine ⟨freed.congr rfl rfl (State.settleActivity_records _) (State.settleActivity_bindings _), settles, ?_⟩
  rw [State.settled_complete (s := s) _ (State.freeRecord_port ..)]
  rfl

end

/-! ### A command deferred -/

section
variable {s : State} {a : Activation} {n : RecNo}

/-- HOLD and RETIRE of the ACTIVE record are deferred (R45). -/
theorem State.namesActive_active {w : Word} (names : s.NamesRecord w n) (active : s.records[n].state = .active) :
    s.namesActive w = some ⟨n, s.records[n].gen⟩ := by
  rw [State.namesActive, State.checkHandle_passed names]
  exact if_pos active

theorem State.deferCommand_open (opened : s.activation = some a) (kind : DeferredKind) (h : Handle) :
    s.deferCommand kind h = State.cutWaitingRequest
      { s.setWaiting kind.command with activation := some { a with deferred := some ⟨kind, h⟩ } }
      { a with deferred := some ⟨kind, h⟩ } := by
  simp [State.deferCommand, State.setWaiting, opened]

theorem Bus.withdraw_eq {c : Bus} (h : c.ownership ≠ .owner) : c.withdraw = { c with
    request := none, ownership := .released, spacing := if c.ownership = .requesting then 2 else c.spacing } := by
  obtain ⟨ownership, _, _, _, _, _, _⟩ := c
  cases ownership with
  | released => rfl
  | requesting => rfl
  | owner => contradiction

/-- What the deferral of a command served leaves: the port WAITING, the engine's reference taken, and a service that
waits for the grant cut (R45, R112, R113). -/
theorem State.served_deferCommand (opened : s.activation = some a) (kind : DeferredKind) (h : Handle) {t : State}
    (claim : t = (s.served kind.command).deferCommand kind h) :
    t = { s with port := s.waiting kind.command s.port.stopHandle, activation := t.activation, bus := t.bus } ∧
    (∀ w : Working, a.work = some w → w.endCause = none → s.bus.ownership ≠ .owner →
      t.activation = some { a with deferred := some ⟨kind, h⟩, work := some { w with endCause := some .cut } } ∧
      t.bus = { s.busAfter with
        request := none
        ownership := .released
        spacing := if s.bus.ownership = .requesting then 2 else s.bus.spacing }) ∧
    ((∀ w : Working, a.work = some w → w.endCause ≠ none) ∨ s.bus.ownership = .owner →
      t.activation = some { a with deferred := some ⟨kind, h⟩ } ∧ t.bus = s.busAfter) := by
  rw [State.deferCommand_open (s := s.served kind.command) opened] at claim
  rcases State.cutWaitingRequest_cases
      { (s.served kind.command).setWaiting kind.command with activation := some { a with deferred := some ⟨kind, h⟩ } }
      { a with deferred := some ⟨kind, h⟩ } with ⟨w, work, unowned, going, cuts⟩ | ⟨goesOn, same⟩
  · rw [cuts] at claim
    have owner : s.bus.ownership ≠ .owner := fun owned => unowned (s.busAfter_ownership.trans owned)
    subst claim
    refine ⟨rfl, fun v work' _ _ => ⟨?_, ?_⟩, fun stays => ?_⟩
    · obtain rfl : w = v := Option.some.inj (work.symm.trans work')
      rfl
    · refine (Bus.withdraw_eq (c := s.busAfter) unowned).trans ?_
      rw [s.busAfter_ownership, s.busAfter_spacing]
    · exact (stays.elim (fun ended => ended w work going) owner).elim
  · rw [same] at claim
    subst claim
    refine ⟨rfl, fun w work going unowned => ?_, fun _ => ⟨rfl, rfl⟩⟩
    exact absurd going (goesOn w work fun owned => unowned (s.busAfter_ownership.symm.trans owned))

/-- Settles O19: HOLD and RETIRE take the same course, by what the service in flight is doing. -/
theorem activeRecordDefersCommand : Obligations.ActiveRecordDefersCommand := by
  unfold Obligations.ActiveRecordDefersCommand
  intro p row s n a serves names active opened
  simp only [List.mem_cons, List.not_mem_nil, or_false] at row
  rcases row with rfl | rfl
  · have claim : (s.served codeHold).holdClaim = (s.served codeHold).deferCommand .hold ⟨n, s.records[n].gen⟩ := by
      rw [State.holdClaim, State.namesActive_active (s := s.served codeHold) (w := (s.served codeHold).arg0) names active]
      rfl
    have run : exec .hold s = .next (s.served codeHold).holdClaim := answer_command serves State.holdClaim
    exact ⟨_, run, State.served_deferCommand opened .hold _ claim⟩
  · have claim : (s.served codeRetire).retireClaim = (s.served codeRetire).deferCommand .retire ⟨n, s.records[n].gen⟩ := by
      rw [State.retireClaim,
        State.namesActive_active (s := s.served codeRetire) (w := (s.served codeRetire).arg0) names active]
      rfl
    have run : exec .retire s = .next (s.served codeRetire).retireClaim := answer_command serves State.retireClaim
    exact ⟨_, run, State.served_deferCommand opened .retire _ claim⟩

end

/-! ### WIPE -/

theorem State.wiped_record (s : State) (n : RecNo) : s.wiped.records[n] = Record.empty s.records[n].gen :=
  mapTable_getElem _ _ _ _

/-- Settles O20: the claim by enable and activity. -/
theorem wipeEmptiesTheStore : Obligations.WipeEmptiesTheStore := by
  unfold Obligations.WipeEmptiesTheStore
  intro s serves
  have run : exec .wipe s = .next (s.served codeWipe).wipeClaim := answer_command serves State.wipeClaim
  refine ⟨fun busy => run.trans (congrArg Host.Outcome.next ?_), fun off still => ⟨_, run, ?_⟩⟩
  · have on_ : ¬((s.served codeWipe).enable = false ∧ (s.served codeWipe).activity = .idle) := fun ⟨off, still⟩ =>
      busy.elim (fun enable => Bool.noConfusion (off.symm.trans enable)) fun other => other still
    rw [State.wipeClaim, if_neg on_]
    exact State.served_complete s codeWipe _
  · have claim : (s.served codeWipe).wipeClaim = (s.served codeWipe).wiped.complete codeWipe (.bare .ok) :=
      if_pos ⟨off, still⟩
    rw [claim]
    exact ⟨rfl, (s.served codeWipe).wiped_record, fun k => Vector.getElem_replicate k.isLt,
      fun k => Vector.getElem_replicate k.isLt⟩

/-! ### TRIGGER -/

/-- TRIGGER's claim on a record the handle check lets through (R69). -/
theorem State.triggerClaim_passed {s : State} {n : RecNo} (names : s.NamesRecord s.arg0 n) : s.triggerClaim =
    if s.records[n].state.latches then
      ((s.deliverTrigger n).settleActivity).complete codeTrigger (.done s.arg0 s.records[n].state)
    else s.complete codeTrigger (.stateFound s.records[n].state) := by
  rw [State.triggerClaim, State.checkHandle_passed names]

/-- Settles O21: one trigger delivered where triggers latch, else STATE. -/
theorem triggerCommandLatches : Obligations.TriggerCommandLatches := by
  unfold Obligations.TriggerCommandLatches
  intro s n serves names
  have run : exec .trigger s = .next (s.served codeTrigger).triggerClaim := answer_command serves State.triggerClaim
  have claim := State.triggerClaim_passed (s := s.served codeTrigger) names
  rw [State.served_records] at claim
  refine ⟨fun state => run.trans (congrArg Host.Outcome.next ?_), fun state => ⟨_, run, ?_⟩⟩
  · have none_ : s.records[n].state.latches = false := by
      rcases state with state | state | state <;> rw [state] <;> rfl
    rw [claim, none_]
    exact State.served_complete s codeTrigger _
  · have latches : s.records[n].state.latches = true := by
      rcases state with state | state | state <;> rw [state] <;> rfl
    rw [latches, if_pos rfl] at claim
    generalize (s.served codeTrigger).triggerClaim = t at claim ⊢
    obtain ⟨shape, record, settles⟩ := State.replaced_course _ claim
    exact ⟨settles, record ▸ Record.triggered_taken _, shape⟩

end Sys2Proof.Machine
end

