-- ==== Sys2Proof/Proofs/WindowReads.lean ====
section
/-! What a read of each register of the window returns (10.7): PSTAT, ISVC and ACTV by their fields, the rest as stored. -/

namespace Sys2Proof.Machine

variable (s : State)

/-- Every register that reads what is stored in it. -/
theorem State.readWindow_stored : ∀ p ∈ storedRegisters s, s.readWindow p.1 = p.2 := by
  simp [storedRegisters, State.readWindow]

/-- Offsets above ACTV read 0 (R190). -/
theorem State.readWindow_reserved {offset : BitVec 7} (above : 0x44 ≤ offset.toNat) : s.readWindow offset = 0 := by
  have index : 34 ≤ offset.toNat / 2 := by omega
  unfold State.readWindow
  generalize offset.toNat / 2 = k at index
  split
  case h_34 => rfl
  all_goals omega

theorem PortState.code_lt (p : PortState) : p.code < 3 := by cases p <;> simp [PortState.code]
theorem Activity.code_lt (a : Activity) : a.code < 3 := by cases a <;> simp [Activity.code]

/-- PSTAT as a number, with at most 32 notices queued (R191). -/
theorem State.pstat_toNat (limit : s.notices.queue.length ≤ 32) : s.pstat.toNat =
    s.port.state.code + s.port.refused.toNat * 4 + s.enable.toNat * 8 + s.activity.code * 16 +
      s.notices.note.toNat * 64 + s.notices.queue.length * 128 := by
  have port := s.port.state.code_lt
  have activity := s.activity.code_lt
  have refused := Bool.toNat_lt s.port.refused
  have enable := Bool.toNat_lt s.enable
  have note := Bool.toNat_lt s.notices.note
  rw [State.pstat, BitVec.toNat_ofNat, Nat.mod_eq_of_lt (by omega)]

/-- The fields of PSTAT (R191). -/
theorem State.pstat_fields (limit : s.notices.queue.length ≤ 32) :
    bitField s.pstat 0 2 = s.port.state.code ∧ bitField s.pstat 2 1 = s.port.refused.toNat ∧
    bitField s.pstat 3 1 = s.enable.toNat ∧ bitField s.pstat 4 2 = s.activity.code ∧
    bitField s.pstat 6 1 = s.notices.note.toNat ∧ bitField s.pstat 7 6 = s.notices.queue.length ∧
    bitField s.pstat 13 3 = 0 := by
  have value := s.pstat_toNat limit
  have port := s.port.state.code_lt
  have activity := s.activity.code_lt
  have refused := Bool.toNat_lt s.port.refused
  have enable := Bool.toNat_lt s.enable
  have note := Bool.toNat_lt s.notices.note
  simp only [bitField, value]
  omega

/-- ISVC: the in-service set below, the floor above (R191). -/
theorem NoticeUnit.isvc_fields (u : NoticeUnit) :
    (∀ l : Urgency, u.isvc.getLsbD l.val = u.inService.getLsbD l.val) ∧
    bitField u.isvc 8 4 = u.floor.val ∧ bitField u.isvc 12 4 = 0 := by
  have set_ := u.inService.isLt
  have floor := u.floor.isLt
  have value : u.isvc.toNat = u.inService.toNat + u.floor.val * 256 := by
    rw [NoticeUnit.isvc, BitVec.toNat_ofNat, Nat.mod_eq_of_lt (by omega)]
  refine ⟨fun l => ?_, ?_, ?_⟩
  · have lt := l.isLt
    rw [BitVec.getLsbD, BitVec.getLsbD, value,
      show u.inService.toNat + u.floor.val * 256 = 2 ^ 8 * u.floor.val + u.inService.toNat by ring,
      Nat.testBit_two_pow_mul_add _ set_, if_pos lt]
  · simp only [bitField, value]
    omega
  · simp only [bitField, value]
    omega

/-- A read of a register other than NTAKE and NPEEK does nothing beside its answer (R189). -/
theorem readClaim_plain {access : ReadAccess} (even : offsetEven access.offset = true) (noPeek : access.offset ≠ 0x36)
    (noTake : access.offset ≠ 0x34) : readClaim access = id := by
  have even' : access.offset.toNat % 2 = 0 := by simpa [offsetEven] using even
  have take : access.offset.toNat ≠ 0x34 := fun same => noTake (BitVec.eq_of_toNat_eq same)
  have peek : access.offset.toNat ≠ 0x36 := fun same => noPeek (BitVec.eq_of_toNat_eq same)
  unfold readClaim
  split
  · omega
  · omega
  · rfl

/-- Settles O8: each clause by the register it reads. -/
theorem windowReadsReturnRegisters : Obligations.WindowReadsReturnRegisters := by
  unfold Obligations.WindowReadsReturnRegisters
  intro s
  obtain ⟨set_, floor, unused⟩ := s.notices.isvc_fields
  refine ⟨s.readWindow_stored, rfl, fun offset above => s.readWindow_reserved above, s.pstat_fields, set_, floor, unused,
    fun idle => ?_, fun w serving => ?_, rfl, fun empty => ?_, fun n rest queue => ?_,
    fun access wellFormed noTake listens => ?_⟩
  · change s.actv = _
    rw [State.actv, idle]
    rfl
  · change s.actv.toNat = _
    rw [State.actv, show s.working = some w from serving]
    exact w.handle.word_toNat
  · exact NoticeUnit.headWord_empty empty
  · change FirstWordOf s.notices.headWord n
    rw [NoticeUnit.headWord, queue]
    exact n.firstWord_word
  · have operands : offsetEven access.offset = true ∧ access.offset ≠ 0x36 := by simpa [WellFormed] using wellFormed
    refine ⟨_, exec_take_of_listens listens access, ?_⟩
    rw [readClaim_plain operands.1 operands.2 noTake]
    exact ⟨rfl, rfl, rfl⟩

end Sys2Proof.Machine
end

