-- ==== Sys2Proof/Proofs/FetchAndStore.lean ====
section
/-! FETCH and STORE (2.4): the read-back registers, the checks of the staging image, and that a STORE after a FETCH
stores the same fields. -/

namespace Sys2Proof.Machine

/-! ### FETCH -/

/-- The binding as IM_STATE shows it in bits 13:7 (R191). -/
def bindingField : Option SourceNo → Nat
  | none => 0
  | some k => 128 + k.val * 256

theorem bindingField_lt (k : Option SourceNo) : bindingField k < 128 + 40 * 256 := by
  cases k with
  | none => decide
  | some k =>
    have lt := k.isLt
    simp only [bindingField]
    omega

theorem RecState.code_lt (st : RecState) : st.code < 7 := by cases st <;> decide

theorem RecState.word_toNat (st : RecState) : st.word.toNat = st.code := by cases st <;> rfl

section
variable (s : State) (n : RecNo)

/-- The fields of IM_STATE (R30, R191). -/
theorem State.imState_fields (limit : s.records[n].latch ≤ 4) :
    bitField (s.imState n) 0 3 = s.records[n].state.code ∧ bitField (s.imState n) 3 3 = s.records[n].latch ∧
    bitField (s.imState n) 6 1 = s.records[n].overrun.toNat ∧ bitField (s.imState n) 14 2 = 0 ∧
    bitField (s.imState n) 7 1 * 128 + bitField (s.imState n) 8 6 * 256 = bindingField (s.sourceOf n) := by
  have state := s.records[n].state.code_lt
  have overrun := Bool.toNat_lt s.records[n].overrun
  have bound := bindingField_lt (s.sourceOf n)
  have aligned : bindingField (s.sourceOf n) % 128 = 0 := by
    cases s.sourceOf n with
    | none => rfl
    | some k =>
      simp only [bindingField]
      omega
  have value : (s.imState n).toNat = s.records[n].state.code + s.records[n].latch * 8 +
      s.records[n].overrun.toNat * 64 + bindingField (s.sourceOf n) := by
    have shape : s.imState n = BitVec.ofNat 16 (s.records[n].state.code + s.records[n].latch * 8 +
        s.records[n].overrun.toNat * 64 + bindingField (s.sourceOf n)) := by
      unfold State.imState
      cases s.sourceOf n <;> rfl
    rw [shape, BitVec.toNat_ofNat, Nat.mod_eq_of_lt (by omega)]
  simp only [bitField, value]
  omega

/-- An address is the word of its high register above that of its low (R191). -/
theorem addrHigh_addrLow (a : Addr) : (addrHigh a).toNat * 65536 + (addrLow a).toNat = a.toNat := by
  have lt := a.isLt
  simp [addrHigh, addrLow]
  omega

/-- The fields of a fault part's word (R191). -/
theorem FaultPart.word_fields (f : FaultPart) : bitField f.word 0 2 = f.cause.code ∧ bitField f.word 2 6 = 0 ∧
    bitField f.word 8 8 * 65536 + (addrLow f.addr).toNat = f.addr.toNat := by
  have addr := f.addr.isLt
  have cause : f.cause.code < 4 := by cases f.cause <;> decide
  simp [FaultPart.word, bitField, addrLow]
  omega

/-- A handle that names a record's present allocation is that record's handle (R14, R15). -/
theorem State.handle_of_names {w : Word} (names : s.NamesRecord w n) : (Handle.mk n s.records[n].gen).word = w := by
  obtain ⟨num, _, gen⟩ := names
  refine BitVec.eq_of_toNat_eq ?_
  rw [Handle.word_toNat]
  change s.records[n].gen.toNat * 256 + n.val = w.toNat
  omega

end

/-- The unused bits of the image FETCH loads are 0 (R29). -/
theorem EditImage.ofRecord_unused (r : Record) :
    (EditImage.ofRecord r).srcH.toNat < 256 ∧ (EditImage.ofRecord r).dstH.toNat < 256 ∧
    bitField (EditImage.ofRecord r).mode 12 4 = 0 ∧ bitField (EditImage.ofRecord r).level 3 1 = 0 ∧
    bitField (EditImage.ofRecord r).level 6 10 = 0 := by
  have high : ∀ a : Addr, (addrHigh a).toNat < 256 := fun a => by
    have lt := a.isLt
    simp [addrHigh]
    omega
  have mode := bitField_modeWord r.edit 12 4
  have codes := r.edit.codes_lt
  have urgency := r.edit.urgency.isLt
  have rank := r.edit.rank.isLt
  have level : (levelWord r.edit).toNat = r.edit.urgency.val + r.edit.rank.val * 16 := by
    rw [levelWord, BitVec.toNat_ofNat, Nat.mod_eq_of_lt (by omega)]
  refine ⟨high _, high _, mode.trans (by omega), ?_, ?_⟩
  · simp only [EditImage.ofRecord, bitField, level]
    omega
  · simp only [EditImage.ofRecord, bitField, level]
    omega

/-- FETCH's claim on a record the handle check lets through (R28). -/
theorem State.fetchClaim_passed {s : State} {n : RecNo} (names : s.NamesRecord s.arg0 n) : s.fetchClaim =
    ({ s with image := .ofRecord s.records[n], readBack := s.readBackOf n }).complete codeFetch
      (.done s.arg0 s.records[n].state) := by
  rw [State.fetchClaim, State.checkHandle_passed names]

/-- FETCH, taken, of a record its argument names (R28 to R31). -/
theorem exec_fetch_of_names {s : State} {n : RecNo} (serves : s.Serves codeFetch)
    (names : s.NamesRecord s.givenArgs.a0 n) : exec .fetch s = .next { s with
      image := .ofRecord s.records[n], readBack := s.readBackOf n, bus := s.busAfter
      port := s.answered codeFetch .ok s.givenArgs.a0 s.records[n].state.word } := by
  have run : exec .fetch s = .next (s.served codeFetch).fetchClaim := answer_command serves State.fetchClaim
  rw [run, State.fetchClaim_passed (s := s.served codeFetch) names]
  rfl

/-- Settles O13: the image by the encodings of 10.7, the read-back registers field by field. -/
theorem fetchLoadsTheImage : Obligations.FetchLoadsTheImage := by
  unfold Obligations.FetchLoadsTheImage
  intro s n serves names sound map limit
  obtain ⟨state, latch, overrun, high, bound⟩ := s.imState_fields n limit
  obtain ⟨srcH, dstH, mode, level, level'⟩ := EditImage.ofRecord_unused s.records[n]
  have bit7 := bitField_lt (s.imState n) 7 1
  have bits8 := bitField_lt (s.imState n) 8 6
  refine ⟨_, exec_fetch_of_names serves names, rfl, EditImage.ofRecord_encodes sound, rfl, srcH, dstH, mode, level, level',
    fun absent => ?_, fun absent => ?_, state, latch, overrun, high, fun k named => ?_, fun unbound => ?_,
    addrHigh_addrLow _, addrHigh_addrLow _, fun absent => ?_, fun f present => ?_, s.handle_of_names n names⟩
  · exact congrArg (Option.getD · 0) absent
  · exact congrArg (fun x : Option Successor => (x.map (·.handle.word)).getD 0) absent
  · rw [(State.sourceOf_eq_some map).mpr named] at bound
    simp only [bindingField] at bound
    change bitField (s.imState n) 7 1 = 1 ∧ bitField (s.imState n) 8 6 = k.val
    omega
  · rw [State.sourceOf_eq_none.mpr unbound] at bound
    simp only [bindingField] at bound
    change bitField (s.imState n) 7 1 = 0 ∧ bitField (s.imState n) 8 6 = 0
    omega
  · exact ⟨congrArg (fun x : Option FaultPart => (x.map FaultPart.word).getD 0) absent,
      congrArg (fun x : Option FaultPart => (x.map fun f : FaultPart => addrLow f.addr).getD 0) absent⟩
  · have fault : s.records[n].fault = some f := present
    have word : (s.readBackOf n).fault = f.word := congrArg (fun x : Option FaultPart => (x.map FaultPart.word).getD 0) fault
    have low : (s.readBackOf n).faddrL = addrLow f.addr :=
      congrArg (fun x : Option FaultPart => (x.map fun f : FaultPart => addrLow f.addr).getD 0) fault
    rw [word, low]
    exact f.word_fields

/-! ### STORE -/

/-- STORE's claim on a record the handle check lets through (R32, R33). -/
theorem State.storeClaim_passed {s : State} {n : RecNo} (names : s.NamesRecord s.arg0 n) : s.storeClaim =
    if s.records[n].state.editable then
      match s.image.failingCheck with
      | some k => s.complete codeStore ⟨.invalid, BitVec.ofNat 16 k, s.records[n].state.word⟩
      | none =>
        (s.setRecord n (s.records[n].stored s.image)).complete codeStore (.done s.arg0 s.records[n].state)
    else s.complete codeStore (.stateFound s.records[n].state) := by
  rw [State.storeClaim, State.checkHandle_passed names] <;> rfl

/-- The field codes of the checks (R20). -/
theorem EditImage.checkFails_code {m : EditImage} {k : Nat} (fails : m.checkFails k = true) : 2 ≤ k ∧ k ≤ 9 := by
  unfold EditImage.checkFails at fails
  split at fails
  case h_9 => contradiction
  all_goals omega

/-- The first check of the table that fails is the one STORE reports (R20, R32). -/
theorem EditImage.failingCheck_first {m : EditImage} {k : Nat} (fails : m.checkFails k = true)
    (passes : ∀ j < k, m.checkFails j = false) : m.failingCheck = some k := by
  obtain ⟨low, high⟩ := EditImage.checkFails_code fails
  rw [m.failingCheck_eq]
  interval_cases k <;> simp [fails, passes]

/-- STORE, taken, of a DRAFT or HELD record with an image that passes (R33). -/
theorem exec_store_of_passes {s : State} {n : RecNo} (serves : s.Serves codeStore)
    (names : s.NamesRecord s.givenArgs.a0 n) (editable : s.records[n].state.editable = true)
    (passes : s.image.failingCheck = none) : exec .store s = .next { s with
      records := s.records.set n (s.records[n].stored s.image), bus := s.busAfter
      port := s.answered codeStore .ok s.givenArgs.a0 s.records[n].state.word } := by
  have run : exec .store s = .next (s.served codeStore).storeClaim := answer_command serves State.storeClaim
  have claim := State.storeClaim_passed (s := s.served codeStore) names
  rw [State.served_records, State.served_image, if_pos editable, passes] at claim
  rw [run, claim, State.complete_eq (s := s) _ (State.setRecord_port ..)]
  rfl

/-- Settles O14: the claim by the state found and by the first check that fails. -/
theorem storeChecksThenCopies : Obligations.StoreChecksThenCopies := by
  unfold Obligations.StoreChecksThenCopies
  intro s n serves names
  have run : exec .store s = .next (s.served codeStore).storeClaim := answer_command serves State.storeClaim
  have claim := State.storeClaim_passed (s := s.served codeStore) names
  rw [State.served_records, State.served_image] at claim
  refine ⟨fun notDraft notHeld => run.trans (congrArg Host.Outcome.next ?_), fun editable =>
    ⟨fun k fails first => run.trans (congrArg Host.Outcome.next ?_), fun passes => ?_⟩⟩
  · rw [claim, RecState.editable_of_not notDraft notHeld]
    exact State.served_complete s codeStore _
  · rw [claim, if_pos ((RecState.editable_iff _).mpr editable), EditImage.failingCheck_first fails first]
    exact State.served_complete s codeStore ⟨.invalid, BitVec.ofNat 16 k, s.records[n].state.word⟩
  · exact ⟨s.image.fields, _, exec_store_of_passes serves names ((RecState.editable_iff _).mpr editable)
      (EditImage.failingCheck_none passes), EditImage.fields_encodes passes, rfl⟩

/-! ### FETCH, then STORE -/

/-- The codes of the enumerated fields tell their values apart (R191). -/
theorem AddrStep.code_injective : Function.Injective AddrStep.code := by
  intro a b; cases a <;> cases b <;> simp [AddrStep.code]

theorem UnitSize.code_injective : Function.Injective UnitSize.code := by
  intro a b; cases a <;> cases b <;> simp [UnitSize.code]

theorem Policy.code_injective : Function.Injective Policy.code := by
  intro a b; cases a <;> cases b <;> simp [Policy.code]

theorem NoticePolicy.code_injective : Function.Injective NoticePolicy.code := by
  intro a b; cases a <;> cases b <;> simp [NoticePolicy.code]

theorem Condition.code_injective : Function.Injective Condition.code := by
  intro a b; cases a <;> cases b <;> simp [Condition.code]

theorem Handle.word_injective : Function.Injective Handle.word := by
  intro a b same
  have value := congrArg BitVec.toNat same
  rw [Handle.word_toNat, Handle.word_toNat] at value
  obtain ⟨num, gen⟩ := a
  obtain ⟨num', gen'⟩ := b
  have lt := num.isLt
  have lt' := num'.isLt
  simp only at value
  have nums : num = num' := Fin.ext (by omega)
  have gens : gen = gen' := BitVec.eq_of_toNat_eq (by omega)
  rw [nums, gens]

/-- The image FETCH loads of a sound record passes every check (R20, R29). -/
theorem EditImage.ofRecord_passes {r : Record} (sound : r.edit.Sound) (k : Nat) :
    (EditImage.ofRecord r).checkFails k = false := by
  obtain ⟨_, quantum, aligned, reloads, nonzero⟩ := sound
  obtain ⟨_, ⟨unit, policy⟩, ⟨notice, condition⟩, present⟩ := modeWord_codes r.edit
  obtain ⟨srcH, dstH, _, level, level'⟩ := EditImage.ofRecord_unused r
  have codes := r.edit.codes_lt
  by_contra fails
  rw [Bool.not_eq_false] at fails
  obtain ⟨low, high⟩ := EditImage.checkFails_code fails
  have shape : (EditImage.ofRecord r).mode = modeWord r.edit := rfl
  interval_cases k <;> simp only [EditImage.checkFails, shape, unit, policy, notice, condition, present] at fails
  · simp only [Bool.or_eq_true, bne_iff_ne] at fails
    omega
  · exact absurd (of_decide_eq_true fails) (not_lt.mpr quantum)
  · simp only [Bool.and_eq_true, beq_iff_eq, Bool.or_eq_true] at fails
    have even := aligned (UnitSize.code_injective fails.1)
    have src := addrHigh_addrLow r.edit.srcStart
    have dst := addrHigh_addrLow r.edit.dstStart
    have srcL : (EditImage.ofRecord r).srcL = addrLow r.edit.srcStart := rfl
    have dstL : (EditImage.ofRecord r).dstL = addrLow r.edit.dstStart := rfl
    rw [srcL, dstL] at fails
    omega
  · simp only [Bool.or_eq_true, beq_iff_eq, Bool.and_eq_true] at fails
    obtain ⟨reload, absent⟩ := fails.resolve_left (by omega)
    have none_ : r.edit.reload = none := by simpa using absent
    exact reloads (Policy.code_injective reload) none_
  · simp only [Bool.and_eq_true, beq_iff_eq] at fails
    obtain ⟨isSome, zero⟩ := fails
    cases reload : r.edit.reload with
    | none => simp [reload] at isSome
    | some v =>
      have value : (EditImage.ofRecord r).reload = v := by simp [EditImage.ofRecord, reload]
      exact nonzero (by rw [reload, ← value, zero])
  · rw [beq_iff_eq] at fails
    omega
  · simp only [Bool.and_eq_true, bne_iff_ne, decide_eq_true_eq] at fails
    obtain ⟨named, above⟩ := fails
    cases successor : r.edit.successor with
    | none => simp [successor, conditionCode] at named
    | some x =>
      have value : (EditImage.ofRecord r).succ = x.handle.word := by simp [EditImage.ofRecord, successor]
      have num := x.handle.num.isLt
      rw [value, Handle.word_toNat] at above
      omega
  · simp only [Bool.or_eq_true, bne_iff_ne] at fails
    exact fails.elim (fun h => h level) fun h => h level'

theorem successor_unique {x y : Option Successor} {w : Word} (code : conditionCode x = conditionCode y)
    (word : ∀ z ∈ x, z.handle.word = w) (word' : ∀ z ∈ y, z.handle.word = w) : x = y := by
  have positive : ∀ c : Condition, c.code ≠ 0 := fun c => by cases c <;> simp [Condition.code]
  cases x with
  | none =>
    cases y with
    | none => rfl
    | some y => exact absurd code.symm (positive y.condition)
  | some x =>
    cases y with
    | none => exact absurd code (positive x.condition)
    | some y =>
      have handles := Handle.word_injective ((word x rfl).trans (word' y rfl).symm)
      have conditions := Condition.code_injective code
      obtain ⟨_, _⟩ := x
      obtain ⟨_, _⟩ := y
      exact congrArg some (congrArg₂ Successor.mk conditions handles)

/-- An image encodes one set of edit fields (R33). -/
theorem EditImage.Encodes.unique {m : EditImage} {e e' : EditFields} (h : m.Encodes e) (h' : m.Encodes e') : e = e' := by
  obtain ⟨src, dst, srcStep, dstStep, unit, policy, notice, condition, succ, absent, present, drain, units, urgency,
    rank⟩ := h
  obtain ⟨src', dst', srcStep', dstStep', unit', policy', notice', condition', succ', absent', present', drain', units',
    urgency', rank'⟩ := h'
  have successor := successor_unique (condition.trans condition'.symm) succ succ'
  have quantum : e.quantum = e'.quantum := by
    by_cases zero : m.quant = 0
    · exact (drain zero).trans (drain' zero).symm
    · exact (units zero).trans (units' zero).symm
  have reload : e.reload = e'.reload := by
    have bit := bitField_lt m.mode 11 1
    rcases Nat.lt_succ_iff_lt_or_eq.mp bit with clear | set_
    · have zero : bitField m.mode 11 1 = 0 := by omega
      exact (absent zero).trans (absent' zero).symm
    · exact (present set_).trans (present' set_).symm
  have srcStart := BitVec.eq_of_toNat_eq (src.trans src'.symm)
  have dstStart := BitVec.eq_of_toNat_eq (dst.trans dst'.symm)
  have srcStep_ := AddrStep.code_injective (srcStep.trans srcStep'.symm)
  have dstStep_ := AddrStep.code_injective (dstStep.trans dstStep'.symm)
  have unit_ := UnitSize.code_injective (unit.trans unit'.symm)
  have policy_ := Policy.code_injective (policy.trans policy'.symm)
  have notice_ := NoticePolicy.code_injective (notice.trans notice'.symm)
  have urgency_ := Fin.ext (urgency.trans urgency'.symm)
  have rank_ := Fin.ext (rank.trans rank'.symm)
  cases e
  cases e'
  simp only at srcStart dstStart srcStep_ dstStep_ unit_ quantum reload policy_ successor notice_ urgency_ rank_
  subst_vars
  rfl

/-- Settles O15: the image FETCH loads passes STORE's checks and encodes the fields it was loaded from. -/
theorem fetchThenStoreKeepsFields : Obligations.FetchThenStoreKeepsFields := by
  unfold Obligations.FetchThenStoreKeepsFields
  intro s n listens ready names state sound
  have given : s.givenArgs = s.port.args := by rw [State.givenArgs, ready]
  have passes := EditImage.ofRecord_passes sound
  have run := exec_fetch_of_names (s := s) (n := n) (.inl ⟨ready, listens⟩) (by rw [given]; exact names)
  have owner : s.busAfter.ownership ≠ .owner := s.busAfter_ownership ▸ listens.2.2
  have stores := exec_store_of_passes (n := n) (s := { s with
      image := .ofRecord s.records[n], readBack := s.readBackOf n, bus := s.busAfter
      port := s.answered codeFetch .ok s.givenArgs.a0 s.records[n].state.word })
    (.inl ⟨rfl, listens.1, listens.2.1, owner⟩) names ((RecState.editable_iff _).mpr state)
    (EditImage.failingCheck_none passes)
  refine ⟨_, _, run, stores, ?_⟩
  change (s.setRecord n (s.records[n].stored (.ofRecord s.records[n]))).records[n].edit = _ ∧
    (s.setRecord n (s.records[n].stored (.ofRecord s.records[n]))).records[n].count = _ ∧ _
  rw [State.setRecord_get]
  exact ⟨(EditImage.fields_encodes passes).unique (EditImage.ofRecord_encodes sound), rfl, rfl⟩

end Sys2Proof.Machine
end

