-- ==== Sys2Proof/Proofs/BindAndLines.lean ====
section
/-! BIND (chapter 3) and the request lines: the checks of BIND by its arguments and the handle it names, the entry it
writes, and what a level of a request line does. -/

namespace Sys2Proof.Machine

/-! ### BIND -/

section
variable {s : State}

/-- An argument that names no source, or no sense (R56). -/
theorem State.bindClaim_outOfRange (out : 40 ≤ s.arg0.toNat ∨ 4 ≤ s.arg2.toNat) :
    s.bindClaim = s.complete codeBind (.bare .range) := by
  unfold State.bindClaim
  rcases out with source | sense
  · rw [sourceArg_outOfRange source]
  · have none_ : senseArg s.arg2 = none := if_neg (by omega)
    rw [none_]
    cases sourceArg s.arg0 <;> rfl

/-- BIND with a source and a sense (R56). -/
theorem State.bindClaim_inRange {k : SourceNo} (source : s.arg0.toNat = k.val) (sense : s.arg2.toNat < 4) :
    s.bindClaim = s.bindChecked k (Sense.ofCode s.arg2.toNat) := by
  have some_ : senseArg s.arg2 = some (Sense.ofCode s.arg2.toNat) := if_pos (by omega)
  rw [State.bindClaim, sourceArg_of_num source, some_]

theorem State.bindChecked_refused {c : ResultCode} (refused : s.checkHandle s.arg1 = .refused c) (k : SourceNo)
    (sense : Sense) : s.bindChecked k sense = s.complete codeBind (.bare c) := by
  simp only [State.bindChecked, refused]

/-- A handle BIND's check refuses, whatever the source and the sense. -/
theorem State.bindClaim_refused {c : ResultCode} (source : s.arg0.toNat < 40) (sense : s.arg2.toNat < 4)
    (refused : s.checkHandle s.arg1 = .refused c) : s.bindClaim = s.complete codeBind (.bare c) := by
  rw [State.bindClaim_inRange (k := ⟨_, source⟩) rfl sense, State.bindChecked_refused refused]

/-- A source or a record already bound (R58). -/
theorem State.bindChecked_bound {h : Handle} (passed : s.checkHandle s.arg1 = .passed h) {k : SourceNo}
    (bound : ¬(s.bindings[k] = none ∧ s.sourceOf h.num = none)) (sense : Sense) :
    s.bindChecked k sense = s.complete codeBind ⟨.bound, entryWord s.bindings[k], sourceWord (s.sourceOf h.num)⟩ := by
  simp only [State.bindChecked, passed]
  exact if_neg bound

/-- A source and a record both unbound (R57). -/
theorem State.bindChecked_free {h : Handle} (passed : s.checkHandle s.arg1 = .passed h) {k : SourceNo}
    (empty : s.bindings[k] = none) (unbound : s.sourceOf h.num = none) (sense : Sense) :
    s.bindChecked k sense =
      ((s.setBinding k (some ⟨h, storedSense k sense⟩)).standingTrigger h.num).settleActivity.complete codeBind
        ⟨.ok, s.arg1, BitVec.ofNat 16 k.val⟩ := by
  simp only [State.bindChecked, passed]
  exact if_pos ⟨empty, unbound⟩

/-- What BOUND reports of the source: its entry's handle, 0xFFFF for an empty entry. -/
theorem entryWord_eq (e : Option Binding) :
    (e = none → entryWord e = 0xFFFF) ∧ ∀ b ∈ e, entryWord e = b.handle.word :=
  ⟨fun empty => by rw [empty]; rfl, fun b mem => by rw [Option.mem_def.mp mem]; rfl⟩

/-- What BOUND reports of the record: the source bound to it, 0xFFFF for none. -/
theorem State.sourceWord_sourceOf (map : s.BindingMap) (n : RecNo) :
    ((∀ l : SourceNo, s.bindings[l].any (fun b => b.handle.num == n) = false) →
      sourceWord (s.sourceOf n) = 0xFFFF) ∧
    ∀ l : SourceNo, s.bindings[l].any (fun b => b.handle.num == n) = true →
      (sourceWord (s.sourceOf n)).toNat = l.val := by
  refine ⟨fun unbound => ?_, fun l bound => ?_⟩
  · rw [State.sourceOf_eq_none.mpr unbound]
    rfl
  · have lt := l.isLt
    rw [(State.sourceOf_eq_some map).mpr bound]
    exact Nat.mod_eq_of_lt (by omega)

end

/-- Settles O22: BIND's checks in their order, each by its lemma. -/
theorem bindRefusals : Obligations.BindRefusals := by
  unfold Obligations.BindRefusals
  intro s serves map
  have run : exec .bind s = .next (s.served codeBind).bindClaim := answer_command serves State.bindClaim
  have bare : ∀ c : ResultCode, (s.served codeBind).bindClaim = (s.served codeBind).complete codeBind (.bare c) →
      exec .bind s = .next (s.replied 0x10 c 0 0) := fun c claim =>
    run.trans (congrArg Host.Outcome.next (claim.trans (State.served_complete s codeBind _)))
  refine ⟨fun out => bare .range ?_, fun source sense n => ⟨fun stale => bare .stale ?_, fun names k num bound => ?_⟩⟩
  · by_cases inRange : s.givenArgs.a0.toNat < 40 ∧ s.givenArgs.a2.toNat < 4
    · have handle : HandleOutOfRange s.givenArgs.a1 := by
        rcases out with source | sense | handle
        · omega
        · omega
        · exact handle
      exact State.bindClaim_refused (s := s.served codeBind) inRange.1 inRange.2 (State.checkHandle_outOfRange handle)
    · exact State.bindClaim_outOfRange (s := s.served codeBind) (by
        change 40 ≤ s.givenArgs.a0.toNat ∨ 4 ≤ s.givenArgs.a2.toNat
        omega)
  · exact State.bindClaim_refused (s := s.served codeBind) source sense (State.checkHandle_stale stale)
  · have taken : ¬((s.served codeBind).bindings[k] = none ∧ (s.served codeBind).sourceOf n = none) := by
      rintro ⟨empty, unbound⟩
      rcases bound with entry | ⟨l, entry⟩
      · exact entry empty
      · exact absurd (State.sourceOf_eq_none.mp unbound l) (ne_of_eq_of_ne entry Bool.noConfusion)
    have claim := State.bindClaim_inRange (s := s.served codeBind) (k := k) num.symm sense
    rw [State.bindChecked_bound (State.served_checkHandle names) taken] at claim
    have answered := claim.trans (State.served_complete s codeBind _)
    obtain ⟨entryEmpty, entryHandle⟩ := entryWord_eq s.bindings[k]
    obtain ⟨unbound, source_⟩ := State.sourceWord_sourceOf map n
    refine ⟨_, run.trans (congrArg Host.Outcome.next answered), rfl, entryEmpty, entryHandle, unbound, source_⟩

theorem Sense.ofCode_code (sense : Sense) : Sense.ofCode sense.code = sense := by cases sense <;> rfl

/-- A standing latch reads the table and the lines alone. -/
theorem State.StandingLatch.congr {s t : State} {n : RecNo} {r : Record} {latch : Nat}
    (h : s.StandingLatch n r latch) (bindings : t.bindings = s.bindings) (lines : t.lines = s.lines) :
    t.StandingLatch n r latch := by
  unfold State.StandingLatch State.OnActiveLevelLine at h ⊢
  rw [bindings, lines]
  exact h

/-- Settles O23: the entry written, the record bound given its standing trigger, the activity settled. -/
theorem bindWritesTheEntry : Obligations.BindWritesTheEntry := by
  unfold Obligations.BindWritesTheEntry
  intro s k sense n serves map source code names empty unbound
  have run : exec .bind s = .next (s.served codeBind).bindClaim := answer_command serves State.bindClaim
  have none_ : (s.served codeBind).sourceOf n = none := State.sourceOf_eq_none.mpr unbound
  have passed : (s.served codeBind).checkHandle (s.served codeBind).arg1 = .passed ⟨n, s.records[n].gen⟩ :=
    State.served_checkHandle names
  have claim := State.bindClaim_inRange (s := s.served codeBind) source
    (show s.givenArgs.a2.toNat < 4 from code ▸ sense.code_lt)
  rw [State.bindChecked_free passed empty none_, State.served_arg2, code, Sense.ofCode_code] at claim
  have bound : ((s.served codeBind).setBinding k (some ⟨⟨n, s.records[n].gen⟩, storedSense k sense⟩)).BindingMap :=
    State.BindingMap.bindChecked (s := s.served codeBind) map k sense passed none_
  refine ⟨_, run, ?_⟩
  generalize (s.served codeBind).bindClaim = t at claim ⊢
  generalize entry : (s.served codeBind).setBinding k (some ⟨⟨n, s.records[n].gen⟩, storedSense k sense⟩) = x
    at claim bound
  have latch := State.standingTrigger_latch bound n
  have shape := State.standingTrigger_eq x n
  have bindings := State.standingTrigger_bindings (s := x) n
  have lines := State.standingTrigger_lines (s := x) n
  have port : (x.standingTrigger n).port = (s.served codeBind).port := by simp [← entry]
  have settles := State.settled_complete_settles (s := s) (code := codeBind) (v := x.standingTrigger n)
    ⟨.ok, (s.served codeBind).arg1, BitVec.ofNat 16 k.val⟩ (by simp [← entry]) (by simp [← entry])
  rw [← claim] at settles
  rw [State.settled_complete (s := s) _ port] at claim
  dsimp only at claim
  generalize x.standingTrigger n = u at *
  generalize u.settleActivity.activity = activity at claim
  subst claim entry
  refine ⟨?_, latch.congr bindings lines, settles⟩
  conv_lhs => rw [shape]
  rfl

/-! ### The request lines -/

/-- Settles O25: the level kept, and the sample taken where two successive edges have seen it. -/
theorem requestLineEdge : Obligations.RequestLineEdge := by
  unfold Obligations.RequestLineEdge
  intro s k level negated map exact_
  refine ⟨s.lineHeld k level, answer_event negated rfl, ?_⟩
  rw [State.lineHeld_eq]
  split
  next sampled =>
    obtain ⟨shape, settles, taken, others⟩ := State.lineSampled_spec
      (s := { s with levels := withLevel s.levels k level.high }) map exact_ k level.high
    generalize ({ s with levels := withLevel s.levels k level.high } : State).lineSampled k level.high = t at *
    have lines : t.lines = withLevel s.lines k level.high := congrArg State.lines shape
    have levels : t.levels = withLevel s.levels k level.high := congrArg State.levels shape
    refine ⟨by rw [lines, levels]; exact shape, settles, fun j => ?_, fun j => ?_, others, fun b mem => ?_⟩
    · rw [levels, withLevel_getLsbD]
    · rw [lines, withLevel_getLsbD]
      simp only [sampled, and_true]
    · rw [lines, withLevel_getLsbD, if_pos rfl]
      exact taken b mem
  next unsampled =>
    refine ⟨rfl, ⟨fun _ => rfl, exact_⟩, fun j => withLevel_getLsbD _ _ _ _, fun j => ?_, fun _ _ => rfl,
      fun b _ => ?_⟩
    · rw [if_neg fun both => unsampled both.2]
    · rw [SampleTaken, if_pos rfl]

end Sys2Proof.Machine
end

