-- ==== Sys2Proof/Proofs/GeneratorCommands.lean ====
section
/-! The generator commands and the ticks (chapter 4): each command by its argument, a tick by the ticks of the
generators that count it. -/

namespace Sys2Proof.Machine

/-! ### The commands -/

theorem genArg_of_num {w : Word} {g : GenNo} (num : w.toNat = g.val) : genArg w = some g := by
  have lt := g.isLt
  rw [genArg, dif_pos (by omega)]
  exact congrArg some (Fin.ext num)

theorem genArg_outOfRange {w : Word} (out : 8 ≤ w.toNat) : genArg w = none := dif_neg (by omega)

theorem genField_of_num {w : Word} {g : GenNo} (num : bitField w 0 4 = g.val) : genField w = some g := by
  have lt := g.isLt
  rw [genField, dif_pos (by omega)]
  exact congrArg some (Fin.ext num)

theorem genField_outOfRange {w : Word} (out : 8 ≤ bitField w 0 4) : genField w = none := dif_neg (by omega)

/-- The mode of a code GEN_SET lets through (R80). -/
theorem GenMode.code_ofCode {k : Nat} (lt : k < 3) : (GenMode.ofCode k).code = k := by
  match k, lt with
  | 0, _ | 1, _ | 2, _ => rfl

theorem TickSource.code_ofCode {k : Nat} (lt : k < 2) : (TickSource.ofCode k).code = k := by
  match k, lt with
  | 0, _ | 1, _ => rfl

theorem Generator.periodsFail_iff (c : Generator) :
    c.periodsFail = true ↔ c.periodA = 0 ∨ (c.mode = .alternate ∧ c.periodB = 0) := by
  simp [Generator.periodsFail]

section
variable {s : State} {code : Byte} {g : GenNo}

/-- A generator command that leaves a context and completes with OK (R79). -/
theorem State.genDone_course (c : Generator) :
    (s.served code).genDone code g c = { s with
      gens := s.gens.set g c
      bus := s.busAfter
      port := s.answered code .ok (c.status g) c.remaining } ∧
    ((s.served code).genDone code g c).gens[g] = c :=
  ⟨rfl, (vector_set_get _ _ _ _).trans (if_pos rfl)⟩

end

/-- Settles O26: the claim by the generator field, the mode field and whether the generator runs. -/
theorem genSetConfiguresStopped : Obligations.GenSetConfiguresStopped := by
  unfold Obligations.GenSetConfiguresStopped
  intro s serves
  have run : exec .genSet s = .next (s.served codeGenSet).genSetClaim := answer_command serves State.genSetClaim
  have range : (s.served codeGenSet).genSetClaim = (s.served codeGenSet).complete codeGenSet (.bare .range) →
      exec .genSet s = .next (s.replied 0x20 .range 0 0) := fun claim =>
    run.trans (congrArg Host.Outcome.next (claim.trans (State.served_complete s codeGenSet _)))
  refine ⟨fun out => range ?_, fun g num mode => ⟨_, run, ?_⟩⟩
  · rw [State.genSetClaim, State.served_arg0]
    by_cases above : 8 ≤ bitField s.givenArgs.a0 0 4
    · rw [genField_outOfRange above]
    · cases genField s.givenArgs.a0 with
      | none => rfl
      | some g => exact if_pos (out.resolve_left above)
  · have found : genField (s.served codeGenSet).arg0 = some g := genField_of_num num
    have claim : (s.served codeGenSet).genSetClaim =
        if s.gens[g].running then (s.served codeGenSet).complete codeGenSet (s.gens[g].reply g .state)
        else (s.served codeGenSet).genDone codeGenSet g
          (s.gens[g].configured s.givenArgs.a0 s.givenArgs.a1 s.givenArgs.a2) := by
      rw [State.genSetClaim, found]
      exact if_neg mode
    cases running : s.gens[g].running with
    | true =>
      rw [running, if_pos rfl, State.served_complete] at claim
      rw [claim]
      exact ⟨s.gens[g].status_word g, fun _ => rfl, fun stopped => absurd stopped Bool.noConfusion⟩
    | false =>
      rw [running, if_neg Bool.false_ne_true] at claim
      obtain ⟨shape, context⟩ := State.genDone_course (s := s) (code := codeGenSet) (g := g)
        (s.gens[g].configured s.givenArgs.a0 s.givenArgs.a1 s.givenArgs.a2)
      rw [← claim] at shape context
      generalize (s.served codeGenSet).genSetClaim = t at shape context ⊢
      have rval0 : t.port.rval0 = (s.gens[g].configured s.givenArgs.a0 s.givenArgs.a1 s.givenArgs.a2).status g := by
        rw [shape]
        rfl
      have modeLt := bitField_lt s.givenArgs.a0 4 2
      refine ⟨?_, fun going => absurd going Bool.noConfusion, fun _ => ⟨?_, ?_, ?_, ?_⟩⟩
      · rw [context, rval0]
        exact Generator.status_word _ g
      · rw [context, rval0]
        exact shape
      · rw [context]
        rfl
      · rw [context]
        exact GenMode.code_ofCode (by omega)
      · rw [context]
        exact TickSource.code_ofCode (bitField_lt s.givenArgs.a0 8 1)

/-- Settles O27: the claim by whether the checks on the periods apply and fail. -/
theorem genStartStartsPhaseA : Obligations.GenStartStartsPhaseA := by
  unfold Obligations.GenStartStartsPhaseA
  intro s serves
  have run : exec .genStart s = .next (s.served codeGenStart).genStartClaim := answer_command serves State.genStartClaim
  refine ⟨fun out => run.trans (congrArg Host.Outcome.next ?_), fun g num => ?_⟩
  · rw [State.genStartClaim, State.served_arg0, genArg_outOfRange out]
    exact State.served_complete s codeGenStart _
  · have found : genArg (s.served codeGenStart).arg0 = some g := genArg_of_num num
    have claim : (s.served codeGenStart).genStartClaim =
        if s.gens[g].running = false ∧ s.gens[g].periodsFail then
          (s.served codeGenStart).complete codeGenStart ⟨.invalid, 10, s.gens[g].status g⟩
        else (s.served codeGenStart).genDone codeGenStart g s.gens[g].started := by
      rw [State.genStartClaim, found]
      rfl
    refine ⟨fun stopped fails => ⟨_, run, ?_⟩, fun starts => ⟨_, run, ?_⟩⟩
    · rw [claim, if_pos ⟨stopped, s.gens[g].periodsFail_iff.mpr fails⟩, State.served_complete]
      exact ⟨s.gens[g].status_word g, rfl⟩
    · have passes : ¬(s.gens[g].running = false ∧ s.gens[g].periodsFail = true) := by
        rintro ⟨stopped, fails⟩
        rcases starts with running | ⟨periodA, periodB⟩
        · exact absurd (stopped.symm.trans running) Bool.noConfusion
        · exact (s.gens[g].periodsFail_iff.mp fails).elim periodA fun ⟨mode, zero⟩ => periodB mode zero
      obtain ⟨shape, context⟩ := State.genDone_course (s := s) (code := codeGenStart) (g := g) s.gens[g].started
      rw [if_neg passes] at claim
      rw [← claim] at shape context
      rw [context, shape]
      exact ⟨s.gens[g].started.status_word g, rfl⟩

/-- Settles O28: both claims complete with the status of the context they leave. -/
theorem genStopAndGenRead : Obligations.GenStopAndGenRead := by
  unfold Obligations.GenStopAndGenRead
  refine ⟨fun s serves => ?_, fun s serves => ?_⟩
  · have run : exec .genStop s = .next (s.served codeGenStop).genStopClaim := answer_command serves State.genStopClaim
    refine ⟨fun out => run.trans (congrArg Host.Outcome.next ?_), fun g num => ⟨_, run, ?_⟩⟩
    · rw [State.genStopClaim, State.served_arg0, genArg_outOfRange out]
      exact State.served_complete s codeGenStop _
    · have claim : (s.served codeGenStop).genStopClaim =
          (s.served codeGenStop).genDone codeGenStop g s.gens[g].stopped := by
        rw [State.genStopClaim, State.served_arg0, genArg_of_num num]
        rfl
      obtain ⟨shape, context⟩ := State.genDone_course (s := s) (code := codeGenStop) (g := g) s.gens[g].stopped
      rw [← claim] at shape context
      rw [context, shape]
      exact ⟨s.gens[g].stopped.status_word g, rfl⟩
  · have run : exec .genRead s = .next (s.served codeGenRead).genReadClaim := answer_command serves State.genReadClaim
    refine ⟨fun out => run.trans (congrArg Host.Outcome.next ?_), fun g num => ⟨_, run, ?_⟩⟩
    · rw [State.genReadClaim, State.served_arg0, genArg_outOfRange out]
      exact State.served_complete s codeGenRead _
    · rw [State.genReadClaim, State.served_arg0, genArg_of_num num]
      exact ⟨s.gens[g].status_word g, State.served_complete s codeGenRead _⟩

/-! ### Ticks -/

section
variable {s : State}

theorem State.tickSampled_tickLevel (s : State) (high : Bool) : (s.tickSampled high).tickLevel = s.tickLevel :=
  s.tickSampled_changes high .tickLevel (by simp)

theorem State.tickSampled_tickLine (s : State) (high : Bool) : (s.tickSampled high).tickLine = high := by
  unfold State.tickSampled
  dsimp only
  split
  · exact State.tick_changes _ _ .tickLine (by simp)
  · rfl

/-- A sample of TICK that is no rise is no tick (R75). -/
theorem State.tickSampled_noRise {high : Bool} (noRise : high = false ∨ s.tickLine = true) :
    s.tickSampled high = { s with tickLine := high } := by
  rcases noRise with rfl | was
  · rfl
  · simp [State.tickSampled, was]

theorem State.tickSampled_rise (was : s.tickLine = false) :
    s.tickSampled true = ({ s with tickLine := true } : State).tick .external := by
  simp [State.tickSampled, was]

/-- TICK at a level, at one edge or at two: the level is kept, and it is the sample once two successive edges have
seen it (R202). -/
theorem State.tickHeld_eq (s : State) (level : PinLevel) : s.tickHeld level =
    if level.held = true ∨ s.tickLevel = level.high then
      ({ s with tickLevel := level.high } : State).tickSampled level.high
    else { s with tickLevel := level.high } := by
  have seen : ∀ t : State, t.tickLevel = level.high → t.tickSeen level.high = t.tickSampled level.high :=
    fun t same => if_pos same
  have again : ∀ t : State, (t.tickSampled level.high).tickSampled level.high = t.tickSampled level.high := by
    intro t
    have sampled := t.tickSampled_tickLine level.high
    generalize t.tickSampled level.high = u at sampled ⊢
    rw [State.tickSampled_noRise (by rw [sampled]; cases level.high <;> simp), ← sampled]
  unfold State.tickHeld
  by_cases same : s.tickLevel = level.high
  · have kept : ({ s with tickLevel := level.high } : State) = s := by rw [← same]
    rw [if_pos (Or.inr same), kept, seen s same]
    dsimp only
    rw [seen _ ((s.tickSampled_tickLevel level.high).trans same), again, ite_self]
  · have put : s.tickSeen level.high = { s with tickLevel := level.high } := if_neg same
    dsimp only
    rw [put, seen _ rfl]
    simp only [same, or_false]

/-- A generator that expires on a tick (R76). -/
theorem Generator.ticked_expires {c : Generator} (running : c.running = true) (last : c.remaining = 1) :
    c.ticked.2 = true := by
  unfold Generator.ticked
  rw [if_neg (by simp [running]), if_neg (by simp [last])]
  cases c.mode <;> cases c.phase <;> rfl

end

/-- Settles O29: a tick is `State.tick_spec` on the state whose divider or sample the event has set; an expiry is one
tick claim. -/
theorem ticksReachGenerators : Obligations.TicksReachGenerators := by
  unfold Obligations.TicksReachGenerators
  intro s negated map exact_
  refine ⟨?_, fun held was sampled => ?_, fun level noRise => ?_, fun g => ⟨fun notDue => ?_, fun running last => ?_⟩⟩
  · obtain ⟨shape, settles, ticked⟩ := State.tick_spec (s := { s with divider := 0 }) map exact_ .internal
    have run : exec .internalTick s = .next (({ s with divider := 0 } : State).tick .internal) :=
      answer_event (claim := State.internalTickClaim) negated rfl
    generalize ({ s with divider := 0 } : State).tick .internal = t at *
    exact ⟨t, run, ticked, settles, shape⟩
  · have claim : s.tickHeld ⟨true, held⟩ =
        ({ s with tickLine := true, tickLevel := true } : State).tick .external := by
      rw [State.tickHeld_eq, if_pos sampled]
      exact State.tickSampled_rise (s := { s with tickLevel := true }) was
    obtain ⟨shape, settles, ticked⟩ :=
      State.tick_spec (s := { s with tickLine := true, tickLevel := true }) map exact_ .external
    have run := answer_event (claim := fun s => s.tickHeld ⟨true, held⟩) negated claim
    generalize ({ s with tickLine := true, tickLevel := true } : State).tick .external = t at *
    exact ⟨t, run, ticked, settles, shape⟩
  · refine answer_event negated ?_
    rw [State.tickHeld_eq]
    split
    next sampled =>
      have stays : level.high = false ∨ s.tickLine = true := by
        rcases noRise with low | was | ⟨once, level_⟩
        · exact .inl low
        · exact .inr was
        · exact .inl (by simpa [once, level_] using sampled.symm)
      exact State.tickSampled_noRise (s := { s with tickLevel := level.high }) stays
    next => rfl
  · have idle : ¬(s.gens[g].running = true ∧ s.gens[g].remaining = 1) := by
      rintro ⟨running, last⟩
      rcases notDue with stopped | more
      · exact absurd (stopped.symm.trans running) Bool.noConfusion
      · exact more last
    exact answer_event negated (if_neg idle)
  · obtain ⟨taken, shape, settles⟩ := State.tickClaim_spec exact_ g
    refine ⟨s.tickClaim g, answer_event negated (if_pos ⟨running, last⟩), shape, settles, fun n => ?_⟩
    simpa only [Generator.ticked_expires running last, true_and] using taken n

end Sys2Proof.Machine
end

