-- ==== Sys2Proof/Proofs/UnitsAndBus.lean ====
section
/-! The bus interface's steps (chapter 11), the units they end (chapter 8), and a rising edge of CLK with nothing
pending. -/

namespace Sys2Proof.Machine

/-! ### The master face -/

theorem addrOdd_iff (addr : Addr) : addrOdd addr = true ↔ addr.toNat % 2 = 1 := by
  simp [addrOdd]

theorem addrOdd_eq_false (addr : Addr) : addrOdd addr = false ↔ addr.toNat % 2 = 0 := by
  simp [addrOdd]

/-- The lane strobes of a unit (R199). -/
theorem unitLanes_lanesOf (unit : UnitSize) (addr : Addr) : LanesOf (unitLanes unit addr) unit addr := by
  cases unit with
  | word => simp [LanesOf, unitLanes]
  | byte => simp [LanesOf, unitLanes, addrOdd_iff, addrOdd_eq_false]

/-- A23:1 carry half the address. -/
theorem addressLines_toNat (a : Addr) : (addressLines a).toNat = a.toNat / 2 := by
  have lt := a.isLt
  rw [addressLines, BitVec.toNat_ofNat, Nat.mod_eq_of_lt (by omega)]

section
variable {s : State} {q : UnitRequest}

/-- What a read in progress drives (R198, R199). -/
theorem State.masterPins_read (owner : s.bus.ownership = .owner) (read : s.bus.access = some .read)
    (request : s.bus.request = some q) :
    s.masterPins = some ⟨addressLines q.src, unitLanes q.unit q.src, true, false, none, none⟩ := by
  simp only [State.masterPins, owner, read, request]

/-- What a write in progress drives (R198, R199). -/
theorem State.masterPins_write (owner : s.bus.ownership = .owner) (write : s.bus.access = some .write)
    (request : s.bus.request = some q) :
    s.masterPins = some ⟨addressLines q.dst, unitLanes q.unit q.dst, false, true,
      if (unitLanes q.unit q.dst).low then some (BitVec.ofNat 8 s.bus.pair.toNat) else none,
      if (unitLanes q.unit q.dst).high then some (highByte q.unit s.bus.pair) else none⟩ := by
  simp only [State.masterPins, owner, write, request]

end

theorem Bus.takeGrant_taken {b : Bus} (requesting : b.ownership = .requesting) (free : b.slave = none) :
    b.takeGrant = { b with ownership := .owner, access := some .read, timer := 0 } :=
  if_pos ⟨requesting, free⟩

/-- Settles O36: the request and the grant by their conditions, the pins by the read begun. -/
theorem requestRaisedAndGrantTaken : Obligations.RequestRaisedAndGrantTaken := by
  unfold Obligations.RequestRaisedAndGrantTaken
  refine fun s negated => ⟨fun released held passed => ?_, fun notDue => ?_, fun requesting free => ?_, fun notDue => ?_,
    answer_event negated rfl⟩
  · exact answer_event negated (by rw [Bus.raiseRequest_due released held passed])
  · exact answer_event negated (by rw [Bus.raiseRequest_notDue notDue])
  · refine ⟨_, answer_event (claim := fun s => { s with bus := s.bus.takeGrant }) negated
      (by rw [Bus.takeGrant_taken requesting free]), rfl, fun q request => ⟨_, State.masterPins_read rfl rfl request,
      addressLines_toNat _, unitLanes_lanesOf _ _, rfl, rfl, rfl, rfl⟩⟩
  · exact answer_event negated (by rw [Bus.takeGrant_notDue notDue])

/-! ### The halves of a pair -/

/-- The byte a BYTE read captures is the one of the lane of its address (R199). -/
theorem captureLanes_byte (addr : Addr) (data : Word) : (captureLanes .byte addr data).toNat =
    if addr.toNat % 2 = 0 then data.toNat % 256 else data.toNat / 256 := by
  have lt := data.isLt
  simp only [captureLanes, addrOdd_iff]
  by_cases even : addr.toNat % 2 = 0
  · rw [if_neg (by omega), if_pos even, BitVec.toNat_ofNat]
    omega
  · rw [if_pos (by omega), if_neg even, BitVec.toNat_ofNat]
    omega

/-- The byte that a BYTE pair carries (R199). -/
theorem captureLanes_datum (addr : Addr) (data : Word) : BitVec.ofNat 8 (captureLanes .byte addr data).toNat =
    BitVec.ofNat 8 (if addr.toNat % 2 = 0 then data.toNat else data.toNat / 256) := by
  rw [captureLanes_byte]
  apply BitVec.eq_of_toNat_eq
  split <;> simp

theorem Bus.completeRead_due {b : Bus} {q : UnitRequest} (owner : b.ownership = .owner) (read : b.access = some .read)
    (request : b.request = some q) (data : Word) :
    b.completeRead data = { b with pair := captureLanes q.unit q.src data, access := some .write, timer := 0 } := by
  simp only [Bus.completeRead, owner, read, request]

/-- Settles O37: the pair register by the unit, the pins by the write begun. -/
theorem readCompleteCapturesTheUnit : Obligations.ReadCompleteCapturesTheUnit := by
  unfold Obligations.ReadCompleteCapturesTheUnit
  intro s q data negated owner read request
  have run := answer_event (s := s) (claim := fun s => { s with bus := s.bus.completeRead data }) negated
    (by rw [Bus.completeRead_due owner read request])
  refine ⟨_, run, rfl, fun word => ?_, fun byte even => ?_, fun byte odd => ?_, _,
    State.masterPins_write owner rfl request, addressLines_toNat _, unitLanes_lanesOf _ _, rfl, rfl, fun word => ?_,
    fun byte => ⟨fun even => ?_, fun odd => ?_⟩⟩
  · rw [word]
    rfl
  · rw [byte]
    exact (captureLanes_byte _ _).trans (if_pos even)
  · rw [byte]
    exact (captureLanes_byte _ _).trans (if_neg (by omega))
  · rw [word]
    exact ⟨rfl, rfl⟩
  · simp only [byte, unitLanes, (addrOdd_eq_false _).mpr even, Bool.not_false, if_true, Bool.false_eq_true, if_false,
      captureLanes_datum, and_self]
  · simp only [byte, unitLanes, (addrOdd_iff _).mpr odd, Bool.not_true, if_true, Bool.false_eq_true, if_false,
      highByte, captureLanes_datum, and_self]

section
variable {s : State} {a : Activation} {w : Working}

theorem State.writeCompleted_due (owner : s.bus.ownership = .owner) (write : s.bus.access = some .write) :
    s.writeCompleted = ({ s with bus := s.bus.release } : State).pairCompleted := by
  simp only [State.writeCompleted, owner, write]

theorem State.pairCompleted_ended {c : EndCause} (opened : s.activation = some a) (work : a.work = some w)
    (ended : w.countUnit.endCause = some c) : s.pairCompleted = s.setWorking a w.countUnit := by
  simp only [State.pairCompleted, opened, work, ended]

theorem State.pairCompleted_going (opened : s.activation = some a) (work : a.work = some w)
    (going : w.countUnit.endCause = none) : s.pairCompleted = s.unitBoundary a w.countUnit := by
  simp only [State.pairCompleted, opened, work, going]

theorem State.pairError_due {half : Half} (owner : s.bus.ownership = .owner) (access : s.bus.access = some half) :
    s.pairError = ({ s with bus := s.bus.release } : State).pairFailed half := by
  simp only [State.pairError, owner, access]

theorem State.pairFailed_open (opened : s.activation = some a) (work : a.work = some w) (half : Half) :
    s.pairFailed half = s.setWorking a { w with endCause := some (match half with
      | .read => .fault .busRead w.srcCur
      | .write => .fault .busWrite w.dstCur) } := by
  cases half with
  | read => simp only [State.pairFailed, opened, work]
  | write => simp only [State.pairFailed, opened, work]

/-- The end cause of a counted unit: checks 1 to 3, then CUT for a deferred command (R110, R112). -/
def Working.boundaryCause (w : Working) (a : Activation) : Option EndCause :=
  match w.countUnit.endCause with
  | some c => some c
  | none => if a.deferred ≠ none then some .cut else none

/-- What a completed pair leaves: the unit counted, the end cause of the boundary, and the next unit requested unless
the service has ended. -/
theorem State.pairCompleted_eq (opened : s.activation = some a) (work : a.work = some w) {v : Working}
    (counted : v = { w.countUnit with endCause := w.boundaryCause a }) :
    s.pairCompleted = { s.setWorking a v with
      bus := if v.endCause = none then s.bus.handRequest v.request else s.bus } := by
  cases ended : w.countUnit.endCause with
  | some c =>
    have cause : w.boundaryCause a = w.countUnit.endCause := by simp only [Working.boundaryCause, ended]
    have same : v = w.countUnit := by rw [counted, cause]
    rw [State.pairCompleted_ended opened work ended, ← same, if_neg (by rw [same, ended]; exact Option.some_ne_none c)]
    rfl
  | none =>
    rw [State.pairCompleted_going opened work ended]
    cases deferred : a.deferred with
    | none =>
      have cause : w.boundaryCause a = w.countUnit.endCause := by
        simp only [Working.boundaryCause, ended, deferred, ne_eq, not_true, if_false]
      have same : v = w.countUnit := by rw [counted, cause]
      rw [State.unitBoundary_going _ _ deferred, ← same, if_pos (by rw [same, ended])]
    | some d =>
      have cause : w.boundaryCause a = some .cut := by
        simp [Working.boundaryCause, ended, deferred]
      have same : v = { w.countUnit with endCause := some .cut } := by rw [counted, cause]
      rw [State.unitBoundary_cut _ _ deferred, ← same, if_neg (by rw [same]; exact Option.some_ne_none _)]
      rfl

end

/-- Settles O38: the bus released, the unit counted, and the boundary. -/
theorem writeCompleteCountsTheUnit : Obligations.WriteCompleteCountsTheUnit := by
  unfold Obligations.WriteCompleteCountsTheUnit
  intro s a w negated owner write opened work going
  have claim : s.writeCompleted = _ := (State.writeCompleted_due owner write).trans
    (State.pairCompleted_eq (s := { s with bus := s.bus.release }) opened work rfl)
  refine ⟨_, { w.countUnit with endCause := w.boundaryCause a }, answer_event negated claim, ?_, ?_, ?_⟩
  · cases w.boundaryCause a <;> rfl
  · obtain ⟨src, dst⟩ := w.countUnit_addresses
    rw [← src, ← dst]
    rfl
  · change w.boundaryCause a = _
    have cause := w.countUnit_endCause
    rw [Working.boundaryCause, cause]
    change _ = if w.count - 1 = 0 then _ else if _ then _ else if _ then _ else if w.edit.quantum =
      Quantum.units (w.moved + 1) then _ else _
    by_cases exhausted : w.count - 1 = 0
    · simp only [if_pos exhausted]
    by_cases source : (addressStepped w.edit.srcStep w.edit.unit w.srcCur).2 = true
    · simp only [if_neg exhausted, if_pos source]
    by_cases destination : (addressStepped w.edit.dstStep w.edit.unit w.dstCur).2 = true
    · simp only [if_neg exhausted, if_neg source, if_pos destination]
    by_cases quantum : w.edit.quantum = .units (w.moved + 1)
    · simp only [if_neg exhausted, if_neg source, if_neg destination, if_pos quantum]
    · simp only [if_neg exhausted, if_neg source, if_neg destination, if_neg quantum]

/-- Settles O39: both rows are the error of the access in progress. -/
theorem accessErrorEndsTheService : Obligations.AccessErrorEndsTheService := by
  unfold Obligations.AccessErrorEndsTheService
  intro i row s half a w negated owner access opened work
  have claim : s.pairError = _ := (State.pairError_due owner access).trans
    (State.pairFailed_open (s := { s with bus := s.bus.release }) opened work half)
  simp only [List.mem_cons, List.not_mem_nil, or_false] at row
  rcases row with rfl | rfl
  · exact answer_event negated claim
  · exact answer_event negated claim

/-! ### A rising edge of CLK -/

section
variable {s : State}

theorem State.clockBus_requesting (requesting : s.bus.ownership = .requesting) : s.clockBus = s := by
  simp only [State.clockBus, requesting]

theorem State.clockBus_released (released : s.bus.ownership = .released) : s.clockBus = { s with bus :=
    if s.bus.spacing = 0 then s.bus.raiseRequest else { s.bus with spacing := s.bus.spacing - 1 } } := by
  simp only [State.clockBus, released]
  split <;> rfl

theorem State.clockBus_waits (owner : s.bus.ownership = .owner) (time : s.bus.timer < 255) :
    s.clockBus = { s with bus := { s.bus with timer := s.bus.timer + 1 } } := by
  simp only [State.clockBus, owner]
  exact if_pos (by change _ < 256; omega)

theorem State.clockBus_expires (owner : s.bus.ownership = .owner) (time : 255 ≤ s.bus.timer) :
    s.clockBus = s.pairError := by
  simp only [State.clockBus, owner]
  exact if_neg (by change ¬_ < 256; omega)

theorem State.pairError_eq (s : State) :
    s.pairError = { s with bus := s.pairError.bus, activation := s.pairError.activation } := by
  unfold State.pairError
  split
  · unfold State.pairFailed
    split
    · rfl
    · split <;> rfl
  · rfl

theorem State.clockBus_eq (s : State) :
    s.clockBus = { s with bus := s.clockBus.bus, activation := s.clockBus.activation } := by
  cases ownership : s.bus.ownership with
  | requesting => rw [State.clockBus_requesting ownership]
  | released => rw [State.clockBus_released ownership]
  | owner =>
    by_cases time : s.bus.timer < 255
    · rw [State.clockBus_waits ownership time]
    · rw [State.clockBus_expires ownership (by omega)]
      exact s.pairError_eq

theorem State.clockDivider_counts (below : s.divider < 63) :
    s.clockDivider = { s with divider := s.divider + 1 } :=
  if_pos (by change _ < 64; omega)

theorem State.clockDivider_wraps (last : 63 ≤ s.divider) : s.clockDivider = s.internalTickClaim :=
  if_neg (by change ¬_ < 64; omega)

end

/-- Settles O3: the inputs sampled, the divider and the bus interface, in the order of the edge. -/
theorem idleStepIsAClockEdge : Obligations.IdleStepIsAClockEdge := by
  unfold Obligations.IdleStepIsAClockEdge
  intro s idle
  have run : step s = .next s.clockEdge := by rw [step, idle]
  refine ⟨fun asserted => run.trans (congrArg Host.Outcome.next (State.unlessReset_of_asserted asserted _)),
    fun negated map exact_ => ?_⟩
  have edge : s.clockEdge = s.clockHoldOff.clockInputs.clockDivider.clockBus :=
    State.unlessReset_of_negated negated _
  rw [edge] at run
  have sampled := State.clockInputs_sampled map exact_
  generalize s.clockHoldOff.clockInputs = u at run sampled
  have shape := sampled.1
  have inputsDivider : u.divider = s.divider := by rw [shape]
  have inputsReset : u.inReset = s.inReset := by rw [shape]
  have inputsBus : u.bus = s.bus := by rw [shape]
  have inputsActivation : u.activation = s.activation := by rw [shape]
  have counts : s.divider < 63 → u.clockDivider = { u with divider := s.divider + 1 } := fun below =>
    inputsDivider ▸ State.clockDivider_counts (inputsDivider.symm ▸ below)
  have wraps : 63 ≤ s.divider → exec .internalTick u = .next u.clockDivider := fun last =>
    answer_event (claim := State.internalTickClaim) (inputsReset.trans negated)
      (State.clockDivider_wraps (inputsDivider.symm ▸ last)).symm
  have bus : u.clockDivider.bus = s.bus := Eq.trans (u.clockDivider_changes .bus (by simp)) inputsBus
  have activation : u.clockDivider.activation = s.activation :=
    Eq.trans (u.clockDivider_changes .activation (by simp)) inputsActivation
  have reset : u.clockDivider.inReset = false :=
    Eq.trans (u.clockDivider_changes .inReset (by simp)) (inputsReset.trans negated)
  generalize u.clockDivider = v at *
  refine ⟨u, v, v.clockBus, run, sampled, counts, wraps, v.clockBus_eq, fun requesting => ?_, fun released spaced => ?_,
    fun released passed none_ => ?_, fun released passed held => ?_, fun other => ?_, fun owner time => ?_,
    fun owner time _ => answer_event reset (State.clockBus_expires (bus ▸ owner) (bus ▸ time)).symm⟩
  · rw [State.clockBus_requesting (bus ▸ requesting), bus]
  · rw [State.clockBus_released (bus ▸ released), bus, if_neg spaced]
  · rw [State.clockBus_released (bus ▸ released), bus, if_pos passed]
    exact Bus.raiseRequest_notDue (.inr (.inl none_))
  · rw [State.clockBus_released (bus ▸ released), bus, if_pos passed]
    exact Bus.raiseRequest_due released held passed
  · cases ownership : s.bus.ownership with
    | owner => exact absurd ownership other
    | requesting => rw [State.clockBus_requesting (bus ▸ ownership), activation]
    | released =>
      rw [State.clockBus_released (bus ▸ ownership)]
      exact activation
  · rw [State.clockBus_waits (bus ▸ owner) (bus ▸ time), bus]
    exact ⟨rfl, activation⟩

end Sys2Proof.Machine
end

