-- ==== Sys2Proof/Proofs/EngineControl.lean ====
section
/-! ENGINE_GO, ENGINE_STOP and the start of a head (chapter 5). -/

namespace Sys2Proof.Machine

section
variable {s : State}

/-- With enable OFF and no activation open nothing waits for notice room (R87). -/
theorem State.HeadWaitExact.idle_of_off (exact_ : s.HeadWaitExact) (off : s.enable = false)
    (closed : s.activation = none) : s.activity = .idle :=
  (exact_ closed).2 fun waits => Bool.noConfusion (off.symm.trans waits.1)

theorem State.settleActivity_off (off : s.enable = false) (closed : s.activation = none) :
    s.settleActivity = { s with activity := .idle } := by
  have idle := State.HeadWaitExact.idle_of_off (s := s.settleActivity) s.settleActivity_settles.2
    (by rw [State.settleActivity_enable, off]) (by rw [State.settleActivity_activation, closed])
  rw [State.settleActivity_eq, idle]

theorem State.linkAt_closed (closed : s.activation = none) (stage : Stage) : s.linkAt stage = none := by
  simp only [State.linkAt, closed]

/-- ACTV with no service in flight (R191). -/
theorem State.actv_none (closed : s.working = none) : s.actv = 0xFFFF := by
  simp only [State.actv, closed]
  rfl

end

/-! ### ENGINE_GO and ENGINE_STOP -/

section
variable {s : State}

theorem State.engineStopClaim_idle (idle : s.activity = .idle) :
    s.engineStopClaim = ({ s with enable := false } : State).complete codeEngineStop ⟨.ok, 0, s.actv⟩ := by
  simp only [State.engineStopClaim, State.stopReply, idle]
  rfl

theorem State.engineStopClaim_running (running : s.activity = .running) :
    s.engineStopClaim = ({ s with enable := false } : State).stopWaits := by
  simp only [State.engineStopClaim, running]

/-- In a head wait there is no link to drop (R98). -/
theorem State.engineStopClaim_noLink (stalled : s.activity = .stalled) (noLink : s.linkAt .waiting = none) :
    s.engineStopClaim =
      ({ s with enable := false } : State).settleActivity.complete codeEngineStop ⟨.ok, 2, s.actv⟩ := by
  simp only [State.engineStopClaim, State.stopReply, stalled, noLink]
  rfl

/-- In a link wait the enable-OFF course is taken (R98). -/
theorem State.engineStopClaim_linkWait {a : Activation} {l : Link} (stalled : s.activity = .stalled)
    (waits : s.linkAt .waiting = some (a, l)) :
    s.engineStopClaim =
      (({ s with enable := false } : State).enableOffCourse l).complete codeEngineStop ⟨.ok, 2, s.actv⟩ := by
  simp only [State.engineStopClaim, State.stopReply, stalled, waits]
  rfl

end

/-- Settles O30: ENGINE_GO settles with enable ON; ENGINE_STOP by the activity it finds. -/
theorem engineGoAndEngineStop : Obligations.EngineGoAndEngineStop := by
  unfold Obligations.EngineGoAndEngineStop
  refine ⟨fun s serves => ?_, fun s serves => ?_⟩
  · have run : exec .engineGo s = .next (s.served codeEngineGo).engineGoClaim :=
      answer_command serves State.engineGoClaim
    have claim : (s.served codeEngineGo).engineGoClaim =
        ({ s.served codeEngineGo with enable := true } : State).settleActivity.complete codeEngineGo
          ⟨.ok, if s.enable then 1 else 0, 0⟩ := by
      rw [State.engineGoClaim, State.served_enable]
      cases s.enable <;> rfl
    have settles := State.settled_complete_settles (s := s) (code := codeEngineGo)
      (v := { s.served codeEngineGo with enable := true }) ⟨.ok, if s.enable then 1 else 0, 0⟩ rfl rfl
    rw [← claim] at settles
    rw [State.settled_complete (s := s) (v := { s.served codeEngineGo with enable := true }) _ rfl] at claim
    refine ⟨_, run, ?_, settles⟩
    generalize (s.served codeEngineGo).engineGoClaim = t at claim ⊢
    generalize ({ s.served codeEngineGo with enable := true } : State).settleActivity.activity = activity at claim
    rw [claim]
    rfl
  · have run : exec .engineStop s = .next (s.served codeEngineStop).engineStopClaim :=
      answer_command serves State.engineStopClaim
    refine ⟨fun idle => run.trans (congrArg Host.Outcome.next ?_),
      fun stalled closed => run.trans (congrArg Host.Outcome.next ?_),
      fun running => run.trans (congrArg Host.Outcome.next ?_)⟩
    · rw [State.engineStopClaim_idle (s := s.served codeEngineStop) idle,
        State.complete_eq (s := s) (t := { s.served codeEngineStop with enable := false }) _ rfl]
      rfl
    · have noLink : (s.served codeEngineStop).linkAt .waiting = none := State.linkAt_closed (s := s.served _) closed _
      have actv : (s.served codeEngineStop).actv = 0xFFFF :=
        State.actv_none (s := s.served codeEngineStop) (State.working_closed (s := s.served codeEngineStop) closed)
      rw [State.engineStopClaim_noLink (s := s.served codeEngineStop) stalled noLink, actv,
        State.settleActivity_off (s := { s.served codeEngineStop with enable := false }) rfl closed,
        State.complete_eq (s := s) (t := { s.served codeEngineStop with enable := false, activity := .idle }) _ rfl]
      rfl
    · rw [State.engineStopClaim_running (s := s.served codeEngineStop) running]
      rfl

/-! ### The head -/

section
variable {s : State} {n : RecNo}

theorem State.headChoice_notDue (notDue : s.enable = false ∨ s.activity ≠ .idle) : s.headChoice = s := by
  refine if_neg ?_
  rintro ⟨on, idle⟩
  exact notDue.elim (fun off => Bool.noConfusion (off.symm.trans on)) fun busy => busy idle

theorem State.headChoice_none (none_ : s.chosenHead = none) : s.headChoice = s := by
  rw [State.headChoice, none_]
  exact ite_self s

theorem State.headChoice_starts (on : s.enable = true) (idle : s.activity = .idle) (chosen : s.chosenHead = some n)
    (room : s.notices.queue.length ≤ 30) : s.headChoice = s.startHead n := by
  rw [State.headChoice, if_pos ⟨on, idle⟩, chosen]
  exact if_pos ((State.noticeRoom_iff s).mpr room)

theorem State.headChoice_waits (on : s.enable = true) (idle : s.activity = .idle) (chosen : s.chosenHead ≠ none)
    (full : 30 < s.notices.queue.length) : s.headChoice = { s with activity := .stalled } := by
  obtain ⟨n, found⟩ := Option.ne_none_iff_exists'.mp chosen
  rw [State.headChoice, if_pos ⟨on, idle⟩, found]
  exact if_neg (Bool.eq_false_iff.mp ((State.noticeRoom_false_iff s).mpr full))

end

/-- Settles O32: the arbiter's choice is the head R89 chooses. -/
theorem headStartOfChosenRecord : Obligations.HeadStartOfChosenRecord := by
  unfold Obligations.HeadStartOfChosenRecord
  refine ⟨fun s n negated on idle chosen room => ?_, fun s negated =>
    ⟨fun notDue => answer_event negated ?_, fun on idle ⟨n, eligible⟩ full => answer_event negated ?_⟩⟩
  · refine answer_event negated
      ((State.headChoice_starts on idle (State.chosenHead_of_isChosen chosen) room).trans ?_)
    rw [State.startHead]
    dsimp only
    rw [State.unitBoundary_going _ _ rfl]
    rfl
  · rcases notDue with off | busy | none_
    · exact State.headChoice_notDue (.inl off)
    · exact State.headChoice_notDue (.inr busy)
    · exact State.headChoice_none (State.chosenHead_none none_)
  · exact State.headChoice_waits on idle (State.chosenHead_ne_none eligible) full

end Sys2Proof.Machine
end

