-- ==== Sys2Proof/Proofs/LinksAndDeferredCommands.lean ====
section
/-! The resolution of a link (chapter 7), ENGINE_STOP in a link wait, and a deferred command applied afresh (2.8). -/

namespace Sys2Proof.Machine

/-! ### Ends of an activation -/

section
variable {s : State}

theorem State.endActivation_off (off : s.enable = false) : s.endActivation.activity = .idle := by
  obtain ⟨closed, exact_, _⟩ := s.endActivation_ends
  exact exact_.idle_of_off (by rw [State.endActivation_eq, off]) closed

/-- A completion overwrites what the end of an activation answers to an ENGINE_STOP (R184). -/
theorem State.endActivation_complete (s : State) (code : Byte) (a : Reply) :
    (s.endActivation.complete code a).port = (s.complete code a).port := by
  obtain ⟨_, _, kept, answered⟩ := s.endActivation_ends
  rw [State.complete_port, State.complete_port]
  cases stop : s.port.stopHandle with
  | none => rw [kept stop]
  | some h => rw [answered h stop]

/-- The activation ends with a notice posted. -/
theorem State.post_ends (s : State) (n : Notice) (sorted : SortedQueue s.notices.queue) {t : State}
    (ends : t = (s.post n).endActivation) : s.ActivationEnds t ∧
    t = { s with activation := none, notices := t.notices, activity := t.activity, port := t.port } ∧
    NoticePosted n s.notices t.notices := by
  have shape := (s.post n).endActivation_eq
  have ended : s.ActivationEnds (s.post n).endActivation := (s.post n).endActivation_ends
  rw [← ends] at shape ended
  have notices : t.notices = (s.post n).notices := by rw [shape]
  refine ⟨ended, ?_, notices ▸ s.post_posted n sorted⟩
  rw [notices]
  exact shape

/-- What the enable-OFF course does for the link in hand (R132): one latched trigger, or LINK_BROKEN. -/
def State.LinkDropped (s t : State) (l : Link) : Prop :=
  (s.records[l.succ.num].state = .armed ∧ s.records[l.succ.num].gen = l.succ.gen →
    t.notices = s.notices ∧ TriggerTaken s.records[l.succ.num] t.records[l.succ.num]) ∧
  (¬(s.records[l.succ.num].state = .armed ∧ s.records[l.succ.num].gen = l.succ.gen) →
    t.records[l.succ.num] = s.records[l.succ.num] ∧
    NoticePosted ⟨l.pred, l.urgency, .linkBroken l.succ⟩ s.notices t.notices)

/-- The enable-OFF course (R132). -/
theorem State.enableOffCourse_drops (off : s.enable = false) (l : Link) (sorted : SortedQueue s.notices.queue)
    {t : State} (course : t = s.enableOffCourse l) : s.ActivationEnds t ∧
    t = { s with
      activation := none
      activity := .idle
      records := s.records.set l.succ.num t.records[l.succ.num]
      notices := t.notices
      port := t.port } ∧
    s.LinkDropped t l := by
  by_cases ready : s.records[l.succ.num].state = .armed ∧ s.records[l.succ.num].gen = l.succ.gen
  · have ends : t = (s.deliverTrigger l.succ.num).endActivation := by
      rw [course, State.enableOffCourse, if_pos ((s.successorReady_iff _).mpr ready)]
    have shape := (s.deliverTrigger l.succ.num).endActivation_eq
    have ended : s.ActivationEnds (s.deliverTrigger l.succ.num).endActivation := State.endActivation_ends _
    rw [State.endActivation_off (s := s.deliverTrigger l.succ.num) off, ← ends] at shape
    rw [← ends] at ended
    have record : t.records[l.succ.num] = s.records[l.succ.num].triggered :=
      State.record_of_set (s := s) (congrArg State.records shape)
    have notices : t.notices = s.notices := by
      rw [shape]
      rfl
    refine ⟨ended, ?_, fun _ => ⟨notices, record ▸ Record.triggered_taken _⟩, fun broken => absurd ready broken⟩
    rw [record, notices]
    exact shape
  · have ends : t = (s.post l.broken).endActivation := by
      rw [course, State.enableOffCourse, if_neg (mt (s.successorReady_iff _).mp ready)]
    obtain ⟨ended, shape, posted⟩ := s.post_ends l.broken sorted ends
    have idle : t.activity = .idle := ends ▸ State.endActivation_off (s := s.post l.broken) off
    have records : t.records = s.records := by rw [shape]
    refine ⟨ended, ?_, fun sound => absurd sound ready, fun _ => ⟨by rw [records], posted⟩⟩
    rw [records, vector_set_self]
    rw [idle] at shape
    exact shape

theorem State.linkAt_eq {a : Activation} {l : Link} {stage : Stage} (opened : s.activation = some a)
    (link : a.link = some l) (reached : l.stage = stage) : s.linkAt stage = some (a, l) := by
  simp only [State.linkAt, opened, link, reached, if_true]

end

/-- Settles O31: the enable-OFF course with enable cleared, and ENGINE_STOP's completion over what it answered. -/
theorem engineStopEndsLinkWait : Obligations.EngineStopEndsLinkWait := by
  unfold Obligations.EngineStopEndsLinkWait
  intro s a l serves stalled opened work link waits sorted
  have run : exec .engineStop s = .next (s.served codeEngineStop).engineStopClaim :=
    answer_command serves State.engineStopClaim
  have actv : (s.served codeEngineStop).actv = 0xFFFF := State.actv_none (s := s.served codeEngineStop)
    ((State.working_open (s := s.served codeEngineStop) opened).trans work)
  have claim := State.engineStopClaim_linkWait (s := s.served codeEngineStop) stalled
    (State.linkAt_eq (s := s.served codeEngineStop) opened link waits)
  rw [actv] at claim
  obtain ⟨ended, shape, dropped⟩ := State.enableOffCourse_drops
    (s := { s.served codeEngineStop with enable := false }) rfl l sorted rfl
  have port : ((({ s.served codeEngineStop with enable := false } : State).enableOffCourse l).complete codeEngineStop
      ⟨.ok, 2, 0xFFFF⟩).port = s.answered codeEngineStop .ok 2 0xFFFF := by
    rw [State.enableOffCourse, State.endActivation_complete]
    split <;> rfl
  refine ⟨_, run, ?_⟩
  generalize (s.served codeEngineStop).engineStopClaim = t at claim ⊢
  generalize ({ s.served codeEngineStop with enable := false } : State).enableOffCourse l = u at *
  have records : t.records = u.records := by rw [claim, State.complete_records]
  have notices : t.notices = u.notices := by rw [claim, State.complete_notices]
  refine ⟨?_, by rw [records, notices]; exact dropped⟩
  rw [← claim] at port
  have same : t = { u with port := t.port } := claim ▸ rfl
  rw [records, notices, same, port]
  conv_lhs => rw [shape]
  rfl

/-! ### Link resolution -/

section
variable {s : State} {a : Activation} {l : Link}

theorem State.resolutionStep_due (opened : s.activation = some a) (link : a.link = some l) (due : l.stage = .due) :
    s.resolutionStep = s.resolve a l := by
  rw [State.resolutionStep, State.linkAt_eq opened link due]

/-- Step 1 (R136). -/
theorem State.resolve_limit (limit : a.depth = 12) : s.resolve a l = (s.post l.limit).endActivation := if_pos limit

/-- Step 2 (R132). -/
theorem State.resolve_off (below : a.depth ≠ 12) (off : s.enable = false) : s.resolve a l = s.enableOffCourse l :=
  (if_neg below).trans (if_pos off)

/-- From step 3 on. -/
theorem State.resolve_on (below : a.depth ≠ 12) (on : s.enable = true) : s.resolve a l =
    if s.noticeRoom = false then
      { s with activity := .stalled, activation := some { a with link := some { l with stage := .waiting } } }
    else if s.successorReady l.succ then s.startLink a l.succ.num
    else (s.post l.broken).endActivation :=
  (if_neg below).trans (if_neg (by rw [on]; exact Bool.noConfusion))

end

/-- Settles O33: steps 1 to 3 of the resolution. -/
theorem linkResolutionBeforeTheCheck : Obligations.LinkResolutionBeforeTheCheck := by
  unfold Obligations.LinkResolutionBeforeTheCheck
  intro s a l negated opened link due sorted
  have step := State.resolutionStep_due opened link due
  refine ⟨fun limit => ?_, fun below off => ?_, fun below on full => ?_⟩
  · exact ⟨_, answer_event negated step, State.post_ends s l.limit sorted (State.resolve_limit limit)⟩
  · exact ⟨_, answer_event negated step, State.enableOffCourse_drops off l sorted (State.resolve_off below off)⟩
  · exact answer_event negated
      (step.trans ((State.resolve_on below on).trans (if_pos ((State.noticeRoom_false_iff s).mpr full))))

/-- Settles O34: step 4 of the resolution. -/
theorem linkResolutionChecksSuccessor : Obligations.LinkResolutionChecksSuccessor := by
  unfold Obligations.LinkResolutionChecksSuccessor
  intro s a l negated opened link going due sorted below on room
  have step : s.resolutionStep =
      if s.successorReady l.succ then s.startLink a l.succ.num else (s.post l.broken).endActivation :=
    (State.resolutionStep_due opened link due).trans ((State.resolve_on below on).trans
      (if_neg (by rw [(State.noticeRoom_iff s).mpr room]; exact Bool.noConfusion)))
  refine ⟨fun armed gen => answer_event negated (step.trans ?_), fun broken => ⟨_, answer_event negated step, ?_⟩⟩
  · rw [if_pos ((s.successorReady_iff _).mpr ⟨armed, gen⟩), State.startLink]
    dsimp only
    rw [State.unitBoundary_going _ _ (by exact going), going]
    have handle : (⟨l.succ.num, s.records[l.succ.num].gen⟩ : Handle) = l.succ := by rw [gen]
    rw [Working.load, handle]
    rfl
  · have notReady : ¬s.successorReady l.succ = true := fun ready =>
      have sound := (s.successorReady_iff _).mp ready
      broken.elim (fun other => other sound.1) fun other => other sound.2
    exact State.post_ends s l.broken sorted (if_neg notReady)

/-! ### A deferred command applied afresh -/

section
variable {s : State}

theorem State.standingTrigger_shape (s : State) (n : RecNo) :
    s.standingTrigger n = { s with records := (s.standingTrigger n).records } := by
  have shape := s.standingTrigger_eq n
  generalize s.standingTrigger n = t at shape ⊢
  rw [shape]

theorem State.applyHold_shape (s : State) (w : Word) :
    (s.applyHold w).1 = { s with records := (s.applyHold w).1.records } := by
  unfold State.applyHold
  split
  · rfl
  · dsimp only
    split
    · rfl
    · rfl
    · exact State.standingTrigger_shape _ _
    · exact State.standingTrigger_shape _ _
    · rfl
    · rfl
    · rfl

theorem State.applyRetire_shape (s : State) (w : Word) : (s.applyRetire w).1 =
    { s with records := (s.applyRetire w).1.records, bindings := (s.applyRetire w).1.bindings } := by
  unfold State.applyRetire
  split <;> rfl

theorem State.applyDeferred_shape (s : State) (d : Deferred) : (s.applyDeferred d).1 =
    { s with records := (s.applyDeferred d).1.records, bindings := (s.applyDeferred d).1.bindings } := by
  unfold State.applyDeferred
  split
  · have shape := s.applyHold_shape d.handle.word
    have bindings : (s.applyHold d.handle.word).1.bindings = s.bindings := by rw [shape]
    rw [bindings]
    exact shape
  · exact s.applyRetire_shape d.handle.word

/-- The handle a command holds, checked afresh (R48). -/
theorem State.applyDeferred_stale {d : Deferred} (stale : s.StaleHandle d.handle.word d.handle.num) :
    s.applyDeferred d = (s, .bare .stale) := by
  have refused := State.checkHandle_stale stale
  unfold State.applyDeferred State.applyHold State.applyRetire
  rw [refused]
  cases d.kind <;> rfl

theorem State.applyDeferred_retire {d : Deferred} (retire : d.kind = .retire)
    (names : s.NamesRecord d.handle.word d.handle.num) :
    s.applyDeferred d = (s.freeRecord d.handle.num, .done d.handle.word s.records[d.handle.num].state) := by
  rw [State.applyDeferred, retire]
  dsimp only
  rw [State.applyRetire, State.checkHandle_passed names]

/-- The applied-afresh step, from what applying the command gives (R126). -/
theorem State.afreshStep_ends {a : Activation} {d : Deferred} (opened : s.activation = some a) (work : a.work = none)
    (deferred : a.deferred = some d) :
    s.afreshStep = ((s.applyDeferred d).1.complete d.kind.command (s.applyDeferred d).2).endActivation := by
  have awaits : s.awaitingAfresh = some d := by
    simp only [State.awaitingAfresh, opened, work, deferred]
  rw [State.afreshStep, awaits]

/-- What the step leaves, from the state and the reply the command gives. -/
theorem State.afresh_course {d : Deferred} {u : State} {r : Reply} (applied : s.applyDeferred d = (u, r))
    (stop : s.port.stopHandle = none) (code : Byte) {t : State} (ends : t = (u.complete code r).endActivation) :
    t.HeadWaitExact ∧ t = { s with
      activation := none
      records := u.records
      bindings := u.bindings
      activity := t.activity
      port := { s.port with
        state := .ready
        result := BitVec.ofNat 16 (r.result.code + code.toNat * 256)
        rval0 := r.rval0
        rval1 := r.rval1 } } := by
  have shape := s.applyDeferred_shape d
  rw [applied] at shape
  dsimp only at shape
  have eq := (u.complete code r).endActivation_eq
  obtain ⟨_, exact_, kept, _⟩ := (u.complete code r).endActivation_ends
  rw [kept rfl, ← ends] at eq
  rw [← ends] at exact_
  have port : (u.complete code r).port = { s.port with
      state := .ready
      result := BitVec.ofNat 16 (r.result.code + code.toNat * 256)
      rval0 := r.rval0
      rval1 := r.rval1 } := by
    rw [State.complete_port, (by rw [shape] : u.port = s.port), ← stop]
  refine ⟨exact_, ?_⟩
  rw [port] at eq
  generalize u.records = records at *
  generalize u.bindings = bindings at *
  subst shape
  exact eq

/-- What a HOLD applied afresh leaves of a record written back (R48). -/
def State.HeldAfresh (s u : State) (n : RecNo) : Prop :=
  u.bindings = s.bindings ∧
  u.records = s.records.set n { s.records[n] with
    state := .held, fault := u.records[n].fault, latch := u.records[n].latch } ∧
  (s.records[n].state = .armed →
    u.records[n].latch = s.records[n].latch ∧ u.records[n].fault = s.records[n].fault) ∧
  (s.records[n].state ≠ .armed → u.records[n].fault = none ∧
    s.StandingLatch n { s.records[n] with state := .held } u.records[n].latch)

theorem State.heldAfresh_armed {n : RecNo} (armed : s.records[n].state = .armed) :
    s.HeldAfresh (s.setRecord n { s.records[n] with state := .held }) n := by
  unfold State.HeldAfresh
  rw [State.setRecord_get]
  exact ⟨rfl, rfl, fun _ => ⟨rfl, rfl⟩, fun other => absurd armed other⟩

theorem State.heldAfresh_standing {n : RecNo} (map : s.BindingMap) (other : s.records[n].state ≠ .armed) :
    s.HeldAfresh ((s.setRecord n { s.records[n] with state := .held, fault := none }).standingTrigger n) n := by
  have held : (s.setRecord n { s.records[n] with state := .held, fault := none }).BindingMap :=
    map.replaced RecState.noConfusion rfl
  have latch := State.setRecord_standing_latch held
  have shape := State.setRecord_standing s n { s.records[n] with state := .held, fault := none }
  generalize (s.setRecord n { s.records[n] with state := .held, fault := none }).standingTrigger n = u at latch shape
  have records : u.records = s.records.set n
      { s.records[n] with state := .held, fault := none, latch := u.records[n].latch } := by
    conv_lhs => rw [shape]
    rfl
  have bindings : u.bindings = s.bindings := by
    rw [shape]
    rfl
  have fault : u.records[n].fault = none := by
    rw [State.record_of_set records]
  exact ⟨bindings, by rw [fault]; exact records, fun armed => absurd armed other, fun _ => ⟨fault, latch⟩⟩

/-- HOLD applied afresh to a record left ARMED, SPENT or FAULTED (R48). -/
theorem State.applyDeferred_hold {d : Deferred} (hold : d.kind = .hold)
    (names : s.NamesRecord d.handle.word d.handle.num) (map : s.BindingMap)
    (left : s.records[d.handle.num].state = .armed ∨ s.records[d.handle.num].state = .spent ∨
      s.records[d.handle.num].state = .faulted) :
    s.HeldAfresh (s.applyDeferred d).1 d.handle.num ∧
    (s.applyDeferred d).2 = .done d.handle.word s.records[d.handle.num].state := by
  have held : s.applyDeferred d = s.applyHold d.handle.word := by
    rw [State.applyDeferred, hold]
  rw [held, State.applyHold_passed names]
  rcases left with armed | spent | faulted
  · rw [armed]
    exact ⟨State.heldAfresh_armed armed, rfl⟩
  · rw [spent]
    exact ⟨State.heldAfresh_standing map (by rw [spent]; exact RecState.noConfusion), rfl⟩
  · rw [faulted]
    exact ⟨State.heldAfresh_standing map (by rw [faulted]; exact RecState.noConfusion), rfl⟩

end

/-- Settles O35: the command applied by its kind and the record found, its completion and the end of the activation. -/
theorem deferredCommandAppliedAfresh : Obligations.DeferredCommandAppliedAfresh := by
  unfold Obligations.DeferredCommandAppliedAfresh
  intro s a d negated opened work deferred stop map
  have step := State.afreshStep_ends opened work deferred
  obtain ⟨u, r, applied⟩ : ∃ u r, s.applyDeferred d = (u, r) := ⟨_, _, rfl⟩
  rw [applied] at step
  dsimp only at step
  refine ⟨_, answer_event negated step, ?_⟩
  obtain ⟨exact_, shape⟩ := State.afresh_course applied stop d.kind.command rfl
  generalize (u.complete d.kind.command r).endActivation = t at exact_ shape ⊢
  have records : t.records = u.records := by rw [shape]
  have bindings : t.bindings = u.bindings := by rw [shape]
  have result : t.port.result = BitVec.ofNat 16 (r.result.code + d.kind.command.toNat * 256) := by rw [shape]
  have rval0 : t.port.rval0 = r.rval0 := by rw [shape]
  have rval1 : t.port.rval1 = r.rval1 := by rw [shape]
  have closed : t.activation = none := by rw [shape]
  have answered : r = .done d.handle.word s.records[d.handle.num].state →
      t.port.result = BitVec.ofNat 16 (d.kind.command.toNat * 256) ∧ t.port.rval0 = d.handle.word ∧
      t.port.rval1.toNat = s.records[d.handle.num].state.code := fun done => by
    rw [result, rval0, rval1, done]
    exact ⟨congrArg (BitVec.ofNat 16) (Nat.zero_add _), rfl, RecState.word_toNat _⟩
  rw [records, bindings]
  refine ⟨closed, exact_, by rw [result, rval0, rval1]; exact shape, fun stale => ?_, fun names left => ?_⟩
  · obtain ⟨rfl, rfl⟩ := Prod.mk.inj ((State.applyDeferred_stale stale).symm.trans applied)
    exact ⟨rfl, rfl, result, rval0, rval1⟩
  · cases kind : d.kind with
    | retire =>
      obtain ⟨rfl, rfl⟩ := Prod.mk.inj ((State.applyDeferred_retire kind names).symm.trans applied)
      obtain ⟨result, rval0, rval1⟩ := answered rfl
      rw [kind] at result
      exact ⟨result, rval0, rval1, fun _ => (s.freeRecord_freed _).congr rfl rfl records bindings,
        fun hold => DeferredKind.noConfusion hold⟩
    | hold =>
      obtain ⟨⟨table, left_⟩, reply⟩ := State.applyDeferred_hold kind names map left
      rw [applied] at table left_ reply
      obtain ⟨result, rval0, rval1⟩ := answered reply
      rw [kind] at result
      exact ⟨result, rval0, rval1, fun retire => DeferredKind.noConfusion retire, fun _ => ⟨table, left_⟩⟩

end Sys2Proof.Machine
end

