-- ==== Sys2Proof/Proofs/WriteBack.lean ====
section
/-! The write-back (chapters 6 and 8): what the record is left with, the notice posted, and what follows. -/

namespace Sys2Proof.Machine

section
variable {s : State} {a : Activation} {w : Working} {c : EndCause}

/-! ### What a write-back changes -/

theorem State.writeBackClaim_bindings (s : State) (a : Activation) (w : Working) (c : EndCause) :
    (s.writeBackClaim a w c).bindings = ((s.postOutcome w c).storeProgress w c).bindings :=
  State.afterWriteBack_changes _ a w c .bindings (by simp)

theorem State.postOutcome_bindings (s : State) (w : Working) (c : EndCause) :
    (s.postOutcome w c).bindings = s.bindings := by
  rw [State.postOutcome_eq]

theorem State.postOutcome_lines (s : State) (w : Working) (c : EndCause) : (s.postOutcome w c).lines = s.lines := by
  rw [State.postOutcome_eq]

/-- The engine, the port and the activity are as before when the record has been stored. -/
theorem State.storedProgress_shape (s : State) (w : Working) (c : EndCause) :
    (s.postOutcome w c).storeProgress w c = { s with
      records := ((s.postOutcome w c).storeProgress w c).records
      bindings := ((s.postOutcome w c).storeProgress w c).bindings
      notices := (s.postOutcome w c).notices } := by
  have stored := (s.postOutcome w c).storeProgress_eq w c
  have posted := s.postOutcome_eq w c
  generalize (s.postOutcome w c).storeProgress w c = q at stored ⊢
  rw [posted] at stored
  generalize s.postOutcome w c = p at stored ⊢
  rw [stored]

theorem State.writeBackClaim_shape (s : State) (a : Activation) (w : Working) (c : EndCause) :
    s.writeBackClaim a w c = { s with
      records := (s.writeBackClaim a w c).records
      bindings := (s.writeBackClaim a w c).bindings
      notices := (s.writeBackClaim a w c).notices
      activation := (s.writeBackClaim a w c).activation
      activity := (s.writeBackClaim a w c).activity
      port := (s.writeBackClaim a w c).port } := by
  have after : s.writeBackClaim a w c = _ := ((s.postOutcome w c).storeProgress w c).afterWriteBack_eq a w c
  have stored := s.storedProgress_shape w c
  rw [s.writeBackClaim_records, s.writeBackClaim_bindings, s.writeBackClaim_notices]
  change s.writeBackClaim a w c = { (s.postOutcome w c).storeProgress w c with
    activation := (s.writeBackClaim a w c).activation
    activity := (s.writeBackClaim a w c).activity
    port := (s.writeBackClaim a w c).port } at after
  generalize (s.postOutcome w c).storeProgress w c = q at *
  generalize (s.writeBackClaim a w c).activation = activation at *
  generalize (s.writeBackClaim a w c).activity = activity at *
  generalize (s.writeBackClaim a w c).port = port at *
  rw [after]
  conv_lhs => rw [stored]

/-! ### The record stored -/

theorem Working.autoRetires_iff : w.autoRetires c = true ↔ c = .exhausted ∧ w.edit.policy = .retire := by
  simp [Working.autoRetires]

theorem Working.autoRetires_eq_false (keeps : ¬(c = .exhausted ∧ w.edit.policy = .retire)) :
    w.autoRetires c = false :=
  Bool.eq_false_iff.mpr fun retires => keeps (Working.autoRetires_iff.mp retires)

theorem State.storeProgress_armed (keeps : w.autoRetires c = false)
    (armed : (s.records[w.handle.num].writtenBack w c).state = .armed) : s.storeProgress w c =
      (s.setRecord w.handle.num (s.records[w.handle.num].writtenBack w c)).standingTrigger w.handle.num := by
  simp only [State.storeProgress, keeps, Bool.false_eq_true, if_false]
  exact if_pos (by rw [State.setRecord_get, armed])

theorem State.storeProgress_notArmed (keeps : w.autoRetires c = false)
    (other : (s.records[w.handle.num].writtenBack w c).state ≠ .armed) :
    s.storeProgress w c = s.setRecord w.handle.num (s.records[w.handle.num].writtenBack w c) := by
  simp only [State.storeProgress, keeps, Bool.false_eq_true, if_false]
  exact if_neg (by rw [State.setRecord_get]; exact other)

/-- Stored progress shows in the record written back, but for its latch, and leaves the table. -/
theorem State.storeProgress_record (keeps : w.autoRetires c = false) :
    (s.storeProgress w c).records[w.handle.num] = { s.records[w.handle.num].writtenBack w c with
      latch := (s.storeProgress w c).records[w.handle.num].latch } ∧
    (s.storeProgress w c).bindings = s.bindings := by
  by_cases armed : (s.records[w.handle.num].writtenBack w c).state = .armed
  · have standing := s.setRecord_standing w.handle.num (s.records[w.handle.num].writtenBack w c)
    rw [State.storeProgress_armed keeps armed]
    refine ⟨State.record_of_set (s := s) (congrArg State.records standing), ?_⟩
    rw [State.standingTrigger_bindings]
    rfl
  · rw [State.storeProgress_notArmed keeps armed, State.setRecord_get]
    exact ⟨rfl, rfl⟩

/-- Which addresses a write-back returns to their starts (R116, R119). -/
theorem Record.writtenBack_progress (r : Record) (sound : c.isFault = false)
    (keeps : ¬(c = .exhausted ∧ w.edit.policy = .retire)) : r.writtenBack w c = { r with
      state := (r.writtenBack w c).state
      count := (r.writtenBack w c).count
      latch := (r.writtenBack w c).latch
      srcCur := if w.edit.srcStep = .ascendReturn ∨ (c = .exhausted ∧ w.edit.policy = .reload) then
        w.edit.srcStart else w.srcCur
      dstCur := if w.edit.dstStep = .ascendReturn ∨ (c = .exhausted ∧ w.edit.policy = .reload) then
        w.edit.dstStart else w.dstCur } := by
  cases c with
  | fault cause addr => contradiction
  | quantum => simp [Record.writtenBack, returned]
  | cut => simp [Record.writtenBack, returned]
  | exhausted =>
    cases policy : w.edit.policy with
    | retire => exact absurd ⟨rfl, policy⟩ keeps
    | park => simp [Record.writtenBack, returned, policy]
    | reload => simp [Record.writtenBack, policy]

/-- The end leaves the record ARMED with its latch (R115, R118). -/
theorem Record.writtenBack_armed (r : Record) (sound : c.isFault = false)
    (goesOn : c ≠ .exhausted ∨ w.edit.policy = .reload) :
    (r.writtenBack w c).state = .armed ∧ (r.writtenBack w c).latch = r.latch := by
  cases c with
  | fault cause addr => contradiction
  | quantum => exact ⟨rfl, rfl⟩
  | cut => exact ⟨rfl, rfl⟩
  | exhausted =>
    rw [Record.writtenBack, goesOn.resolve_left fun other => other rfl]
    exact ⟨rfl, rfl⟩

theorem Record.writtenBack_park (r : Record) (policy : w.edit.policy = .park) :
    (r.writtenBack w .exhausted).state = .spent ∧ (r.writtenBack w .exhausted).count = w.count ∧
    (r.writtenBack w .exhausted).latch = 0 := by
  rw [Record.writtenBack, policy]
  exact ⟨rfl, rfl, rfl⟩

/-- A standing latch reads of the record its state and its latch alone. -/
theorem State.StandingLatch.of_record {n : RecNo} {r r' : Record} {latch : Nat} (h : s.StandingLatch n r latch)
    (state : r'.state = r.state) (same : r'.latch = r.latch) : s.StandingLatch n r' latch := by
  unfold State.StandingLatch at h ⊢
  rw [state, same]
  exact h

/-- The standing trigger a write-back gives a record left ARMED (R66). -/
theorem State.storedProgress_latch (map : s.BindingMap) (sound : c.isFault = false)
    (goesOn : c ≠ .exhausted ∨ w.edit.policy = .reload) (keeps : w.autoRetires c = false) :
    s.StandingLatch w.handle.num { s.records[w.handle.num] with state := .armed }
      ((s.postOutcome w c).storeProgress w c).records[w.handle.num].latch := by
  obtain ⟨armed, kept⟩ := (s.postOutcome w c).records[w.handle.num].writtenBack_armed sound goesOn
  rw [State.storeProgress_armed keeps armed]
  have latch := State.setRecord_standing_latch (State.writtenBack_map (State.postOutcome_map map w c) keeps)
  refine (latch.congr (s.postOutcome_bindings w c).symm (s.postOutcome_lines w c).symm).of_record armed.symm ?_
  rw [kept, s.postOutcome_record]

/-- Freeing the record once its outcome is posted frees it of the state before. -/
theorem State.storedProgress_freed (retires : w.autoRetires c = true) :
    s.Freed ((s.postOutcome w c).storeProgress w c) w.handle.num := by
  obtain ⟨state, gen, latch, overrun, fault, others, table⟩ := (s.postOutcome w c).freeRecord_freed w.handle.num
  rw [State.storeProgress_retired retires]
  refine ⟨state, gen.trans (by rw [s.postOutcome_record]), latch, overrun, fault, fun m other =>
    (others m other).trans (State.postOutcome_other other), fun k => ?_⟩
  rw [table k, State.postOutcome_bindings]

end

/-- Settles O40: the claim stores the record written back; its parts by the end cause and the policy. -/
theorem writeBackStoresProgress : Obligations.WriteBackStoresProgress := by
  unfold Obligations.WriteBackStoresProgress
  intro s a w c negated opened work ended sound map
  have step : s.writeBackStep = s.writeBackClaim a w c := State.writeBackStep_eq opened work ended sound
  refine ⟨_, answer_event negated step, s.writeBackClaim_shape a w c, fun m other => s.writeBackClaim_other a other, ?_⟩
  have records := s.writeBackClaim_records a w c
  have bindings := s.writeBackClaim_bindings a w c
  generalize s.writeBackClaim a w c = t at records bindings ⊢
  rw [records, bindings]
  have kept := fun keeps : ¬(c = .exhausted ∧ w.edit.policy = .retire) =>
    State.storeProgress_record (s := s.postOutcome w c) (Working.autoRetires_eq_false keeps)
  have posted := s.postOutcome_record w c
  have progress := (s.postOutcome w c).records[w.handle.num].writtenBack_progress (w := w) sound
  refine ⟨fun retires => ?_, fun keeps => ?_, fun parks => ?_, fun goesOn => ?_, fun going => ?_, fun reloads => ?_⟩
  · exact (State.storedProgress_freed (Working.autoRetires_iff.mpr retires)).congr rfl rfl records bindings
  · obtain ⟨record, table⟩ := kept keeps
    refine ⟨table.trans (s.postOutcome_bindings w c), ?_⟩
    rw [progress keeps] at record
    generalize ((s.postOutcome w c).storeProgress w c).records[w.handle.num] = r at record ⊢
    generalize (s.postOutcome w c).records[w.handle.num] = p at record posted
    rw [record, posted]
  · obtain ⟨rfl, policy⟩ := parks
    have keeps : w.autoRetires .exhausted = false := Working.autoRetires_eq_false fun retires =>
      Policy.noConfusion (policy.symm.trans retires.2)
    obtain ⟨spent, count, latch⟩ := Record.writtenBack_park (s.postOutcome w .exhausted).records[w.handle.num] policy
    rw [State.storeProgress_notArmed keeps (by rw [spent]; exact RecState.noConfusion), State.setRecord_get]
    exact ⟨spent, count, latch⟩
  · have keeps : ¬(c = .exhausted ∧ w.edit.policy = .retire) := fun ⟨exhausted, retire⟩ =>
      goesOn.elim (fun other => other exhausted) fun reload => Policy.noConfusion (retire.symm.trans reload)
    obtain ⟨record, _⟩ := kept keeps
    refine ⟨?_, State.storedProgress_latch map sound goesOn (Working.autoRetires_eq_false keeps)⟩
    rw [record]
    exact (Record.writtenBack_armed _ sound goesOn).1
  · obtain ⟨record, _⟩ := kept fun retires => going retires.1
    rw [record]
    cases c with
    | exhausted => exact absurd rfl going
    | fault cause addr => contradiction
    | quantum => rfl
    | cut => rfl
  · obtain ⟨rfl, policy⟩ := reloads
    obtain ⟨record, _⟩ := kept fun retires => Policy.noConfusion (policy.symm.trans retires.2)
    intro v mem
    rw [record, Record.writtenBack, policy, Option.mem_def.mp mem]
    rfl

/-! ### The outcome notice -/

section
variable {s : State} {a : Activation} {w : Working} {c : EndCause}

theorem State.postOutcome_posts {m : Notice} (outcome : outcomeNotice w c s.records[w.handle.num].overrun = some m) :
    s.postOutcome w c =
      (s.post m).setRecord w.handle.num { s.records[w.handle.num] with overrun := false } := by
  simp only [State.postOutcome, outcome]

theorem State.postOutcome_silent (silent : outcomeNotice w c s.records[w.handle.num].overrun = none) :
    s.postOutcome w c = s := by
  simp only [State.postOutcome, silent]

theorem outcomeNotice_exhausted (told : w.edit.notice ≠ .none) (overrun : Bool) :
    outcomeNotice w .exhausted overrun = some ⟨w.handle, w.edit.urgency, .exhausted overrun w.moved⟩ := by
  cases notice : w.edit.notice with
  | none => exact absurd notice told
  | onEnd => simp only [outcomeNotice, notice]
  | each => simp only [outcomeNotice, notice]

theorem outcomeNotice_quantum (each : w.edit.notice = .each) (overrun : Bool) :
    outcomeNotice w .quantum overrun = some ⟨w.handle, w.edit.urgency, .serviceDone overrun w.moved⟩ := by
  simp only [outcomeNotice, each]

/-- The ends that post nothing (R122). -/
theorem outcomeNotice_none (sound : c.isFault = false) (notEnd : ¬(c = .exhausted ∧ w.edit.notice ≠ .none))
    (notEach : ¬(c = .quantum ∧ w.edit.notice = .each)) (overrun : Bool) : outcomeNotice w c overrun = none := by
  cases c with
  | fault cause addr => contradiction
  | cut => rfl
  | exhausted =>
    have none_ : w.edit.notice = .none := not_not.mp fun told => notEnd ⟨rfl, told⟩
    simp only [outcomeNotice, none_]
  | quantum =>
    cases notice : w.edit.notice with
    | each => exact absurd ⟨rfl, notice⟩ notEach
    | none => simp only [outcomeNotice, notice]
    | onEnd => simp only [outcomeNotice, notice]

theorem Record.writtenBack_overrun (r : Record) (w : Working) (c : EndCause) :
    (r.writtenBack w c).overrun = r.overrun := by
  cases c with
  | exhausted => cases policy : w.edit.policy <;> simp [Record.writtenBack, policy]
  | quantum => rfl
  | cut => rfl
  | fault cause addr => rfl

/-- The overrun flag a write-back leaves (R123). -/
theorem State.storeProgress_overrun (s : State) (w : Working) (c : EndCause) :
    (s.storeProgress w c).records[w.handle.num].overrun =
      if w.autoRetires c then false else s.records[w.handle.num].overrun := by
  cases retires : w.autoRetires c with
  | true =>
    rw [State.storeProgress_retired retires, State.freeRecord_record]
    rfl
  | false =>
    rw [(State.storeProgress_record retires).1]
    exact Record.writtenBack_overrun _ w c

/-- A write-back that posts `m` leaves the flag it carries cleared (R121, R123). -/
theorem State.writeBackClaim_posts {m : Notice} (outcome : outcomeNotice w c s.records[w.handle.num].overrun = some m)
    (sorted : SortedQueue s.notices.queue) : NoticePosted m s.notices (s.writeBackClaim a w c).notices ∧
    (s.writeBackClaim a w c).records[w.handle.num].overrun = false := by
  refine ⟨?_, ?_⟩
  · rw [State.writeBackClaim_notices, State.postOutcome_posts outcome]
    exact s.post_posted m sorted
  · rw [State.writeBackClaim_records, State.storeProgress_overrun, State.postOutcome_posts outcome, State.setRecord_get]
    exact ite_self _

end

/-- Settles O41: the notice by the end cause and the notice policy. -/
theorem writeBackPostsOutcome : Obligations.WriteBackPostsOutcome := by
  unfold Obligations.WriteBackPostsOutcome
  intro s a w c negated opened work ended sound sorted
  have step : s.writeBackStep = s.writeBackClaim a w c := State.writeBackStep_eq opened work ended sound
  refine ⟨_, answer_event negated step, ?_, ?_, fun notEnd notEach => ?_⟩
  · rintro ⟨rfl, told⟩
    exact State.writeBackClaim_posts (outcomeNotice_exhausted told _) sorted
  · rintro ⟨rfl, each⟩
    exact State.writeBackClaim_posts (outcomeNotice_quantum each _) sorted
  · have silent := State.postOutcome_silent (outcomeNotice_none sound notEnd notEach s.records[w.handle.num].overrun)
    refine ⟨by rw [State.writeBackClaim_notices, silent], fun keeps => ?_⟩
    rw [State.writeBackClaim_records, State.storeProgress_overrun, silent, Working.autoRetires_eq_false keeps]
    rfl

/-! ### What follows -/

section
variable {s : State} {a : Activation} {w : Working} {c : EndCause}

theorem State.storedProgress_activity (s : State) (w : Working) (c : EndCause) :
    ((s.postOutcome w c).storeProgress w c).activity = s.activity := by
  rw [State.storedProgress_shape]

theorem State.storedProgress_port (s : State) (w : Working) (c : EndCause) :
    ((s.postOutcome w c).storeProgress w c).port = s.port := by
  rw [State.storedProgress_shape]

/-- A deferred command waits to be applied afresh (R125). -/
theorem State.writeBackClaim_deferred (deferred : a.deferred ≠ none) :
    (s.writeBackClaim a w c).activation = some { a with work := none } ∧
    (s.writeBackClaim a w c).activity = s.activity ∧ (s.writeBackClaim a w c).port = s.port := by
  obtain ⟨d, held⟩ := Option.ne_none_iff_exists'.mp deferred
  have claim : s.writeBackClaim a w c = { (s.postOutcome w c).storeProgress w c with
      activation := some { a with work := none } } := by
    simp only [State.writeBackClaim, State.afterWriteBack, held]
  rw [claim]
  exact ⟨rfl, s.storedProgress_activity w c, s.storedProgress_port w c⟩

/-- The successor due becomes the link in hand (R128). -/
theorem State.writeBackClaim_links {h : Handle} (going : a.deferred = none) (due : w.dueSuccessor c = some h) :
    (s.writeBackClaim a w c).activation = some { a with
      work := none, link := some { pred := w.handle, urgency := w.edit.urgency, succ := h, stage := .due } } ∧
    (s.writeBackClaim a w c).activity = s.activity ∧ (s.writeBackClaim a w c).port = s.port := by
  have claim : s.writeBackClaim a w c = { (s.postOutcome w c).storeProgress w c with
      activation := some { a with
        work := none, link := some { pred := w.handle, urgency := w.edit.urgency, succ := h, stage := .due } } } := by
    simp only [State.writeBackClaim, State.afterWriteBack, going, due]
  rw [claim]
  exact ⟨rfl, s.storedProgress_activity w c, s.storedProgress_port w c⟩

/-- Else the activation ends. -/
theorem State.writeBackClaim_ends (going : a.deferred = none) (noLink : w.dueSuccessor c = none) :
    s.ActivationEnds (s.writeBackClaim a w c) := by
  have claim : s.writeBackClaim a w c = ((s.postOutcome w c).storeProgress w c).endActivation := by
    simp only [State.writeBackClaim, State.afterWriteBack, going, noLink]
  have ends := ((s.postOutcome w c).storeProgress w c).endActivation_ends
  unfold State.ActivationEnds at ends ⊢
  rw [claim]
  rw [State.storedProgress_port] at ends
  exact ends

theorem Working.dueSuccessor_matches {x : Successor} (successor : w.edit.successor = some x)
    (due : conditionMatches x.condition c = true) : w.dueSuccessor c = some x.handle := by
  simp only [Working.dueSuccessor, successor, Condition.due_eq, due, if_true]

theorem Working.dueSuccessor_none (noMatch : ∀ x ∈ w.edit.successor, conditionMatches x.condition c = false) :
    w.dueSuccessor c = none := by
  cases successor : w.edit.successor with
  | none => simp only [Working.dueSuccessor, successor]
  | some x =>
    simp only [Working.dueSuccessor, successor, Condition.due_eq, noMatch x successor, Bool.false_eq_true, if_false]

end

/-- Settles O42: what follows by the deferred command and the successor due. -/
theorem writeBackContinues : Obligations.WriteBackContinues := by
  unfold Obligations.WriteBackContinues
  intro s a w c negated opened work ended sound
  have step : s.writeBackStep = s.writeBackClaim a w c := State.writeBackStep_eq opened work ended sound
  exact ⟨_, answer_event negated step, fun deferred => State.writeBackClaim_deferred deferred,
    fun going x successor due => State.writeBackClaim_links going (Working.dueSuccessor_matches successor due),
    fun going noMatch => State.writeBackClaim_ends going (Working.dueSuccessor_none noMatch)⟩

/-- Settles O43: the record left FAULTED, its notice, and what follows, where no successor is due. -/
theorem faultWriteBackLeavesFaulted : Obligations.FaultWriteBackLeavesFaulted := by
  unfold Obligations.FaultWriteBackLeavesFaulted
  intro s a w cause addr negated opened work ended sorted
  have step : s.faultWriteBackStep = s.writeBackClaim a w (.fault cause addr) :=
    State.faultWriteBackStep_eq opened work ended rfl
  have outcome : outcomeNotice w (.fault cause addr) s.records[w.handle.num].overrun =
      some ⟨w.handle, w.edit.urgency, .fault s.records[w.handle.num].overrun w.moved ⟨cause, addr⟩⟩ := rfl
  have noMatch : ∀ x ∈ w.edit.successor, conditionMatches x.condition (.fault cause addr) = false := fun x _ => by
    cases x.condition <;> rfl
  refine ⟨_, answer_event negated step, ?_, (State.writeBackClaim_posts outcome sorted).1,
    fun deferred => State.writeBackClaim_deferred deferred,
    fun going => State.writeBackClaim_ends going (Working.dueSuccessor_none noMatch)⟩
  have shape := s.writeBackClaim_shape a w (.fault cause addr)
  have records := s.writeBackClaim_records a w (.fault cause addr)
  have bindings := s.writeBackClaim_bindings a w (.fault cause addr)
  have keeps : w.autoRetires (.fault cause addr) = false := rfl
  have table := (State.storeProgress_record (s := s.postOutcome w (.fault cause addr)) keeps).2
  rw [table, State.postOutcome_bindings] at bindings
  rw [State.storeProgress_notArmed keeps RecState.noConfusion, State.postOutcome_posts outcome, State.setRecord_get,
    State.setRecord_setRecord] at records
  rw [bindings, records] at shape
  exact shape

end Sys2Proof.Machine
end

