-- ==== Sys2Proof/Proofs/NoticesTowardsTheHost.lean ====
section
/-! The notice unit towards the host (chapter 9): takes, peeks, CLOSE and SET_FLOOR. -/

namespace Sys2Proof.Machine

/-! ### The in-service set -/

theorem levelBit_getLsbD : ∀ l m : Urgency, (levelBit l).getLsbD m.val = (m == l) := by decide

/-- A level added to the set (R165). -/
theorem inService_added (inService : Byte) (l m : Urgency) :
    (inService ||| levelBit l).getLsbD m.val = (inService.getLsbD m.val || m == l) := by
  rw [BitVec.getLsbD_or, levelBit_getLsbD]

/-- A level removed from the set (R172). -/
theorem inService_removed (inService : Byte) (l m : Urgency) :
    (inService &&& ~~~(levelBit l)).getLsbD m.val = (inService.getLsbD m.val && m != l) := by
  rw [BitVec.getLsbD_and, BitVec.getLsbD_not, levelBit_getLsbD, decide_eq_true m.isLt, Bool.true_and, bne]

/-! ### A take -/

section
variable {s : State} {n : Notice} {rest : List Notice}

/-- A take of the head (R165). -/
theorem NoticeUnit.taken_head {u : NoticeUnit} (queue : u.queue = n :: rest) : u.taken =
    ({ u.loadHolding with queue := rest, inService := u.inService ||| levelBit n.urgency } : NoticeUnit).evaluate := by
  simp only [NoticeUnit.taken, queue]

/-- After a take of the head nothing left in the queue is more urgent than every level in service (R177). -/
theorem NoticeUnit.taken_note {u : NoticeUnit} (queue : u.queue = n :: rest) (sorted : SortedQueue u.queue) :
    u.taken.note = false := by
  rw [NoticeUnit.taken_head queue]
  rw [queue] at sorted
  have sortedRest : SortedQueue rest := sorted.of_cons
  refine Bool.eq_false_iff.mpr fun note => ?_
  obtain ⟨m, mem, _, urgent⟩ := (NoticeUnit.evaluate_exact (u := { u.loadHolding with
    queue := rest, inService := u.inService ||| levelBit n.urgency }) sortedRest).2.mp note
  have inService : (u.inService ||| levelBit n.urgency).getLsbD n.urgency.val = true := by
    rw [inService_added, beq_self_eq_true, Bool.or_true]
  exact absurd (urgent n.urgency inService) (not_lt.mpr (List.rel_of_pairwise_cons sorted mem))

theorem State.endStall_shape (s : State) :
    s.endStall = { s with activity := s.endStall.activity, activation := s.endStall.activation } := by
  unfold State.endStall
  split
  · split <;> rfl
  · conv_lhs => rw [State.settleActivity_eq]
    rw [State.settleActivity_activation]

theorem State.takeClaim_head (queue : s.notices.queue = n :: rest) :
    s.takeClaim = ({ s with notices := s.notices.taken } : State).endStall := by
  simp only [State.takeClaim, queue]

/-- A read of NTAKE by either lane, with a notice queued (R165). -/
theorem exec_take_head (listens : s.Listens) {lanes : Lanes} (carried : lanes.low = true ∨ lanes.high = true)
    (queue : s.notices.queue = n :: rest) : exec (.take ⟨0x34, lanes⟩) s =
      .next ({ s.answerAccess (some s.notices.headWord) with notices := s.notices.taken } : State).endStall := by
  rw [exec_take_of_listens listens, State.readWindow_ntake, readClaim_ntake, if_pos (Bool.or_eq_true_iff.mpr carried)]
  exact congrArg Host.Outcome.next (State.takeClaim_head (s := s.answerAccess (some s.notices.headWord)) queue)

end

/-- Settles O45: the head read and taken; NOTE_n falls, for its level is now in service. -/
theorem takeRemovesTheHead : Obligations.TakeRemovesTheHead := by
  unfold Obligations.TakeRemovesTheHead
  intro s lanes n rest listens carried queue sorted
  have run := exec_take_head listens carried queue
  have shape := State.endStall_shape { s.answerAccess (some s.notices.headWord) with notices := s.notices.taken }
  generalize ({ s.answerAccess (some s.notices.headWord) with notices := s.notices.taken } : State).endStall = t
    at run shape
  have notices : t.notices = s.notices.taken := by rw [shape]
  have word : FirstWordOf s.notices.headWord n := by
    rw [NoticeUnit.headWord, queue]
    exact n.firstWord_word
  refine ⟨t, s.notices.headWord, run, word, ?_⟩
  rw [notices]
  refine ⟨?_, ?_, ?_, NoticeUnit.taken_note queue sorted, fun l => ?_, shape⟩
  · rw [NoticeUnit.taken_head queue]
    exact NoticeUnit.loadHolding_holds queue
  · rw [NoticeUnit.taken_head queue]
    rfl
  · rw [NoticeUnit.taken_head queue]
    exact s.notices.loadHolding_floor
  · rw [NoticeUnit.taken_head queue]
    exact inService_added _ _ _

section
variable {s : State} {a : Activation} {l : Link}

/-- With no link waiting a take can end a head wait only (R164). -/
theorem State.endStall_noLink (noLink : s.linkAt .waiting = none) : s.endStall = s.settleActivity := by
  rw [State.endStall, noLink]

theorem State.linkAt_notWaiting (opened : s.activation = some a) (running : a.inLinkWait = false) :
    s.linkAt .waiting = none := by
  cases found : s.linkAt .waiting with
  | none => rfl
  | some p =>
    obtain ⟨b, l⟩ := p
    obtain ⟨opened', link, waits⟩ := State.linkAt_eq_some found
    obtain rfl := Option.some.inj (opened.symm.trans opened')
    simp [Activation.inLinkWait, link, waits] at running

/-- The end of a link wait (R133, R164). -/
theorem State.endStall_link (waits : s.linkAt .waiting = some (a, l)) : s.endStall =
    if s.noticeRoom then
      { s with activity := .running, activation := some { a with link := some { l with stage := .due } } }
    else s := by
  rw [State.endStall, waits]

end

/-- Settles O46: the end of a stall by the link in hand, or by the head wait's condition. -/
theorem takeEndsAStall : Obligations.TakeEndsAStall := by
  unfold Obligations.TakeEndsAStall
  intro s lanes n rest listens carried queue
  refine ⟨_, exec_take_head listens carried queue, ?_⟩
  have left : s.notices.taken.queue = rest := by
    rw [NoticeUnit.taken_head queue]
    rfl
  generalize taken : ({ s.answerAccess (some s.notices.headWord) with notices := s.notices.taken } : State) = t
  have activation : t.activation = s.activation := by rw [← taken]; rfl
  have activity : t.activity = s.activity := by rw [← taken]; rfl
  have enable : t.enable = s.enable := by rw [← taken]; rfl
  have records : t.records = s.records := by rw [← taken]; rfl
  have length : t.notices.queue.length = rest.length := by rw [← taken, ← left]
  refine ⟨fun a opened running => ?_, fun a opened l link waits => ⟨fun room => ?_, fun full => ?_⟩, fun closed => ?_⟩
  · have opened' : t.activation = some a := activation.trans opened
    rw [State.endStall_noLink (State.linkAt_notWaiting opened' running)]
    exact ⟨(t.settleActivity_settles.1 (by rw [opened']; exact Option.some_ne_none a)).trans activity,
      by rw [State.settleActivity_activation, activation]⟩
  · rw [State.endStall_link (State.linkAt_eq (activation.trans opened) link waits),
      if_pos ((State.noticeRoom_iff t).mpr (length ▸ room))]
    exact ⟨rfl, rfl⟩
  · rw [State.endStall_link (State.linkAt_eq (activation.trans opened) link waits),
      if_neg (Bool.eq_false_iff.mp ((State.noticeRoom_false_iff t).mpr (length ▸ full)))]
    exact ⟨activity, activation⟩
  · have closed' : t.activation = none := activation.trans closed
    rw [State.endStall_noLink (State.linkAt_closed closed' .waiting)]
    have settled := t.settleActivity_settles.2 (by rw [State.settleActivity_activation, closed'])
    rw [State.HeadWaitCondition, State.settleActivity_enable, State.settleActivity_records,
      State.settleActivity_notices, enable, records, length] at settled
    refine ⟨by rw [State.settleActivity_activation, closed'], fun room => settled.2 fun waits => ?_,
      fun exact_ stalled full => settled.1 ?_⟩
    · exact absurd waits.2.2 (not_lt.mpr room)
    · have waited : s.HeadWaitCondition := by
        by_contra other
        exact absurd (stalled.symm.trans ((exact_ closed).2 other)) Activity.noConfusion
      exact ⟨waited.1, waited.2.1, full⟩

/-! ### A peek -/

/-- NPEEK reads as the first notice word (R167). -/
theorem State.readWindow_npeek (s : State) : s.readWindow 0x36 = s.notices.headWord := by
  simp [State.readWindow]

/-- Both reads of the statement are peeks (R167, log 8). -/
theorem exec_peek {s : State} (listens : s.Listens) {i : Instr}
    (row : i ∈ [Instr.npeekRead, .take ⟨0x34, ⟨false, false⟩⟩]) :
    exec i s = .next (s.answerAccess (some s.notices.headWord)).peekClaim := by
  simp only [List.mem_cons, List.not_mem_nil, or_false] at row
  rcases row with rfl | rfl
  · have served := State.slaveAccess_served listens (some (s.readWindow 0x36)) (readClaim ⟨0x36, .both⟩)
    rw [State.readWindow_npeek] at served
    exact congrArg Host.Outcome.next (Eq.trans (by rw [← State.readWindow_npeek]; rfl) served)
  · rw [exec_take_of_listens listens, State.readWindow_ntake, readClaim_ntake]
    rfl

/-- Settles O48: a peek loads the holding registers and nothing else. -/
theorem peekLoadsHoldingRegisters : Obligations.PeekLoadsHoldingRegisters := by
  unfold Obligations.PeekLoadsHoldingRegisters
  intro i row s listens
  have run := exec_peek listens row
  refine ⟨fun empty => ?_, fun n rest queue => ?_⟩
  · rw [run, State.peekClaim_empty (s := s.answerAccess (some s.notices.headWord)) empty,
      NoticeUnit.headWord_empty empty]
    rfl
  · have word : FirstWordOf s.notices.headWord n := by
      rw [NoticeUnit.headWord, queue]
      exact n.firstWord_word
    have loaded : s.notices.loadHolding = { s.notices with
        nhHandle := s.notices.loadHolding.nhHandle, nhUnits := s.notices.loadHolding.nhUnits
        nhAux := s.notices.loadHolding.nhAux, nhAddrL := s.notices.loadHolding.nhAddrL } := by
      simp only [NoticeUnit.loadHolding, queue]
    refine ⟨_, s.notices.headWord, run, word, NoticeUnit.loadHolding_holds queue, ?_⟩
    rw [State.peekClaim]
    conv_lhs => rw [show (s.answerAccess (some s.notices.headWord)).notices = s.notices from rfl, loaded]
    rfl

/-! ### CLOSE and SET_FLOOR -/

/-- The level CLOSE names: a present one by its number, or the most urgent (R172, R173). -/
theorem levelNamed_present {inService : Byte} {w : Word} {l : Urgency} (present : inService.getLsbD l.val = true)
    (named : w.toNat = l.val ∨
      (w.toNat = 8 ∧ ∀ m : Urgency, inService.getLsbD m.val = true → l ≤ m)) :
    levelNamed inService w = some l := by
  rcases named with number | ⟨eight, lowest⟩
  · have lt := l.isLt
    have other : w ≠ 8 := fun eight => by
      rw [eight] at number
      exact absurd number (by change (8 : Nat) ≠ l.val; omega)
    rw [levelNamed, if_neg other]
    refine finRange_find?_of_lowest (by simp [number, present]) fun m holds => ?_
    have same : m.val = w.toNat := by simpa using (Bool.and_eq_true_iff.mp holds).1
    exact Fin.le_def.mpr (by omega)
  · rw [levelNamed, if_pos (BitVec.eq_of_toNat_eq eight)]
    exact finRange_find?_of_lowest present lowest

theorem levelNamed_absent {inService : Byte} {w : Word}
    (absent : ∀ l : Urgency, w.toNat = l.val ∨ w.toNat = 8 → inService.getLsbD l.val = false) :
    levelNamed inService w = none := by
  unfold levelNamed
  split
  next eight =>
    exact List.find?_eq_none.mpr fun l _ present =>
      Bool.noConfusion ((absent l (.inr (by rw [eight]; rfl))).symm.trans present)
  next =>
    refine List.find?_eq_none.mpr fun l _ holds => ?_
    obtain ⟨number, present⟩ := Bool.and_eq_true_iff.mp holds
    exact Bool.noConfusion ((absent l (.inl (beq_iff_eq.mp number).symm)).symm.trans present)

section
variable {s : State}

theorem State.closeClaim_outOfRange (out : 9 ≤ s.arg0.toNat) : s.closeClaim = s.complete codeClose (.bare .range) :=
  if_pos (by omega)

theorem State.closeClaim_absent (inRange : s.arg0.toNat ≤ 8) (absent : levelNamed s.notices.inService s.arg0 = none) :
    s.closeClaim = s.complete codeClose ⟨.notInService, 0, setWord s.notices.inService⟩ := by
  rw [State.closeClaim, if_neg (by omega), absent]

theorem State.closeClaim_present {l : Urgency} (inRange : s.arg0.toNat ≤ 8)
    (present : levelNamed s.notices.inService s.arg0 = some l) : s.closeClaim =
      ({ s with notices := s.notices.closed l } : State).complete codeClose
        ⟨.ok, BitVec.ofNat 16 l.val, setWord (s.notices.closed l).inService⟩ := by
  rw [State.closeClaim, if_neg (by omega), present]

theorem floorArg_of_num {w : Word} {f : Fin 9} (num : w.toNat = f.val) : floorArg w = some f := by
  have lt := f.isLt
  rw [floorArg, dif_pos (by omega)]
  exact congrArg some (Fin.ext num)

theorem floorArg_outOfRange {w : Word} (out : 9 ≤ w.toNat) : floorArg w = none := dif_neg (by omega)

end

/-- Settles O49: CLOSE by the level its argument names, SET_FLOOR by its argument. -/
theorem closeAndSetFloor : Obligations.CloseAndSetFloor := by
  unfold Obligations.CloseAndSetFloor
  refine ⟨fun s serves sorted => ?_, fun s serves sorted => ?_⟩
  · have run : exec .close s = .next (s.served codeClose).closeClaim := answer_command serves State.closeClaim
    refine ⟨fun out => run.trans (congrArg Host.Outcome.next ?_), fun l present named => ⟨_, run, ?_⟩,
      fun absent inRange => run.trans (congrArg Host.Outcome.next ?_)⟩
    · rw [State.closeClaim_outOfRange (s := s.served codeClose) out]
      exact State.served_complete s codeClose _
    · have lt := l.isLt
      have inRange : s.givenArgs.a0.toNat ≤ 8 := by
        rcases named with number | ⟨eight, _⟩
        · omega
        · omega
      rw [State.closeClaim_present (s := s.served codeClose) inRange (levelNamed_present present named)]
      exact ⟨NoticeUnit.evaluate_exact sorted, rfl, fun m => inService_removed _ _ _⟩
    · rw [State.closeClaim_absent (s := s.served codeClose) inRange (levelNamed_absent absent)]
      exact State.served_complete s codeClose _
  · have run : exec .setFloor s = .next (s.served codeSetFloor).setFloorClaim :=
      answer_command serves State.setFloorClaim
    refine ⟨fun out => run.trans (congrArg Host.Outcome.next ?_), fun f num => ⟨_, run, ?_⟩⟩
    · rw [State.setFloorClaim, State.served_arg0, floorArg_outOfRange out]
      exact State.served_complete s codeSetFloor _
    · rw [State.setFloorClaim, State.served_arg0, floorArg_of_num num]
      exact ⟨NoticeUnit.evaluate_exact (u := { s.notices with floor := f }) sorted, rfl⟩

end Sys2Proof.Machine
end
